-- ==== Sys2Proof/Word.lean ====
section
/-! DEFINITION. The widths the spec uses (R8): bytes, 16-bit descriptor fields, 32-bit registers and command words. -/

namespace Sys2Proof

/-- A byte (R8). -/
abbrev Byte := BitVec 8

/-- A 16-bit descriptor field, or the IMM field of a command word (R91, R95, R110). -/
abbrev Half := BitVec 16

/-- A register value or a command word (R8, R22, R110). -/
abbrev Word := BitVec 32

end Sys2Proof
end

