-- ==== Sys2Proof/Config.lean ====
section
/-! DEFINITION. The parameters of 00_scope.md R6, and the free values: opaque constants that nothing in Lean can evaluate. -/

namespace Sys2Proof

/-- POSTED_ORDER: the order in which one agent's posted writes become visible (R6, R68). -/
inductive PostedOrder where
  | any | fifo | sc
  deriving DecidableEq, Repr, Inhabited

/-- The parameters of R6 that are plain data. A machine state carries one such record, which no step changes
(log entry 4), so a statement about every state is a statement about every value of the parameters. -/
structure Config where
  /-- N_RX, the receive ring depth. -/
  nRx : Nat
  /-- N_TX, the transmit ring depth. -/
  nTx : Nat
  /-- RX_BUF_SIZE, bytes in a receive buffer slot. -/
  rxBufSize : Nat
  /-- TX_BUF_SIZE, bytes in a transmit buffer slot. -/
  txBufSize : Nat
  /-- ACC_CAP, the accumulator's capacity. -/
  accCap : Nat
  /-- MTU_LEN, the configured maximum transmission unit. -/
  mtuLen : Nat
  /-- IMS_INIT, the interrupt mask ATTACH writes. -/
  imsInit : Word
  /-- POSTED_ORDER. -/
  postedOrder : PostedOrder
  /-- MMIO_DRAINS: a register write first waits for the writer's posted writes. -/
  mmioDrains : Bool
  /-- SHARED_LINE: IRQ_TOP may run when the device's line is not asserted. -/
  sharedLine : Bool
  /-- IRQ_ZERO_HANDLED: the result of IRQ_TOP when the cause read is 0. -/
  irqZeroHandled : Bool
  /-- TX_INIT_STATUS, the status ATTACH writes to each transmit descriptor. -/
  txInitStatus : Byte
  /-- TX_KEEP_ONE_FREE: TX_SUBMIT refuses the last free slot. -/
  txKeepOneFree : Bool
  /-- RESET_POLL_MAX, the bound of the reset poll. -/
  resetPollMax : Nat
  /-- N_TXC, the number of transmit callers. -/
  nTxc : Nat
  /-- DMA_ALIGN, the alignment of every coherent allocation. -/
  dmaAlign : Nat
  deriving DecidableEq, Repr, Inhabited

/-- DESC_SIZE (R6). -/
def descSize : Nat := 16

/-- TX_MAX_LEN = min(MTU_LEN, TX_BUF_SIZE) (R6). -/
def Config.txMaxLen (c : Config) : Nat := min c.mtuLen c.txBufSize

/-- The constraint of R6 and R131 on a ring depth: a multiple of 8, at least 8, at most 0xFFF80 bytes of descriptors. -/
def depthOk (n : Nat) : Bool := n % 8 == 0 && decide (8 ≤ n) && decide (n * descSize ≤ 0xFFF80)

/-- The constraints of R6 (the "constraint" column), with N_TXC at most 0xF0 (R111). R131: a configuration that fails
the check is refused as a whole. -/
def Config.valid (c : Config) : Bool :=
  depthOk c.nRx && depthOk c.nTx
    && decide (1 ≤ c.rxBufSize) && decide (c.rxBufSize ≤ 65535)
    && decide (1 ≤ c.txBufSize) && decide (c.txBufSize ≤ 65535)
    && decide (1 ≤ c.accCap) && decide (1 ≤ c.mtuLen) && decide (1 ≤ c.resetPollMax)
    && decide (1 ≤ c.nTxc) && decide (c.nTxc ≤ 0xF0)
    && decide (128 ≤ c.dmaAlign) && c.dmaAlign == 2 ^ Nat.log2 c.dmaAlign

/-- DESIGN CHOICE (log entry 4), unsafe: the parameter values State.reset carries, those of 95_test_vectors.md section 1.1. The spec
leaves most of them OPEN; no statement rests on these values. -/
def Config.standard : Config where
  nRx := 8
  nTx := 8
  rxBufSize := 2048
  txBufSize := 2048
  accCap := 8192
  mtuLen := 1514
  imsInit := 0x000000C1
  postedOrder := .any
  mmioDrains := false
  sharedLine := true
  irqZeroHandled := false
  txInitStatus := 0x01
  txKeepOneFree := false
  resetPollMax := 4
  nTxc := 2
  dmaAlign := 128

/-- CSUM_HINT (R6, R169): an uninterpreted total function of the EOP descriptor's status and errors bytes (log entry 10). -/
opaque Config.csumHint : Byte → Byte → Bool

/-- PROTO (R6, R169): an uninterpreted total function of the frame bytes; its opaque result is carried as a natural number
(log entry 10). -/
opaque Config.proto : List Byte → Nat

/-- IFACE (R6, R169): the opaque identity of the owning interface (log entry 10). -/
opaque Config.iface : Nat

/-- FREE VALUE (R45): what a read of a coherent byte that nothing has written returns, one draw for each value of the
model's draw counter (log entry 9). -/
opaque Config.freeByte : Nat → Byte

/-- FREE VALUE of 32 bits: a device-reset draw that the command word leaves out (R293, log entry 21); a head that DEV moves on in a ring
whose length register names no descriptor, for which the spec states no result (R9, R282, R288, log entry 16). -/
opaque Config.freeWord : Nat → Word

/-- FREE VALUE (R47): the allocator's answer, ok or fail, to a request made under a trace-record word, which carries no
draws (log entry 3). -/
opaque Config.freeAnswer : Nat → Bool

end Sys2Proof
end

