-- ==== Sys2Proof/Machine/Bytes.lean ====
section
/-! DEFINITION. Byte order and bit fields: the helpers every encoding uses (R8, R63, R110). -/

namespace Sys2Proof.Machine

/-- The `n` low bytes of `v`, least significant first (R63). -/
def leBytes : Nat → Nat → List Byte
  | 0, _ => []
  | n + 1, v => BitVec.ofNat 8 v :: leBytes n (v / 256)

/-- The value of a little-endian byte list (R63). -/
def ofLeBytes : List Byte → Nat
  | [] => 0
  | b :: bs => b.toNat + 256 * ofLeBytes bs

/-- Whether a list has exactly `n` elements. It goes down the list and never builds a count, so that the kernel can run it
on a long frame. -/
def hasLength {α : Type} : List α → Nat → Bool
  | [], n => n == 0
  | _ :: _, 0 => false
  | _ :: xs, n + 1 => hasLength xs n

/-- `v[15:0]` as a natural number (R8). -/
def low16 (v : Word) : Nat := v.toNat % 2 ^ 16

/-- `v[31:16]` as a natural number (R8). -/
def high16 (v : Word) : Nat := v.toNat / 2 ^ 16

/-- The 32-bit value of an index or a length (R8, `zext_32`). -/
def toWord (n : Nat) : Word := BitVec.ofNat 32 n

end Sys2Proof.Machine
end

