-- ==== Sys2Proof/Syntax.lean ====
section
/-! DEFINITION. The agents, the out-of-band operands and the eighteen operations of the block: one constructor of Instr for
each row of spec/opcode_table.json. -/

namespace Sys2Proof

/-- The agents of R1. -/
inductive Agent where
  | host
  | irq
  | bh
  | dev
  | memsys
  /-- TXC[k]. -/
  | txc (k : Nat)
  deriving DecidableEq, Repr, Inhabited

/-- The device's draws of DEV_RX_WB (R113, R284). -/
structure WbDraws where
  csum : Half
  xsta : Byte
  err : Byte
  special : Half
  deriving DecidableEq, Repr, Inhabited

/-- The draws of DEV_RST_DONE (R293): CTRL (bit 26 of the draw is not used) and the four base registers. -/
structure RstDraws where
  ctrl : Word
  rdbal : Word
  rdbah : Word
  tdbal : Word
  tdbah : Word
  deriving DecidableEq, Repr, Inhabited

/-- The out-of-band operand that travels with a command word (R110, R113). -/
inductive Oob where
  /-- No operand. -/
  | none
  /-- A byte list: the frame of TX_SUBMIT or DEV_WIRE_IN. -/
  | bytes (frame : List Byte)
  /-- A 32-bit value: of REG_WR, or the cause word of DEV_CAUSE. -/
  | word (v : Word)
  /-- The draws of DEV_RX_WB. -/
  | wb (d : WbDraws)
  /-- The draws of DEV_RST_DONE. -/
  | rst (d : RstDraws)
  deriving DecidableEq, Repr, Inhabited

/-- The operations of the block (R114), with their operands assembled as R116 says. -/
inductive Instr where
  /-- IRQ_TOP (R230). -/
  | irqTop
  /-- BH_SCHED (R232), asked for by agent `x`. -/
  | bhSched (x : Agent)
  /-- BH_RUN (R233). -/
  | bhRun
  /-- RX_RUN (R160). -/
  | rxRun
  /-- TX_SUBMIT(k, frame) (R200). -/
  | txSubmit (k : Nat) (len : Half) (frame : List Byte)
  /-- REG_RD (R251) by agent `x` at byte offset `off`. -/
  | regRd (x : Agent) (off : Half)
  /-- REG_WR (R256) by agent `x` of value `v` at byte offset `off`. -/
  | regWr (x : Agent) (off : Half) (v : Word)
  /-- WMB (R262) by agent `x`. -/
  | wmb (x : Agent)
  /-- MEM_DRAIN (R263) of the entry of W[x] at position `pos`. -/
  | memDrain (x : Agent) (pos : Half)
  /-- DEV_RX_CLAIM (R282). -/
  | devRxClaim
  /-- DEV_RX_WB (R284). -/
  | devRxWb (d : WbDraws)
  /-- DEV_TX_XMIT (R288). -/
  | devTxXmit
  /-- DEV_CAUSE (R291). -/
  | devCause (c : Word)
  /-- DEV_RST_DONE (R293); `none` where the word came without its draws (log entry 21). -/
  | devRstDone (d : Option RstDraws)
  /-- DEV_WIRE_IN (R280). -/
  | devWireIn (len : Half) (frame : List Byte)
  /-- DEV_RX_DROP (R286). -/
  | devRxDrop
  /-- ATTACH (R310). -/
  | attach
  /-- DETACH (R320). -/
  | detach
  deriving DecidableEq, Repr, Inhabited

end Sys2Proof
end

