-- ==== Sys2Proof/WellFormed.lean ====
section
/-! DEFINITION. Which operations a command word can spell: the agent of each row (R114), the callers that exist (R111), the length of a
frame (R113). -/

namespace Sys2Proof

/-- The agent tag names a transmit caller: 0x10 + k with k < N_TXC <= 0xF0 (R111). -/
def callerOk (nTxc k : Nat) : Bool := decide (k < nTxc) && decide (k < 0xF0)

/-- The engine agents, which use both address spaces and post writes (R61, R36). -/
def Agent.isEngine (nTxc : Nat) : Agent → Bool
  | .host => true
  | .irq => true
  | .bh => true
  | .dev => false
  | .memsys => false
  | .txc k => callerOk nTxc k

/-- The agents a BH_SCHED word may carry (R114). -/
def Agent.maySchedule : Agent → Bool
  | .host => true
  | .irq => true
  | .bh => false
  | .dev => false
  | .memsys => false
  | .txc _ => false

/-- An operation that some command word with its out-of-band operand spells (R111 to R114), for N_TXC = `nTxc`. -/
def Instr.wellFormed (nTxc : Nat) : Instr → Bool
  | .irqTop => true
  | .bhSched x => x.maySchedule
  | .bhRun => true
  | .rxRun => true
  | .txSubmit k len frame => callerOk nTxc k && frame.length == len.toNat
  | .regRd x _ => x.isEngine nTxc
  | .regWr x _ _ => x.isEngine nTxc
  | .wmb x => x.isEngine nTxc
  | .memDrain x _ => x.isEngine nTxc
  | .devRxClaim => true
  | .devRxWb _ => true
  | .devTxXmit => true
  | .devCause _ => true
  | .devRstDone _ => true
  | .devWireIn len frame => frame.length == len.toNat
  | .devRxDrop => true
  | .attach => true
  | .detach => true

end Sys2Proof
end

