-- ==== Sys2Proof/Decode.lean ====
section
/-! DEFINITION. The command word (30_encoding.md R110 to R119): the opcode map, the decoder and the encoder. -/

namespace Sys2Proof

open Machine (leBytes ofLeBytes hasLength)

/-- The rows of R114 by name. -/
inductive Op where
  | irqTop | bhSched | bhRun | rxRun | txSubmit | regRd | regWr | wmb | memDrain
  | devRxClaim | devRxWb | devTxXmit | devCause | devRstDone | devWireIn | devRxDrop
  | attach | detach
  deriving DecidableEq, Repr

/-- The "AG allowed" column of R114. -/
inductive AgRule where
  /-- Only this agent. -/
  | only (x : Agent)
  /-- 0x00 or 0x01. -/
  | hostOrIrq
  /-- 0x10 + k. -/
  | caller
  /-- 0x00, 0x01, 0x02 or 0x10 + k. -/
  | engine
  deriving DecidableEq, Repr

/-- Whether a row admits the agent a tag names. -/
def AgRule.allows (nTxc : Nat) : AgRule → Agent → Bool
  | .only y, x => x == y
  | .hostOrIrq, x => x.maySchedule
  | .caller, .txc k => callerOk nTxc k
  | .caller, _ => false
  | .engine, x => x.isEngine nTxc

/-- One row of the opcode map R114: OPC, the operation, the agents, and whether IMM must be 0. -/
structure Row where
  opc : Nat
  op : Op
  ags : AgRule
  immZero : Bool
  deriving DecidableEq, Repr

/-- The opcode map R114, row by row. -/
def opcodeMap : List Row :=
  [ ⟨0x01, .irqTop, .only .irq, true⟩,
    ⟨0x02, .bhSched, .hostOrIrq, true⟩,
    ⟨0x03, .bhRun, .only .bh, true⟩,
    ⟨0x10, .rxRun, .only .bh, true⟩,
    ⟨0x20, .txSubmit, .caller, false⟩,
    ⟨0x30, .regRd, .engine, false⟩,
    ⟨0x31, .regWr, .engine, false⟩,
    ⟨0x32, .wmb, .engine, true⟩,
    ⟨0x33, .memDrain, .engine, false⟩,
    ⟨0x40, .devRxClaim, .only .dev, true⟩,
    ⟨0x41, .devRxWb, .only .dev, true⟩,
    ⟨0x42, .devTxXmit, .only .dev, true⟩,
    ⟨0x43, .devCause, .only .dev, true⟩,
    ⟨0x44, .devRstDone, .only .dev, true⟩,
    ⟨0x45, .devWireIn, .only .dev, false⟩,
    ⟨0x46, .devRxDrop, .only .dev, true⟩,
    ⟨0x50, .attach, .only .host, true⟩,
    ⟨0x51, .detach, .only .host, true⟩ ]

/-- The row of an OPC value, if it is not reserved (R115, R117). -/
def findRow (opc : Nat) : Option Row := opcodeMap.find? fun r => r.opc == opc

/-- The agent an AG value names (R111). -/
def agentOfTag (nTxc ag : Nat) : Option Agent :=
  if ag == 0x00 then some .host
  else if ag == 0x01 then some .irq
  else if ag == 0x02 then some .bh
  else if ag == 0x03 then some .dev
  else if ag == 0x04 then some .memsys
  else if decide (0x10 ≤ ag) && callerOk nTxc (ag - 0x10) then some (.txc (ag - 0x10))
  else none

/-- The AG value of an agent (R111). -/
def Agent.tag : Agent → Nat
  | .host => 0x00
  | .irq => 0x01
  | .bh => 0x02
  | .dev => 0x03
  | .memsys => 0x04
  | .txc k => 0x10 + k

/-- The draws that R284 gives a DEV_RX_WB whose draws are omitted: "Omitted draws are 0". -/
def WbDraws.zero : WbDraws := ⟨0, 0, 0, 0⟩

/-- Operand assembly (R113, R115, R116): the operation of a row with its agent, its IMM and its out-of-band operand; `none` where
the out-of-band operand is missing or of the wrong length. DESIGN CHOICE (log entry 35): where DEV_RST_DONE, which R113 does not list, or
DEV_RX_WB travels with an operand of another kind than its draws, the word is refused; R113 does not say. -/
def assemble (op : Op) (x : Agent) (imm : Nat) (oob : Oob) : Option Instr :=
  match op with
  | .irqTop => some .irqTop
  | .bhSched => some (.bhSched x)
  | .bhRun => some .bhRun
  | .rxRun => some .rxRun
  | .txSubmit =>
    match x, oob with
    | .txc k, .bytes frame =>
      if hasLength frame imm then some (.txSubmit k (BitVec.ofNat 16 imm) frame) else none
    | _, _ => none
  | .regRd => some (.regRd x (BitVec.ofNat 16 imm))
  | .regWr =>
    match oob with
    | .word v => some (.regWr x (BitVec.ofNat 16 imm) v)
    | _ => none
  | .wmb => some (.wmb x)
  | .memDrain => some (.memDrain x (BitVec.ofNat 16 imm))
  | .devRxClaim => some .devRxClaim
  | .devRxWb =>
    match oob with
    | .wb d => some (.devRxWb d)
    | .none => some (.devRxWb WbDraws.zero)
    | _ => none
  | .devTxXmit => some .devTxXmit
  | .devCause =>
    match oob with
    | .word c => some (.devCause c)
    | _ => none
  | .devRstDone =>
    match oob with
    | .rst d => some (.devRstDone (some d))
    | .none => some (.devRstDone none)
    | _ => none
  | .devWireIn =>
    match oob with
    | .bytes frame =>
      if hasLength frame imm then some (.devWireIn (BitVec.ofNat 16 imm) frame) else none
    | _ => none
  | .devRxDrop => some .devRxDrop
  | .attach => some .attach
  | .detach => some .detach

/-- Decoding a word (R115), for N_TXC = `nTxc`. -/
def decodeWord (nTxc : Nat) (w : Word) (oob : Oob) : Option Instr :=
  let opc := w.toNat / 2 ^ 24
  let ag := w.toNat / 2 ^ 16 % 2 ^ 8
  let imm := w.toNat % 2 ^ 16
  match findRow opc with
  | none => none
  | some r =>
    match agentOfTag nTxc ag with
    | none => none
    | some x =>
      if !r.ags.allows nTxc x then none
      else if r.immZero && imm != 0 then none
      else assemble r.op x imm oob

/-- Decoding stored bytes: a command word is four bytes, little-endian, and "there is no other length" (R110, R118). -/
def decode (nTxc : Nat) (cmd : List Byte) (oob : Oob) : Option Instr :=
  match cmd with
  | [b0, b1, b2, b3] => decodeWord nTxc (BitVec.ofNat 32 (ofLeBytes [b0, b1, b2, b3])) oob
  | _ => none

/-- The command word of fields OPC, AG, IMM (R110). -/
def wordOf (opc ag imm : Nat) : Word := BitVec.ofNat 32 (opc * 2 ^ 24 + ag * 2 ^ 16 + imm)

/-- The command word of an operation (R110, R114). -/
def encodeWord : Instr → Word
  | .irqTop => wordOf 0x01 Agent.irq.tag 0
  | .bhSched x => wordOf 0x02 x.tag 0
  | .bhRun => wordOf 0x03 Agent.bh.tag 0
  | .rxRun => wordOf 0x10 Agent.bh.tag 0
  | .txSubmit k len _ => wordOf 0x20 (Agent.txc k).tag len.toNat
  | .regRd x off => wordOf 0x30 x.tag off.toNat
  | .regWr x off _ => wordOf 0x31 x.tag off.toNat
  | .wmb x => wordOf 0x32 x.tag 0
  | .memDrain x pos => wordOf 0x33 x.tag pos.toNat
  | .devRxClaim => wordOf 0x40 Agent.dev.tag 0
  | .devRxWb _ => wordOf 0x41 Agent.dev.tag 0
  | .devTxXmit => wordOf 0x42 Agent.dev.tag 0
  | .devCause _ => wordOf 0x43 Agent.dev.tag 0
  | .devRstDone _ => wordOf 0x44 Agent.dev.tag 0
  | .devWireIn len _ => wordOf 0x45 Agent.dev.tag len.toNat
  | .devRxDrop => wordOf 0x46 Agent.dev.tag 0
  | .attach => wordOf 0x50 Agent.host.tag 0
  | .detach => wordOf 0x51 Agent.host.tag 0

/-- The out-of-band operand of an operation (R113). -/
def encodeOob : Instr → Oob
  | .irqTop => .none
  | .bhSched _ => .none
  | .bhRun => .none
  | .rxRun => .none
  | .txSubmit _ _ frame => .bytes frame
  | .regRd _ _ => .none
  | .regWr _ _ v => .word v
  | .wmb _ => .none
  | .memDrain _ _ => .none
  | .devRxClaim => .none
  | .devRxWb d => .wb d
  | .devTxXmit => .none
  | .devCause c => .word c
  | .devRstDone (some d) => .rst d
  | .devRstDone none => .none
  | .devWireIn _ frame => .bytes frame
  | .devRxDrop => .none
  | .attach => .none
  | .detach => .none

/-- The bytes of a stored command word (R110). -/
def wordBytes (w : Word) : List Byte := leBytes 4 w.toNat

/-- The encoder: the stored command word and its out-of-band operand. -/
def encode (i : Instr) : List Byte × Oob := (wordBytes (encodeWord i), encodeOob i)

/-- The out-of-band operand of zeros that a word asks for: IMM zero bytes for a frame, the value 0, or draws of 0 (R113). -/
def zeroOob (w : Word) : Oob :=
  match findRow (w.toNat / 2 ^ 24) with
  | none => .none
  | some r =>
    match r.op with
    | .txSubmit => .bytes (List.replicate (w.toNat % 2 ^ 16) 0)
    | .devWireIn => .bytes (List.replicate (w.toNat % 2 ^ 16) 0)
    | .regWr => .word 0
    | .devCause => .word 0
    | .devRxWb => .wb WbDraws.zero
    | .devRstDone => .rst ⟨0, 0, 0, 0, 0⟩
    | _ => .none

/-- The command word whose `nbits` low bits are those of `w`, every other bit 0. -/
def tableWord (nbits w : Nat) : Word := BitVec.ofNat 32 (w % 2 ^ nbits)

/-- What the decoder reads from a table word stored in its byte order, with an out-of-band operand of zeros, for the N_TXC of
Config.standard. -/
def decodeTableWord (nbits w : Nat) : Option Instr :=
  decode Config.standard.nTxc (wordBytes (tableWord nbits w)) (zeroOob (tableWord nbits w))

end Sys2Proof
end

