-- ==== Sys2Proof/Machine/State.lean ====
section
/-! DEFINITION. The state of the block and its environment (10_state.md), as plain data, and its value at reset. -/

namespace Sys2Proof.Machine

/-- Why a step can stop the whole machine. The spec's own eleven faults are NOT here: raising one of those is a next state (R342,
`BlockFault`). This one is the situation in which the spec's pseudocode denotes nothing. -/
inductive Fault where
  /-- Raised by RX_COPY, and by RX_EOP of an EOP descriptor, when rx.acc is ABSENT: the pattern `PRESENT(bytes) <- rx.acc` of
  R167 and R168 has no case. Safe (log entry 15): no run from the cold state reaches it. -/
  | accAbsent
  deriving DecidableEq, Repr

/-- Why a step can be refused. -/
inductive Refusal where
  /-- Raised by exec's arm of an instruction that has no meaning yet. Safe. -/
  | notModelled (mnemonic : String)
  /-- Raised by step when the parameters break a constraint of R6: "A configuration that fails the check is refused as a
  whole" (R131). Safe (log entry 5). -/
  | badConfig
  deriving DecidableEq, Repr

/-- `life` (R21). -/
inductive Life where
  | detached | attaching | attached | detaching
  deriving DecidableEq, Repr, Inhabited

/-- The four coherent regions (R25). -/
inductive RegionKind where
  | rxdesc | rxbuf | txdesc | txbuf
  deriving DecidableEq, Repr, Inhabited

/-- The resources of `acquired` (R21). -/
inductive Resource where
  | map
  | region (k : RegionKind)
  | irq
  deriving DecidableEq, Repr, Inhabited

/-- The fourteen registers in scope (R100). -/
inductive RegName where
  | ctrl | icr | ims | imc
  | rdbal | rdbah | rdlen | rdh | rdt
  | tdbal | tdbah | tdlen | tdh | tdt
  deriving DecidableEq, Repr, Inhabited

/-- Read or write, in events and fault records (R46, R341). -/
inductive Dir where
  | read | write
  deriving DecidableEq, Repr, Inhabited

/-- The storage registers of the register file (R22); IMC "is not a storage register". -/
structure Regs where
  ctrl : Word
  icr : Word
  ims : Word
  rdbal : Word
  rdbah : Word
  rdlen : Word
  rdh : Word
  rdt : Word
  tdbal : Word
  tdbah : Word
  tdlen : Word
  tdh : Word
  tdt : Word
  deriving DecidableEq, Repr, Inhabited

/-- A coherent region (R25, R47): whether it is live, its process-local base and its DMA base. The bases of a region that is not live
are what the last allocation left (log entry 8). -/
structure Region where
  live : Bool
  loc : Nat
  dma : Nat
  deriving DecidableEq, Repr, Inhabited

/-- The four regions (R25). -/
structure Regions where
  rxdesc : Region
  rxbuf : Region
  txdesc : Region
  txbuf : Region
  deriving DecidableEq, Repr, Inhabited

/-- Coherent memory: the bytes written since their region was allocated, keyed by DMA address (R62), addresses strictly rising.
An address that is not listed holds no value: a read of it returns a draw (R45, log entry 9). -/
abbrev Memory := List Host.Cell

/-- The canonical form: addresses strictly rising. -/
abbrev Memory.wf (m : Memory) : Prop := m.Pairwise fun p q => p.1 < q.1

/-- An entry of a posted-write list W[a] (R36): a process-local address and bytes. -/
structure Posted where
  addr : Nat
  bytes : List Byte
  deriving DecidableEq, Repr, Inhabited

/-- The pc values of HOST (R29, R310, R313, R320). -/
inductive HostPc where
  | idle
  | aCheck | aMap | aRstRd | aRstWr | aPoll | aLinkRd | aLinkWr
  | aRxdesc | aRxbuf | aTxdesc | aTxbuf | aInitRx | aInitTx | aWmb
  | aRdbal | aRdbah | aRdlen | aRdt | aTdbal | aTdbah | aTdlen | aTdt
  | aState | aIrq | aIms | aEnable | aDone
  | aUnwind | aFailed
  | dCheck | dQuiesce | dImc | dIrqrel | dBh | dBhwait | dTxwait | dAcc | dRel | dDone
  deriving DecidableEq, Repr, Inhabited

/-- The pc values of IRQ (R29). -/
inductive IrqPc where
  | idle | read | sched
  deriving DecidableEq, Repr, Inhabited

/-- The pc values of BH (R29). -/
inductive BhPc where
  | idle | rxSnap | rxTest | rxAlloc | rxAdv | rxDesc | rxCopy | rxEop | rxClear | rxWmb | rxPub | rxExit
  deriving DecidableEq, Repr, Inhabited

/-- The pc values of TXC[k] (R29). -/
inductive TxPc where
  | idle | lenchk | lock | readtail | check | headchk | clrstat | cmd | len | copy | wmb | pub | unlock
  deriving DecidableEq, Repr, Inhabited

/-- The results of ATTACH (R314). -/
inductive AttachResult where
  | ok | failMap | failResetTimeout | failAlloc | failIrq
  deriving DecidableEq, Repr, Inhabited

/-- The draw of D_BH (R320). -/
inductive BhTreat where
  | drain | cancel
  deriving DecidableEq, Repr, Inhabited

/-- HOST: its pc, the working registers of R48 and W[HOST]. -/
structure HostAgent where
  pc : HostPc
  c : Word
  polls : Nat
  result : AttachResult
  cDraw : BhTreat
  posted : List Posted
  deriving DecidableEq, Repr, Inhabited

/-- IRQ: its pc, the registration and irq.v (R35), and W[IRQ]. -/
structure IrqAgent where
  pc : IrqPc
  registered : Bool
  v : Word
  posted : List Posted
  deriving DecidableEq, Repr, Inhabited

/-- BH: its pc, the working registers of R30 (`rx.*`), the accumulator of R31 (`none` is ABSENT), and W[BH]. -/
structure BhAgent where
  pc : BhPc
  tail : Nat
  h : Nat
  n : Nat
  st : Byte
  err : Byte
  len : Half
  acc : Option (List Byte)
  posted : List Posted
  deriving DecidableEq, Repr, Inhabited

/-- TXC[k]: its pc, the working registers of R32 (`tx[k].*`), and W[TXC[k]]. -/
structure TxAgent where
  pc : TxPc
  frame : List Byte
  len : Half
  t : Nat
  posted : List Posted
  deriving DecidableEq, Repr, Inhabited

/-- The coordinator (R34). -/
structure Coord where
  pending : Bool
  running : Bool
  deriving DecidableEq, Repr, Inhabited

/-- An entry of dev.rx_claimed (R37): a slot, the chunk to be placed in it, and whether it ends its frame. -/
structure Claim where
  slot : Nat
  chunk : List Byte
  eop : Bool
  deriving DecidableEq, Repr, Inhabited

/-- The device-internal state (R37); `cur = none` is NONE. -/
structure Dev where
  rxEnabled : Bool
  txEnabled : Bool
  cur : Option (List Byte)
  rxClaimed : List Claim
  resetBusy : Bool
  deriving DecidableEq, Repr, Inhabited

/-- The fault codes of R341. -/
inductive FaultCode where
  | accOverflow | rxLen | indexRange | regUnmapped | regBad | headWrite | regValue
  | notAttached | alreadyAttached | dmaAfterFree | memBad
  deriving DecidableEq, Repr, Inhabited

/-- The operation named in the info of F_NOT_ATTACHED (R341). -/
inductive Misused where
  | txSubmit | bhSched
  deriving DecidableEq, Repr, Inhabited

/-- A fault of the block with the info R341 gives it. -/
inductive BlockFault where
  /-- F_ACC_OVERFLOW: slot rx.tail, bytes held, rx.L. -/
  | accOverflow (slot held len : Nat)
  /-- F_RX_LEN: slot rx.tail, rx.L. -/
  | rxLen (slot len : Nat)
  /-- F_INDEX_RANGE: register offset, 32-bit value. -/
  | indexRange (off : Nat) (v : Word)
  /-- F_REG_UNMAPPED: register offset. -/
  | regUnmapped (off : Nat)
  /-- F_REG_BAD: register offset, read or write. -/
  | regBad (off : Nat) (d : Dir)
  /-- F_HEAD_WRITE: register offset, value. -/
  | headWrite (off : Nat) (v : Word)
  /-- F_REG_VALUE: register offset, value. -/
  | regValue (off : Nat) (v : Word)
  /-- F_NOT_ATTACHED: the operation, life. -/
  | notAttached (op : Misused) (life : Life)
  /-- F_ALREADY_ATTACHED: life. -/
  | alreadyAttached (life : Life)
  /-- F_DMA_AFTER_FREE: DMA address. -/
  | dmaAfterFree (addr : Nat)
  /-- F_MEM_BAD: address. -/
  | memBad (addr : Nat)
  deriving DecidableEq, Repr, Inhabited

/-- The record of a delivered frame (R3, R169). -/
structure Delivered where
  bytes : List Byte
  len : Nat
  csumHint : Bool
  proto : Nat
  iface : Nat
  deriving DecidableEq, Repr, Inhabited

/-- The results of TX_SUBMIT (R214). -/
inductive TxResult where
  | accepted | busy
  deriving DecidableEq, Repr, Inhabited

/-- The drop reasons of TX_SUBMIT (R214). -/
inductive DropReason where
  | oversize | ringFull
  deriving DecidableEq, Repr, Inhabited

/-- The results of IRQ_TOP (R230). -/
inductive IrqResult where
  | notHandled | handled
  deriving DecidableEq, Repr, Inhabited

/-- The events of the history: the twelve of R46, then those of R3's other channel transactions, which R46 does not list (log entry
33). -/
inductive Event where
  | deliver (f : Delivered)
  | txResult (k : Nat) (r : TxResult)
  | txDrop (k : Nat) (reason : DropReason)
  | rxAllocDefer
  | irqResult (r : IrqResult)
  | attachResult (r : AttachResult)
  | reg (x : Agent) (d : Dir) (off : Nat) (v : Word)
  | mem (x : Agent) (d : Dir) (addr : Nat) (bytes : List Byte)
  | visible (x : Agent) (addr : Nat) (bytes : List Byte)
  | wireIn (frame : List Byte)
  | wireOut (frame : List Byte)
  /-- The code, the agent and the info of a fault (R343). -/
  | fault (code : FaultCode) (x : Agent) (info : BlockFault)
  /-- P_TX: the request `TX_SUBMIT(frame)` of caller `k`. -/
  | txSubmit (k : Nat) (frame : List Byte)
  /-- P_SCHED: BH_SCHED, asked for by `x`. -/
  | bhSched (x : Agent)
  /-- P_LIFE: the request ATTACH. -/
  | attach
  /-- P_LIFE: the request DETACH. -/
  | detach
  /-- P_ALLOC: `Alloc(kind, size)` for a region, with its answer: `some (local, dma)` is ok, `none` is fail. -/
  | alloc (k : RegionKind) (size : Nat) (answer : Option (Nat × Nat))
  /-- P_ALLOC: `Alloc(ACC, size)`, with whether the answer is ok; its addresses "are not used by any rule" (R47, log entry 12). -/
  | allocAcc (size : Nat) (granted : Bool)
  deriving DecidableEq, Repr, Inhabited

/-- The draws a micro-step may make (R10): the bus collaborator's answer to MAP and IRQ requests, the allocator's answer
(`none` is fail, else the local and the DMA base), and the treatment of a pending run (R47, R310, R320). -/
structure Draws where
  granted : Bool
  alloc : Option (Nat × Nat)
  treat : BhTreat
  deriving DecidableEq, Repr, Inhabited

/-- One turn of the schedule (log entry 1): a stored command word with its out-of-band operand, or the next micro-step of an agent
with that step's draws. -/
inductive Turn where
  | word (cmd : List Byte) (oob : Oob)
  | micro (x : Agent) (d : Draws)
  deriving DecidableEq, Repr, Inhabited

/-- The state: everything R20 lists, and the model's own fields `cfg`, `script`, `drawCount`, `idleTurns` and `stopped`. -/
structure State where
  /-- The parameters of R6; no step changes them (the model's own field, log entry 4). -/
  cfg : Config
  /-- The environment's remaining schedule (the model's own field, log entry 1). -/
  script : List Turn
  /-- How many free values have been drawn (the model's own field, log entry 9). -/
  drawCount : Nat
  /-- How many turns went to an agent with no enabled step (the model's own field, log entry 2). -/
  idleTurns : Nat
  /-- The agents a fault has stopped (R342; the field is the model's own, log entry 17). -/
  stopped : List Agent
  life : Life
  acquired : List Resource
  regs : Regs
  regions : Regions
  mem : Memory
  host : HostAgent
  irq : IrqAgent
  bh : BhAgent
  /-- TXC[k] for k < N_TXC, in order. -/
  txc : List TxAgent
  /-- tx.lock (R33): `none` is FREE, `some k` is HELD(k). -/
  txLock : Option Nat
  coord : Coord
  dev : Dev
  wireIn : List (List Byte)
  wireOut : List (List Byte)
  /-- The fault set (R40), listed by rising code (log entry 18). -/
  faults : List FaultCode
  refused : Bool
  /-- The history (R46), oldest first. -/
  history : List Event
  deriving DecidableEq, Repr

/-- A transmit caller at reset: idle (R29); the working registers hold the values of log entry 7. -/
def TxAgent.reset : TxAgent := { pc := .idle, frame := [], len := 0, t := 0, posted := [] }

/-- The machine right after reset: the cold state of R381. Registers and working registers, "unspecified" there, hold the
values of log entries 6 and 7 (DESIGN CHOICE, unsafe), region bases that of log entry 8. -/
def State.reset : State where
  cfg := Config.standard
  script := []
  drawCount := 0
  idleTurns := 0
  stopped := []
  life := .detached
  acquired := []
  regs :=
    { ctrl := 0, icr := 0, ims := 0, rdbal := 0, rdbah := 0, rdlen := 0, rdh := 0, rdt := 0,
      tdbal := 0, tdbah := 0, tdlen := 0, tdh := 0, tdt := 0 }
  regions := { rxdesc := ⟨false, 0, 0⟩, rxbuf := ⟨false, 0, 0⟩, txdesc := ⟨false, 0, 0⟩, txbuf := ⟨false, 0, 0⟩ }
  mem := []
  host := { pc := .idle, c := 0, polls := 0, result := .ok, cDraw := .drain, posted := [] }
  irq := { pc := .idle, registered := false, v := 0, posted := [] }
  bh := { pc := .idle, tail := 0, h := 0, n := 0, st := 0, err := 0, len := 0, acc := none, posted := [] }
  txc := List.replicate Config.standard.nTxc TxAgent.reset
  txLock := none
  coord := { pending := false, running := false }
  dev := { rxEnabled := false, txEnabled := false, cur := none, rxClaimed := [], resetBusy := false }
  wireIn := []
  wireOut := []
  faults := []
  refused := false
  history := []

/-- What every meaning answers. -/
abbrev Result := Host.Outcome State Fault Refusal

end Sys2Proof.Machine
end

