-- ==== Sys2Proof/Machine/Flags.lean ====
section
/-! DEFINITION. The flags of R39 and their bits: descriptor status and command bytes, CTRL, interrupt causes, the line, the fault and
outcome codes. -/

namespace Sys2Proof.Machine

/-- DD of an RXD status byte (R92). -/
def rxDD : Byte := 0x01

/-- EOP of an RXD status byte (R92). -/
def rxEOP : Byte := 0x02

/-- Whether an RXD status byte marks the end of a frame: bit 1 (R92, R168). -/
def isEop (st : Byte) : Bool := st.getLsbD 1

/-- The status byte of a receive write-back (R284): DD, EOP, and the drawn bits 7:2. -/
def wbStatus (eop : Bool) (xsta : Byte) : Byte :=
  rxDD ||| (if eop then rxEOP else 0x00) ||| (xsta &&& 0xFC)

/-- The command byte of a transmit descriptor: EOP (bit 0) and RS (bit 3) (R96, R208). -/
def txCmd : Byte := 0x09

/-- RS of a TXD command byte: bit 3 (R96, R288). -/
def reportsStatus (cmd : Byte) : Bool := cmd.getLsbD 3

/-- DD of a TXD status byte: bit 0, the block's "done" test (R97, R205). -/
def txDone (st : Byte) : Bool := st.getLsbD 0

/-- The status byte of a transmit write-back: DD = 1, EC = 0, LC = 0 (R288). -/
def txDoneStatus : Byte := 0x01

/-- CTRL.RST, bit 26 (R101). -/
def ctrlRst : Word := 0x04000000

/-- CTRL.ASDE and CTRL.SLU, bits 5 and 6 (R101, R310). -/
def ctrlLinkUp : Word := 0x00000060

/-- Whether a CTRL value has RST set (R101). -/
def hasRst (v : Word) : Bool := v.getLsbD 26

/-- What a read of CTRL shows: RST is dev.reset_busy, the other bits are the stored ones (R252). -/
def ctrlSeen (stored : Word) (busy : Bool) : Word :=
  (stored &&& ~~~ctrlRst) ||| (if busy then ctrlRst else 0)

/-- TXDW, bit 0 (R102). -/
def causeTXDW : Word := 0x00000001

/-- RXO, bit 6 (R102). -/
def causeRXO : Word := 0x00000040

/-- RXT0, bit 7 (R102). -/
def causeRXT0 : Word := 0x00000080

/-- The interrupt line (R43): asserted exactly when (ICR & IMS) != 0 and the handler is registered. -/
def State.lineAsserted (s : State) : Bool := (s.regs.icr &&& s.regs.ims) != 0 && s.irq.registered

/-- IRQ_TOP's result for the cause value read (R230, R239). -/
def irqResult (c : Config) (v : Word) : IrqResult :=
  if v != 0 then .handled else if c.irqZeroHandled then .handled else .notHandled

/-- The code of a fault (R341). -/
def FaultCode.code : FaultCode → Nat
  | .accOverflow => 1
  | .rxLen => 2
  | .indexRange => 3
  | .regUnmapped => 4
  | .regBad => 5
  | .headWrite => 6
  | .regValue => 7
  | .notAttached => 8
  | .alreadyAttached => 9
  | .dmaAfterFree => 10
  | .memBad => 11

/-- The code a fault of the block raises (R341). -/
def BlockFault.code : BlockFault → FaultCode
  | .accOverflow _ _ _ => .accOverflow
  | .rxLen _ _ => .rxLen
  | .indexRange _ _ => .indexRange
  | .regUnmapped _ => .regUnmapped
  | .regBad _ _ => .regBad
  | .headWrite _ _ => .headWrite
  | .regValue _ _ => .regValue
  | .notAttached _ _ => .notAttached
  | .alreadyAttached _ => .alreadyAttached
  | .dmaAfterFree _ => .dmaAfterFree
  | .memBad _ => .memBad

/-- The outcome codes of TX_SUBMIT (R346). -/
def TxResult.code : TxResult → Nat
  | .accepted => 0
  | .busy => 1

/-- The drop-reason codes (R346). -/
def DropReason.code : DropReason → Nat
  | .oversize => 1
  | .ringFull => 2

/-- The outcome codes of IRQ_TOP (R346). -/
def IrqResult.code : IrqResult → Nat
  | .notHandled => 0
  | .handled => 1

/-- The outcome codes of ATTACH (R346). -/
def AttachResult.code : AttachResult → Nat
  | .ok => 0
  | .failMap => 1
  | .failResetTimeout => 2
  | .failAlloc => 3
  | .failIrq => 4

end Sys2Proof.Machine
end

