-- ==== Sys2Proof/Machine/Operands.lean ====
section
/-! DEFINITION. The operand forms: ring indices (R9, R132), register offsets (R100), slot addresses (R11), region sizes (R25), descriptor
images (R312). -/

namespace Sys2Proof.Machine

/-- `next_N(i) = (i + 1) mod N` (R9). -/
def nextIdx (n i : Nat) : Nat := (i + 1) % n

/-- `dist_N(a, b) = (b - a) mod N`, the steps from a forward to b, for a <= N (R9). -/
def dist (n a b : Nat) : Nat := (b + (n - a)) % n

/-- The index a head or tail register holds, where it is one of a ring of depth `n`: bits 31:16 zero and bits 15:0 below `n`
(R107, R132); `none` is F_INDEX_RANGE. -/
def indexOf (n : Nat) (v : Word) : Option Nat :=
  if high16 v != 0 || decide (n ≤ low16 v) then none else some (low16 v)

/-- The byte offset of a register (R100). -/
def RegName.offset : RegName → Nat
  | .ctrl => 0x00000
  | .icr => 0x000C0
  | .ims => 0x000D0
  | .imc => 0x000D8
  | .rdbal => 0x02800
  | .rdbah => 0x02804
  | .rdlen => 0x02808
  | .rdh => 0x02810
  | .rdt => 0x02818
  | .tdbal => 0x03800
  | .tdbah => 0x03804
  | .tdlen => 0x03808
  | .tdh => 0x03810
  | .tdt => 0x03818

/-- Every register in scope (R100). -/
def allRegs : List RegName :=
  [.ctrl, .icr, .ims, .imc, .rdbal, .rdbah, .rdlen, .rdh, .rdt, .tdbal, .tdbah, .tdlen, .tdh, .tdt]

/-- The register at a byte offset (R100). -/
def regOfOffset (off : Nat) : Option RegName := allRegs.find? fun r => r.offset == off

/-- One region of the four. -/
def Regions.get (r : Regions) : RegionKind → Region
  | .rxdesc => r.rxdesc
  | .rxbuf => r.rxbuf
  | .txdesc => r.txdesc
  | .txbuf => r.txbuf

/-- The four regions with one replaced. -/
def Regions.set (r : Regions) (k : RegionKind) (v : Region) : Regions :=
  match k with
  | .rxdesc => { r with rxdesc := v }
  | .rxbuf => { r with rxbuf := v }
  | .txdesc => { r with txdesc := v }
  | .txbuf => { r with txbuf := v }

/-- Every kind of region (R25). -/
def allRegions : List RegionKind := [.rxdesc, .rxbuf, .txdesc, .txbuf]

/-- The size of a region in bytes (R25). -/
def regionSize (c : Config) : RegionKind → Nat
  | .rxdesc => c.nRx * descSize
  | .rxbuf => c.nRx * c.rxBufSize
  | .txdesc => c.nTx * descSize
  | .txbuf => c.nTx * c.txBufSize

/-- The process-local address of RXD[i] (R11). -/
def State.rxdAddr (s : State) (i : Nat) : Nat := s.regions.rxdesc.loc + descSize * i

/-- The process-local address of TXD[i] (R11). -/
def State.txdAddr (s : State) (i : Nat) : Nat := s.regions.txdesc.loc + descSize * i

/-- The process-local address of RXBUF[i] (R11). -/
def State.rxbufAddr (s : State) (i : Nat) : Nat := s.regions.rxbuf.loc + i * s.cfg.rxBufSize

/-- The process-local address of TXBUF[i] (R11). -/
def State.txbufAddr (s : State) (i : Nat) : Nat := s.regions.txbuf.loc + i * s.cfg.txBufSize

/-- The DMA base address a pair of base registers holds (R103, R104). -/
def ringBase (hi lo : Word) : Nat := hi.toNat * 2 ^ 32 + lo.toNat

/-- DEV's address of the receive descriptor of slot `i`: RDBAH:RDBAL + 16 * i (R281, R284). -/
def State.devRxd (s : State) (i : Nat) : Nat := ringBase s.regs.rdbah s.regs.rdbal + descSize * i

/-- DEV's address of the transmit descriptor of slot `i`: TDBAH:TDBAL + 16 * i (R281, R288). -/
def State.devTxd (s : State) (i : Nat) : Nat := ringBase s.regs.tdbah s.regs.tdbal + descSize * i

/-- DEV's depth of the receive ring: RDLEN / 16 (R281). -/
def State.devRxDepth (s : State) : Nat := s.regs.rdlen.toNat / descSize

/-- DEV's depth of the transmit ring: TDLEN / 16 (R281). -/
def State.devTxDepth (s : State) : Nat := s.regs.tdlen.toNat / descSize

/-- The sixteen bytes of a receive descriptor (R91). -/
def rxdBytes (addr length csum : Nat) (status errors : Byte) (special : Nat) : List Byte :=
  leBytes 8 addr ++ leBytes 2 length ++ leBytes 2 csum ++ [status, errors] ++ leBytes 2 special

/-- The sixteen bytes of a transmit descriptor (R95). -/
def txdBytes (addr length : Nat) (cso cmd status css : Byte) (special : Nat) : List Byte :=
  leBytes 8 addr ++ leBytes 2 length ++ [cso, cmd, status, css] ++ leBytes 2 special

/-- image_rx (R312). -/
def State.imageRx (s : State) : List Byte :=
  (List.range s.cfg.nRx).flatMap fun i =>
    rxdBytes (s.regions.rxbuf.dma + i * s.cfg.rxBufSize) 0 0 0 0 0

/-- image_tx (R312). TX_INIT_STATUS is written whole, reserved bits too: DESIGN CHOICE (log entry 36). -/
def State.imageTx (s : State) : List Byte :=
  (List.range s.cfg.nTx).flatMap fun i =>
    txdBytes (s.regions.txbuf.dma + i * s.cfg.txBufSize) 0 0 0 s.cfg.txInitStatus 0 0

end Sys2Proof.Machine
end

