-- ==== Sys2Proof/Machine/Ops.lean ====
section
/-! DEFINITION. The named operations over registers, coherent memory, posted writes, resources and the history (R10), taking a fault
(R342), and interrupt entry and return (R353, R355). -/

namespace Sys2Proof.Machine

/-! ### What a micro-step can do -/

/-- What one micro-step of an agent does (R2, R10): it completes in a state, holds, raises a fault of the block, or stands where the
spec's pseudocode denotes nothing. -/
inductive Micro where
  | done (s : State)
  | hold
  | raise (f : BlockFault)
  | stuck (f : Fault)

/-- A micro-step followed by private computation of the same micro-step (R2). -/
def Micro.andThen (m : Micro) (f : State → State) : Micro :=
  match m with
  | .done s => .done (f s)
  | .hold => .hold
  | .raise b => .raise b
  | .stuck b => .stuck b

/-- A primitive's answer as a micro-step. -/
def Micro.ofExcept (e : Except BlockFault State) : Micro :=
  match e with
  | .ok s => .done s
  | .error f => .raise f

/-- `emit E` (R10, R46). -/
def State.emit (s : State) (e : Event) : State := { s with history := s.history ++ [e] }

/-- A turn that went to an agent with no enabled step: nothing of the block changes (log entry 2). -/
def State.passTurn (s : State) : State := { s with idleTurns := s.idleTurns + 1 }

/-- Add a code to a fault set listed by rising code. -/
def insertFault (c : FaultCode) : List FaultCode → List FaultCode
  | [] => [c]
  | d :: ds => if c.code < d.code then c :: d :: ds else if c == d then d :: ds else d :: insertFault c ds

/-- TAKING A FAULT, the one shared operation (R342): the code joins the fault set, the event is recorded with its info, and the agent stops
with its pc as it is. Applied to the state BEFORE the faulting micro-step, so that "the faulting micro-step has no other effect". Nothing
catches a fault (R354), so there is no return from one. -/
def State.raiseFault (s : State) (x : Agent) (f : BlockFault) : State :=
  { s with
    faults := insertFault f.code s.faults
    stopped := if s.stopped.contains x then s.stopped else s.stopped ++ [x]
    history := s.history ++ [.fault f.code x f] }

/-- One micro-step `m` of agent `x` from state `s` (R2, R10, R342). A stopped agent has no enabled step. -/
def take (x : Agent) (s : State) (m : Micro) : Result :=
  if s.stopped.contains x then .next s.passTurn
  else
    match m with
    | .done s' => .next s'
    | .hold => .next s.passTurn
    | .raise f => .next (s.raiseFault x f)
    | .stuck f => .fault f

/-! ### Agents' private state -/

/-- TXC[k] updated. -/
def State.modTx (s : State) (k : Nat) (f : TxAgent → TxAgent) : State := { s with txc := s.txc.modify k f }

/-- `pc <- S` for HOST (R10). -/
def State.hostGo (s : State) (pc : HostPc) : State := { s with host := { s.host with pc := pc } }

/-- `pc <- S` for IRQ (R10). -/
def State.irqGo (s : State) (pc : IrqPc) : State := { s with irq := { s.irq with pc := pc } }

/-- `pc <- S` for BH (R10). -/
def State.bhGo (s : State) (pc : BhPc) : State := { s with bh := { s.bh with pc := pc } }

/-- `pc <- S` for TXC[k] (R10). -/
def State.txGo (s : State) (k : Nat) (pc : TxPc) : State := s.modTx k fun t => { t with pc := pc }

/-- W[x] (R36); DEV and MEMSYS have none. -/
def State.posted (s : State) : Agent → List Posted
  | .host => s.host.posted
  | .irq => s.irq.posted
  | .bh => s.bh.posted
  | .txc k => match s.txc[k]? with
    | some t => t.posted
    | none => []
  | .dev => []
  | .memsys => []

/-- W[x] replaced. -/
def State.setPosted (s : State) (x : Agent) (w : List Posted) : State :=
  match x with
  | .host => { s with host := { s.host with posted := w } }
  | .irq => { s with irq := { s.irq with posted := w } }
  | .bh => { s with bh := { s.bh with posted := w } }
  | .txc k => s.modTx k fun t => { t with posted := w }
  | .dev => s
  | .memsys => s

/-! ### Interrupt entry and return -/

/-- Interrupt entry (R353): IRQ_TOP's issue step. It saves nothing, changes no mask, and goes to IRQ_READ. -/
def State.enterIrq (s : State) : State := s.irqGo .read

/-- Interrupt return (R355): it emits the result and makes IRQ idle; it restores nothing. -/
def State.returnIrq (s : State) (r : IrqResult) : State := (s.emit (.irqResult r)).irqGo .idle

/-! ### The canonical memory -/

/-- The byte an address holds; `none` where nothing has written it since its region was allocated (R45). -/
def Memory.get (m : Memory) (a : Nat) : Option Byte := (m.find? fun p => p.1 == a).map Prod.snd

/-- The cells of consecutive bytes from address `a`. -/
def cellsFrom : Nat → List Byte → Memory
  | _, [] => []
  | a, b :: bs => (a, b) :: cellsFrom (a + 1) bs

/-- Consecutive bytes written from address `a`, in the canonical form. -/
def Memory.write (m : Memory) (a : Nat) (bs : List Byte) : Memory :=
  (m.filter fun p => decide (p.1 < a)) ++ (cellsFrom a bs ++ m.filter fun p => decide (a + bs.length ≤ p.1))

/-- The cells of [a, a + n) removed: those bytes have not been written since their region was allocated (R45). -/
def Memory.clear (m : Memory) (a n : Nat) : Memory := m.filter fun p => decide (p.1 < a) || decide (a + n ≤ p.1)

/-- Free values for the bytes that hold none (R45): the value read, and the draw counter after it. -/
def fillDraws : List (Option Byte) → Nat → List Byte × Nat
  | [], c => ([], c)
  | some b :: os, c => let r := fillDraws os c; (b :: r.1, r.2)
  | none :: os, c => let r := fillDraws os (c + 1); (Config.freeByte c :: r.1, r.2)

/-- What a read of bytes may return (R45): a byte that holds a value reads as it, and one that holds none as anything. -/
def readsAs (held : List (Option Byte)) (bs : List Byte) : Prop :=
  bs.length = held.length ∧ ∀ (i : Nat) (b : Byte), held[i]? = some (some b) → bs[i]? = some b

/-! ### Regions and resources -/

/-- The live region that holds the `n` bytes at process-local address `a` (R62). -/
def State.localRegion (s : State) (a n : Nat) : Option RegionKind :=
  allRegions.find? fun k =>
    let r := s.regions.get k
    r.live && decide (r.loc ≤ a) && decide (a + n ≤ r.loc + regionSize s.cfg k)

/-- The DMA address of a process-local address in region `k`: `local_r + o` and `dma_r + o` name the same byte (R62). -/
def State.dmaOf (s : State) (k : RegionKind) (a : Nat) : Nat :=
  (s.regions.get k).dma + (a - (s.regions.get k).loc)

/-- Whether a DMA address is in a live region (R62, R281). -/
def State.dmaLive (s : State) (a : Nat) : Bool :=
  allRegions.any fun k =>
    let r := s.regions.get k
    r.live && decide (r.dma ≤ a) && decide (a < r.dma + regionSize s.cfg k)

/-- The first of the `n` bytes at DMA address `a` that is outside every live region (R281). -/
def State.firstDead (s : State) : Nat → Nat → Option Nat
  | _, 0 => none
  | a, n + 1 => if s.dmaLive a then s.firstDead (a + 1) n else some a

/-- Two address ranges share no address. -/
def disjointRanges (a n b m : Nat) : Bool := decide (a + n ≤ b) || decide (b + m ≤ a)

/-- Whether `ok(local, dma)` is an answer the allocator may give for region `k` (R47, R77): aligned to DMA_ALIGN, within the 64-bit DMA
space, and overlapping no live region. -/
def State.freshRegion (s : State) (k : RegionKind) (loc dma : Nat) : Bool :=
  dma % s.cfg.dmaAlign == 0 && decide (dma + regionSize s.cfg k ≤ 2 ^ 64)
    && allRegions.all fun j =>
      !(s.regions.get j).live
        || (disjointRanges dma (regionSize s.cfg k) (s.regions.get j).dma (regionSize s.cfg j)
          && disjointRanges loc (regionSize s.cfg k) (s.regions.get j).loc (regionSize s.cfg j))

/-- An allocation granted (R25, R47, R310): the region is live at the answer's bases, its bytes unwritten, and it joins `acquired`. -/
def State.allocate (s : State) (k : RegionKind) (loc dma : Nat) : State :=
  { s with
    regions := s.regions.set k ⟨true, loc, dma⟩
    mem := s.mem.clear dma (regionSize s.cfg k)
    acquired := s.acquired ++ [.region k] }

/-- `release x` (R313): IRQ clears irq.registered, a region stops being live and its bytes are gone (R25), MAP has no state of its
own. -/
def State.release (s : State) (x : Resource) : State :=
  match x with
  | .map => s
  | .irq => { s with irq := { s.irq with registered := false } }
  | .region k =>
    { s with
      regions := s.regions.set k { s.regions.get k with live := false }
      mem := s.mem.clear (s.regions.get k).dma (regionSize s.cfg k) }

/-- Release the newest entry of `acquired` (R313, R320); nothing where it is empty. -/
def State.releaseLast (s : State) : State :=
  match s.acquired.getLast? with
  | none => s
  | some x => { s.release x with acquired := s.acquired.dropLast }

/-! ### Coherent memory as the engine agents see it -/

/-- The value the newest entry of a posted-write list gives a byte address, if one covers it (R67). -/
def postedByte (w : List Posted) (b : Nat) : Option Byte :=
  w.reverse.findSome? fun e => if e.addr ≤ b then e.bytes[b - e.addr]? else none

/-- The `n` bytes at process-local address `a` of region `k` as agent `x` sees them (R67); `none` for a byte that holds no value. -/
def State.view (s : State) (x : Agent) (k : RegionKind) (a n : Nat) : List (Option Byte) :=
  (List.range n).map fun i =>
    match postedByte (s.posted x) (a + i) with
    | some b => some b
    | none => s.mem.get (s.dmaOf k a + i)

/-- `MemRead(a, n)` by an engine agent (R67): the bytes read and the state with the access recorded; F_MEM_BAD outside a live region
(R62). -/
def memRead (x : Agent) (a n : Nat) (s : State) : Except BlockFault (List Byte × State) :=
  match s.localRegion a n with
  | none => .error (.memBad a)
  | some k =>
    let r := fillDraws (s.view x k a n) s.drawCount
    .ok (r.1, { s with drawCount := r.2 }.emit (.mem x .read a r.1))

/-- `MemWrite(a, n, v)` by an engine agent (R66): posted to W[x], or visible at once under POSTED_ORDER = SC; F_MEM_BAD outside a live
region (R62). -/
def memWrite (x : Agent) (a : Nat) (bs : List Byte) (s : State) : Except BlockFault State :=
  match s.localRegion a bs.length with
  | none => .error (.memBad a)
  | some k =>
    if s.cfg.postedOrder == .sc then
      .ok (({ s with mem := s.mem.write (s.dmaOf k a) bs }.emit (.visible x a bs)).emit (.mem x .write a bs))
    else
      .ok ((s.setPosted x (s.posted x ++ [⟨a, bs⟩])).emit (.mem x .write a bs))

/-- Whether the bytes of two posted writes overlap (R68). -/
def Posted.overlaps (p q : Posted) : Bool := !disjointRanges p.addr p.bytes.length q.addr q.bytes.length

/-- Whether POSTED_ORDER allows the entry at `pos` to become visible next (R68). -/
def mayLand (o : PostedOrder) (w : List Posted) (pos : Nat) : Bool :=
  match w[pos]? with
  | none => false
  | some e =>
    match o with
    | .fifo => pos == 0
    | .any => (w.take pos).all fun p => !p.overlaps e
    | .sc => false

/-- The landing of a posted write (R263). The whole entry, not only its first address, lies in one live region or is F_MEM_BAD: DESIGN CHOICE
(log entry 38). -/
def land (x : Agent) (pos : Nat) (s : State) : Micro :=
  if !mayLand s.cfg.postedOrder (s.posted x) pos then .hold
  else
    match (s.posted x)[pos]? with
    | none => .hold
    | some e =>
      match s.localRegion e.addr e.bytes.length with
      | none => .raise (.memBad e.addr)
      | some k =>
        .done ((({ s with mem := s.mem.write (s.dmaOf k e.addr) e.bytes }).setPosted x
          ((s.posted x).eraseIdx pos)).emit (.visible x e.addr e.bytes))

/-- `hold until W[x] == []`, then the agent's next step (R262). -/
def barrier (x : Agent) (s : State) (go : State → State) : Micro :=
  if (s.posted x).isEmpty then .done (go s) else .hold

/-! ### Coherent memory as DEV sees it -/

/-- DEV's read of `n` bytes at DMA address `a` (R67, R281): memory only, no posted writes. -/
def devRead (a n : Nat) (s : State) : List Byte × State :=
  let r := fillDraws ((List.range n).map fun i => s.mem.get (a + i)) s.drawCount
  (r.1, { s with drawCount := r.2 }.emit (.mem .dev .read a r.1))

/-- DEV's write of bytes at DMA address `a`, visible at once (R70). -/
def devWrite (a : Nat) (bs : List Byte) (s : State) : State :=
  { s with mem := s.mem.write a bs }.emit (.mem .dev .write a bs)

/-! ### The register file -/

/-- The stored value of a register, as a read shows it (R252); IMC has none. -/
def State.regValue (s : State) : RegName → Word
  | .ctrl => ctrlSeen s.regs.ctrl s.dev.resetBusy
  | .icr => s.regs.icr
  | .ims => s.regs.ims
  | .imc => 0
  | .rdbal => s.regs.rdbal
  | .rdbah => s.regs.rdbah
  | .rdlen => s.regs.rdlen
  | .rdh => s.regs.rdh
  | .rdt => s.regs.rdt
  | .tdbal => s.regs.tdbal
  | .tdbah => s.regs.tdbah
  | .tdlen => s.regs.tdlen
  | .tdh => s.regs.tdh
  | .tdt => s.regs.tdt

/-- The checks of R250 that reads and writes share, in their order: mapped, aligned, in scope. -/
def regAt (off : Nat) (d : Dir) (s : State) : Except BlockFault RegName :=
  if !s.acquired.contains .map then .error (.regUnmapped off)
  else if off % 4 != 0 then .error (.regBad off d)
  else
    match regOfOffset off with
    | none => .error (.regBad off d)
    | some r => .ok r

/-- `RegRead(off)` by agent `x`: the checks of R250, the value of R252, the clearing of ICR (R253), the event. -/
def regRead (x : Agent) (off : Nat) (s : State) : Except BlockFault (Word × State) :=
  match regAt off .read s with
  | .error f => .error f
  | .ok .imc => .error (.regBad off .read)
  | .ok .icr =>
    .ok (s.regs.icr, { s with regs := { s.regs with icr := 0 } }.emit (.reg x .read off s.regs.icr))
  | .ok r => .ok (s.regValue r, s.emit (.reg x .read off (s.regValue r)))

/-- The checks of R250 for a write: the shared ones, then ICR, then the heads. -/
def regWriteCheck (off : Nat) (v : Word) (s : State) : Except BlockFault RegName :=
  match regAt off .write s with
  | .error f => .error f
  | .ok .icr => .error (.regBad off .write)
  | .ok .rdh => .error (.headWrite off v)
  | .ok .tdh => .error (.headWrite off v)
  | .ok r => .ok r

/-- A legal base low value: bits 3:0 are 0 (R103). -/
def baseLowOk (v : Word) : Bool := v.toNat % 16 == 0

/-- A legal ring length: a non-zero multiple of 128, at most 0xFFF80 (R105). -/
def ringLenOk (v : Word) : Bool := v.toNat % 128 == 0 && v != 0 && decide (v.toNat ≤ 0xFFF80)

/-- The effect of a write on the register file and the device (R257 to R260), with the value checks of R259 and R260. -/
def regEffect (r : RegName) (off : Nat) (v : Word) (s : State) : Except BlockFault State :=
  match r with
  | .ctrl =>
    .ok { s with
      regs := { s.regs with ctrl := v }
      dev := { s.dev with resetBusy := s.dev.resetBusy || hasRst v } }
  | .icr => .error (.regBad off .write)
  | .ims => .ok { s with regs := { s.regs with ims := s.regs.ims ||| v } }
  | .imc => .ok { s with regs := { s.regs with ims := s.regs.ims &&& ~~~v } }
  | .rdbal => if baseLowOk v then .ok { s with regs := { s.regs with rdbal := v } } else .error (.regValue off v)
  | .rdbah => .ok { s with regs := { s.regs with rdbah := v } }
  | .rdlen => if ringLenOk v then .ok { s with regs := { s.regs with rdlen := v } } else .error (.regValue off v)
  | .rdh => .error (.headWrite off v)
  | .rdt =>
    match indexOf s.cfg.nRx v with
    | none => .error (.indexRange off v)
    | some i => .ok { s with regs := { s.regs with rdt := toWord i } }
  | .tdbal => if baseLowOk v then .ok { s with regs := { s.regs with tdbal := v } } else .error (.regValue off v)
  | .tdbah => .ok { s with regs := { s.regs with tdbah := v } }
  | .tdlen => if ringLenOk v then .ok { s with regs := { s.regs with tdlen := v } } else .error (.regValue off v)
  | .tdh => .error (.headWrite off v)
  | .tdt =>
    match indexOf s.cfg.nTx v with
    | none => .error (.indexRange off v)
    | some i => .ok { s with regs := { s.regs with tdt := toWord i } }

/-- A write that has passed the checks of R250: its effect and its event. -/
def regStore (x : Agent) (r : RegName) (off : Nat) (v : Word) (s : State) : Micro :=
  match regEffect r off v s with
  | .error f => .raise f
  | .ok s' => .done (s'.emit (.reg x .write off v))

/-- Whether a register write by `x` holds first (R69, R250): MMIO_DRAINS is true and W[x] is not empty (log entry 13). -/
def State.mmioHolds (s : State) (x : Agent) : Bool := s.cfg.mmioDrains && !(s.posted x).isEmpty

/-- `RegWrite(off, v)` by agent `x` (R250, R257 to R260). -/
def regWrite (x : Agent) (off : Nat) (v : Word) (s : State) : Micro :=
  if s.mmioHolds x then .hold
  else
    match regWriteCheck off v s with
    | .error f => .raise f
    | .ok r => regStore x r off v s

/-- DEV sets cause bits (R347). -/
def State.setCause (s : State) (c : Word) : State := { s with regs := { s.regs with icr := s.regs.icr ||| c } }

end Sys2Proof.Machine
end

