-- ==== Sys2Proof/Machine/Device.lean ====
section
/-! DEFINITION. 45_device.md: the steps of the environment agent DEV, each enabled as R297 says. -/

namespace Sys2Proof.Machine

/-! ### Moving a head -/

/-- The index field of a head register, bits 15:0 (R106). -/
def headIndexMask : Word := 0x0000FFFF

/-- The head register after DEV has moved it one slot on, in a ring of `depth` descriptors (R282, R288). R9 defines `a mod N` for N > 0
only: where the length register names no descriptor the spec states no result, and the new head is a free value. DESIGN CHOICE (log
entry 16), safe. Only its index, bits 15:0, is free: bits 31:16 of a head read as 0 (R106). -/
def State.headAfter (s : State) (depth : Nat) (head : Word) : Word :=
  if depth = 0 then headIndexMask &&& Config.freeWord s.drawCount else toWord (nextIdx depth head.toNat)

/-- The draw counter after it. -/
def State.headCount (s : State) (depth : Nat) : Nat := if depth = 0 then s.drawCount + 1 else s.drawCount

/-! ### Receive side -/

/-- DEV_WIRE_IN (R280): a frame arrives from the network; enabled always. -/
def execDevWireIn (_len : Half) (frame : List Byte) (s : State) : Result :=
  take .dev s (.done ({ s with wireIn := s.wireIn ++ [frame] }.emit (.wireIn frame)))

/-- The bytes DEV places next and the wire queue after taking them (R282): the rest of the current frame, else the first waiting one. -/
def State.nextChunkSource (s : State) : Option (List Byte × List (List Byte)) :=
  match s.dev.cur with
  | some rest => some (rest, s.wireIn)
  | none =>
    match s.wireIn with
    | [] => none
    | f :: fs => some (f, fs)

/-- DEV_RX_CLAIM's condition on the units and the ring (R297); that a frame is at hand is `nextChunkSource`. -/
def State.rxClaimEnabled (s : State) : Bool := !s.dev.resetBusy && s.dev.rxEnabled && s.regs.rdh != s.regs.rdt

/-- DEV_RX_CLAIM (R282) in the state. -/
def devRxClaim (s : State) : Micro :=
  if !s.rxClaimEnabled then .hold
  else
    match s.nextChunkSource with
    | none => .hold
    | some (rem, waiting) =>
      let eop := decide (rem.length ≤ s.cfg.rxBufSize)
      .done { s with
        drawCount := s.headCount s.devRxDepth
        wireIn := waiting
        dev := { s.dev with
          rxClaimed := s.dev.rxClaimed ++ [⟨s.regs.rdh.toNat, rem.take s.cfg.rxBufSize, eop⟩]
          cur := if eop then none else some (rem.drop s.cfg.rxBufSize) }
        regs := { s.regs with rdh := s.headAfter s.devRxDepth s.regs.rdh } }

/-- DEV_RX_CLAIM (R282). -/
def execDevRxClaim (s : State) : Result := take .dev s (devRxClaim s)

/-- Bytes 8..15 of a written-back receive descriptor (R91, R284). -/
def wbBytes (c : Claim) (d : WbDraws) : List Byte :=
  leBytes 2 c.chunk.length ++ leBytes 2 d.csum.toNat ++ [wbStatus c.eop d.xsta, d.err] ++ leBytes 2 d.special.toNat

/-- The write-back of claim `c` (R284), whole and in one step: the buffer, then descriptor bytes 8..15 with the status, and RXT0. -/
def wbEffect (c : Claim) (rest : List Claim) (a : Nat) (d : WbDraws) (s1 : State) : State :=
  let s2 := { s1 with dev := { s1.dev with rxClaimed := rest } }
  let s3 := if c.chunk.isEmpty then s2 else devWrite a c.chunk s2
  (devWrite (s3.devRxd c.slot + 8) (wbBytes c d) s3).setCause causeRXT0

/-- DEV_RX_WB (R284) in the state: the descriptor is checked first, since the buffer's address is read from it; the buffer next; both
before any write (R352). -/
def devRxWb (d : WbDraws) (s : State) : Micro :=
  if s.dev.resetBusy then .hold
  else
    match s.dev.rxClaimed with
    | [] => .hold
    | c :: rest =>
      match s.firstDead (s.devRxd c.slot) descSize with
      | some b => .raise (.dmaAfterFree b)
      | none =>
        let r := devRead (s.devRxd c.slot) 8 s
        match s.firstDead (ofLeBytes r.1) c.chunk.length with
        | some b => .raise (.dmaAfterFree b)
        | none => .done (wbEffect c rest (ofLeBytes r.1) d r.2)

/-- DEV_RX_WB (R284). -/
def execDevRxWb (d : WbDraws) (s : State) : Result := take .dev s (devRxWb d s)

/-- DEV_RX_DROP is enabled (R297): no granted slot, no frame part-way, a whole frame waiting. -/
def State.rxDropEnabled (s : State) : Bool :=
  !s.dev.resetBusy && s.dev.rxEnabled && s.dev.cur.isNone && !s.wireIn.isEmpty && s.regs.rdh == s.regs.rdt

/-- DEV_RX_DROP (R286): receiver overrun. -/
def execDevRxDrop (s : State) : Result :=
  take .dev s
    (if s.rxDropEnabled then .done ({ s with wireIn := s.wireIn.tail }.setCause causeRXO) else .hold)

/-! ### Transmit side -/

/-- DEV_TX_XMIT is enabled (R297). -/
def State.xmitEnabled (s : State) : Bool := !s.dev.resetBusy && s.dev.txEnabled && s.regs.tdh != s.regs.tdt

/-- The completion of a transmit (R288): the frame on the wire, the DD write-back and TXDW when RS, the head moved on. -/
def xmitEffect (cmd : Byte) (frame : List Byte) (s2 : State) : State :=
  let s3 := { s2 with wireOut := s2.wireOut ++ [frame] }.emit (.wireOut frame)
  let s4 :=
    if reportsStatus cmd then (devWrite (s3.devTxd s3.regs.tdh.toNat + 12) [txDoneStatus] s3).setCause causeTXDW
    else s3
  { s4 with
    drawCount := s4.headCount s4.devTxDepth
    regs := { s4.regs with tdh := s4.headAfter s4.devTxDepth s4.regs.tdh } }

/-- DEV's read of a transmit buffer (R288). A length of 0 makes no access. -/
def devReadFrame (a n : Nat) (s : State) : List Byte × State := if n == 0 then ([], s) else devRead a n s

/-- DEV_TX_XMIT (R288) in the state: the descriptor is checked, then the buffer, both before any write (R352). -/
def devTxXmit (s : State) : Micro :=
  if !s.xmitEnabled then .hold
  else
    match s.firstDead (s.devTxd s.regs.tdh.toNat) descSize with
    | some b => .raise (.dmaAfterFree b)
    | none =>
      let r := devRead (s.devTxd s.regs.tdh.toNat) descSize s
      let a := ofLeBytes (r.1.take 8)
      let len := ofLeBytes ((r.1.drop 8).take 2)
      match s.firstDead a len with
      | some b => .raise (.dmaAfterFree b)
      | none =>
        let q := devReadFrame a len r.2
        .done (xmitEffect (r.1.getD 11 0) q.1 q.2)

/-- DEV_TX_XMIT (R288). -/
def execDevTxXmit (s : State) : Result := take .dev s (devTxXmit s)

/-! ### Causes and reset -/

/-- DEV_CAUSE (R291): the device raises causes; not while a reset is in progress. -/
def execDevCause (c : Word) (s : State) : Result :=
  take .dev s (if s.dev.resetBusy then .hold else .done (s.setCause c))

/-- The draws of DEV_RST_DONE: those of the word, or free values where it came without them (log entry 21). -/
def State.rstDraws (s : State) : Option RstDraws → RstDraws
  | some d => d
  | none =>
    ⟨Config.freeWord s.drawCount, Config.freeWord (s.drawCount + 1), Config.freeWord (s.drawCount + 2),
      Config.freeWord (s.drawCount + 3), Config.freeWord (s.drawCount + 4)⟩

/-- The draw counter after DEV_RST_DONE. -/
def State.rstCount (s : State) : Option RstDraws → Nat
  | some _ => s.drawCount
  | none => s.drawCount + 5

/-- The register file after a device reset (R22, R293). -/
def resetRegs (d : RstDraws) : Regs where
  ctrl := d.ctrl &&& ~~~ctrlRst
  icr := 0
  ims := 0
  rdbal := d.rdbal
  rdbah := d.rdbah
  rdlen := 0
  rdh := 0
  rdt := 0
  tdbal := d.tdbal
  tdbah := d.tdbah
  tdlen := 0
  tdh := 0
  tdt := 0

/-- The device units stopped (R293, R294): dev.reset_busy is kept. -/
def Dev.quiesced (d : Dev) : Dev :=
  { d with rxEnabled := false, txEnabled := false, cur := none, rxClaimed := [] }

/-- DEV_RST_DONE (R293) in the state. -/
def devRstDone (d : Option RstDraws) (s : State) : Micro :=
  if s.dev.resetBusy then
    .done { s with
      regs := resetRegs (s.rstDraws d)
      drawCount := s.rstCount d
      dev := { s.dev.quiesced with resetBusy := false } }
  else .hold

/-- DEV_RST_DONE (R293): a device reset completes. -/
def execDevRstDone (d : Option RstDraws) (s : State) : Result := take .dev s (devRstDone d s)

end Sys2Proof.Machine
end

