-- ==== Sys2Proof/Machine/Lifecycle.lean ====
section
/-! DEFINITION. 46_lifecycle.md: ATTACH, DETACH and the micro-steps of HOST. -/

namespace Sys2Proof.Machine

/-! ### The two operations -/

/-- ATTACH (R310): its issue step, the request on P_LIFE (R3, log entry 33); enabled when HOST is idle. -/
def execAttach (s : State) : Result :=
  take .host s (if s.host.pc == .idle then .done ((s.emit .attach).hostGo .aCheck) else .hold)

/-- DETACH (R320): its issue step, the request on P_LIFE (R3, log entry 33); enabled when HOST is idle. -/
def execDetach (s : State) : Result :=
  take .host s (if s.host.pc == .idle then .done ((s.emit .detach).hostGo .dCheck) else .hold)

/-! ### Shared micro-step forms -/

/-- `fail(r)` (R310, R313): the unwind, or straight to A_FAILED when nothing is acquired. -/
def State.failAttach (s : State) (r : AttachResult) : State :=
  { s with host := { s.host with result := r, pc := if s.acquired.isEmpty then .aFailed else .aUnwind } }

/-- A micro-step of HOST that writes a register and goes on. -/
def hostWrite (r : RegName) (v : Word) (pc : HostPc) (s : State) : Micro :=
  (regWrite .host r.offset v s).andThen fun s1 => s1.hostGo pc

/-- A micro-step of HOST that reads CTRL into host.c (R48). -/
def hostReadCtrl (s : State) (go : Word → State → Micro) : Micro :=
  match regRead .host RegName.ctrl.offset s with
  | .error f => .raise f
  | .ok (v, s1) => go v { s1 with host := { s1.host with c := v } }

/-- A micro-step of HOST that asks the allocator for a region (R47, R310): the transaction on P_ALLOC (R3, log entry 33), then what the
answer calls for. An answer that R47 does not allow is no draw, so that the turn is none (log entry 11). -/
def hostAlloc (k : RegionKind) (pc : HostPc) (d : Draws) (s : State) : Micro :=
  let asked := s.emit (.alloc k (regionSize s.cfg k) d.alloc)
  match d.alloc with
  | none => .done (asked.failAttach .failAlloc)
  | some (loc, dma) => if s.freshRegion k loc dma then .done ((asked.allocate k loc dma).hostGo pc) else .hold

/-- A micro-step of HOST that posts a descriptor image (R310, R312). -/
def hostImage (a : Nat) (bs : List Byte) (pc : HostPc) (s : State) : Micro :=
  (Micro.ofExcept (memWrite .host a bs s)).andThen fun s1 => s1.hostGo pc

/-! ### The micro-steps of ATTACH (R310) -/

def aCheck (s : State) : Micro :=
  if s.life != .detached then .raise (.alreadyAttached s.life)
  else .done ({ s with life := .attaching }.hostGo .aMap)

def aMap (d : Draws) (s : State) : Micro :=
  if d.granted then .done ({ s with acquired := [.map] }.hostGo .aRstRd)
  else .done (s.failAttach .failMap)

def aRstRd (s : State) : Micro := hostReadCtrl s fun _ s1 => .done (s1.hostGo .aRstWr)

def aRstWr (s : State) : Micro :=
  (regWrite .host RegName.ctrl.offset (s.host.c ||| ctrlRst) s).andThen fun s1 =>
    { s1 with host := { s1.host with polls := 0, pc := .aPoll } }

/-- A_POLL (R310, R315): the bounded reset poll. -/
def aPoll (s : State) : Micro :=
  hostReadCtrl s fun v s1 =>
    if !hasRst v then .done (s1.hostGo .aLinkRd)
    else
      let s2 := { s1 with host := { s1.host with polls := s1.host.polls + 1 } }
      if s2.host.polls == s2.cfg.resetPollMax then .done (s2.failAttach .failResetTimeout)
      else .done (s2.hostGo .aPoll)

def aLinkRd (s : State) : Micro := hostReadCtrl s fun _ s1 => .done (s1.hostGo .aLinkWr)

/-- A_STATE (R310): the engines' own state. -/
def aState (s : State) : Micro :=
  .done ({ s with
    bh := { s.bh with tail := s.cfg.nRx - 1, acc := none }
    coord := ⟨false, false⟩
    txLock := none }.hostGo .aIrq)

def aIrq (d : Draws) (s : State) : Micro :=
  if d.granted then
    .done ({ s with irq := { s.irq with registered := true }, acquired := s.acquired ++ [Resource.irq] }.hostGo .aIms)
  else .done (s.failAttach .failIrq)

def aEnable (s : State) : Micro :=
  .done ({ s with dev := { s.dev with rxEnabled := true, txEnabled := true } }.hostGo .aDone)

def aDone (s : State) : Micro :=
  .done (({ s with life := .attached }.emit (.attachResult .ok)).hostGo .idle)

/-- A_UNWIND (R313): one release a micro-step, newest first, until nothing is acquired. -/
def aUnwind (s : State) : Micro :=
  .done (s.releaseLast.hostGo (if s.releaseLast.acquired.isEmpty then .aFailed else .aUnwind))

def aFailed (s : State) : Micro :=
  .done (({ s with life := .detached }.emit (.attachResult s.host.result)).hostGo .idle)

/-! ### The micro-steps of DETACH (R320) -/

def dCheck (s : State) : Micro :=
  if s.life == .detached then .done (s.hostGo .idle)
  else .done ({ s with life := .detaching }.hostGo .dQuiesce)

/-- D_QUIESCE (R294, R320). -/
def dQuiesce (s : State) : Micro := .done ({ s with dev := s.dev.quiesced }.hostGo .dImc)

def dIrqrel (s : State) : Micro :=
  if s.irq.pc == .idle then
    .done ({ s with
      irq := { s.irq with registered := false }
      acquired := s.acquired.filter fun x => x != Resource.irq }.hostGo .dBh)
  else .hold

/-- D_BH (R320): the draw of the pending run's treatment. CANCEL clears `pending` with or without a run in progress, as R320, R322 and R34 say;
from (1, 1) that is a transition R236's table does not list, a conflict of the spec that it does not settle (DEDUCED, log entry 34). -/
def dBh (d : Draws) (s : State) : Micro :=
  .done { s with
    host := { s.host with cDraw := d.treat, pc := .dBhwait }
    coord := if d.treat == .cancel then { s.coord with pending := false } else s.coord }

def dBhwait (s : State) : Micro :=
  if !s.coord.pending && !s.coord.running then .done (s.hostGo .dTxwait) else .hold

def dTxwait (s : State) : Micro :=
  if s.txLock == none && s.txc.all (fun t => t.pc == .idle) then .done (s.hostGo .dAcc) else .hold

def dAcc (s : State) : Micro := .done ({ s with bh := { s.bh with acc := none } }.hostGo .dRel)

/-- D_REL (R320): one release a micro-step, newest first, until nothing is acquired. -/
def dRel (s : State) : Micro :=
  .done (s.releaseLast.hostGo (if s.releaseLast.acquired.isEmpty then .dDone else .dRel))

def dDone (s : State) : Micro := .done ({ s with life := .detached }.hostGo .idle)

/-! ### HOST -/

/-- The next micro-step of HOST, by its pc (R29, R310, R313, R320). -/
def hostMicro (d : Draws) (s : State) : Micro :=
  match s.host.pc with
  | .idle => .hold
  | .aCheck => aCheck s
  | .aMap => aMap d s
  | .aRstRd => aRstRd s
  | .aRstWr => aRstWr s
  | .aPoll => aPoll s
  | .aLinkRd => aLinkRd s
  | .aLinkWr => hostWrite .ctrl (s.host.c ||| ctrlLinkUp) .aRxdesc s
  | .aRxdesc => hostAlloc .rxdesc .aRxbuf d s
  | .aRxbuf => hostAlloc .rxbuf .aTxdesc d s
  | .aTxdesc => hostAlloc .txdesc .aTxbuf d s
  | .aTxbuf => hostAlloc .txbuf .aInitRx d s
  | .aInitRx => hostImage s.regions.rxdesc.loc s.imageRx .aInitTx s
  | .aInitTx => hostImage s.regions.txdesc.loc s.imageTx .aWmb s
  | .aWmb => barrier .host s fun s1 => s1.hostGo .aRdbal
  | .aRdbal => hostWrite .rdbal (toWord s.regions.rxdesc.dma) .aRdbah s
  | .aRdbah => hostWrite .rdbah (toWord (s.regions.rxdesc.dma / 2 ^ 32)) .aRdlen s
  | .aRdlen => hostWrite .rdlen (toWord (s.cfg.nRx * descSize)) .aRdt s
  | .aRdt => hostWrite .rdt (toWord (s.cfg.nRx - 1)) .aTdbal s
  | .aTdbal => hostWrite .tdbal (toWord s.regions.txdesc.dma) .aTdbah s
  | .aTdbah => hostWrite .tdbah (toWord (s.regions.txdesc.dma / 2 ^ 32)) .aTdlen s
  | .aTdlen => hostWrite .tdlen (toWord (s.cfg.nTx * descSize)) .aTdt s
  | .aTdt => hostWrite .tdt 0 .aState s
  | .aState => aState s
  | .aIrq => aIrq d s
  | .aIms => hostWrite .ims s.cfg.imsInit .aEnable s
  | .aEnable => aEnable s
  | .aDone => aDone s
  | .aUnwind => aUnwind s
  | .aFailed => aFailed s
  | .dCheck => dCheck s
  | .dQuiesce => dQuiesce s
  | .dImc => hostWrite .imc 0xFFFFFFFF .dIrqrel s
  | .dIrqrel => dIrqrel s
  | .dBh => dBh d s
  | .dBhwait => dBhwait s
  | .dTxwait => dTxwait s
  | .dAcc => dAcc s
  | .dRel => dRel s
  | .dDone => dDone s

end Sys2Proof.Machine
end

