-- ==== Sys2Proof/Machine/Coordinator.lean ====
section
/-! DEFINITION. 43_coordinator.md: IRQ_TOP, BH_SCHED, BH_RUN, and the micro-steps of the IRQ agent. -/

namespace Sys2Proof.Machine

/-! ### IRQ_TOP -/

/-- IRQ_TOP is enabled (R230): IRQ idle, the handler registered, and the line asserted or shared. -/
def State.irqTopEnabled (s : State) : Bool :=
  s.irq.pc == .idle && s.irq.registered && (s.lineAsserted || s.cfg.sharedLine)

/-- IRQ_TOP (R230): its issue step, which is interrupt entry (R353). -/
def execIrqTop (s : State) : Result :=
  take .irq s (if s.irqTopEnabled then .done s.enterIrq else .hold)

/-- IRQ_READ (R231): read and clear ICR once. -/
def irqRead (s : State) : Micro :=
  match regRead .irq RegName.icr.offset s with
  | .error f => .raise f
  | .ok (v, s1) => .done { s1 with irq := { s1.irq with v := v, pc := .sched } }

/-- BH_SCHED asked for by agent `x` (R232): the coordinator update, and the transaction on P_SCHED (R3, log entry 33). -/
def State.schedule (s : State) (x : Agent) : State := { s with coord := { s.coord with pending := true } }.emit (.bhSched x)

/-- IRQ_SCHED (R235): schedule the bottom half when the cause was not zero, report, and return (R355). -/
def irqSched (s : State) : Micro :=
  .done ((if s.irq.v != 0 then s.schedule .irq else s).returnIrq (irqResult s.cfg s.irq.v))

/-- The next micro-step of IRQ, by its pc (R29). -/
def irqMicro (s : State) : Micro :=
  match s.irq.pc with
  | .idle => .hold
  | .read => irqRead s
  | .sched => irqSched s

/-! ### BH_SCHED -/

/-- BH_SCHED by a harness on HOST (R232). -/
def bhSchedHost (s : State) : Micro :=
  if s.host.pc != .idle then .hold
  else if s.life == .detached then .raise (.notAttached .bhSched s.life)
  else .done (s.schedule .host)

/-- The IRQ agent's current micro-step asks for a bottom-half run: IRQ_SCHED with a cause that is not zero (R235). -/
def State.irqAsksRun (s : State) : Bool := s.irq.pc == .sched && s.irq.v != 0

/-- BH_SCHED (R232). With AG IRQ the word records the request made inside IRQ_SCHED: IRQ takes that micro-step (log entry 3). -/
def execBhSched (x : Agent) (s : State) : Result :=
  match x with
  | .host => take .host s (bhSchedHost s)
  | .irq => take .irq s (if s.irqAsksRun then irqSched s else .hold)
  | .bh => .next s.passTurn
  | .dev => .next s.passTurn
  | .memsys => .next s.passTurn
  | .txc _ => .next s.passTurn

/-! ### BH_RUN -/

/-- BH_RUN is enabled (R233). -/
def State.bhRunEnabled (s : State) : Bool := s.bh.pc == .idle && s.coord.pending && !s.coord.running

/-- The start step of BH_RUN (R233): the test and the update of both coordinator bits are one micro-step. -/
def State.startRun (s : State) : State := { s with coord := ⟨false, true⟩ }.bhGo .rxSnap

/-- BH_RUN (R233). -/
def execBhRun (s : State) : Result :=
  take .bh s (if s.bhRunEnabled then .done s.startRun else .hold)

/-- The end step of BH_RUN (R234), taken at pc RX_EXIT. -/
def State.endRun (s : State) : State := { s with coord := { s.coord with running := false } }.bhGo .idle

end Sys2Proof.Machine
end

