-- ==== Sys2Proof/Machine/RxDispatcher.lean ====
section
/-! DEFINITION. 41_rx_dispatcher.md: RX_RUN and its micro-steps. -/

namespace Sys2Proof.Machine

/-- RX_SNAP (R162): take the head snapshot. -/
def rxSnap (s : State) : Micro :=
  match regRead .bh RegName.rdh.offset s with
  | .error f => .raise f
  | .ok (v, s1) =>
    match indexOf s.cfg.nRx v with
    | none => .raise (.indexRange RegName.rdh.offset v)
    | some h => .done { s1 with bh := { s1.bh with h := h, pc := .rxTest } }

/-- RX_TEST (R163): the loop condition. -/
def rxTest (s : State) : Micro :=
  let n := nextIdx s.cfg.nRx s.bh.tail
  if n == s.bh.h then .done { s with bh := { s.bh with n := n, pc := .rxExit } }
  else
    match memRead .bh (s.rxdAddr n + 12) 1 s with
    | .error f => .raise f
    | .ok (bs, s1) =>
      .done { s1 with bh := { s1.bh with n := n, pc := if bs == [0x00] then .rxExit else .rxAlloc } }

/-- RX_ALLOC (R164): make sure an accumulator exists. Of the allocator's answer only ok or fail matters: "The accumulator's
addresses are not used by any rule" (R47, log entry 12). The request and its answer are the transaction on P_ALLOC (R3, log entry 33). -/
def rxAlloc (d : Draws) (s : State) : Micro :=
  match s.bh.acc with
  | some _ => .done (s.bhGo .rxAdv)
  | none =>
    let asked := s.emit (.allocAcc s.cfg.accCap d.alloc.isSome)
    match d.alloc with
    | none => .done ((asked.emit .rxAllocDefer).bhGo .rxExit)
    | some _ => .done { asked with bh := { asked.bh with acc := some [], pc := .rxAdv } }

/-- RX_ADV (R165): advance the local tail. -/
def rxAdv (s : State) : Micro := .done { s with bh := { s.bh with tail := s.bh.n, pc := .rxDesc } }

/-- RX_DESC (R166): read bytes 8..13 of the consumed descriptor. -/
def rxDesc (s : State) : Micro :=
  match memRead .bh (s.rxdAddr s.bh.tail + 8) 6 s with
  | .error f => .raise f
  | .ok (d, s1) =>
    let len := ofLeBytes (d.take 2)
    if s.cfg.rxBufSize < len then .raise (.rxLen s.bh.tail len)
    else
      .done { s1 with
        bh := { s1.bh with len := BitVec.ofNat 16 len, st := d.getD 4 0, err := d.getD 5 0, pc := .rxCopy } }

/-- RX_COPY (R167): append the slot's payload to the accumulator. A length of 0 makes no access. -/
def rxCopy (s : State) : Micro :=
  match s.bh.acc with
  | none => .stuck .accAbsent
  | some bytes =>
    if s.cfg.accCap < bytes.length + s.bh.len.toNat then
      .raise (.accOverflow s.bh.tail bytes.length s.bh.len.toNat)
    else if s.bh.len == 0 then .done (s.bhGo .rxEop)
    else
      match memRead .bh (s.rxbufAddr s.bh.tail) s.bh.len.toNat s with
      | .error f => .raise f
      | .ok (p, s1) => .done { s1 with bh := { s1.bh with acc := some (bytes ++ p), pc := .rxEop } }

/-- The record of a delivered frame (R168, R169). -/
def delivered (st err : Byte) (bytes : List Byte) : Delivered where
  bytes := bytes
  len := bytes.length
  csumHint := Config.csumHint st err
  proto := Config.proto bytes
  iface := Config.iface

/-- RX_EOP (R168): hand off a completed frame. -/
def rxEop (s : State) : Micro :=
  if isEop s.bh.st then
    match s.bh.acc with
    | none => .stuck .accAbsent
    | some bytes =>
      .done { s.emit (.deliver (delivered s.bh.st s.bh.err bytes)) with
        bh := { s.bh with acc := none, pc := .rxClear } }
  else .done (s.bhGo .rxClear)

/-- RX_CLEAR (R170): clear the consumed descriptor's status (posted). -/
def rxClear (s : State) : Micro :=
  (Micro.ofExcept (memWrite .bh (s.rxdAddr s.bh.tail + 12) [0x00] s)).andThen fun s1 => s1.bhGo .rxWmb

/-- RX_WMB (R171). -/
def rxWmb (s : State) : Micro := barrier .bh s fun s1 => s1.bhGo .rxPub

/-- RX_PUB (R172): publish the new tail. -/
def rxPub (s : State) : Micro :=
  (regWrite .bh RegName.rdt.offset (toWord s.bh.tail) s).andThen fun s1 => s1.bhGo .rxTest

/-- RX_EXIT (R173): the end step of BH_RUN (R234). -/
def rxExit (s : State) : Micro := .done s.endRun

/-- The next micro-step of BH, by its pc (R29, R161). -/
def bhMicro (d : Draws) (s : State) : Micro :=
  match s.bh.pc with
  | .idle => .hold
  | .rxSnap => rxSnap s
  | .rxTest => rxTest s
  | .rxAlloc => rxAlloc d s
  | .rxAdv => rxAdv s
  | .rxDesc => rxDesc s
  | .rxCopy => rxCopy s
  | .rxEop => rxEop s
  | .rxClear => rxClear s
  | .rxWmb => rxWmb s
  | .rxPub => rxPub s
  | .rxExit => rxExit s

/-- The draws of a micro-step taken under a record word, which carries none: the allocator's answer is a free value (log entry 3). -/
def State.recordDraws (s : State) : Draws where
  granted := true
  alloc := if Config.freeAnswer s.drawCount then some (0, 0) else none
  treat := .drain

/-- The current micro-step of BH asks the allocator for an accumulator (R164). -/
def State.bhAsksAlloc (s : State) : Bool := s.bh.pc == .rxAlloc && s.bh.acc.isNone

/-- RX_RUN (R160). Its issue step is BH_RUN's start (R29, R160); the word itself is a trace record of the run in progress (R114), and lets
BH take the run's next micro-step (log entry 3). With no run in progress it requests nothing. -/
def execRxRun (s : State) : Result :=
  take .bh s
    (bhMicro s.recordDraws (if s.bhAsksAlloc then { s with drawCount := s.drawCount + 1 } else s))

end Sys2Proof.Machine
end

