-- ==== Sys2Proof/Machine/TxDispatcher.lean ====
section
/-! DEFINITION. 42_tx_dispatcher.md: TX_SUBMIT and its micro-steps. -/

namespace Sys2Proof.Machine

/-- TX_SUBMIT's issue step (R200): the request on P_TX (R3, log entry 33), the operands of the call, and TX_LENCHK next. -/
def txIssue (k : Nat) (len : Half) (frame : List Byte) (s : State) : Micro :=
  match s.txc[k]? with
  | none => .hold
  | some t =>
    if t.pc == .idle then
      .done ((s.emit (.txSubmit k frame)).modTx k fun t => { t with frame := frame, len := len, pc := .lenchk })
    else .hold

/-- TX_SUBMIT (R200). -/
def execTxSubmit (k : Nat) (len : Half) (frame : List Byte) (s : State) : Result :=
  take (.txc k) s (txIssue k len frame s)

/-- The busy exit (R201, R205, R206, R214): one TxDrop, the result BUSY, the frame discarded. -/
def State.txBusy (s : State) (k : Nat) (reason : DropReason) : State :=
  ((s.emit (.txDrop k reason)).emit (.txResult k .busy)).modTx k fun t => { t with frame := [], pc := .idle }

/-- tx.lock released (R33). -/
def State.txRelease (s : State) : State := { s with txLock := none }

/-- TX_LENCHK (R201): the attachment and length checks. -/
def txLenchk (k : Nat) (t : TxAgent) (s : State) : Micro :=
  if s.life != .attached then .raise (.notAttached .txSubmit s.life)
  else if s.cfg.txMaxLen < t.len.toNat then .done (s.txBusy k .oversize)
  else .done (s.txGo k .lock)

/-- TX_LOCK (R203): the test and the set of tx.lock are one micro-step. -/
def txLockStep (k : Nat) (s : State) : Micro :=
  match s.txLock with
  | none => .done ({ s with txLock := some k }.txGo k .readtail)
  | some _ => .hold

/-- TX_READTAIL (R204). -/
def txReadtail (k : Nat) (s : State) : Micro :=
  match regRead (.txc k) RegName.tdt.offset s with
  | .error f => .raise f
  | .ok (v, s1) =>
    match indexOf s.cfg.nTx v with
    | none => .raise (.indexRange RegName.tdt.offset v)
    | some i => .done (s1.modTx k fun t => { t with t := i, pc := .check })

/-- TX_CHECK (R205): the done test. -/
def txCheck (k : Nat) (t : TxAgent) (s : State) : Micro :=
  match memRead (.txc k) (s.txdAddr t.t + 12) 1 s with
  | .error f => .raise f
  | .ok (bs, s1) =>
    if !txDone (bs.getD 0 0) then .done (s1.txRelease.txBusy k .ringFull)
    else if s.cfg.txKeepOneFree then .done (s1.txGo k .headchk)
    else .done (s1.txGo k .clrstat)

/-- TX_HEADCHK (R206): keep one slot free. -/
def txHeadchk (k : Nat) (t : TxAgent) (s : State) : Micro :=
  match regRead (.txc k) RegName.tdh.offset s with
  | .error f => .raise f
  | .ok (v, s1) =>
    match indexOf s.cfg.nTx v with
    | none => .raise (.indexRange RegName.tdh.offset v)
    | some h =>
      if nextIdx s.cfg.nTx t.t == h then .done (s1.txRelease.txBusy k .ringFull)
      else .done (s1.txGo k .clrstat)

/-- A posted write of TXC[k], then its next pc. -/
def txPost (k : Nat) (a : Nat) (bs : List Byte) (pc : TxPc) (s : State) : Micro :=
  (Micro.ofExcept (memWrite (.txc k) a bs s)).andThen fun s1 => s1.txGo k pc

/-- TX_CLRSTAT (R207). -/
def txClrstat (k : Nat) (t : TxAgent) (s : State) : Micro := txPost k (s.txdAddr t.t + 12) [0x00] .cmd s

/-- TX_CMD (R208): EOP and RS. -/
def txCmdStep (k : Nat) (t : TxAgent) (s : State) : Micro := txPost k (s.txdAddr t.t + 11) [txCmd] .len s

/-- TX_LEN (R209). -/
def txLen (k : Nat) (t : TxAgent) (s : State) : Micro :=
  txPost k (s.txdAddr t.t + 8) (leBytes 2 t.len.toNat) .copy s

/-- TX_COPY (R210): the payload as one entry. A length of 0 posts nothing, and is then not checked against TXBUF's liveness: DESIGN CHOICE
(log entry 37). -/
def txCopy (k : Nat) (t : TxAgent) (s : State) : Micro :=
  if t.frame.isEmpty then .done (s.txGo k .wmb) else txPost k (s.txbufAddr t.t) t.frame .wmb s

/-- TX_WMB (R211). -/
def txWmb (k : Nat) (s : State) : Micro := barrier (.txc k) s fun s1 => s1.txGo k .pub

/-- TX_PUB (R212): advance the hardware tail. -/
def txPub (k : Nat) (t : TxAgent) (s : State) : Micro :=
  (regWrite (.txc k) RegName.tdt.offset (toWord (nextIdx s.cfg.nTx t.t)) s).andThen fun s1 => s1.txGo k .unlock

/-- TX_UNLOCK (R213): release the lock and report success. -/
def txUnlock (k : Nat) (s : State) : Micro :=
  .done ((s.txRelease.emit (.txResult k .accepted)).modTx k fun t => { t with frame := [], pc := .idle })

/-- The next micro-step of TXC[k], by its pc (R29, R202). -/
def txMicro (k : Nat) (s : State) : Micro :=
  match s.txc[k]? with
  | none => .hold
  | some t =>
    match t.pc with
    | .idle => .hold
    | .lenchk => txLenchk k t s
    | .lock => txLockStep k s
    | .readtail => txReadtail k s
    | .check => txCheck k t s
    | .headchk => txHeadchk k t s
    | .clrstat => txClrstat k t s
    | .cmd => txCmdStep k t s
    | .len => txLen k t s
    | .copy => txCopy k t s
    | .wmb => txWmb k s
    | .pub => txPub k t s
    | .unlock => txUnlock k s

end Sys2Proof.Machine
end

