-- ==== Sys2Proof/Machine/RegInterface.lean ====
section
/-! DEFINITION. 44_register_interface.md: REG_RD, REG_WR, WMB and MEM_DRAIN. A REG_RD, REG_WR or WMB word of HOST is a request; one of
another engine agent records the primitive inside that agent's current micro-step (R114), and lets the agent take it (log entry 3). -/

namespace Sys2Proof.Machine

/-- The register that the current micro-step of agent `x` reads, if it reads one: RX_SNAP (R162), IRQ_READ (R231), TX_READTAIL (R204),
TX_HEADCHK (R206). -/
def State.readsReg (s : State) : Agent → Option RegName
  | .host => none
  | .irq => if s.irq.pc == .read then some .icr else none
  | .bh => if s.bh.pc == .rxSnap then some .rdh else none
  | .dev => none
  | .memsys => none
  | .txc k =>
    match s.txc[k]? with
    | none => none
    | some t => if t.pc == .readtail then some .tdt else if t.pc == .headchk then some .tdh else none

/-- The register write that the current micro-step of agent `x` makes, if it makes one: RX_PUB (R172), TX_PUB (R212). -/
def State.writesReg (s : State) : Agent → Option (RegName × Word)
  | .host => none
  | .irq => none
  | .bh => if s.bh.pc == .rxPub then some (.rdt, toWord s.bh.tail) else none
  | .dev => none
  | .memsys => none
  | .txc k =>
    match s.txc[k]? with
    | none => none
    | some t => if t.pc == .pub then some (.tdt, toWord (nextIdx s.cfg.nTx t.t)) else none

/-- The current micro-step of agent `x` is a write-memory barrier: RX_WMB (R171), TX_WMB (R211). -/
def State.atBarrier (s : State) : Agent → Bool
  | .host => false
  | .irq => false
  | .bh => s.bh.pc == .rxWmb
  | .dev => false
  | .memsys => false
  | .txc k =>
    match s.txc[k]? with
    | none => false
    | some t => t.pc == .wmb

/-- The next micro-step of an agent whose micro-steps a record word may name (R114). None of the steps so recorded draws, so the
draws given here are not read. -/
def recorded (x : Agent) (s : State) : Micro :=
  match x with
  | .host => .hold
  | .irq => irqMicro s
  | .bh => bhMicro s.recordDraws s
  | .dev => .hold
  | .memsys => .hold
  | .txc k => txMicro k s

/-! ### REG_RD -/

/-- A stand-alone REG_RD (R251): HOST at HOST_IDLE. The value is returned on P_MMIO, as the Reg event. -/
def regRdHost (off : Nat) (s : State) : Micro :=
  if s.host.pc != .idle then .hold
  else
    match regRead .host off s with
    | .error f => .raise f
    | .ok (_, s1) => .done s1

/-- REG_RD (R251). -/
def execRegRd (x : Agent) (off : Half) (s : State) : Result :=
  match x with
  | .host => take .host s (regRdHost off.toNat s)
  | y => take y s (if (s.readsReg y).map RegName.offset == some off.toNat then recorded y s else .hold)

/-! ### REG_WR -/

/-- The registers a stand-alone REG_WR may not change (R256, R261): bases, lengths and tails. -/
def RegName.isGeometry : RegName → Bool
  | .rdbal => true
  | .rdbah => true
  | .rdlen => true
  | .tdbal => true
  | .tdbah => true
  | .tdlen => true
  | .rdt => true
  | .tdt => true
  | .ctrl => false
  | .icr => false
  | .ims => false
  | .imc => false
  | .rdh => false
  | .tdh => false

/-- A stand-alone REG_WR (R256): the checks of R250, then the F_REG_VALUE check of R261, then the write (R352). -/
def regWrHost (off : Nat) (v : Word) (s : State) : Micro :=
  if s.host.pc != .idle || s.mmioHolds .host then .hold
  else
    match regWriteCheck off v s with
    | .error f => .raise f
    | .ok r =>
      if r.isGeometry && v != s.regValue r then .raise (.regValue off v)
      else regStore .host r off v s

/-- REG_WR (R256). -/
def execRegWr (x : Agent) (off : Half) (v : Word) (s : State) : Result :=
  match x with
  | .host => take .host s (regWrHost off.toNat v s)
  | y =>
    take y s
      (if (s.writesReg y).map (fun p => (p.1.offset, p.2)) == some (off.toNat, v) then recorded y s else .hold)

/-! ### WMB -/

/-- A stand-alone WMB (R262): HOST at HOST_IDLE; it holds until W[HOST] is empty and then completes. -/
def wmbHost (s : State) : Micro := if s.host.pc != .idle then .hold else barrier .host s id

/-- WMB (R262). -/
def execWmb (x : Agent) (s : State) : Result :=
  match x with
  | .host => take .host s (wmbHost s)
  | y => take y s (if s.atBarrier y then recorded y s else .hold)

/-! ### MEM_DRAIN -/

/-- MEM_DRAIN (R263): MEMSYS makes the entry of W[x] at position `pos` visible. -/
def execMemDrain (x : Agent) (pos : Half) (s : State) : Result := take .memsys s (land x pos.toNat s)

end Sys2Proof.Machine
end

