-- ==== Sys2Proof/Machine/Schedule.lean ====
section
/-! DEFINITION. The schedule (R1, R42): whose turn comes next, the micro-steps by agent, fetching a command word, refusing one. -/

namespace Sys2Proof.Machine

/-- A turn given to an agent: its next micro-step with that step's draws (R1, R29). DEV and MEMSYS have no pc: each of their operations
is one command word. -/
def runMicro (x : Agent) (d : Draws) (s : State) : Result :=
  match x with
  | .host => take .host s (hostMicro d s)
  | .irq => take .irq s (irqMicro s)
  | .bh => take .bh s (bhMicro d s)
  | .dev => .next s.passTurn
  | .memsys => .next s.passTurn
  | .txc k => take (.txc k) s (txMicro k s)

/-- A word that spells no operation (R119): refused becomes true and nothing else changes. -/
def State.refuseWord (s : State) : State := { s with refused := true }

/-- The operation that a turn's stored command word spells (R115). -/
def State.decodeTurn (s : State) (cmd : List Byte) (oob : Oob) : Option Instr := decode s.cfg.nTxc cmd oob

/-- A command word placed where the next turn is taken, with its bytes in their stored order and an out-of-band operand of zeros. -/
def State.pushWord (s : State) (w : Word) : State :=
  { s with script := .word (wordBytes w) (zeroOob w) :: s.script }

end Sys2Proof.Machine
end

