-- ==== Sys2Proof/Machine/Dispatch.lean ====
section
/-! DEFINITION. The dispatch: one arm for each constructor of Instr, each a direct call of its meaning. -/

namespace Sys2Proof.Machine

def exec (i : Instr) (s : State) : Host.Outcome State Fault Refusal :=
  match i with
  -- 43_coordinator.md
  | .irqTop => Sys2Proof.Machine.execIrqTop s
  | .bhSched x => Sys2Proof.Machine.execBhSched x s
  | .bhRun => Sys2Proof.Machine.execBhRun s
  -- 41_rx_dispatcher.md
  | .rxRun => Sys2Proof.Machine.execRxRun s
  -- 42_tx_dispatcher.md
  | .txSubmit k len frame => Sys2Proof.Machine.execTxSubmit k len frame s
  -- 44_register_interface.md
  | .regRd x off => Sys2Proof.Machine.execRegRd x off s
  | .regWr x off v => Sys2Proof.Machine.execRegWr x off v s
  | .wmb x => Sys2Proof.Machine.execWmb x s
  | .memDrain x pos => Sys2Proof.Machine.execMemDrain x pos s
  -- 45_device.md
  | .devRxClaim => Sys2Proof.Machine.execDevRxClaim s
  | .devRxWb d => Sys2Proof.Machine.execDevRxWb d s
  | .devTxXmit => Sys2Proof.Machine.execDevTxXmit s
  | .devCause c => Sys2Proof.Machine.execDevCause c s
  | .devRstDone d => Sys2Proof.Machine.execDevRstDone d s
  | .devWireIn len frame => Sys2Proof.Machine.execDevWireIn len frame s
  | .devRxDrop => Sys2Proof.Machine.execDevRxDrop s
  -- 46_lifecycle.md
  | .attach => Sys2Proof.Machine.execAttach s
  | .detach => Sys2Proof.Machine.execDetach s

end Sys2Proof.Machine
end

