-- ==== Sys2Proof/Machine/Step.lean ====
section
/-! DEFINITION. One step of the block and its environment: the next turn of the schedule. -/

namespace Sys2Proof.Machine

/-- One turn of the schedule (R1, R2), already taken off it: a command word is decoded and executed, or refused (R115, R119); a micro-step
is taken. -/
def runTurn (t : Turn) (s : State) : Host.Outcome State Fault Refusal :=
  match t with
  | .word cmd oob =>
    match s.decodeTurn cmd oob with
    | some i => exec i s
    | none => .next s.refuseWord
  | .micro x d => runMicro x d s

/-- Parameters that break R6 are refused as a whole (R131): `r` where they meet it. -/
def State.configured (s : State) (r : Host.Outcome State Fault Refusal) : Host.Outcome State Fault Refusal :=
  if s.cfg.valid then r else .refused .badConfig

/-- One step: the next turn of the schedule; nothing where the schedule has none (log entry 1). -/
def step (s : State) : Host.Outcome State Fault Refusal :=
  match s.script with
  | [] => s.configured (.next s)
  | t :: rest => s.configured (runTurn t { s with script := rest })

/-- `s` with a table word stored where the next turn is taken, with an out-of-band operand of zeros. -/
def State.withFetchWord (s : State) (nbits w : Nat) : State := s.pushWord (tableWord nbits w)

end Sys2Proof.Machine
end

