-- ==== Sys2Proof/Machine/Assembly.lean ====
section
/-! DEFINITION. The assembler syntax (30_encoding.md R120, R121): the text of an operation, and the pseudo-instructions. -/

namespace Sys2Proof.Machine

/-- The name of a register (R100). -/
def RegName.text : RegName → String
  | .ctrl => "CTRL"
  | .icr => "ICR"
  | .ims => "IMS"
  | .imc => "IMC"
  | .rdbal => "RDBAL"
  | .rdbah => "RDBAH"
  | .rdlen => "RDLEN"
  | .rdh => "RDH"
  | .rdt => "RDT"
  | .tdbal => "TDBAL"
  | .tdbah => "TDBAH"
  | .tdlen => "TDLEN"
  | .tdh => "TDH"
  | .tdt => "TDT"

/-- A register name, or the offset where it names none (R120). -/
def offsetText (off : Nat) : String :=
  match regOfOffset off with
  | some r => r.text
  | none => toString off

/-- A byte list (R120). -/
def bytesText (bs : List Byte) : String :=
  "[" ++ String.intercalate " " (bs.map fun b => toString b.toNat) ++ "]"

/-- The name of an agent, as the examples of R120 and R263 write it. -/
def agentText : Agent → String
  | .host => "host"
  | .irq => "irq"
  | .bh => "bh"
  | .dev => "dev"
  | .memsys => "memsys"
  | .txc k => "txc" ++ toString k

/-- The textual form of an operation (R120). A REG_RD, REG_WR or WMB of an agent other than HOST has none: the syntax
names no agent there. -/
def instrText : Instr → Option String
  | .irqTop => some "irq.top"
  | .bhSched x => if x == .host then some "bh.sched host" else some "bh.sched"
  | .bhRun => some "bh.run"
  | .rxRun => some "rx.run"
  | .txSubmit k len frame =>
    some ("tx.submit " ++ toString k ++ ", " ++ toString len.toNat ++ ", " ++ bytesText frame)
  | .regRd x off => if x == .host then some ("reg.rd " ++ offsetText off.toNat) else none
  | .regWr x off v =>
    if x == .host then some ("reg.wr " ++ offsetText off.toNat ++ ", " ++ toString v.toNat) else none
  | .wmb x => if x == .host then some "wmb" else none
  | .memDrain x pos => some ("mem.drain " ++ agentText x ++ ", " ++ toString pos.toNat)
  | .devRxClaim => some "dev.rx.claim"
  | .devRxWb d =>
    some ("dev.rx.wb csum=" ++ toString d.csum.toNat ++ ", sta=" ++ toString d.xsta.toNat ++ ", err="
      ++ toString d.err.toNat ++ ", special=" ++ toString d.special.toNat)
  | .devTxXmit => some "dev.tx.xmit"
  | .devCause c => some ("dev.cause " ++ toString c.toNat)
  | .devRstDone _ => some "dev.rst.done"
  | .devWireIn len frame => some ("dev.wire.in " ++ toString len.toNat ++ ", " ++ bytesText frame)
  | .devRxDrop => some "dev.rx.drop"
  | .attach => some "attach"
  | .detach => some "detach"

/-! ### Pseudo-instructions (R121) -/

/-- `rx.poll`. -/
def rxPoll : List Instr := [.bhSched .host, .bhRun]

/-- The number of slots a frame takes: `max(1, ceil(len / RX_BUF_SIZE))`. -/
def slotsOfFrame (c : Config) (len : Nat) : Nat := max 1 ((len + c.rxBufSize - 1) / c.rxBufSize)

/-- `dev.rx.frame len, [bytes]`. -/
def devRxFrame (c : Config) (len : Half) (frame : List Byte) : List Instr :=
  .devWireIn len frame
    :: (List.replicate (slotsOfFrame c len.toNat) [Instr.devRxClaim, Instr.devRxWb WbDraws.zero]).flatten

/-- `drain.all AGENT`, where W[AGENT] holds `n` entries. -/
def drainAll (x : Agent) (n : Nat) : List Instr := List.replicate n (.memDrain x 0)

/-- `tx.send k, len, [bytes]`, where `n` entries are posted. -/
def txSend (k : Nat) (len : Half) (frame : List Byte) (n : Nat) : List Instr :=
  .txSubmit k len frame :: (drainAll (.txc k) n ++ [.devTxXmit])

end Sys2Proof.Machine
end

