-- ==== Sys2Proof/Machine/Ring.lean ====
section
/-! DEFINITION. 40_ring.md: the granted, pending and in-flight regions and the state of each slot. All of it is a function of the state; no
step reads it. -/

namespace Sys2Proof.Machine

/-- The `c` slots from `first` on, around a ring of depth `n`. -/
def slotsFrom (n first c : Nat) : List Nat := (List.range c).map fun j => (first + j) % n

/-- The region between a head and a tail: the granted region G of a receive ring (R134), the in-flight region F of a transmit
ring (R140). -/
def headToTail (n head tail : Nat) : List Nat := slotsFrom n head (dist n head tail)

/-- The pending region P of a receive ring (R135). -/
def pendingSlots (n head tail : Nat) : List Nat := slotsFrom n (tail + 1) ((dist n tail head + n - 1) % n)

/-- G in a state (R134). -/
def State.grantedSlots (s : State) : List Nat := headToTail s.cfg.nRx s.regs.rdh.toNat s.regs.rdt.toNat

/-- P in a state (R135). -/
def State.pendingSlots (s : State) : List Nat :=
  Sys2Proof.Machine.pendingSlots s.cfg.nRx s.regs.rdh.toNat s.regs.rdt.toNat

/-- F in a state (R140). -/
def State.inFlightSlots (s : State) : List Nat := headToTail s.cfg.nTx s.regs.tdh.toNat s.regs.tdt.toNat

/-- The states of a receive slot (R136). -/
inductive RxSlot where
  | granted | claimed | done | consuming | held
  deriving DecidableEq, Repr

/-- The set C of BH pc values (R136). -/
def BhPc.consuming : BhPc → Bool
  | .rxDesc => true
  | .rxCopy => true
  | .rxEop => true
  | .rxClear => true
  | .rxWmb => true
  | .rxPub => true
  | .idle => false
  | .rxSnap => false
  | .rxTest => false
  | .rxAlloc => false
  | .rxAdv => false
  | .rxExit => false

/-- The state of receive slot `i` (R136); `none` where no row of the table holds. The CONSUMING slot is taken out of P. -/
def State.rxSlot (s : State) (i : Nat) : Option RxSlot :=
  if s.bh.pc.consuming && i == s.bh.tail then some .consuming
  else if i == s.regs.rdt.toNat then some .held
  else if s.grantedSlots.contains i then some .granted
  else if s.pendingSlots.contains i then
    if s.dev.rxClaimed.any fun c => c.slot == i then some .claimed else some .done
  else none

/-- The states of a transmit slot (R141). -/
inductive TxSlot where
  | claiming | inFlight | free | blocked
  deriving DecidableEq, Repr

/-- The pc values in which a caller programs its slot (R141). -/
def TxPc.claiming : TxPc → Bool
  | .clrstat => true
  | .cmd => true
  | .len => true
  | .copy => true
  | .wmb => true
  | .pub => true
  | .idle => false
  | .lenchk => false
  | .lock => false
  | .readtail => false
  | .check => false
  | .headchk => false
  | .unlock => false

/-- Some caller holds tx.lock and programs slot `i` (R141). -/
def State.txClaims (s : State) (i : Nat) : Bool :=
  match s.txLock with
  | none => false
  | some k =>
    match s.txc[k]? with
    | none => false
    | some t => t.pc.claiming && i == t.t

/-- The state of transmit slot `i` (R141): FREE and BLOCKED by the DD bit of its status byte in memory; `none` where that byte holds no
value. -/
def State.txSlot (s : State) (i : Nat) : Option TxSlot :=
  if s.txClaims i then some .claiming
  else if s.inFlightSlots.contains i then some .inFlight
  else
    match s.mem.get (s.regions.txdesc.dma + descSize * i + 12) with
    | none => none
    | some st => some (if txDone st then .free else .blocked)

end Sys2Proof.Machine
end

