-- ==== Sys2Proof/Safety.lean ====
section
/-! DEFINITION. What counts as a safe state, the cold and the attached state, and the invariants that claims about the machine name. -/

namespace Sys2Proof.Machine

/-! ### Safe runs, cold and attached states -/

/-- Nothing has gone wrong in the run so far: no fault (R40) and no refused word (R41, R119). -/
def State.safe (s : State) : Prop := s.faults = [] ∧ s.refused = false

/-- Every agent is idle and nothing is posted. -/
def State.agentsIdle (s : State) : Prop :=
  s.host.pc = .idle ∧ s.irq.pc = .idle ∧ s.bh.pc = .idle ∧ (∀ c ∈ s.txc, c.pc = .idle)
    ∧ s.host.posted = [] ∧ s.irq.posted = [] ∧ s.bh.posted = [] ∧ (∀ c ∈ s.txc, c.posted = [])

/-- The cold state (R324, R381), less what a run keeps in any case: the register values, the wire queues, the record of the run. -/
def State.cold (s : State) : Prop :=
  s.life = .detached ∧ s.acquired = [] ∧ s.agentsIdle
    ∧ (∀ k, (s.regions.get k).live = false) ∧ s.mem = []
    ∧ s.irq.registered = false ∧ s.bh.acc = none ∧ s.txLock = none ∧ s.coord = ⟨false, false⟩
    ∧ s.dev.rxEnabled = false ∧ s.dev.txEnabled = false ∧ s.dev.cur = none ∧ s.dev.rxClaimed = []
    ∧ s.dev.resetBusy = false

/-- What ATTACH acquires, in order (R21). -/
def fullAcquired : List Resource :=
  [.map, .region .rxdesc, .region .rxbuf, .region .txdesc, .region .txbuf, .irq]

/-- The attached state (R312), whose clauses hold at A_DONE if no other agent stepped during ATTACH. -/
def State.attached (s : State) : Prop :=
  s.life = .attached ∧ s.acquired = fullAcquired ∧ s.irq.registered = true ∧ s.agentsIdle
    ∧ (∀ k, (s.regions.get k).live = true)
    ∧ (∀ i < s.cfg.nRx, ∀ j < 16,
        s.mem.get (s.regions.rxdesc.dma + 16 * i + j)
          = (rxdBytes (s.regions.rxbuf.dma + i * s.cfg.rxBufSize) 0 0 0 0 0)[j]?)
    ∧ (∀ i < s.cfg.nTx, ∀ j < 16,
        s.mem.get (s.regions.txdesc.dma + 16 * i + j)
          = (txdBytes (s.regions.txbuf.dma + i * s.cfg.txBufSize) 0 0 0 s.cfg.txInitStatus 0 0)[j]?)
    ∧ ringBase s.regs.rdbah s.regs.rdbal = s.regions.rxdesc.dma ∧ s.regs.rdlen.toNat = s.cfg.nRx * 16
    ∧ s.regs.rdh = 0 ∧ s.regs.rdt.toNat = s.cfg.nRx - 1
    ∧ ringBase s.regs.tdbah s.regs.tdbal = s.regions.txdesc.dma ∧ s.regs.tdlen.toNat = s.cfg.nTx * 16
    ∧ s.regs.tdh = 0 ∧ s.regs.tdt = 0
    ∧ s.regs.ims = s.cfg.imsInit ∧ s.regs.ctrl.getLsbD 26 = false ∧ s.regs.ctrl.getLsbD 5 = true
    ∧ s.regs.ctrl.getLsbD 6 = true
    ∧ s.bh.tail = s.cfg.nRx - 1 ∧ s.bh.acc = none ∧ s.coord = ⟨false, false⟩ ∧ s.txLock = none
    ∧ s.dev = { rxEnabled := true, txEnabled := true, cur := none, rxClaimed := [], resetBusy := false }

/-! ### Who takes a step -/

/-- The agent that takes the step of an operation (R114, R358): the agent its word names, but MEMSYS for MEM_DRAIN. -/
def Instr.actor : Instr → Agent
  | .irqTop => .irq
  | .bhSched x => x
  | .bhRun => .bh
  | .rxRun => .bh
  | .txSubmit k _ _ => .txc k
  | .regRd x _ => x
  | .regWr x _ _ => x
  | .wmb x => x
  | .memDrain _ _ => .memsys
  | .devRxClaim => .dev
  | .devRxWb _ => .dev
  | .devTxXmit => .dev
  | .devCause _ => .dev
  | .devRstDone _ => .dev
  | .devWireIn _ _ => .dev
  | .devRxDrop => .dev
  | .attach => .host
  | .detach => .host

/-- Agent `x` takes a step from `s` to `t`: one of its operations, or its next micro-step (R1, R2). -/
def State.moves (s : State) (x : Agent) (t : State) : Prop :=
  (∃ i, Instr.actor i = x ∧ exec i s = .next t) ∨ ∃ d, runMicro x d s = .next t

/-- HOST takes one micro-step for each draw of the list, and nobody else steps. -/
def hostSteps : List Draws → State → Result
  | [], s => .next s
  | d :: ds, s =>
    match runMicro .host d s with
    | .next t => hostSteps ds t
    | .fault f => .fault f
    | .refused r => .refused r

/-- The constraints of R6 on the parameters, as the "constraint" column reads, and R111's bound on N_TXC, whose tags end at 0xFF (log
entry 5). -/
def Config.meets (c : Config) : Prop :=
  c.nRx % 8 = 0 ∧ 8 ≤ c.nRx ∧ c.nRx * 16 ≤ 0xFFF80 ∧ c.nTx % 8 = 0 ∧ 8 ≤ c.nTx ∧ c.nTx * 16 ≤ 0xFFF80
    ∧ 1 ≤ c.rxBufSize ∧ c.rxBufSize ≤ 65535 ∧ 1 ≤ c.txBufSize ∧ c.txBufSize ≤ 65535 ∧ 1 ≤ c.accCap ∧ 1 ≤ c.mtuLen
    ∧ 1 ≤ c.resetPollMax ∧ 1 ≤ c.nTxc ∧ c.nTxc ≤ 0xF0 ∧ 128 ≤ c.dmaAlign ∧ ∃ e, c.dmaAlign = 2 ^ e

/-- Memory `m'` is `m` but for the bytes `bs` at address `a`: every other address reads as before. -/
def Memory.differsBy (m m' : Memory) (a : Nat) (bs : List Byte) : Prop :=
  (∀ i < bs.length, m'.get (a + i) = bs[i]?) ∧ ∀ b, b < a ∨ a + bs.length ≤ b → m'.get b = m.get b

/-- The entry `e` at position `pos` of a posted-write list may become visible next (R68): under FIFO the oldest one, under ANY one that overlaps no
older entry, under SC none, since the list is empty there. -/
def landsNext (o : PostedOrder) (w : List Posted) (pos : Nat) (e : Posted) : Prop :=
  match o with
  | .fifo => pos = 0
  | .any => ∀ j < pos, ∀ p, w[j]? = some p →
      p.addr + p.bytes.length ≤ e.addr ∨ e.addr + e.bytes.length ≤ p.addr
  | .sc => False

/-! ### The phases of ATTACH and DETACH -/

/-- Where HOST is: between operations, in ATTACH after A_CHECK, or in DETACH after D_CHECK (R310, R313, R320). -/
inductive Phase where
  | calm | attaching | detaching
  deriving DecidableEq, Repr

/-- The phase of a HOST pc. -/
def HostPc.phase : HostPc → Phase
  | .idle | .aCheck | .dCheck => .calm
  | .aMap | .aRstRd | .aRstWr | .aPoll | .aLinkRd | .aLinkWr | .aRxdesc | .aRxbuf | .aTxdesc | .aTxbuf | .aInitRx
  | .aInitTx | .aWmb | .aRdbal | .aRdbah | .aRdlen | .aRdt | .aTdbal | .aTdbah | .aTdlen | .aTdt | .aState | .aIrq
  | .aIms | .aEnable | .aDone | .aUnwind | .aFailed => .attaching
  | .dQuiesce | .dImc | .dIrqrel | .dBh | .dBhwait | .dTxwait | .dAcc | .dRel | .dDone => .detaching

/-- The invariant of `life` (R21, R310, R320): it says which operation HOST is in. -/
def State.lifeInv (s : State) : Prop :=
  match s.host.pc.phase with
  | .calm => s.life = .detached ∨ s.life = .attached
  | .attaching => s.life = .attaching
  | .detaching => s.life = .detaching

/-- HOST has no handler registered and no run asked for: cold, in ATTACH up to A_IRQ, in the unwind, or in DETACH after D_BHWAIT. -/
def State.beforeIrq (s : State) : Prop :=
  s.life = .detached ∨ s.host.pc ∈ ([.aMap, .aRstRd, .aRstWr, .aPoll, .aLinkRd, .aLinkWr, .aRxdesc, .aRxbuf, .aTxdesc,
    .aTxbuf, .aInitRx, .aInitTx, .aWmb, .aRdbal, .aRdbah, .aRdlen, .aRdt, .aTdbal, .aTdbah, .aTdlen, .aTdt, .aState,
    .aIrq, .aUnwind, .aFailed, .dTxwait, .dAcc, .dRel, .dDone] : List HostPc)

/-- The invariant of the coordinator (R236): one runner exactly while BH is not idle, and nothing to run before the handler is
registered or after D_BHWAIT (R322). -/
def State.coordInv (s : State) : Prop :=
  s.lifeInv
    ∧ (s.coord.running = true ↔ s.bh.pc ≠ .idle)
    ∧ (s.beforeIrq → s.irq.registered = false ∧ s.irq.pc = .idle ∧ s.coord = ⟨false, false⟩)
    ∧ (s.host.pc = .dBh ∨ s.host.pc = .dBhwait → s.irq.registered = false ∧ s.irq.pc = .idle)

/-- The pc values between TX_LOCK and TX_UNLOCK (R217). -/
def TxPc.critical : TxPc → Bool
  | .idle | .lenchk | .lock => false
  | .readtail | .check | .headchk | .clrstat | .cmd | .len | .copy | .wmb | .pub | .unlock => true

/-- No transmit call gets past TX_LENCHK: cold, in ATTACH, or in DETACH after D_TXWAIT (R220, R322). -/
def State.noTransmit (s : State) : Prop :=
  s.life = .detached ∨ s.host.pc.phase = .attaching ∨ s.host.pc = .dAcc ∨ s.host.pc = .dRel ∨ s.host.pc = .dDone

/-- The invariant of the transmit lock (R33, R217): a caller between TX_LOCK and TX_UNLOCK holds it. -/
def State.txInv (s : State) : Prop :=
  s.lifeInv
    ∧ (∀ (k : Nat) (c : TxAgent), s.txc[k]? = some c → c.pc.critical = true → s.txLock = some k)
    ∧ (s.noTransmit → s.txLock = none ∧ ∀ c ∈ s.txc, c.pc = .idle ∨ c.pc = .lenchk)

/-! ### Resources and memory -/

/-- What `acquired` may be, by the micro-step HOST is at (R310, R313, R314, R320). -/
def State.acquiredOk (s : State) : Prop :=
  match s.host.pc with
  | .idle | .aCheck | .dCheck => s.acquired = if s.life = .detached then [] else fullAcquired
  | .aMap | .aFailed | .dDone => s.acquired = []
  | .aRstRd | .aRstWr | .aPoll | .aLinkRd | .aLinkWr | .aRxdesc => s.acquired = fullAcquired.take 1
  | .aRxbuf => s.acquired = fullAcquired.take 2
  | .aTxdesc => s.acquired = fullAcquired.take 3
  | .aTxbuf => s.acquired = fullAcquired.take 4
  | .aInitRx | .aInitTx | .aWmb | .aRdbal | .aRdbah | .aRdlen | .aRdt | .aTdbal | .aTdbah | .aTdlen | .aTdt | .aState
  | .aIrq | .dBh | .dBhwait | .dTxwait | .dAcc => s.acquired = fullAcquired.take 5
  | .aIms | .aEnable | .aDone | .dQuiesce | .dImc | .dIrqrel => s.acquired = fullAcquired
  | .aUnwind | .dRel => ∃ n, 1 ≤ n ∧ n ≤ 5 ∧ s.acquired = fullAcquired.take n

/-- The invariant of the resources: what is acquired is what HOST has taken so far, in order (R21, R314), and the regions that are live and the
handler's registration are exactly what is acquired (R25, R35). -/
def State.resourceInv (s : State) : Prop :=
  s.lifeInv ∧ s.acquiredOk
    ∧ (∀ k, (s.regions.get k).live = true ↔ Resource.region k ∈ s.acquired)
    ∧ (s.irq.registered = true ↔ Resource.irq ∈ s.acquired)

/-- The invariant of coherent memory: the canonical form, and no byte outside the live regions (R25, R62). -/
def State.memInv (s : State) : Prop :=
  s.resourceInv ∧ Memory.wf s.mem ∧ ∀ p ∈ s.mem, s.dmaLive p.1 = true

/-- The invariant of the live regions: aligned, inside the DMA space, and pairwise apart in both address spaces (R47, R77). -/
def State.regionInv (s : State) : Prop :=
  (∀ k, (s.regions.get k).live = true →
      (s.regions.get k).dma % s.cfg.dmaAlign = 0
        ∧ (s.regions.get k).dma + regionSize s.cfg k ≤ 2 ^ 64)
    ∧ ∀ k j, k ≠ j → (s.regions.get k).live = true → (s.regions.get j).live = true →
      disjointRanges (s.regions.get k).dma (regionSize s.cfg k) (s.regions.get j).dma (regionSize s.cfg j) = true
        ∧ disjointRanges (s.regions.get k).loc (regionSize s.cfg k) (s.regions.get j).loc (regionSize s.cfg j) = true

/-! ### Indices, lengths and posted writes -/

/-- Where HOST stands in ATTACH after its reset is done: after A_POLL, up to A_DONE (R310). -/
def HostPc.resetOver (pc : HostPc) : Prop :=
  pc ∈ ([.aLinkRd, .aLinkWr, .aRxdesc, .aRxbuf, .aTxdesc, .aTxbuf, .aInitRx, .aInitTx, .aWmb, .aRdbal, .aRdbah, .aRdlen,
    .aRdt, .aTdbal, .aTdbah, .aTdlen, .aTdt, .aState, .aIrq, .aIms, .aEnable, .aDone] : List HostPc)

/-- The invariant of the ring lengths (R261, R293, R310, R312): each is 0 or the configured one, and it is the configured one where a unit of the
device uses it, and in ATTACH from its write on, since no device reset is in progress there. -/
def State.ringLenInv (s : State) : Prop :=
  (s.regs.rdlen = 0 ∨ s.regs.rdlen.toNat = s.cfg.nRx * 16)
    ∧ (s.regs.tdlen = 0 ∨ s.regs.tdlen.toNat = s.cfg.nTx * 16)
    ∧ (s.dev.rxEnabled = true ∨ s.host.pc ∈ ([.aRdt, .aTdbal, .aTdbah, .aTdlen, .aTdt, .aState, .aIrq, .aIms, .aEnable] :
        List HostPc) → s.regs.rdlen.toNat = s.cfg.nRx * 16)
    ∧ (s.dev.txEnabled = true ∨ s.host.pc ∈ ([.aTdt, .aState, .aIrq, .aIms, .aEnable] : List HostPc) →
        s.regs.tdlen.toNat = s.cfg.nTx * 16)
    ∧ (s.host.pc.resetOver → s.dev.resetBusy = false)
    ∧ (s.host.pc = .aLinkWr → s.host.c.getLsbD 26 = false)

/-- The invariant of the indices (R132): every head, tail and working index is one of its ring, whose length is the configured one where DEV moves a
head by it. -/
def State.indexInv (s : State) : Prop :=
  s.bh.tail < s.cfg.nRx ∧ s.bh.h < s.cfg.nRx ∧ s.bh.n < s.cfg.nRx ∧ (∀ c ∈ s.txc, c.t < s.cfg.nTx)
    ∧ s.regs.rdh.toNat < s.cfg.nRx ∧ s.regs.rdt.toNat < s.cfg.nRx
    ∧ s.regs.tdh.toNat < s.cfg.nTx ∧ s.regs.tdt.toNat < s.cfg.nTx
    ∧ s.ringLenInv

/-- The invariant of the lengths (R31, R32, R147, R287): the accumulator, a consumed length, a claimed chunk, a checked frame; and of the reset
poll (R48, R315). -/
def State.lengthInv (s : State) : Prop :=
  (∀ bytes, s.bh.acc = some bytes → bytes.length ≤ s.cfg.accCap)
    ∧ (s.bh.pc ∈ ([.rxCopy, .rxEop, .rxClear, .rxWmb, .rxPub] : List BhPc) → s.bh.len.toNat ≤ s.cfg.rxBufSize)
    ∧ (∀ c ∈ s.dev.rxClaimed, c.chunk.length ≤ s.cfg.rxBufSize
        ∧ (c.eop = false → c.chunk.length = s.cfg.rxBufSize))
    ∧ (∀ c ∈ s.txc, (c.pc ≠ .idle → c.frame.length = c.len.toNat)
        ∧ (c.pc ≠ .idle → c.pc ≠ .lenchk → c.len.toNat ≤ s.cfg.txMaxLen))
    ∧ (s.host.pc = .aPoll → s.host.polls < s.cfg.resetPollMax)

/-- The invariant of the posted writes (R322, R390, R391): an agent has some only between a write and the barrier after it, and under
POSTED_ORDER = SC none has any (R36). -/
def State.postedInv (s : State) : Prop :=
  s.irq.posted = []
    ∧ (s.bh.pc ≠ .rxWmb → s.bh.posted = [])
    ∧ (s.host.pc ≠ .aInitTx → s.host.pc ≠ .aWmb → s.host.posted = [])
    ∧ (∀ c ∈ s.txc, c.pc ∉ ([.cmd, .len, .copy, .wmb] : List TxPc) → c.posted = [])
    ∧ (s.cfg.postedOrder = .sc → ∀ x, s.posted x = [])

/-- The device's DMA is off: cold, in ATTACH up to A_ENABLE, or in DETACH after D_QUIESCE (R37, R294, R393). -/
def State.dmaOff (s : State) : Prop :=
  s.life = .detached ∨ (s.host.pc.phase = .attaching ∧ s.host.pc ≠ .aDone)
    ∨ (s.host.pc.phase = .detaching ∧ s.host.pc ≠ .dQuiesce)

/-- The invariant of the device units (R294, R322): no DMA while the regions come and go. -/
def State.devInv (s : State) : Prop :=
  s.lifeInv
    ∧ (s.dmaOff → s.dev.rxEnabled = false ∧ s.dev.txEnabled = false ∧ s.dev.cur = none ∧ s.dev.rxClaimed = [])

/-- Everything together that keeps the engine agents inside their registers and regions (R344): with it, every posted write still lies in a
live region. -/
def State.engineInv (s : State) : Prop :=
  s.coordInv ∧ s.txInv ∧ s.memInv ∧ s.regionInv ∧ s.indexInv ∧ s.lengthInv ∧ s.postedInv
    ∧ ∀ x, ∀ e ∈ s.posted x, s.localRegion e.addr e.bytes.length ≠ none

/-! ### The record of the run -/

/-- The invariant of the record (R40, R342, R343): the fault set and the stopped agents are those of the Fault events. -/
def State.recordInv (s : State) : Prop :=
  (∀ c, c ∈ s.faults ↔ ∃ x f, Event.fault c x f ∈ s.history)
    ∧ (∀ x, x ∈ s.stopped ↔ ∃ c f, Event.fault c x f ∈ s.history)
    ∧ ∀ c x f, Event.fault c x f ∈ s.history → c = f.code

end Sys2Proof.Machine
end

