-- ==== Sys2Proof/Certificates/Slice0/Obligations.lean ====
section
/-! DEFINITION. The statements for the provers. A statement about every state holds in states that no run reaches; where it could fail only there,
its premise is an invariant of Sys2Proof/Safety.lean that another statement says every step keeps. `idleTurns`, `stopped`, `script` and
`drawCount` are the model's own fields (log entries 2, 17, 1, 9). -/

open Sys2Proof Sys2Proof.Machine

/-! ### Encoding -/

/-- Words of R120 and section 3.8 of 95_test_vectors.md, as stored bytes, decode to the operations they stand for. -/
def Obligations.DecodeKnownWords : Prop :=
  decode 2 [0x00, 0x00, 0x01, 0x01] .none = some .irqTop
    ∧ decode 2 [0x00, 0x00, 0x00, 0x02] .none = some (.bhSched .host)
    ∧ decode 2 [0x00, 0x00, 0x02, 0x10] .none = some .rxRun
    ∧ decode 2 [0x03, 0x00, 0x10, 0x20] (.bytes [0xAA, 0xBB, 0xCC]) = some (.txSubmit 0 3 [0xAA, 0xBB, 0xCC])
    ∧ decode 2 [0x10, 0x28, 0x00, 0x30] .none = some (.regRd .host 0x2810)
    ∧ decode 2 [0x18, 0x28, 0x00, 0x31] (.word 7) = some (.regWr .host 0x2818 7)
    ∧ decode 2 [0x00, 0x00, 0x02, 0x33] .none = some (.memDrain .bh 0)
    ∧ decode 2 [0x00, 0x00, 0x03, 0x43] (.word 4) = some (.devCause 4)
    ∧ decode 2 [0x00, 0x00, 0x00, 0x50] .none = some .attach

/-- Decoding what the encoder writes gives the operation back, for every operation some word spells and every value of its
operands. -/
def Obligations.DecodeEncode : Prop :=
  ∀ (n : Nat) (i : Instr), i.wellFormed n = true → decode n (encode i).1 (encode i).2 = some i

/-- A stored word that decodes is the word of the operation it decodes to, so that no two words spell one operation with the same
operands, and the operation is well-formed. -/
def Obligations.DecodedWordIsEncoded : Prop :=
  ∀ (n : Nat) (cmd : List Byte) (oob : Oob) (i : Instr),
    decode n cmd oob = some i → i.wellFormed n = true ∧ (encode i).1 = cmd

/-- R117: the reserved OPC values, the AG values outside each row's allowed set, and a non-zero IMM where the row says 0, spell no operation,
whatever travels out of band: such a word is refused, which is no hint and no no-op. -/
def Obligations.ReservedWordsRefused : Prop :=
  ∀ (n : Nat) (w : Word) (oob : Oob) (opc ag imm : Nat),
    opc = w.toNat / 2 ^ 24 → ag = w.toNat / 2 ^ 16 % 2 ^ 8 → imm = w.toNat % 2 ^ 16 →
    (opc = 0 ∨ (0x04 ≤ opc ∧ opc ≤ 0x0F) ∨ (0x11 ≤ opc ∧ opc ≤ 0x1F) ∨ (0x21 ≤ opc ∧ opc ≤ 0x2F)
      ∨ (0x34 ≤ opc ∧ opc ≤ 0x3F) ∨ (0x47 ≤ opc ∧ opc ≤ 0x4F) ∨ 0x52 ≤ opc
      ∨ (0x05 ≤ ag ∧ ag ≤ 0x0F) ∨ 0x10 + n ≤ ag
      ∨ (opc = 0x01 ∧ ag ≠ 0x01) ∨ (opc = 0x02 ∧ ag ≠ 0x00 ∧ ag ≠ 0x01) ∨ ((opc = 0x03 ∨ opc = 0x10) ∧ ag ≠ 0x02)
      ∨ (opc = 0x20 ∧ ag < 0x10) ∨ (0x30 ≤ opc ∧ opc ≤ 0x33 ∧ (ag = 0x03 ∨ ag = 0x04))
      ∨ (0x40 ≤ opc ∧ opc ≤ 0x46 ∧ ag ≠ 0x03) ∨ ((opc = 0x50 ∨ opc = 0x51) ∧ ag ≠ 0x00)
      ∨ (imm ≠ 0 ∧ opc ∈ [0x01, 0x02, 0x03, 0x10, 0x32, 0x40, 0x41, 0x42, 0x43, 0x44, 0x46, 0x50, 0x51])) →
    decodeWord n w oob = none
      ∧ ∀ s : State, s.cfg.nTxc = n → runTurn (.word (wordBytes w) oob) s = .next { s with refused := true }

/-! ### Steps, refusals and faults -/

/-- A step runs the decoded instruction: with a word next in the schedule that decodes to `i`, step is exec of `i`, the word taken off; a word
that does not decode is taken off and sets `refused` (R119); with an agent's turn next, step is that agent's micro-step; with nothing next,
nothing happens (log entry 1). -/
def Obligations.StepRunsTurn : Prop :=
  ∀ s : State, s.cfg.valid = true →
    (∀ cmd oob rest i, s.script = .word cmd oob :: rest → decode s.cfg.nTxc cmd oob = some i →
        step s = exec i { s with script := rest })
      ∧ (∀ cmd oob rest, s.script = .word cmd oob :: rest → decode s.cfg.nTxc cmd oob = none →
        step s = .next { s with script := rest, refused := true })
      ∧ (∀ x d rest, s.script = .micro x d :: rest → step s = runMicro x d { s with script := rest })
      ∧ (s.script = [] → step s = .next s)

/-- R119: a word that spells no operation sets `refused` and changes nothing else; it is a next state, never a fault. -/
def Obligations.RefusedWord : Prop :=
  ∀ (s : State) (cmd : List Byte) (oob : Oob), decode s.cfg.nTxc cmd oob = none →
    runTurn (.word cmd oob) s = .next { s with refused := true }

/-- A step is refused exactly where the parameters break a constraint of R6, or N_TXC is above 0xF0, the number of caller tags R111 has: a bad
configuration is refused as a whole (R131), and nothing else is. The refusal, and its taking in R111's bound, is the model's choice of how (log
entry 5). -/
def Obligations.RefusedExactlyBadConfig : Prop :=
  ∀ s : State, (∃ r, step s = .refused r) ↔ ¬ Config.meets s.cfg

/-- Raising a fault (R342): when agent `x` takes a step that records a fault, the step has no other effect, the code joins the fault set, and `x`
has no further step, its pc as it was. -/
def Obligations.FaultHasNoOtherEffect : Prop :=
  ∀ (s t : State) (x : Agent), s.moves x t → ∀ c y f, t.history = s.history ++ [.fault c y f] →
    y = x ∧ c = f.code
      ∧ t = { s with faults := t.faults, stopped := t.stopped, history := t.history }
      ∧ (∀ d, d ∈ t.faults ↔ d = c ∨ d ∈ s.faults)
      ∧ (∀ z, z ∈ t.stopped ↔ z = x ∨ z ∈ s.stopped)
      ∧ ∀ u, t.moves x u → u = { t with idleTurns := t.idleTurns + 1 }

/-- No step takes a fault back, clears `refused`, or changes what the history already holds (R40, R41, R46), and no step changes the parameters
(R42, log entry 4); and at every step the fault set and the stopped agents stay those of the Fault events of the history (R342, R343). -/
def Obligations.RecordOnlyGrows : Prop :=
  ∀ s t : State, step s = .next t →
    (∀ c ∈ s.faults, c ∈ t.faults) ∧ (s.refused = true → t.refused = true) ∧ s.history <+: t.history
      ∧ (∀ x ∈ s.stopped, x ∈ t.stopped) ∧ t.cfg = s.cfg ∧ (s.recordInv → t.recordInv)

/-! ### The coordinator -/

/-- IRQ_TOP (R230, R353): with IRQ idle, the handler registered, and the line asserted or shared, it moves IRQ to IRQ_READ and changes nothing
else. It has no step while IRQ is in a top half, with no handler registered (R35), or with the line deasserted and not shared (R240; the idle turn
is log entry 2). -/
def Obligations.IrqTopEntry : Prop :=
  ∀ s : State, Agent.irq ∉ s.stopped →
    (s.irq.pc = .idle → s.irq.registered = true → (s.regs.icr &&& s.regs.ims ≠ 0 ∨ s.cfg.sharedLine = true) →
        exec .irqTop s = .next { s with irq := { s.irq with pc := .read } })
      ∧ (s.irq.pc ≠ .idle ∨ s.irq.registered = false ∨ (s.regs.icr &&& s.regs.ims = 0 ∧ s.cfg.sharedLine = false) →
        exec .irqTop s = .next { s with idleTurns := s.idleTurns + 1 })

/-- R231: IRQ_READ takes the whole ICR into irq.v and clears it in the same step; without MAP it faults. -/
def Obligations.IrqReadTakesCauses : Prop :=
  ∀ (s : State) (d : Draws), Agent.irq ∉ s.stopped → s.irq.pc = .read →
    (Resource.map ∈ s.acquired →
        runMicro .irq d s = .next { s with
          regs := { s.regs with icr := 0 }
          irq := { s.irq with v := s.regs.icr, pc := .sched }
          history := s.history ++ [.reg .irq .read 0xC0 s.regs.icr] })
      ∧ (Resource.map ∉ s.acquired → runMicro .irq d s = .next (s.raiseFault .irq (.regUnmapped 0xC0)))

/-- IRQ_SCHED (R230, R235): a non-zero cause schedules a run and is HANDLED; a zero cause schedules nothing, and is HANDLED only where
IRQ_ZERO_HANDLED. The request is recorded (R3, log entry 33). -/
def Obligations.IrqSchedReports : Prop :=
  ∀ (s : State) (d : Draws), Agent.irq ∉ s.stopped → s.irq.pc = .sched →
    (s.irq.v ≠ 0 →
        runMicro .irq d s = .next { s with
          coord := { s.coord with pending := true }
          irq := { s.irq with pc := .idle }
          history := s.history ++ [.bhSched .irq, .irqResult .handled] })
      ∧ (s.irq.v = 0 →
        runMicro .irq d s = .next { s with
          irq := { s.irq with pc := .idle }
          history := s.history ++ [.irqResult (if s.cfg.irqZeroHandled then .handled else .notHandled)] })

/-- BH_SCHED by a harness (R232): it sets coord.pending, coalescing with an earlier request, and is recorded (R3, log entry 33); with
life = DETACHED it faults. -/
def Obligations.BhSchedHost : Prop :=
  ∀ s : State, Agent.host ∉ s.stopped → s.host.pc = .idle →
    (s.life ≠ .detached →
        exec (.bhSched .host) s = .next { s with
          coord := { s.coord with pending := true }
          history := s.history ++ [.bhSched .host] })
      ∧ (s.life = .detached →
        exec (.bhSched .host) s = .next (s.raiseFault .host (.notAttached .bhSched .detached)))

/-- BH_RUN's start and end steps (R233, R234): the start tests and updates both coordinator bits and goes to RX_SNAP. BH_RUN has no step while BH
is in a run, with no request pending, or with `running` set (the idle turn is log entry 2). The end clears `running`, and BH_RUN is enabled again at
once where a request is pending; that RX_RUN's word takes the end step as BH's turn does is log entry 3. -/
def Obligations.BhRunStartAndEnd : Prop :=
  ∀ s : State, Agent.bh ∉ s.stopped →
    (s.bh.pc = .idle → s.coord.pending = true → s.coord.running = false →
        exec .bhRun s = .next { s with coord := ⟨false, true⟩, bh := { s.bh with pc := .rxSnap } })
      ∧ (s.bh.pc ≠ .idle ∨ s.coord.pending = false ∨ s.coord.running = true →
        exec .bhRun s = .next { s with idleTurns := s.idleTurns + 1 })
      ∧ (s.bh.pc = .rxExit → ∃ t,
          t = { s with coord := { s.coord with running := false }, bh := { s.bh with pc := .idle } }
            ∧ (∀ d, runMicro .bh d s = .next t) ∧ exec .rxRun s = .next t ∧ t.bhRunEnabled = s.coord.pending)

/-! ### The receive dispatcher. RX_RUN's word takes the same micro-step as BH's turn (log entry 3). -/

/-- RX_SNAP (R162): rx.h takes RDH, where it is an index of the ring; else F_INDEX_RANGE; without MAP F_REG_UNMAPPED. -/
def Obligations.RxSnap : Prop :=
  ∀ s : State, Agent.bh ∉ s.stopped → s.bh.pc = .rxSnap →
    ∀ r : Result,
      ((Resource.map ∈ s.acquired ∧ s.regs.rdh.toNat < s.cfg.nRx ∧ s.regs.rdh.toNat < 2 ^ 16
            ∧ r = .next { s with
                bh := { s.bh with h := s.regs.rdh.toNat, pc := .rxTest }
                history := s.history ++ [.reg .bh .read 0x2810 s.regs.rdh] })
        ∨ (Resource.map ∈ s.acquired ∧ (s.cfg.nRx ≤ s.regs.rdh.toNat % 2 ^ 16 ∨ 2 ^ 16 ≤ s.regs.rdh.toNat)
            ∧ r = .next (s.raiseFault .bh (.indexRange 0x2810 s.regs.rdh)))
        ∨ (Resource.map ∉ s.acquired ∧ r = .next (s.raiseFault .bh (.regUnmapped 0x2810)))) →
      (∀ d, runMicro .bh d s = r) ∧ exec .rxRun s = r

/-- RX_TEST (R163): rx.n is the slot after rx.tail; at the snapshot head the run ends with no access; else it ends on a zero status byte and goes
on with any other; outside a live region it is F_MEM_BAD. A status byte that nothing has written reads as a free value (R45, log entry 9). -/
def Obligations.RxTest : Prop :=
  ∀ (s : State) (n a : Nat), Agent.bh ∉ s.stopped → s.bh.pc = .rxTest →
    n = (s.bh.tail + 1) % s.cfg.nRx → a = s.regions.rxdesc.loc + 16 * n + 12 →
    (∀ r : Result,
      ((n = s.bh.h ∧ r = .next { s with bh := { s.bh with n := n, pc := .rxExit } })
        ∨ (n ≠ s.bh.h ∧ s.localRegion a 1 = none ∧ r = .next (s.raiseFault .bh (.memBad a)))) →
      (∀ d, runMicro .bh d s = r) ∧ exec .rxRun s = r)
      ∧ (n ≠ s.bh.h → ∀ k, s.localRegion a 1 = some k → ∃ st c t,
        readsAs (s.view .bh k a 1) [st] ∧ (none ∉ s.view .bh k a 1 → c = s.drawCount)
          ∧ t = { s with
              drawCount := c
              bh := { s.bh with n := n, pc := if st = 0 then .rxExit else .rxAlloc }
              history := s.history ++ [.mem .bh .read a [st]] }
          ∧ (∀ d, runMicro .bh d s = .next t) ∧ exec .rxRun s = .next t)

/-- RX_ALLOC and RX_ADV (R164, R165): an accumulator that is there is kept, with no request; a granted one starts empty; a refused one defers the run
with RxAllocDefer and leaves the tail and the slot; each request is recorded with its answer (R3, log entry 33); then rx.tail moves to rx.n. Under an
RX_RUN word the answer is free (log entry 3), and either of the two results follows. -/
def Obligations.RxAllocAndAdvance : Prop :=
  ∀ (s : State) (d : Draws), Agent.bh ∉ s.stopped →
    (s.bh.pc = .rxAlloc → s.bh.acc ≠ none →
        runMicro .bh d s = .next { s with bh := { s.bh with pc := .rxAdv } }
          ∧ exec .rxRun s = .next { s with bh := { s.bh with pc := .rxAdv } })
      ∧ (s.bh.pc = .rxAlloc → s.bh.acc = none → d.alloc ≠ none →
        runMicro .bh d s = .next { s with
          bh := { s.bh with acc := some [], pc := .rxAdv }
          history := s.history ++ [.allocAcc s.cfg.accCap true] })
      ∧ (s.bh.pc = .rxAlloc → s.bh.acc = none → d.alloc = none →
        runMicro .bh d s = .next { s with
          bh := { s.bh with pc := .rxExit }
          history := s.history ++ [.allocAcc s.cfg.accCap false, .rxAllocDefer] })
      ∧ (s.bh.pc = .rxAlloc → s.bh.acc = none →
        exec .rxRun s = .next { s with
            drawCount := s.drawCount + 1
            bh := { s.bh with acc := some [], pc := .rxAdv }
            history := s.history ++ [.allocAcc s.cfg.accCap true] }
          ∨ exec .rxRun s = .next { s with
              drawCount := s.drawCount + 1
              bh := { s.bh with pc := .rxExit }
              history := s.history ++ [.allocAcc s.cfg.accCap false, .rxAllocDefer] })
      ∧ (s.bh.pc = .rxAdv →
        runMicro .bh d s = .next { s with bh := { s.bh with tail := s.bh.n, pc := .rxDesc } }
          ∧ exec .rxRun s = .next { s with bh := { s.bh with tail := s.bh.n, pc := .rxDesc } })

/-- RX_DESC (R166): the length is bytes 8 and 9, little-endian, the status byte 12, the errors byte 13; a length above RX_BUF_SIZE is F_RX_LEN
and the read is then undone with the step (R342); outside a live region F_MEM_BAD comes first (R352). A byte that nothing has written reads as
a free value (R45, log entry 9). -/
def Obligations.RxDesc : Prop :=
  ∀ (s : State) (a : Nat), Agent.bh ∉ s.stopped → s.bh.pc = .rxDesc → a = s.regions.rxdesc.loc + 16 * s.bh.tail + 8 →
    (s.localRegion a 6 = none →
        (∀ d, runMicro .bh d s = .next (s.raiseFault .bh (.memBad a)))
          ∧ exec .rxRun s = .next (s.raiseFault .bh (.memBad a)))
      ∧ ∀ k, s.localRegion a 6 = some k → ∃ b0 b1 b2 b3 st err c t,
        readsAs (s.view .bh k a 6) [b0, b1, b2, b3, st, err] ∧ (none ∉ s.view .bh k a 6 → c = s.drawCount)
          ∧ (b0.toNat + 256 * b1.toNat ≤ s.cfg.rxBufSize →
              t = { s with
                drawCount := c
                bh := { s.bh with
                  len := BitVec.ofNat 16 (b0.toNat + 256 * b1.toNat), st := st, err := err, pc := .rxCopy }
                history := s.history ++ [.mem .bh .read a [b0, b1, b2, b3, st, err]] })
          ∧ (s.cfg.rxBufSize < b0.toNat + 256 * b1.toNat →
              t = s.raiseFault .bh (.rxLen s.bh.tail (b0.toNat + 256 * b1.toNat)))
          ∧ (∀ d, runMicro .bh d s = .next t) ∧ exec .rxRun s = .next t

/-- RX_COPY (R167): it appends rx.L bytes of RXBUF[rx.tail] to the accumulator; a length of 0 makes no access; more than ACC_CAP bytes is
F_ACC_OVERFLOW, checked before the read (R352). A byte that nothing has written reads as a free value (R45, log entry 9). -/
def Obligations.RxCopy : Prop :=
  ∀ (s : State) (a : Nat) (bytes : List Byte), Agent.bh ∉ s.stopped → s.bh.pc = .rxCopy → s.bh.acc = some bytes →
    a = s.regions.rxbuf.loc + s.bh.tail * s.cfg.rxBufSize →
    (∀ r : Result,
      ((bytes.length + s.bh.len.toNat ≤ s.cfg.accCap ∧ s.bh.len = 0
            ∧ r = .next { s with bh := { s.bh with pc := .rxEop } })
        ∨ (bytes.length + s.bh.len.toNat ≤ s.cfg.accCap ∧ s.bh.len ≠ 0 ∧ s.localRegion a s.bh.len.toNat = none
            ∧ r = .next (s.raiseFault .bh (.memBad a)))
        ∨ (s.cfg.accCap < bytes.length + s.bh.len.toNat
            ∧ r = .next (s.raiseFault .bh (.accOverflow s.bh.tail bytes.length s.bh.len.toNat)))) →
      (∀ d, runMicro .bh d s = r) ∧ exec .rxRun s = r)
      ∧ (bytes.length + s.bh.len.toNat ≤ s.cfg.accCap → s.bh.len ≠ 0 →
        ∀ k, s.localRegion a s.bh.len.toNat = some k → ∃ p c t,
          readsAs (s.view .bh k a s.bh.len.toNat) p ∧ (none ∉ s.view .bh k a s.bh.len.toNat → c = s.drawCount)
            ∧ t = { s with
                drawCount := c
                bh := { s.bh with acc := some (bytes ++ p), pc := .rxEop }
                history := s.history ++ [.mem .bh .read a p] }
            ∧ (∀ d, runMicro .bh d s = .next t) ∧ exec .rxRun s = .next t)

/-- RX_EOP (R168, R169): with EOP, one Deliver of the accumulated bytes, their number, and the EOP descriptor's hint, and the accumulator becomes
ABSENT; without EOP it is kept. -/
def Obligations.RxEop : Prop :=
  ∀ s : State, Agent.bh ∉ s.stopped → s.bh.pc = .rxEop →
    ∀ r : Result,
      ((s.bh.st.getLsbD 1 = true ∧ ∃ bytes, s.bh.acc = some bytes
            ∧ r = .next { s with
                bh := { s.bh with acc := none, pc := .rxClear }
                history := s.history ++ [.deliver
                  { bytes := bytes, len := bytes.length, csumHint := Config.csumHint s.bh.st s.bh.err,
                    proto := Config.proto bytes, iface := Config.iface }] })
        ∨ (s.bh.st.getLsbD 1 = false ∧ r = .next { s with bh := { s.bh with pc := .rxClear } })) →
      (∀ d, runMicro .bh d s = r) ∧ exec .rxRun s = r

/-- RX_CLEAR (R170, R66): a zero status byte is posted to W[BH], and memory is as before; under POSTED_ORDER = SC the byte is in memory at
once and every other byte as before; outside a live region it is F_MEM_BAD. -/
def Obligations.RxClear : Prop :=
  ∀ (s : State) (a : Nat), Agent.bh ∉ s.stopped → s.bh.pc = .rxClear → a = s.regions.rxdesc.loc + 16 * s.bh.tail + 12 →
    (s.localRegion a 1 = none →
        (∀ d, runMicro .bh d s = .next (s.raiseFault .bh (.memBad a)))
          ∧ exec .rxRun s = .next (s.raiseFault .bh (.memBad a)))
      ∧ ∀ k, s.localRegion a 1 = some k →
        (s.cfg.postedOrder ≠ .sc → ∃ t,
            t = { s with
                bh := { s.bh with posted := s.bh.posted ++ [⟨a, [0]⟩], pc := .rxWmb }
                history := s.history ++ [.mem .bh .write a [0]] }
              ∧ (∀ d, runMicro .bh d s = .next t) ∧ exec .rxRun s = .next t)
          ∧ (s.cfg.postedOrder = .sc → ∃ t,
            t = { s with
                mem := t.mem
                bh := { s.bh with pc := .rxWmb }
                history := s.history ++ [.visible .bh a [0], .mem .bh .write a [0]] }
              ∧ s.mem.differsBy t.mem (s.dmaOf k a) [0]
              ∧ (∀ d, runMicro .bh d s = .next t) ∧ exec .rxRun s = .next t)

/-- RX_WMB and RX_PUB (R171, R172): BH holds while W[BH] is not empty and goes to RX_PUB with an empty one; RX_PUB writes rx.tail to RDT and goes
back to RX_TEST; without MAP it is F_REG_UNMAPPED; under MMIO_DRAINS it holds first while W[BH] is not empty (R69; a hold's idle turn is log
entry 2). -/
def Obligations.RxBarrierAndPublish : Prop :=
  ∀ s : State, Agent.bh ∉ s.stopped → s.cfg.valid = true →
    ∀ r : Result,
      ((s.bh.pc = .rxWmb ∧ s.bh.posted = [] ∧ r = .next { s with bh := { s.bh with pc := .rxPub } })
        ∨ (s.bh.pc = .rxWmb ∧ s.bh.posted ≠ [] ∧ r = .next { s with idleTurns := s.idleTurns + 1 })
        ∨ (s.bh.pc = .rxPub ∧ Resource.map ∈ s.acquired ∧ s.bh.tail < s.cfg.nRx
            ∧ (s.cfg.mmioDrains = false ∨ s.bh.posted = [])
            ∧ r = .next { s with
                regs := { s.regs with rdt := BitVec.ofNat 32 s.bh.tail }
                bh := { s.bh with pc := .rxTest }
                history := s.history ++ [.reg .bh .write 0x2818 (BitVec.ofNat 32 s.bh.tail)] })
        ∨ (s.bh.pc = .rxPub ∧ Resource.map ∉ s.acquired ∧ (s.cfg.mmioDrains = false ∨ s.bh.posted = [])
            ∧ r = .next (s.raiseFault .bh (.regUnmapped 0x2818)))
        ∨ (s.bh.pc = .rxPub ∧ s.cfg.mmioDrains = true ∧ s.bh.posted ≠ []
            ∧ r = .next { s with idleTurns := s.idleTurns + 1 })) →
      (∀ d, runMicro .bh d s = r) ∧ exec .rxRun s = r

/-! ### The transmit dispatcher -/

/-- TX_SUBMIT's issue step (R200): an idle caller takes the frame and the length and goes to TX_LENCHK; no register and no memory is touched; the
request is recorded (R3, log entry 33). A busy caller has no such step (log entry 2). -/
def Obligations.TxSubmitIssue : Prop :=
  ∀ (s : State) (k : Nat) (c : TxAgent) (len : Half) (frame : List Byte), Agent.txc k ∉ s.stopped → s.txc[k]? = some c →
    (c.pc = .idle →
        exec (.txSubmit k len frame) s = .next { s with
          txc := s.txc.modify k fun c => { c with frame := frame, len := len, pc := .lenchk }
          history := s.history ++ [.txSubmit k frame] })
      ∧ (c.pc ≠ .idle → exec (.txSubmit k len frame) s = .next { s with idleTurns := s.idleTurns + 1 })

/-- R201: the attachment check, then the length check against min(MTU_LEN, TX_BUF_SIZE): an oversized frame is dropped and answered BUSY with no
access; a length that passes goes on to the lock. -/
def Obligations.TxLengthCheck : Prop :=
  ∀ (s : State) (d : Draws) (k : Nat) (c : TxAgent), Agent.txc k ∉ s.stopped → s.txc[k]? = some c → c.pc = .lenchk →
    (s.life ≠ .attached → runMicro (.txc k) d s = .next (s.raiseFault (.txc k) (.notAttached .txSubmit s.life)))
      ∧ (s.life = .attached → min s.cfg.mtuLen s.cfg.txBufSize < c.len.toNat →
        runMicro (.txc k) d s = .next { s with
          txc := s.txc.modify k fun c => { c with frame := [], pc := .idle }
          history := s.history ++ [.txDrop k .oversize, .txResult k .busy] })
      ∧ (s.life = .attached → c.len.toNat ≤ min s.cfg.mtuLen s.cfg.txBufSize →
        runMicro (.txc k) d s = .next { s with txc := s.txc.modify k fun c => { c with pc := .lock } })

/-- TX_LOCK (R203): a free lock is taken in one step; a held one leaves the caller where it is (the idle turn is log entry 2). -/
def Obligations.TxLock : Prop :=
  ∀ (s : State) (d : Draws) (k : Nat) (c : TxAgent), Agent.txc k ∉ s.stopped → s.txc[k]? = some c → c.pc = .lock →
    (s.txLock = none →
        runMicro (.txc k) d s = .next { s with
          txLock := some k
          txc := s.txc.modify k fun c => { c with pc := .readtail } })
      ∧ (s.txLock ≠ none → runMicro (.txc k) d s = .next { s with idleTurns := s.idleTurns + 1 })

/-- R204: the slot is the one TDT holds; a TDT outside the ring is F_INDEX_RANGE, and without MAP the read is F_REG_UNMAPPED. -/
def Obligations.TxReadTail : Prop :=
  ∀ (s : State) (d : Draws) (k : Nat) (c : TxAgent), Agent.txc k ∉ s.stopped → s.txc[k]? = some c → c.pc = .readtail →
    (Resource.map ∈ s.acquired → s.regs.tdt.toNat < s.cfg.nTx → s.regs.tdt.toNat < 2 ^ 16 →
        runMicro (.txc k) d s = .next { s with
          txc := s.txc.modify k fun c => { c with t := s.regs.tdt.toNat, pc := .check }
          history := s.history ++ [.reg (.txc k) .read 0x3818 s.regs.tdt] })
      ∧ (Resource.map ∈ s.acquired → s.cfg.nTx ≤ s.regs.tdt.toNat % 2 ^ 16 ∨ 2 ^ 16 ≤ s.regs.tdt.toNat →
        runMicro (.txc k) d s = .next (s.raiseFault (.txc k) (.indexRange 0x3818 s.regs.tdt)))
      ∧ (Resource.map ∉ s.acquired →
        runMicro (.txc k) d s = .next (s.raiseFault (.txc k) (.regUnmapped 0x3818)))

/-- TX_CHECK (R205, R214, R215): DD clear gives one TxDrop(RING_FULL) and BUSY, frees the lock, and leaves every register, descriptor and buffer;
DD set goes on, to TX_HEADCHK only where TX_KEEP_ONE_FREE. A status byte that nothing has written reads as a free value (R45, log entry 9). -/
def Obligations.TxDoneTest : Prop :=
  ∀ (s : State) (d : Draws) (k : Nat) (c : TxAgent) (a : Nat),
    Agent.txc k ∉ s.stopped → s.txc[k]? = some c → c.pc = .check → a = s.regions.txdesc.loc + 16 * c.t + 12 →
    (∀ rk, s.localRegion a 1 = some rk → ∃ st n,
      readsAs (s.view (.txc k) rk a 1) [st] ∧ (none ∉ s.view (.txc k) rk a 1 → n = s.drawCount)
        ∧ (st.getLsbD 0 = false →
          runMicro (.txc k) d s = .next { s with
            drawCount := n
            txLock := none
            txc := s.txc.modify k fun c => { c with frame := [], pc := .idle }
            history := s.history ++ [.mem (.txc k) .read a [st], .txDrop k .ringFull, .txResult k .busy] })
        ∧ (st.getLsbD 0 = true →
          runMicro (.txc k) d s = .next { s with
            drawCount := n
            txc := s.txc.modify k fun c => { c with pc := if s.cfg.txKeepOneFree then .headchk else .clrstat }
            history := s.history ++ [.mem (.txc k) .read a [st]] }))
      ∧ (s.localRegion a 1 = none → runMicro (.txc k) d s = .next (s.raiseFault (.txc k) (.memBad a)))

/-- R206: taking the last free slot is refused as BUSY, with the lock freed; any other slot is taken; a TDH outside the ring is
F_INDEX_RANGE, and without MAP the read is F_REG_UNMAPPED. -/
def Obligations.TxHeadCheck : Prop :=
  ∀ (s : State) (d : Draws) (k : Nat) (c : TxAgent), Agent.txc k ∉ s.stopped → s.txc[k]? = some c → c.pc = .headchk →
    (Resource.map ∈ s.acquired → s.regs.tdh.toNat < s.cfg.nTx → s.regs.tdh.toNat < 2 ^ 16 →
      ((c.t + 1) % s.cfg.nTx = s.regs.tdh.toNat →
          runMicro (.txc k) d s = .next { s with
            txLock := none
            txc := s.txc.modify k fun c => { c with frame := [], pc := .idle }
            history := s.history
              ++ [.reg (.txc k) .read 0x3810 s.regs.tdh, .txDrop k .ringFull, .txResult k .busy] })
        ∧ ((c.t + 1) % s.cfg.nTx ≠ s.regs.tdh.toNat →
          runMicro (.txc k) d s = .next { s with
            txc := s.txc.modify k fun c => { c with pc := .clrstat }
            history := s.history ++ [.reg (.txc k) .read 0x3810 s.regs.tdh] }))
      ∧ (Resource.map ∈ s.acquired → s.cfg.nTx ≤ s.regs.tdh.toNat % 2 ^ 16 ∨ 2 ^ 16 ≤ s.regs.tdh.toNat →
        runMicro (.txc k) d s = .next (s.raiseFault (.txc k) (.indexRange 0x3810 s.regs.tdh)))
      ∧ (Resource.map ∉ s.acquired →
        runMicro (.txc k) d s = .next (s.raiseFault (.txc k) (.regUnmapped 0x3810)))

/-- TX_CLRSTAT, TX_CMD, TX_LEN and TX_COPY (R207 to R210, R66): a zero status byte at offset 12, 0x09 at offset 11, the length at offset 8, the frame at
TXBUF[t], each posted as one entry and memory as before; under POSTED_ORDER = SC each is in memory at once and every other byte as before; outside
a live region each is F_MEM_BAD; an empty frame posts nothing, whether or not TXBUF is live (log entry 37). -/
def Obligations.TxProgramSlot : Prop :=
  ∀ (s : State) (d : Draws) (k : Nat) (c : TxAgent),
    Agent.txc k ∉ s.stopped → s.txc[k]? = some c →
    (∀ p ∈ ([(.clrstat, s.regions.txdesc.loc + 16 * c.t + 12, [0x00], .cmd),
            (.cmd, s.regions.txdesc.loc + 16 * c.t + 11, [0x09], .len),
            (.len, s.regions.txdesc.loc + 16 * c.t + 8,
              [BitVec.ofNat 8 c.len.toNat, BitVec.ofNat 8 (c.len.toNat / 256)], .copy),
            (.copy, s.regions.txbuf.loc + c.t * s.cfg.txBufSize, c.frame, .wmb)] :
            List (TxPc × Nat × List Byte × TxPc)),
        c.pc = p.1 → p.2.2.1 ≠ [] →
          (s.localRegion p.2.1 p.2.2.1.length = none →
              runMicro (.txc k) d s = .next (s.raiseFault (.txc k) (.memBad p.2.1)))
            ∧ ∀ rk, s.localRegion p.2.1 p.2.2.1.length = some rk →
              (s.cfg.postedOrder ≠ .sc →
                  runMicro (.txc k) d s = .next { s with
                    txc := s.txc.modify k fun c => { c with posted := c.posted ++ [⟨p.2.1, p.2.2.1⟩], pc := p.2.2.2 }
                    history := s.history ++ [.mem (.txc k) .write p.2.1 p.2.2.1] })
                ∧ (s.cfg.postedOrder = .sc → ∃ t,
                  runMicro (.txc k) d s = .next t ∧ s.mem.differsBy t.mem (s.dmaOf rk p.2.1) p.2.2.1
                    ∧ t = { s with
                        mem := t.mem
                        txc := s.txc.modify k fun c => { c with pc := p.2.2.2 }
                        history := s.history
                          ++ [.visible (.txc k) p.2.1 p.2.2.1, .mem (.txc k) .write p.2.1 p.2.2.1] }))
      ∧ (c.pc = .copy → c.frame = [] →
        runMicro (.txc k) d s = .next { s with txc := s.txc.modify k fun c => { c with pc := .wmb } })

/-- TX_WMB, TX_PUB and TX_UNLOCK (R211 to R213): the caller holds until W[TXC[k]] is empty; TX_PUB writes the next slot to TDT; without MAP it is
F_REG_UNMAPPED; under MMIO_DRAINS it holds first while W[TXC[k]] is not empty (R69; a hold's idle turn is log entry 2); TX_UNLOCK frees the lock and
answers ACCEPTED. -/
def Obligations.TxPublish : Prop :=
  ∀ (s : State) (d : Draws) (k : Nat) (c : TxAgent),
    Agent.txc k ∉ s.stopped → s.cfg.valid = true → s.txc[k]? = some c →
    (c.pc = .wmb → c.posted = [] →
        runMicro (.txc k) d s = .next { s with txc := s.txc.modify k fun c => { c with pc := .pub } })
      ∧ (c.pc = .wmb → c.posted ≠ [] → runMicro (.txc k) d s = .next { s with idleTurns := s.idleTurns + 1 })
      ∧ (c.pc = .pub → Resource.map ∈ s.acquired → (s.cfg.mmioDrains = false ∨ c.posted = []) →
        runMicro (.txc k) d s = .next { s with
          regs := { s.regs with tdt := BitVec.ofNat 32 ((c.t + 1) % s.cfg.nTx) }
          txc := s.txc.modify k fun c => { c with pc := .unlock }
          history := s.history ++ [.reg (.txc k) .write 0x3818 (BitVec.ofNat 32 ((c.t + 1) % s.cfg.nTx))] })
      ∧ (c.pc = .pub → Resource.map ∉ s.acquired → (s.cfg.mmioDrains = false ∨ c.posted = []) →
        runMicro (.txc k) d s = .next (s.raiseFault (.txc k) (.regUnmapped 0x3818)))
      ∧ (c.pc = .pub → s.cfg.mmioDrains = true → c.posted ≠ [] →
        runMicro (.txc k) d s = .next { s with idleTurns := s.idleTurns + 1 })
      ∧ (c.pc = .unlock →
        runMicro (.txc k) d s = .next { s with
          txLock := none
          txc := s.txc.modify k fun c => { c with frame := [], pc := .idle }
          history := s.history ++ [.txResult k .accepted] })

/-! ### The register interface -/

/-- REG_RD by HOST (R251 to R253): every readable register returns its value as the Reg event and changes nothing; CTRL shows RST from
dev.reset_busy; a read of ICR clears it. -/
def Obligations.RegReadHost : Prop :=
  ∀ s : State, Agent.host ∉ s.stopped → s.host.pc = .idle → Resource.map ∈ s.acquired →
    (∀ p ∈ ([(0x00D0, s.regs.ims), (0x2800, s.regs.rdbal), (0x2804, s.regs.rdbah), (0x2808, s.regs.rdlen),
            (0x2810, s.regs.rdh), (0x2818, s.regs.rdt), (0x3800, s.regs.tdbal), (0x3804, s.regs.tdbah),
            (0x3808, s.regs.tdlen), (0x3810, s.regs.tdh), (0x3818, s.regs.tdt)] : List (Half × Word)),
        exec (.regRd .host p.1) s = .next { s with history := s.history ++ [.reg .host .read p.1.toNat p.2] })
      ∧ (exec (.regRd .host 0x00C0) s = .next { s with
          regs := { s.regs with icr := 0 }
          history := s.history ++ [.reg .host .read 0xC0 s.regs.icr] })
      ∧ ∃ v : Word, (∀ b, b < 32 → v.getLsbD b = if b = 26 then s.dev.resetBusy else s.regs.ctrl.getLsbD b)
          ∧ exec (.regRd .host 0x0000) s = .next { s with history := s.history ++ [.reg .host .read 0 v] }

/-- REG_WR by HOST (R256 to R261): CTRL stores the value and RST starts a device reset; IMS sets and IMC clears mask bits, ICR as before; to a
base, length or tail register only a write of the legal value it holds completes, and any other value faults. -/
def Obligations.RegWriteHost : Prop :=
  ∀ (s : State) (v : Word), Agent.host ∉ s.stopped → s.host.pc = .idle → Resource.map ∈ s.acquired →
    (s.cfg.mmioDrains = false ∨ s.host.posted = []) →
    (exec (.regWr .host 0x0000 v) s = .next { s with
        regs := { s.regs with ctrl := v }
        dev := { s.dev with resetBusy := s.dev.resetBusy || v.getLsbD 26 }
        history := s.history ++ [.reg .host .write 0 v] })
      ∧ (exec (.regWr .host 0x00D0 v) s = .next { s with
        regs := { s.regs with ims := s.regs.ims ||| v }
        history := s.history ++ [.reg .host .write 0xD0 v] })
      ∧ (exec (.regWr .host 0x00D8 v) s = .next { s with
        regs := { s.regs with ims := s.regs.ims &&& ~~~v }
        history := s.history ++ [.reg .host .write 0xD8 v] })
      ∧ (∀ p ∈ ([(0x2800, s.regs.rdbal, s.regs.rdbal.toNat % 16 = 0), (0x2804, s.regs.rdbah, True),
            (0x2808, s.regs.rdlen,
              s.regs.rdlen.toNat % 128 = 0 ∧ s.regs.rdlen ≠ 0 ∧ s.regs.rdlen.toNat ≤ 0xFFF80),
            (0x3800, s.regs.tdbal, s.regs.tdbal.toNat % 16 = 0), (0x3804, s.regs.tdbah, True),
            (0x3808, s.regs.tdlen,
              s.regs.tdlen.toNat % 128 = 0 ∧ s.regs.tdlen ≠ 0 ∧ s.regs.tdlen.toNat ≤ 0xFFF80)] :
            List (Half × Word × Prop)),
          (v = p.2.1 → p.2.2 → exec (.regWr .host p.1 v) s = .next { s with
              history := s.history ++ [.reg .host .write p.1.toNat v] })
            ∧ (v ≠ p.2.1 ∨ ¬ p.2.2 →
              exec (.regWr .host p.1 v) s = .next (s.raiseFault .host (.regValue p.1.toNat v))))
      ∧ (∀ p ∈ ([(0x2818, s.regs.rdt, s.cfg.nRx), (0x3818, s.regs.tdt, s.cfg.nTx)] : List (Half × Word × Nat)),
          (v = p.2.1 → v.toNat < p.2.2 → v.toNat < 2 ^ 16 → exec (.regWr .host p.1 v) s = .next { s with
              history := s.history ++ [.reg .host .write p.1.toNat v] })
            ∧ (v = p.2.1 → p.2.2 ≤ v.toNat % 2 ^ 16 ∨ 2 ^ 16 ≤ v.toNat →
              exec (.regWr .host p.1 v) s = .next (s.raiseFault .host (.indexRange p.1.toNat v)))
            ∧ (v ≠ p.2.1 → exec (.regWr .host p.1 v) s = .next (s.raiseFault .host (.regValue p.1.toNat v))))

/-- The access checks of HOST's REG_RD and REG_WR in their order (R250, R352): no MAP; a misaligned or unknown offset; a read of IMC; a write of
ICR; a write of a head. Each is a fault with the info of R341, and the access has no effect. -/
def Obligations.RegAccessFaults : Prop :=
  ∀ (s : State) (off : Half) (v : Word), Agent.host ∉ s.stopped → s.host.pc = .idle →
    (s.cfg.mmioDrains = false ∨ s.host.posted = []) →
    (Resource.map ∉ s.acquired →
        exec (.regRd .host off) s = .next (s.raiseFault .host (.regUnmapped off.toNat))
          ∧ exec (.regWr .host off v) s = .next (s.raiseFault .host (.regUnmapped off.toNat)))
      ∧ (Resource.map ∈ s.acquired →
        off ∉ ([0x0000, 0x00C0, 0x00D0, 0x00D8, 0x2800, 0x2804, 0x2808, 0x2810, 0x2818, 0x3800, 0x3804, 0x3808, 0x3810,
          0x3818] : List Half) →
        exec (.regRd .host off) s = .next (s.raiseFault .host (.regBad off.toNat .read))
          ∧ exec (.regWr .host off v) s = .next (s.raiseFault .host (.regBad off.toNat .write)))
      ∧ (Resource.map ∈ s.acquired →
        exec (.regRd .host 0x00D8) s = .next (s.raiseFault .host (.regBad 0xD8 .read))
          ∧ exec (.regWr .host 0x00C0 v) s = .next (s.raiseFault .host (.regBad 0xC0 .write))
          ∧ exec (.regWr .host 0x2810 v) s = .next (s.raiseFault .host (.headWrite 0x2810 v))
          ∧ exec (.regWr .host 0x3810 v) s = .next (s.raiseFault .host (.headWrite 0x3810 v)))

/-- A stand-alone WMB (R262): with W[HOST] empty it completes and changes nothing; otherwise it has no step yet (log entry 2), and under
MMIO_DRAINS neither has a register write (R69, R250, log entry 13). -/
def Obligations.WmbHost : Prop :=
  ∀ s : State, Agent.host ∉ s.stopped → s.host.pc = .idle →
    (s.host.posted = [] → exec (.wmb .host) s = .next s)
      ∧ (s.host.posted ≠ [] → exec (.wmb .host) s = .next { s with idleTurns := s.idleTurns + 1 })
      ∧ (s.host.posted ≠ [] → s.cfg.mmioDrains = true → ∀ off v,
        exec (.regWr .host off v) s = .next { s with idleTurns := s.idleTurns + 1 })

/-- MEM_DRAIN (R263, R68): an entry that POSTED_ORDER allows to land next lands at the DMA address of its local address, every other byte as
before, and leaves W[x]; an entry whose bytes do not all lie in one live region is F_MEM_BAD (log entry 38). An entry that POSTED_ORDER does not allow next, and a position with no
entry, do not land: nothing changes but the turn counter (log entry 2). -/
def Obligations.MemDrain : Prop :=
  ∀ (s : State) (x : Agent) (pos : Half), Agent.memsys ∉ s.stopped →
    ((s.posted x)[pos.toNat]? = none → exec (.memDrain x pos) s = .next { s with idleTurns := s.idleTurns + 1 })
      ∧ ∀ e, (s.posted x)[pos.toNat]? = some e →
        (¬ landsNext s.cfg.postedOrder (s.posted x) pos.toNat e →
            exec (.memDrain x pos) s = .next { s with idleTurns := s.idleTurns + 1 })
          ∧ (landsNext s.cfg.postedOrder (s.posted x) pos.toNat e →
            (∀ k, s.localRegion e.addr e.bytes.length = some k → ∃ t,
                exec (.memDrain x pos) s = .next t ∧ s.mem.differsBy t.mem (s.dmaOf k e.addr) e.bytes
                  ∧ t = { s.setPosted x ((s.posted x).eraseIdx pos.toNat) with
                      mem := t.mem
                      history := s.history ++ [.visible x e.addr e.bytes] }
                  ∧ t.posted x = (s.posted x).eraseIdx pos.toNat ∧ ∀ y, y ≠ x → t.posted y = s.posted y)
              ∧ (s.localRegion e.addr e.bytes.length = none →
                exec (.memDrain x pos) s = .next (s.raiseFault .memsys (.memBad e.addr))))

/-- A REG_RD, REG_WR, WMB or BH_SCHED word of an agent other than HOST (R114) lets that agent take the micro-step it records, and no other: where the
agent stands elsewhere, or the word names another register or value than its micro-step does, nothing changes but the turn counter (the model's
reading, log entries 2 and 3). -/
def Obligations.RecordWordsTakeTheirStep : Prop :=
  ∀ (s u : State) (d : Draws) (k : Nat) (c : TxAgent), s.txc[k]? = some c → u = { s with idleTurns := s.idleTurns + 1 } →
    -- REG_RD
    (s.irq.pc = .read → exec (.regRd .irq 0x00C0) s = runMicro .irq d s)
      ∧ (s.bh.pc = .rxSnap → exec (.regRd .bh 0x2810) s = runMicro .bh d s)
      ∧ (c.pc = .readtail → exec (.regRd (.txc k) 0x3818) s = runMicro (.txc k) d s)
      ∧ (c.pc = .headchk → exec (.regRd (.txc k) 0x3810) s = runMicro (.txc k) d s)
      ∧ (∀ off, ¬ (s.irq.pc = .read ∧ off = 0x00C0) → exec (.regRd .irq off) s = .next u)
      ∧ (∀ off, ¬ (s.bh.pc = .rxSnap ∧ off = 0x2810) → exec (.regRd .bh off) s = .next u)
      ∧ (∀ off, ¬ (c.pc = .readtail ∧ off = 0x3818) → ¬ (c.pc = .headchk ∧ off = 0x3810) →
        exec (.regRd (.txc k) off) s = .next u)
      -- REG_WR
      ∧ (s.bh.pc = .rxPub → exec (.regWr .bh 0x2818 (BitVec.ofNat 32 s.bh.tail)) s = runMicro .bh d s)
      ∧ (c.pc = .pub →
        exec (.regWr (.txc k) 0x3818 (BitVec.ofNat 32 ((c.t + 1) % s.cfg.nTx))) s = runMicro (.txc k) d s)
      ∧ (∀ off v, exec (.regWr .irq off v) s = .next u)
      ∧ (∀ off v, ¬ (s.bh.pc = .rxPub ∧ off = 0x2818 ∧ v = BitVec.ofNat 32 s.bh.tail) →
        exec (.regWr .bh off v) s = .next u)
      ∧ (∀ off v, ¬ (c.pc = .pub ∧ off = 0x3818 ∧ v = BitVec.ofNat 32 ((c.t + 1) % s.cfg.nTx)) →
        exec (.regWr (.txc k) off v) s = .next u)
      -- WMB
      ∧ (s.bh.pc = .rxWmb → exec (.wmb .bh) s = runMicro .bh d s)
      ∧ (c.pc = .wmb → exec (.wmb (.txc k)) s = runMicro (.txc k) d s)
      ∧ exec (.wmb .irq) s = .next u
      ∧ (s.bh.pc ≠ .rxWmb → exec (.wmb .bh) s = .next u)
      ∧ (c.pc ≠ .wmb → exec (.wmb (.txc k)) s = .next u)
      -- BH_SCHED
      ∧ (s.irq.pc = .sched → s.irq.v ≠ 0 → exec (.bhSched .irq) s = runMicro .irq d s)
      ∧ (s.irq.pc ≠ .sched ∨ s.irq.v = 0 → exec (.bhSched .irq) s = .next u)

/-! ### The device -/

/-- DEV_WIRE_IN, DEV_CAUSE and DEV_RX_DROP (R280, R291, R286, R297): a frame joins wire_in; causes join ICR, not during a reset; a waiting frame is
dropped with RXO while no slot is granted, the unit on, no frame part-way and no reset in progress, and otherwise there is no such step (the idle
turn is log entry 2). -/
def Obligations.DevWireCauseDrop : Prop :=
  ∀ s : State, Agent.dev ∉ s.stopped →
    (∀ len frame, exec (.devWireIn len frame) s = .next { s with
        wireIn := s.wireIn ++ [frame]
        history := s.history ++ [.wireIn frame] })
      ∧ (∀ v, s.dev.resetBusy = false →
        exec (.devCause v) s = .next { s with regs := { s.regs with icr := s.regs.icr ||| v } })
      ∧ (∀ v, s.dev.resetBusy = true → exec (.devCause v) s = .next { s with idleTurns := s.idleTurns + 1 })
      ∧ (∀ f rest, s.dev.resetBusy = false → s.dev.rxEnabled = true → s.dev.cur = none → s.wireIn = f :: rest →
        s.regs.rdh = s.regs.rdt → exec .devRxDrop s = .next { s with
          wireIn := rest
          regs := { s.regs with icr := s.regs.icr ||| 0x00000040 } })
      ∧ (s.dev.resetBusy = true ∨ s.dev.rxEnabled = false ∨ s.dev.cur ≠ none ∨ s.wireIn = [] ∨ s.regs.rdh ≠ s.regs.rdt →
        exec .devRxDrop s = .next { s with idleTurns := s.idleTurns + 1 })

/-- DEV_RX_CLAIM (R282): the slot at RDH is claimed for the next at most RX_BUF_SIZE bytes of the current frame, or of the first waiting one; EOP with
the frame's last bytes; the rest stays in dev.cur; RDH moves on one slot. Where RDLEN names no descriptor the spec states no next RDH, whose index is
then a free value (R9, log entry 16) and whose bits 31:16 are 0 (R106). During a reset, with the unit off, with no granted slot, or with no frame at
hand there is no such step (R297; the idle turn is log entry 2). -/
def Obligations.DevRxClaim : Prop :=
  ∀ s : State, Agent.dev ∉ s.stopped →
    (∀ (rem : List Byte) (waiting : List (List Byte)),
      s.dev.resetBusy = false → s.dev.rxEnabled = true → s.regs.rdh ≠ s.regs.rdt →
      (s.dev.cur = some rem ∧ waiting = s.wireIn ∨ s.dev.cur = none ∧ s.wireIn = rem :: waiting) →
      ∃ t, exec .devRxClaim s = .next t
        ∧ (s.regs.rdlen.toNat / 16 ≠ 0 → t.drawCount = s.drawCount
          ∧ t.regs.rdh = BitVec.ofNat 32 ((s.regs.rdh.toNat + 1) % (s.regs.rdlen.toNat / 16)))
        ∧ (s.regs.rdlen.toNat / 16 = 0 → t.regs.rdh.toNat < 2 ^ 16)
        ∧ t = { s with
          drawCount := t.drawCount
          wireIn := waiting
          dev := { s.dev with
            rxClaimed := s.dev.rxClaimed
              ++ [⟨s.regs.rdh.toNat, rem.take s.cfg.rxBufSize, decide (rem.length ≤ s.cfg.rxBufSize)⟩]
            cur := if rem.length ≤ s.cfg.rxBufSize then none else some (rem.drop s.cfg.rxBufSize) }
          regs := { s.regs with rdh := t.regs.rdh } })
      ∧ (s.dev.resetBusy = true ∨ s.dev.rxEnabled = false ∨ s.regs.rdh = s.regs.rdt ∨ (s.dev.cur = none ∧ s.wireIn = []) →
        exec .devRxClaim s = .next { s with idleTurns := s.idleTurns + 1 })

/-- DEV_RX_WB (R284): the oldest claim's chunk goes to the slot's buffer; the length, csum, the status DD, EOP and the drawn bits 7:2, errors and
special go to descriptor bytes 8..15; every other byte is as before; RXT0 is set; the claim leaves dev.rx_claimed. During a reset, or with nothing
claimed, there is no such step (R297; the idle turn is log entry 2). -/
def Obligations.DevRxWriteBack : Prop :=
  ∀ (s : State) (draw : WbDraws), Agent.dev ∉ s.stopped →
    (∀ (c : Claim) (rest : List Claim) (d a : Nat) (ptr desc : List Byte),
      s.dev.resetBusy = false → s.dev.rxClaimed = c :: rest →
      d = s.regs.rdbah.toNat * 2 ^ 32 + s.regs.rdbal.toNat + 16 * c.slot →
      (List.range 8).map (fun i => s.mem.get (d + i)) = ptr.map some → a = ofLeBytes ptr →
      (∀ i < 16, s.dmaLive (d + i) = true) → (∀ i < c.chunk.length, s.dmaLive (a + i) = true) →
      desc = leBytes 2 c.chunk.length ++ leBytes 2 draw.csum.toNat
        ++ [0x01 ||| (if c.eop then 0x02 else 0x00) ||| (draw.xsta &&& 0xFC), draw.err] ++ leBytes 2 draw.special.toNat →
      ∃ t, exec (.devRxWb draw) s = .next t
        ∧ (∀ i < 8, t.mem.get (d + 8 + i) = desc[i]?)
        ∧ (∀ b, (b < d + 8 ∨ d + 16 ≤ b) → a ≤ b → b < a + c.chunk.length → t.mem.get b = c.chunk[b - a]?)
        ∧ (∀ b, (b < d + 8 ∨ d + 16 ≤ b) → (b < a ∨ a + c.chunk.length ≤ b) → t.mem.get b = s.mem.get b)
        ∧ t = { s with
            mem := t.mem
            dev := { s.dev with rxClaimed := rest }
            regs := { s.regs with icr := s.regs.icr ||| 0x00000080 }
            history := t.history })
      ∧ (s.dev.resetBusy = true ∨ s.dev.rxClaimed = [] →
        exec (.devRxWb draw) s = .next { s with idleTurns := s.idleTurns + 1 })

/-- DEV_TX_XMIT (R288): the frame is the L bytes at the address its descriptor holds; it goes on the wire; with RS the status becomes DD and TXDW is
set, and every other byte is as before; without RS memory is as before; TDH moves on one slot. A frame byte that nothing has written is a free
value (R45, log entry 9); so is the index in the next TDH where TDLEN names no descriptor, for which the spec states none (R9, log entry 16), and its
bits 31:16 are 0 (R106). During a reset, with the unit off, or with TDH = TDT there is no such step (R297; the idle turn is log entry 2). -/
def Obligations.DevTxTransmit : Prop :=
  ∀ s : State, Agent.dev ∉ s.stopped →
    (∀ (d a n : Nat) (desc : List Byte),
      s.dev.resetBusy = false → s.dev.txEnabled = true → s.regs.tdh ≠ s.regs.tdt →
      d = s.regs.tdbah.toNat * 2 ^ 32 + s.regs.tdbal.toNat + 16 * s.regs.tdh.toNat →
      (List.range 16).map (fun i => s.mem.get (d + i)) = desc.map some →
      a = ofLeBytes (desc.take 8) → n = ofLeBytes ((desc.drop 8).take 2) →
      (∀ i < 16, s.dmaLive (d + i) = true) → (∀ i < n, s.dmaLive (a + i) = true) →
      ∃ t rs frame, rs = (desc.getD 11 0).getLsbD 3 ∧ exec .devTxXmit s = .next t
        ∧ readsAs ((List.range n).map fun i => s.mem.get (a + i)) frame
        ∧ (none ∉ (List.range n).map (fun i => s.mem.get (a + i)) → s.regs.tdlen.toNat / 16 ≠ 0 → t.drawCount = s.drawCount)
        ∧ (s.regs.tdlen.toNat / 16 ≠ 0 →
          t.regs.tdh = BitVec.ofNat 32 ((s.regs.tdh.toNat + 1) % (s.regs.tdlen.toNat / 16)))
        ∧ (s.regs.tdlen.toNat / 16 = 0 → t.regs.tdh.toNat < 2 ^ 16)
        ∧ (rs = true → s.mem.differsBy t.mem (d + 12) [0x01])
        ∧ (rs = false → t.mem = s.mem)
        ∧ Event.wireOut frame ∈ t.history
        ∧ t = { s with
            drawCount := t.drawCount
            mem := t.mem
            wireOut := s.wireOut ++ [frame]
            regs := { s.regs with
              icr := if rs then s.regs.icr ||| 0x00000001 else s.regs.icr
              tdh := t.regs.tdh }
            history := t.history })
      ∧ (s.dev.resetBusy = true ∨ s.dev.txEnabled = false ∨ s.regs.tdh = s.regs.tdt →
        exec .devTxXmit s = .next { s with idleTurns := s.idleTurns + 1 })

/-- R293: a device reset that is in progress completes: CTRL and the bases take their drawn values, RST clear, the other registers 0, the units
off; memory, the wires and the block's side are kept. With no reset in progress there is no such step (log entry 2). -/
def Obligations.DevResetDone : Prop :=
  ∀ (s : State) (d : Option RstDraws), Agent.dev ∉ s.stopped →
    (s.dev.resetBusy = true → ∃ (v : RstDraws) (c : Word),
        (∀ w, d = some w → v = w) ∧ (∀ b, b < 32 → c.getLsbD b = (b != 26 && v.ctrl.getLsbD b))
          ∧ ∃ n, exec (.devRstDone d) s = .next { s with
              drawCount := n
              regs :=
                { ctrl := c, icr := 0, ims := 0, rdbal := v.rdbal, rdbah := v.rdbah, rdlen := 0, rdh := 0, rdt := 0,
                  tdbal := v.tdbal, tdbah := v.tdbah, tdlen := 0, tdh := 0, tdt := 0 }
              dev := { rxEnabled := false, txEnabled := false, cur := none, rxClaimed := [], resetBusy := false } })
      ∧ (s.dev.resetBusy = false → exec (.devRstDone d) s = .next { s with idleTurns := s.idleTurns + 1 })

/-- F_DMA_AFTER_FREE (R281, R284, R288, R352): a DEV_RX_WB or DEV_TX_XMIT whose descriptor has a byte outside every live region faults with the first
such byte; so does one whose descriptor is live, and holds the buffer's address and length, where the buffer has such a byte (log entry 14). It writes
nothing. -/
def Obligations.DevAccessAfterFree : Prop :=
  ∀ (s : State) (b : Nat), Agent.dev ∉ s.stopped → s.dev.resetBusy = false → s.dmaLive b = false →
    (∀ draw c rest d, s.dev.rxClaimed = c :: rest →
        d = s.regs.rdbah.toNat * 2 ^ 32 + s.regs.rdbal.toNat + 16 * c.slot →
        (d ≤ b → b < d + 16 → (∀ i, d ≤ i → i < b → s.dmaLive i = true) →
            exec (.devRxWb draw) s = .next (s.raiseFault .dev (.dmaAfterFree b)))
          ∧ ∀ (a : Nat) (ptr : List Byte), (∀ i < 16, s.dmaLive (d + i) = true) →
            (List.range 8).map (fun i => s.mem.get (d + i)) = ptr.map some → a = ofLeBytes ptr →
            a ≤ b → b < a + c.chunk.length → (∀ i, a ≤ i → i < b → s.dmaLive i = true) →
            exec (.devRxWb draw) s = .next (s.raiseFault .dev (.dmaAfterFree b)))
      ∧ (∀ d, s.dev.txEnabled = true → s.regs.tdh ≠ s.regs.tdt →
        d = s.regs.tdbah.toNat * 2 ^ 32 + s.regs.tdbal.toNat + 16 * s.regs.tdh.toNat →
        (d ≤ b → b < d + 16 → (∀ i, d ≤ i → i < b → s.dmaLive i = true) →
            exec .devTxXmit s = .next (s.raiseFault .dev (.dmaAfterFree b)))
          ∧ ∀ (a n : Nat) (desc : List Byte), (∀ i < 16, s.dmaLive (d + i) = true) →
            (List.range 16).map (fun i => s.mem.get (d + i)) = desc.map some →
            a = ofLeBytes (desc.take 8) → n = ofLeBytes ((desc.drop 8).take 2) →
            a ≤ b → b < a + n → (∀ i, a ≤ i → i < b → s.dmaLive i = true) →
            exec .devTxXmit s = .next (s.raiseFault .dev (.dmaAfterFree b)))

/-- RDH changes only by DEV_RX_CLAIM and DEV_RST_DONE, TDH only by DEV_TX_XMIT and DEV_RST_DONE (R24, R133): no other operation and no agent's
micro-step changes a head. -/
def Obligations.HeadsMovedOnlyByDevice : Prop :=
  ∀ s t : State,
    (∀ i, exec i s = .next t →
        (t.regs.rdh ≠ s.regs.rdh → i = .devRxClaim ∨ ∃ d, i = .devRstDone d)
          ∧ (t.regs.tdh ≠ s.regs.tdh → i = .devTxXmit ∨ ∃ d, i = .devRstDone d))
      ∧ ∀ x d, runMicro x d s = .next t → t.regs.rdh = s.regs.rdh ∧ t.regs.tdh = s.regs.tdh

/-! ### The rings -/

/-- The receive ring is the granted region, the pending region and the one slot at RDT (R134 to R136): each slot of the ring is in exactly one of the
three, and their sizes add up to N_RX. -/
def Obligations.RingPartition : Prop :=
  ∀ n head tail : Nat, 0 < n → head < n → tail < n →
    (headToTail n head tail).length + (pendingSlots n head tail).length + 1 = n
      ∧ ∀ i < n,
        (i ∈ headToTail n head tail ∧ i ∉ pendingSlots n head tail ∧ i ≠ tail)
          ∨ (i ∉ headToTail n head tail ∧ i ∈ pendingSlots n head tail ∧ i ≠ tail)
          ∨ (i ∉ headToTail n head tail ∧ i ∉ pendingSlots n head tail ∧ i = tail)

/-! ### The lifecycle -/

/-- ATTACH's issue step and A_CHECK (R310): with HOST idle ATTACH goes to A_CHECK, the request recorded (R3, log entry 33); from DETACHED that goes on
with life = ATTACHING, and from any other life it faults. -/
def Obligations.AttachIssueAndCheck : Prop :=
  ∀ (s : State) (d : Draws), Agent.host ∉ s.stopped →
    (s.host.pc = .idle → exec .attach s = .next { s with
        host := { s.host with pc := .aCheck }
        history := s.history ++ [.attach] })
      ∧ (s.host.pc = .aCheck → s.life = .detached →
        runMicro .host d s = .next { s with life := .attaching, host := { s.host with pc := .aMap } })
      ∧ (s.host.pc = .aCheck → s.life ≠ .detached →
        runMicro .host d s = .next (s.raiseFault .host (.alreadyAttached s.life)))

/-- DETACH's issue step and D_CHECK (R320, R321): with HOST idle DETACH goes to D_CHECK; with life = DETACHED that goes back and nothing has changed
but the history, which holds the request (R3, log entry 33); otherwise it goes on with life = DETACHING. -/
def Obligations.DetachIssueAndCheck : Prop :=
  ∀ (s : State) (d : Draws), Agent.host ∉ s.stopped → s.host.pc = .idle →
    ∃ t, exec .detach s = .next t
      ∧ t = { s with host := { s.host with pc := .dCheck }, history := s.history ++ [.detach] }
      ∧ (s.life = .detached → runMicro .host d t = .next { s with history := s.history ++ [.detach] })
      ∧ (s.life ≠ .detached →
        runMicro .host d t = .next { t with life := .detaching, host := { s.host with pc := .dQuiesce } })

/-- The reset poll (R310, R315): RST clear ends it, RST set counts one poll, and the RESET_POLL_MAX-th ends ATTACH with FAIL_RESET_TIMEOUT. -/
def Obligations.ResetPollBounded : Prop :=
  ∀ (s : State) (d : Draws), Agent.host ∉ s.stopped → s.host.pc = .aPoll → Resource.map ∈ s.acquired →
    ∃ t, runMicro .host d s = .next t
      ∧ (s.dev.resetBusy = false → t.host.pc = .aLinkRd)
      ∧ (s.dev.resetBusy = true → t.host.polls = s.host.polls + 1
          ∧ (s.host.polls + 1 ≠ s.cfg.resetPollMax → t.host.pc = .aPoll)
          ∧ (s.host.polls + 1 = s.cfg.resetPollMax → t.host.pc = .aUnwind ∧ t.host.result = .failResetTimeout))
      ∧ t = { s with host := t.host, history := t.history }

/-- The unwind (R313, R314): each A_UNWIND micro-step releases the newest entry of `acquired`, and only that one, and takes it off the list; so HOST
releases what is acquired, newest first, one resource a micro-step, and then ends ATTACH: nothing is acquired, no region is live, no handler is
registered, life is DETACHED, and AttachResult reports the failure. -/
def Obligations.UnwindReleasesAll : Prop :=
  ∀ s : State, Agent.host ∉ s.stopped → s.host.pc = .aUnwind →
    (∀ d, ∃ t, runMicro .host d s = .next t ∧ t.acquired = s.acquired.dropLast
        ∧ (∀ k, (t.regions.get k).live = true
          ↔ (s.regions.get k).live = true ∧ s.acquired.getLast? ≠ some (.region k))
        ∧ (t.irq.registered = true ↔ s.irq.registered = true ∧ s.acquired.getLast? ≠ some .irq)
        ∧ t.host.pc = if t.acquired = [] then .aFailed else .aUnwind)
      ∧ ∀ ds : List Draws, s.resourceInv → ds.length = s.acquired.length + 1 →
        ∃ t, hostSteps ds s = .next t ∧ t.acquired = [] ∧ (∀ k, (t.regions.get k).live = false)
          ∧ t.irq.registered = false ∧ t.life = .detached ∧ t.host.pc = .idle
          ∧ t.history = s.history ++ [.attachResult s.host.result]
          ∧ t.regs = s.regs ∧ t.bh = s.bh ∧ t.txc = s.txc ∧ t.dev = s.dev ∧ t.faults = s.faults

/-- ATTACH from the end of its reset (R310, R312): with RST clear, the allocator granting four regions that R47 allows, every request granted, and no
other agent stepping, HOST's twenty-three micro-steps from A_POLL under POSTED_ORDER = SC reach the attached state and answer OK. -/
def Obligations.AttachReachesAttachedState : Prop :=
  ∀ (s : State) (g : RegionKind → Nat × Nat) (ds : List Draws),
    Agent.host ∉ s.stopped → s.cfg.valid = true → s.cfg.postedOrder = .sc → s.host.pc = .aPoll → s.life = .attaching →
    s.acquired = [.map] → (∀ k, (s.regions.get k).live = false) → s.irq.registered = false →
    s.irq.pc = .idle → s.bh.pc = .idle → (∀ c ∈ s.txc, c.pc = .idle ∧ c.posted = []) →
    s.host.posted = [] → s.irq.posted = [] → s.bh.posted = [] →
    s.dev = { rxEnabled := false, txEnabled := false, cur := none, rxClaimed := [], resetBusy := false } →
    s.regs.ctrl.getLsbD 26 = false → s.regs.ims = 0 → s.regs.rdh = 0 → s.regs.tdh = 0 →
    (∀ k, (g k).2 % s.cfg.dmaAlign = 0 ∧ (g k).2 + regionSize s.cfg k ≤ 2 ^ 64) →
    (∀ k j, k ≠ j → disjointRanges (g k).1 (regionSize s.cfg k) (g j).1 (regionSize s.cfg j) = true
      ∧ disjointRanges (g k).2 (regionSize s.cfg k) (g j).2 (regionSize s.cfg j) = true) →
    ds.length = 23 → (∀ d ∈ ds, d.granted = true) →
    (ds.map Draws.alloc)[3]? = some (some (g .rxdesc)) → (ds.map Draws.alloc)[4]? = some (some (g .rxbuf)) →
    (ds.map Draws.alloc)[5]? = some (some (g .txdesc)) → (ds.map Draws.alloc)[6]? = some (some (g .txbuf)) →
    ∃ t, hostSteps ds s = .next t ∧ t.attached ∧ t.history.getLast? = some (.attachResult .ok)
      ∧ (∀ k, (t.regions.get k).loc = (g k).1 ∧ (t.regions.get k).dma = (g k).2) ∧ t.regs.icr = s.regs.icr
      ∧ t.faults = s.faults ∧ t.refused = s.refused ∧ t.wireIn = s.wireIn ∧ t.wireOut = s.wireOut

/-- DETACH of an idle attached block (R320, R324): with no other agent stepping, HOST's fourteen micro-steps from D_CHECK reach the cold state, with the fault
set, the refused mark and the wires kept, and every mask bit clear. -/
def Obligations.DetachReachesColdState : Prop :=
  ∀ (s : State) (ds : List Draws), Agent.host ∉ s.stopped → s.memInv → s.life = .attached →
    s.host.pc = .dCheck → { s with host := { s.host with pc := .idle } }.agentsIdle →
    s.coord = ⟨false, false⟩ → s.txLock = none → s.dev.resetBusy = false → ds.length = 14 →
    ∃ t, hostSteps ds s = .next t ∧ t.cold ∧ t.regs = { s.regs with ims := 0 } ∧ t.faults = s.faults
      ∧ t.refused = s.refused ∧ t.wireIn = s.wireIn ∧ t.wireOut = s.wireOut

/-! ### Invariants -/

/-- The reset state is safe and cold and meets every invariant below. The values of the indices and of the ring lengths there are the model's
(log entries 6 and 7); the rest is R381's. -/
def Obligations.ResetMeetsInvariants : Prop :=
  State.reset.safe ∧ State.reset.cold ∧ State.reset.coordInv ∧ State.reset.txInv ∧ State.reset.memInv
    ∧ State.reset.regionInv ∧ State.reset.indexInv ∧ State.reset.lengthInv ∧ State.reset.postedInv
    ∧ State.reset.devInv ∧ State.reset.recordInv ∧ State.reset.engineInv

/-- coord.running is 1 exactly while BH is not idle (R236), whoever schedules, through every ATTACH and DETACH. -/
def Obligations.SingleRunnerKept : Prop :=
  ∀ s t : State, s.coordInv → step s = .next t → t.coordInv

/-- The coordinator's transitions (R236): every step keeps (pending, running), or is a request, a start, an end, or DETACH's cancel at D_BH,
which clears `pending` whether or not a run is in progress (R320). -/
def Obligations.CoordinatorTransitions : Prop :=
  ∀ s t : State, s.coordInv → step s = .next t →
    t.coord = s.coord
      ∨ (s.coord, t.coord) ∈ ([(⟨false, false⟩, ⟨true, false⟩), (⟨false, true⟩, ⟨true, true⟩),
          (⟨true, false⟩, ⟨false, true⟩), (⟨false, true⟩, ⟨false, false⟩), (⟨true, true⟩, ⟨true, false⟩)] :
          List (Coord × Coord))
      ∨ (s.host.pc = .dBh ∧ s.coord.pending = true ∧ t.coord = { s.coord with pending := false })

/-- A caller between TX_LOCK and TX_UNLOCK holds tx.lock, at every step, so that at most one is there (R217). -/
def Obligations.TxExclusionKept : Prop :=
  (∀ s t : State, s.txInv → step s = .next t → t.txInv)
    ∧ ∀ s : State, s.txInv → ∀ (j k : Nat) (a b : TxAgent), s.txc[j]? = some a → s.txc[k]? = some b →
      a.pc.critical = true → b.pc.critical = true → j = k

/-- What is acquired is what HOST has taken so far, the live regions and the registration are what is acquired, the memory keeps its canonical form, and
no byte stands outside the live regions, at every step (R21, R25, R313, R314). -/
def Obligations.ResourcesAndMemoryKept : Prop :=
  ∀ s t : State, s.memInv → step s = .next t → t.memInv

/-- Every head, tail and working index stays an index of its ring, and every ring length 0 or the configured one, the configured one where DEV moves a
head by it (R132, R395); the accumulator
stays within ACC_CAP, a consumed length and a claimed chunk within RX_BUF_SIZE, a frame past its check within TX_MAX_LEN, and the poll count
under its bound (R31, R147, R287, R315), at every step. -/
def Obligations.BoundsKept : Prop :=
  (∀ s t : State, s.indexInv → step s = .next t → t.indexInv)
    ∧ ∀ s t : State, s.lengthInv → step s = .next t → t.lengthInv

/-- An agent has posted writes only between a write and the barrier after it, so that none is left when it publishes an index or goes idle, at every step
(R322, R390, R391); none at all under SC (R36). -/
def Obligations.PostedWritesDrainedKept : Prop :=
  ∀ s t : State, s.postedInv → step s = .next t → t.postedInv

/-- The device's DMA stays off while the block is cold, in ATTACH up to A_ENABLE, and in DETACH after D_QUIESCE, at every step (R37, R294, R322): the
units stay off, with nothing claimed and no frame part-way; and DEV takes no step there that accesses coherent memory: memory is as before, and what
the step records holds no access by DEV and no fault of one. -/
def Obligations.DmaOffKept : Prop :=
  (∀ s t : State, s.devInv → step s = .next t → t.devInv)
    ∧ ∀ s t : State, s.devInv → s.dmaOff → s.moves .dev t →
      t.mem = s.mem ∧ ∃ new, t.history = s.history ++ new
        ∧ ∀ e ∈ new, (∀ dir a bs, e ≠ .mem .dev dir a bs) ∧ ∀ c f, e ≠ .fault c .dev f

/-- Everything that keeps the engine agents inside their registers and regions is kept by every step (R344). -/
def Obligations.EngineInvKept : Prop :=
  ∀ s t : State, s.engineInv → step s = .next t → t.engineInv

/-- With it, the engines' own accesses never fault (R344): no step adds F_MEM_BAD or F_INDEX_RANGE, and F_REG_UNMAPPED, F_REG_BAD, F_HEAD_WRITE
and F_REG_VALUE come only from HOST's stand-alone words. -/
def Obligations.EngineFaultsUnreachable : Prop :=
  ∀ s t : State, s.engineInv → step s = .next t → ∀ c x f, t.history = s.history ++ [.fault c x f] →
    c ≠ .memBad ∧ c ≠ .indexRange
      ∧ (c ∈ ([.regUnmapped, .regBad, .headWrite, .regValue] : List FaultCode) → x = .host ∧ s.host.pc = .idle)
end

