-- ==== Sys2Proof/Laws/Memory.lean ====
section
/-! SUPPORT. Byte lists and the canonical memory: what a read gives after a write, and that every memory operation keeps the canonical
form. -/

namespace Sys2Proof.Machine

/-! ### Byte lists -/

theorem hasLength_iff {α : Type} (xs : List α) (n : Nat) : hasLength xs n = true ↔ xs.length = n := by
  induction xs generalizing n with
  | nil => cases n <;> simp [hasLength]
  | cons x xs ih => cases n <;> simp [hasLength, ih]

@[simp] theorem leBytes_length (n v : Nat) : (leBytes n v).length = n := by
  induction n generalizing v with
  | zero => rfl
  | succ n ih => simp [leBytes, ih]

theorem ofLeBytes_leBytes (n v : Nat) : ofLeBytes (leBytes n v) = v % 256 ^ n := by
  induction n generalizing v with
  | zero => simp [leBytes, ofLeBytes, Nat.mod_one]
  | succ n ih => simp [leBytes, ofLeBytes, ih, Nat.pow_succ', Nat.mod_mul]

theorem ofLeBytes_lt (bs : List Byte) : ofLeBytes bs < 256 ^ bs.length := by
  induction bs with
  | nil => simp [ofLeBytes]
  | cons b bs ih =>
    have hb : b.toNat < 256 := b.isLt
    simp only [ofLeBytes, List.length_cons, Nat.pow_succ]
    omega

/-! ### Cells -/

theorem cellsFrom_ge (a : Nat) (bs : List Byte) : ∀ p ∈ cellsFrom a bs, a ≤ p.1 ∧ p.1 < a + bs.length := by
  induction bs generalizing a with
  | nil => simp [cellsFrom]
  | cons b bs ih =>
    intro p hp
    simp only [cellsFrom, List.mem_cons] at hp
    rcases hp with rfl | hp
    · simp
    · have := ih (a + 1) p hp
      simp only [List.length_cons]
      omega

theorem cellsFrom_wf (a : Nat) (bs : List Byte) : Memory.wf (cellsFrom a bs) := by
  induction bs generalizing a with
  | nil => exact List.Pairwise.nil
  | cons b bs ih =>
    refine List.Pairwise.cons (fun p hp => ?_) (ih (a + 1))
    have := (cellsFrom_ge (a + 1) bs p hp).1
    show a < p.1
    omega

theorem Memory.get_nil (b : Nat) : Memory.get [] b = none := rfl

theorem Memory.get_append (m n : Memory) (b : Nat) : Memory.get (m ++ n) b = (Memory.get m b).or (Memory.get n b) := by
  simp only [Memory.get, List.find?_append]
  cases List.find? (fun p => p.1 == b) m <;> rfl

theorem Memory.get_filter (m : Memory) (q : Nat → Bool) (b : Nat) :
    Memory.get (m.filter fun p => q p.1) b = if q b then m.get b else none := by
  induction m with
  | nil => simp [Memory.get]
  | cons c m ih =>
    simp only [Memory.get] at ih ⊢
    by_cases hc : c.1 = b
    · subst hc
      cases hq : q c.1
      · simp only [List.filter_cons, hq, Bool.false_eq_true, if_false] at ih ⊢
        exact ih
      · simp [hq]
    · cases hq : q c.1 <;> simp_all

theorem Memory.get_cellsFrom (a : Nat) (bs : List Byte) (b : Nat) :
    Memory.get (cellsFrom a bs) b = if a ≤ b then bs[b - a]? else none := by
  induction bs generalizing a with
  | nil => simp [cellsFrom, Memory.get]
  | cons c bs ih =>
    have h := ih (a + 1)
    simp only [Memory.get, cellsFrom, List.find?_cons] at h ⊢
    by_cases hab : a = b
    · subst hab; simp
    · have hne : (a == b) = false := by simpa using hab
      rw [hne]
      simp only [h]
      by_cases hle : a ≤ b
      · have e : b - a = (b - (a + 1)) + 1 := by omega
        have hlt : a + 1 ≤ b := by omega
        simp only [hle, hlt, if_true, e, List.getElem?_cons_succ]
      · have hlt : ¬ a + 1 ≤ b := by omega
        simp [hle, hlt]

/-! ### Reads after writes -/

/-- Read over write: the bytes written, and every other byte as before. -/
theorem Memory.get_write (m : Memory) (a : Nat) (bs : List Byte) (b : Nat) :
    (m.write a bs).get b = if a ≤ b ∧ b < a + bs.length then bs[b - a]? else m.get b := by
  have h1 := m.get_filter (fun x => decide (x < a)) b
  have h2 := m.get_filter (fun x => decide (a + bs.length ≤ x)) b
  simp only [Memory.write, Memory.get_append, Memory.get_cellsFrom, h1, h2, decide_eq_true_eq]
  by_cases hlo : b < a
  · have h3 : ¬ a ≤ b := by omega
    have h4 : ¬ a + bs.length ≤ b := by omega
    simp only [hlo, h3, h4, if_true, if_false, false_and]
    cases m.get b <;> rfl
  · by_cases hhi : a + bs.length ≤ b
    · have h3 : a ≤ b := by omega
      have h4 : ¬ b < a + bs.length := by omega
      have h5 : bs[b - a]? = none := List.getElem?_eq_none (by omega)
      simp [hlo, hhi, h3, h4, h5]
    · have h3 : a ≤ b := by omega
      have h4 : b < a + bs.length := by omega
      simp [hlo, hhi, h3, h4]

/-- A write leaves every byte outside it alone. -/
theorem Memory.get_write_frame (m : Memory) (a : Nat) (bs : List Byte) (b : Nat)
    (h : b < a ∨ a + bs.length ≤ b) : (m.write a bs).get b = m.get b := by
  rw [Memory.get_write, if_neg (by omega)]

/-- Read over clear. -/
theorem Memory.get_clear (m : Memory) (a n b : Nat) :
    (m.clear a n).get b = if a ≤ b ∧ b < a + n then none else m.get b := by
  have h := m.get_filter (fun x => decide (x < a) || decide (a + n ≤ x)) b
  simp only [Memory.clear, h, Bool.or_eq_true, decide_eq_true_eq]
  by_cases hb : a ≤ b ∧ b < a + n
  · rw [if_pos hb, if_neg (by omega)]
  · rw [if_neg hb, if_pos (by omega)]

/-! ### The canonical form is kept -/

theorem Memory.wf_write (m : Memory) (a : Nat) (bs : List Byte) (h : Memory.wf m) : Memory.wf (m.write a bs) := by
  refine List.pairwise_append.2 ⟨h.filter _, List.pairwise_append.2 ⟨cellsFrom_wf a bs, h.filter _, ?_⟩, ?_⟩
  · intro p hp q hq
    have := (cellsFrom_ge a bs p hp).2
    simp only [List.mem_filter, decide_eq_true_eq] at hq
    omega
  · intro p hp q hq
    simp only [List.mem_filter, decide_eq_true_eq] at hp
    simp only [List.mem_append, List.mem_filter, decide_eq_true_eq] at hq
    rcases hq with hq | hq
    · have := (cellsFrom_ge a bs q hq).1
      omega
    · omega

theorem Memory.wf_clear (m : Memory) (a n : Nat) (h : Memory.wf m) : Memory.wf (m.clear a n) := h.filter _

theorem reset_memory_wf : Memory.wf State.reset.mem := List.Pairwise.nil

/-- Where a cell of a written memory comes from. -/
theorem Memory.mem_write {m : Memory} {a : Nat} {bs : List Byte} {p : Host.Cell} (h : p ∈ m.write a bs) :
    p ∈ m ∨ (a ≤ p.1 ∧ p.1 < a + bs.length) := by
  simp only [Memory.write, List.mem_append, List.mem_filter] at h
  rcases h with h | h | h
  · exact .inl h.1
  · exact .inr (cellsFrom_ge a bs p h)
  · exact .inl h.1

/-- Which cells a clear keeps. -/
theorem Memory.mem_clear {m : Memory} {a n : Nat} {p : Host.Cell} :
    p ∈ m.clear a n ↔ p ∈ m ∧ (p.1 < a ∨ a + n ≤ p.1) := by
  simp [Memory.clear, List.mem_filter]

/-! ### Free values -/

@[simp] theorem fillDraws_length (os : List (Option Byte)) (c : Nat) : (fillDraws os c).1.length = os.length := by
  induction os generalizing c with
  | nil => rfl
  | cons o os ih => cases o <;> simp [fillDraws, ih]

/-- No byte is drawn where every byte holds a value. -/
theorem fillDraws_some (bs : List Byte) (c : Nat) : fillDraws (bs.map some) c = (bs, c) := by
  induction bs with
  | nil => rfl
  | cons b bs ih => simp [fillDraws, ih]

/-- What a read returns is what the bytes held allow (R45). -/
theorem fillDraws_readsAs (held : List (Option Byte)) (c : Nat) : readsAs held (fillDraws held c).1 := by
  induction held generalizing c with
  | nil => exact ⟨rfl, fun i b h => by simp at h⟩
  | cons o os ih =>
    cases o with
    | some v =>
      refine ⟨by simp [fillDraws], fun i b h => ?_⟩
      cases i with
      | zero => simpa [fillDraws] using h
      | succ i => exact (ih c).2 i b (by simpa using h)
    | none =>
      refine ⟨by simp [fillDraws], fun i b h => ?_⟩
      cases i with
      | zero => simp at h
      | succ i => exact (ih (c + 1)).2 i b (by simpa using h)

/-- A read that meets no unwritten byte draws nothing. -/
theorem fillDraws_count (held : List (Option Byte)) (c : Nat) (h : none ∉ held) : (fillDraws held c).2 = c := by
  induction held generalizing c with
  | nil => rfl
  | cons o os ih =>
    cases o with
    | none => simp at h
    | some v => exact ih c (fun hm => h (List.mem_cons_of_mem _ hm))

@[simp] theorem State.view_length (s : State) (x : Agent) (k : RegionKind) (a n : Nat) :
    (s.view x k a n).length = n := by
  simp [State.view]

/-- With nothing posted, an agent sees memory. -/
theorem State.view_of_not_posted (s : State) (x : Agent) (k : RegionKind) (a n : Nat) (h : s.posted x = []) :
    s.view x k a n = (List.range n).map fun i => s.mem.get (s.dmaOf k a + i) := by
  simp [State.view, h, postedByte]

end Sys2Proof.Machine
end

