-- ==== Sys2Proof/Laws/Decode.lean ====
section
/-! SUPPORT. What the decoder's parts give. -/

namespace Sys2Proof

/-- A row that is found is a row of the map, with the OPC asked for. -/
theorem findRow_some {opc : Nat} {r : Row} (h : findRow opc = some r) : r ∈ opcodeMap ∧ r.opc = opc :=
  ⟨List.mem_of_find?_eq_some h, by simpa using List.find?_some h⟩

/-- The tag of the agent a tag names is that tag (R111). -/
theorem agentOfTag_some {n ag : Nat} {x : Agent} (h : agentOfTag n ag = some x) : x.tag = ag := by
  simp only [agentOfTag, beq_iff_eq] at h
  iterate 5
    rcases ite_eq_iff.1 h with ⟨e, hx⟩ | ⟨-, h⟩
    · rw [← Option.some.inj hx, e]; rfl
  split at h
  · rename_i hk
    simp only [Bool.and_eq_true, decide_eq_true_eq] at hk
    cases h
    simp only [Agent.tag]
    omega
  · cases h

/-- Everything decoding a word can do (R115). -/
theorem decodeWord_some {n : Nat} {w : Word} {oob : Oob} {i : Instr} (h : decodeWord n w oob = some i) :
    ∃ r x, findRow (w.toNat / 2 ^ 24) = some r ∧ agentOfTag n (w.toNat / 2 ^ 16 % 2 ^ 8) = some x
      ∧ r.ags.allows n x = true ∧ (r.immZero = true → w.toNat % 2 ^ 16 = 0)
      ∧ assemble r.op x (w.toNat % 2 ^ 16) oob = some i := by
  simp only [decodeWord] at h
  split at h
  · cases h
  · rename_i r hr
    split at h
    · cases h
    · rename_i x hx
      split at h
      · cases h
      · rename_i ha
        split at h
        · cases h
        · rename_i hz
          refine ⟨r, x, hr, hx, by simpa using ha, fun hi => ?_, h⟩
          simpa [hi] using hz

/-- Stored bytes that decode are the four bytes of a word (R110, R118). -/
theorem decode_some {n : Nat} {cmd : List Byte} {oob : Oob} {i : Instr} (h : decode n cmd oob = some i) :
    cmd.length = 4 ∧ decodeWord n (BitVec.ofNat 32 (Machine.ofLeBytes cmd)) oob = some i := by
  match cmd, h with
  | [b0, b1, b2, b3], h => exact ⟨rfl, h⟩

/-- The frame of a TX_SUBMIT that is assembled has the length its IMM gives (R113). -/
theorem assemble_txSubmit {op : Op} {x : Agent} {imm k : Nat} {oob : Oob} {len : Half} {frame : List Byte}
    (hi : imm < 2 ^ 16) (h : assemble op x imm oob = some (.txSubmit k len frame)) : frame.length = len.toNat := by
  cases op <;> simp only [assemble] at h <;> (try cases h)
  case txSubmit =>
    split at h
    · split at h
      · rename_i hl
        cases h
        rw [(Machine.hasLength_iff _ _).1 hl, BitVec.toNat_ofNat, Nat.mod_eq_of_lt hi]
      · cases h
    · cases h
  all_goals (split at h <;> try cases h) <;> (split at h <;> cases h)

theorem decode_txSubmit_length {n k : Nat} {cmd : List Byte} {oob : Oob} {len : Half} {frame : List Byte}
    (h : decode n cmd oob = some (.txSubmit k len frame)) : frame.length = len.toNat := by
  obtain ⟨r, x, -, -, -, -, ha⟩ := decodeWord_some (decode_some h).2
  exact assemble_txSubmit (Nat.mod_lt _ (by decide)) ha

end Sys2Proof
end

