-- ==== Sys2Proof/Laws/State.lean ====
section
/-! SUPPORT. One lemma for each field of State under each update the micro-steps are built from. -/

namespace Sys2Proof.Machine

variable (s : State)

/-! ### emit -/

@[simp] theorem State.emit_cfg (e : Event) : (s.emit e).cfg = s.cfg := rfl
@[simp] theorem State.emit_script (e : Event) : (s.emit e).script = s.script := rfl
@[simp] theorem State.emit_drawCount (e : Event) : (s.emit e).drawCount = s.drawCount := rfl
@[simp] theorem State.emit_idleTurns (e : Event) : (s.emit e).idleTurns = s.idleTurns := rfl
@[simp] theorem State.emit_stopped (e : Event) : (s.emit e).stopped = s.stopped := rfl
@[simp] theorem State.emit_life (e : Event) : (s.emit e).life = s.life := rfl
@[simp] theorem State.emit_acquired (e : Event) : (s.emit e).acquired = s.acquired := rfl
@[simp] theorem State.emit_regs (e : Event) : (s.emit e).regs = s.regs := rfl
@[simp] theorem State.emit_regions (e : Event) : (s.emit e).regions = s.regions := rfl
@[simp] theorem State.emit_mem (e : Event) : (s.emit e).mem = s.mem := rfl
@[simp] theorem State.emit_host (e : Event) : (s.emit e).host = s.host := rfl
@[simp] theorem State.emit_irq (e : Event) : (s.emit e).irq = s.irq := rfl
@[simp] theorem State.emit_bh (e : Event) : (s.emit e).bh = s.bh := rfl
@[simp] theorem State.emit_txc (e : Event) : (s.emit e).txc = s.txc := rfl
@[simp] theorem State.emit_txLock (e : Event) : (s.emit e).txLock = s.txLock := rfl
@[simp] theorem State.emit_coord (e : Event) : (s.emit e).coord = s.coord := rfl
@[simp] theorem State.emit_dev (e : Event) : (s.emit e).dev = s.dev := rfl
@[simp] theorem State.emit_wireIn (e : Event) : (s.emit e).wireIn = s.wireIn := rfl
@[simp] theorem State.emit_wireOut (e : Event) : (s.emit e).wireOut = s.wireOut := rfl
@[simp] theorem State.emit_faults (e : Event) : (s.emit e).faults = s.faults := rfl
@[simp] theorem State.emit_refused (e : Event) : (s.emit e).refused = s.refused := rfl
@[simp] theorem State.emit_history (e : Event) : (s.emit e).history = s.history ++ [e] := rfl

/-! ### passTurn -/

@[simp] theorem State.passTurn_cfg : (s.passTurn).cfg = s.cfg := rfl
@[simp] theorem State.passTurn_script : (s.passTurn).script = s.script := rfl
@[simp] theorem State.passTurn_drawCount : (s.passTurn).drawCount = s.drawCount := rfl
@[simp] theorem State.passTurn_idleTurns : (s.passTurn).idleTurns = s.idleTurns + 1 := rfl
@[simp] theorem State.passTurn_stopped : (s.passTurn).stopped = s.stopped := rfl
@[simp] theorem State.passTurn_life : (s.passTurn).life = s.life := rfl
@[simp] theorem State.passTurn_acquired : (s.passTurn).acquired = s.acquired := rfl
@[simp] theorem State.passTurn_regs : (s.passTurn).regs = s.regs := rfl
@[simp] theorem State.passTurn_regions : (s.passTurn).regions = s.regions := rfl
@[simp] theorem State.passTurn_mem : (s.passTurn).mem = s.mem := rfl
@[simp] theorem State.passTurn_host : (s.passTurn).host = s.host := rfl
@[simp] theorem State.passTurn_irq : (s.passTurn).irq = s.irq := rfl
@[simp] theorem State.passTurn_bh : (s.passTurn).bh = s.bh := rfl
@[simp] theorem State.passTurn_txc : (s.passTurn).txc = s.txc := rfl
@[simp] theorem State.passTurn_txLock : (s.passTurn).txLock = s.txLock := rfl
@[simp] theorem State.passTurn_coord : (s.passTurn).coord = s.coord := rfl
@[simp] theorem State.passTurn_dev : (s.passTurn).dev = s.dev := rfl
@[simp] theorem State.passTurn_wireIn : (s.passTurn).wireIn = s.wireIn := rfl
@[simp] theorem State.passTurn_wireOut : (s.passTurn).wireOut = s.wireOut := rfl
@[simp] theorem State.passTurn_faults : (s.passTurn).faults = s.faults := rfl
@[simp] theorem State.passTurn_refused : (s.passTurn).refused = s.refused := rfl
@[simp] theorem State.passTurn_history : (s.passTurn).history = s.history := rfl

/-! ### raiseFault -/

@[simp] theorem State.raiseFault_cfg (x : Agent) (f : BlockFault) : (s.raiseFault x f).cfg = s.cfg := rfl
@[simp] theorem State.raiseFault_script (x : Agent) (f : BlockFault) : (s.raiseFault x f).script = s.script := rfl
@[simp] theorem State.raiseFault_drawCount (x : Agent) (f : BlockFault) :
    (s.raiseFault x f).drawCount = s.drawCount := rfl
@[simp] theorem State.raiseFault_idleTurns (x : Agent) (f : BlockFault) :
    (s.raiseFault x f).idleTurns = s.idleTurns := rfl
@[simp] theorem State.raiseFault_stopped (x : Agent) (f : BlockFault) :
    (s.raiseFault x f).stopped = if s.stopped.contains x then s.stopped else s.stopped ++ [x] := rfl
@[simp] theorem State.raiseFault_life (x : Agent) (f : BlockFault) : (s.raiseFault x f).life = s.life := rfl
@[simp] theorem State.raiseFault_acquired (x : Agent) (f : BlockFault) :
    (s.raiseFault x f).acquired = s.acquired := rfl
@[simp] theorem State.raiseFault_regs (x : Agent) (f : BlockFault) : (s.raiseFault x f).regs = s.regs := rfl
@[simp] theorem State.raiseFault_regions (x : Agent) (f : BlockFault) :
    (s.raiseFault x f).regions = s.regions := rfl
@[simp] theorem State.raiseFault_mem (x : Agent) (f : BlockFault) : (s.raiseFault x f).mem = s.mem := rfl
@[simp] theorem State.raiseFault_host (x : Agent) (f : BlockFault) : (s.raiseFault x f).host = s.host := rfl
@[simp] theorem State.raiseFault_irq (x : Agent) (f : BlockFault) : (s.raiseFault x f).irq = s.irq := rfl
@[simp] theorem State.raiseFault_bh (x : Agent) (f : BlockFault) : (s.raiseFault x f).bh = s.bh := rfl
@[simp] theorem State.raiseFault_txc (x : Agent) (f : BlockFault) : (s.raiseFault x f).txc = s.txc := rfl
@[simp] theorem State.raiseFault_txLock (x : Agent) (f : BlockFault) : (s.raiseFault x f).txLock = s.txLock := rfl
@[simp] theorem State.raiseFault_coord (x : Agent) (f : BlockFault) : (s.raiseFault x f).coord = s.coord := rfl
@[simp] theorem State.raiseFault_dev (x : Agent) (f : BlockFault) : (s.raiseFault x f).dev = s.dev := rfl
@[simp] theorem State.raiseFault_wireIn (x : Agent) (f : BlockFault) : (s.raiseFault x f).wireIn = s.wireIn := rfl
@[simp] theorem State.raiseFault_wireOut (x : Agent) (f : BlockFault) :
    (s.raiseFault x f).wireOut = s.wireOut := rfl
@[simp] theorem State.raiseFault_faults (x : Agent) (f : BlockFault) :
    (s.raiseFault x f).faults = insertFault f.code s.faults := rfl
@[simp] theorem State.raiseFault_refused (x : Agent) (f : BlockFault) :
    (s.raiseFault x f).refused = s.refused := rfl
@[simp] theorem State.raiseFault_history (x : Agent) (f : BlockFault) :
    (s.raiseFault x f).history = s.history ++ [.fault f.code x f] := rfl

/-! ### refuseWord -/

@[simp] theorem State.refuseWord_cfg : (s.refuseWord).cfg = s.cfg := rfl
@[simp] theorem State.refuseWord_script : (s.refuseWord).script = s.script := rfl
@[simp] theorem State.refuseWord_drawCount : (s.refuseWord).drawCount = s.drawCount := rfl
@[simp] theorem State.refuseWord_idleTurns : (s.refuseWord).idleTurns = s.idleTurns := rfl
@[simp] theorem State.refuseWord_stopped : (s.refuseWord).stopped = s.stopped := rfl
@[simp] theorem State.refuseWord_life : (s.refuseWord).life = s.life := rfl
@[simp] theorem State.refuseWord_acquired : (s.refuseWord).acquired = s.acquired := rfl
@[simp] theorem State.refuseWord_regs : (s.refuseWord).regs = s.regs := rfl
@[simp] theorem State.refuseWord_regions : (s.refuseWord).regions = s.regions := rfl
@[simp] theorem State.refuseWord_mem : (s.refuseWord).mem = s.mem := rfl
@[simp] theorem State.refuseWord_host : (s.refuseWord).host = s.host := rfl
@[simp] theorem State.refuseWord_irq : (s.refuseWord).irq = s.irq := rfl
@[simp] theorem State.refuseWord_bh : (s.refuseWord).bh = s.bh := rfl
@[simp] theorem State.refuseWord_txc : (s.refuseWord).txc = s.txc := rfl
@[simp] theorem State.refuseWord_txLock : (s.refuseWord).txLock = s.txLock := rfl
@[simp] theorem State.refuseWord_coord : (s.refuseWord).coord = s.coord := rfl
@[simp] theorem State.refuseWord_dev : (s.refuseWord).dev = s.dev := rfl
@[simp] theorem State.refuseWord_wireIn : (s.refuseWord).wireIn = s.wireIn := rfl
@[simp] theorem State.refuseWord_wireOut : (s.refuseWord).wireOut = s.wireOut := rfl
@[simp] theorem State.refuseWord_faults : (s.refuseWord).faults = s.faults := rfl
@[simp] theorem State.refuseWord_refused : (s.refuseWord).refused = true := rfl
@[simp] theorem State.refuseWord_history : (s.refuseWord).history = s.history := rfl

/-! ### hostGo -/

@[simp] theorem State.hostGo_cfg (pc : HostPc) : (s.hostGo pc).cfg = s.cfg := rfl
@[simp] theorem State.hostGo_script (pc : HostPc) : (s.hostGo pc).script = s.script := rfl
@[simp] theorem State.hostGo_drawCount (pc : HostPc) : (s.hostGo pc).drawCount = s.drawCount := rfl
@[simp] theorem State.hostGo_idleTurns (pc : HostPc) : (s.hostGo pc).idleTurns = s.idleTurns := rfl
@[simp] theorem State.hostGo_stopped (pc : HostPc) : (s.hostGo pc).stopped = s.stopped := rfl
@[simp] theorem State.hostGo_life (pc : HostPc) : (s.hostGo pc).life = s.life := rfl
@[simp] theorem State.hostGo_acquired (pc : HostPc) : (s.hostGo pc).acquired = s.acquired := rfl
@[simp] theorem State.hostGo_regs (pc : HostPc) : (s.hostGo pc).regs = s.regs := rfl
@[simp] theorem State.hostGo_regions (pc : HostPc) : (s.hostGo pc).regions = s.regions := rfl
@[simp] theorem State.hostGo_mem (pc : HostPc) : (s.hostGo pc).mem = s.mem := rfl
@[simp] theorem State.hostGo_host (pc : HostPc) : (s.hostGo pc).host = { s.host with pc := pc } := rfl
@[simp] theorem State.hostGo_irq (pc : HostPc) : (s.hostGo pc).irq = s.irq := rfl
@[simp] theorem State.hostGo_bh (pc : HostPc) : (s.hostGo pc).bh = s.bh := rfl
@[simp] theorem State.hostGo_txc (pc : HostPc) : (s.hostGo pc).txc = s.txc := rfl
@[simp] theorem State.hostGo_txLock (pc : HostPc) : (s.hostGo pc).txLock = s.txLock := rfl
@[simp] theorem State.hostGo_coord (pc : HostPc) : (s.hostGo pc).coord = s.coord := rfl
@[simp] theorem State.hostGo_dev (pc : HostPc) : (s.hostGo pc).dev = s.dev := rfl
@[simp] theorem State.hostGo_wireIn (pc : HostPc) : (s.hostGo pc).wireIn = s.wireIn := rfl
@[simp] theorem State.hostGo_wireOut (pc : HostPc) : (s.hostGo pc).wireOut = s.wireOut := rfl
@[simp] theorem State.hostGo_faults (pc : HostPc) : (s.hostGo pc).faults = s.faults := rfl
@[simp] theorem State.hostGo_refused (pc : HostPc) : (s.hostGo pc).refused = s.refused := rfl
@[simp] theorem State.hostGo_history (pc : HostPc) : (s.hostGo pc).history = s.history := rfl

/-! ### irqGo -/

@[simp] theorem State.irqGo_cfg (pc : IrqPc) : (s.irqGo pc).cfg = s.cfg := rfl
@[simp] theorem State.irqGo_script (pc : IrqPc) : (s.irqGo pc).script = s.script := rfl
@[simp] theorem State.irqGo_drawCount (pc : IrqPc) : (s.irqGo pc).drawCount = s.drawCount := rfl
@[simp] theorem State.irqGo_idleTurns (pc : IrqPc) : (s.irqGo pc).idleTurns = s.idleTurns := rfl
@[simp] theorem State.irqGo_stopped (pc : IrqPc) : (s.irqGo pc).stopped = s.stopped := rfl
@[simp] theorem State.irqGo_life (pc : IrqPc) : (s.irqGo pc).life = s.life := rfl
@[simp] theorem State.irqGo_acquired (pc : IrqPc) : (s.irqGo pc).acquired = s.acquired := rfl
@[simp] theorem State.irqGo_regs (pc : IrqPc) : (s.irqGo pc).regs = s.regs := rfl
@[simp] theorem State.irqGo_regions (pc : IrqPc) : (s.irqGo pc).regions = s.regions := rfl
@[simp] theorem State.irqGo_mem (pc : IrqPc) : (s.irqGo pc).mem = s.mem := rfl
@[simp] theorem State.irqGo_host (pc : IrqPc) : (s.irqGo pc).host = s.host := rfl
@[simp] theorem State.irqGo_irq (pc : IrqPc) : (s.irqGo pc).irq = { s.irq with pc := pc } := rfl
@[simp] theorem State.irqGo_bh (pc : IrqPc) : (s.irqGo pc).bh = s.bh := rfl
@[simp] theorem State.irqGo_txc (pc : IrqPc) : (s.irqGo pc).txc = s.txc := rfl
@[simp] theorem State.irqGo_txLock (pc : IrqPc) : (s.irqGo pc).txLock = s.txLock := rfl
@[simp] theorem State.irqGo_coord (pc : IrqPc) : (s.irqGo pc).coord = s.coord := rfl
@[simp] theorem State.irqGo_dev (pc : IrqPc) : (s.irqGo pc).dev = s.dev := rfl
@[simp] theorem State.irqGo_wireIn (pc : IrqPc) : (s.irqGo pc).wireIn = s.wireIn := rfl
@[simp] theorem State.irqGo_wireOut (pc : IrqPc) : (s.irqGo pc).wireOut = s.wireOut := rfl
@[simp] theorem State.irqGo_faults (pc : IrqPc) : (s.irqGo pc).faults = s.faults := rfl
@[simp] theorem State.irqGo_refused (pc : IrqPc) : (s.irqGo pc).refused = s.refused := rfl
@[simp] theorem State.irqGo_history (pc : IrqPc) : (s.irqGo pc).history = s.history := rfl

/-! ### bhGo -/

@[simp] theorem State.bhGo_cfg (pc : BhPc) : (s.bhGo pc).cfg = s.cfg := rfl
@[simp] theorem State.bhGo_script (pc : BhPc) : (s.bhGo pc).script = s.script := rfl
@[simp] theorem State.bhGo_drawCount (pc : BhPc) : (s.bhGo pc).drawCount = s.drawCount := rfl
@[simp] theorem State.bhGo_idleTurns (pc : BhPc) : (s.bhGo pc).idleTurns = s.idleTurns := rfl
@[simp] theorem State.bhGo_stopped (pc : BhPc) : (s.bhGo pc).stopped = s.stopped := rfl
@[simp] theorem State.bhGo_life (pc : BhPc) : (s.bhGo pc).life = s.life := rfl
@[simp] theorem State.bhGo_acquired (pc : BhPc) : (s.bhGo pc).acquired = s.acquired := rfl
@[simp] theorem State.bhGo_regs (pc : BhPc) : (s.bhGo pc).regs = s.regs := rfl
@[simp] theorem State.bhGo_regions (pc : BhPc) : (s.bhGo pc).regions = s.regions := rfl
@[simp] theorem State.bhGo_mem (pc : BhPc) : (s.bhGo pc).mem = s.mem := rfl
@[simp] theorem State.bhGo_host (pc : BhPc) : (s.bhGo pc).host = s.host := rfl
@[simp] theorem State.bhGo_irq (pc : BhPc) : (s.bhGo pc).irq = s.irq := rfl
@[simp] theorem State.bhGo_bh (pc : BhPc) : (s.bhGo pc).bh = { s.bh with pc := pc } := rfl
@[simp] theorem State.bhGo_txc (pc : BhPc) : (s.bhGo pc).txc = s.txc := rfl
@[simp] theorem State.bhGo_txLock (pc : BhPc) : (s.bhGo pc).txLock = s.txLock := rfl
@[simp] theorem State.bhGo_coord (pc : BhPc) : (s.bhGo pc).coord = s.coord := rfl
@[simp] theorem State.bhGo_dev (pc : BhPc) : (s.bhGo pc).dev = s.dev := rfl
@[simp] theorem State.bhGo_wireIn (pc : BhPc) : (s.bhGo pc).wireIn = s.wireIn := rfl
@[simp] theorem State.bhGo_wireOut (pc : BhPc) : (s.bhGo pc).wireOut = s.wireOut := rfl
@[simp] theorem State.bhGo_faults (pc : BhPc) : (s.bhGo pc).faults = s.faults := rfl
@[simp] theorem State.bhGo_refused (pc : BhPc) : (s.bhGo pc).refused = s.refused := rfl
@[simp] theorem State.bhGo_history (pc : BhPc) : (s.bhGo pc).history = s.history := rfl

/-! ### modTx -/

@[simp] theorem State.modTx_cfg (k : Nat) (g : TxAgent → TxAgent) : (s.modTx k g).cfg = s.cfg := rfl
@[simp] theorem State.modTx_script (k : Nat) (g : TxAgent → TxAgent) : (s.modTx k g).script = s.script := rfl
@[simp] theorem State.modTx_drawCount (k : Nat) (g : TxAgent → TxAgent) :
    (s.modTx k g).drawCount = s.drawCount := rfl
@[simp] theorem State.modTx_idleTurns (k : Nat) (g : TxAgent → TxAgent) :
    (s.modTx k g).idleTurns = s.idleTurns := rfl
@[simp] theorem State.modTx_stopped (k : Nat) (g : TxAgent → TxAgent) : (s.modTx k g).stopped = s.stopped := rfl
@[simp] theorem State.modTx_life (k : Nat) (g : TxAgent → TxAgent) : (s.modTx k g).life = s.life := rfl
@[simp] theorem State.modTx_acquired (k : Nat) (g : TxAgent → TxAgent) : (s.modTx k g).acquired = s.acquired := rfl
@[simp] theorem State.modTx_regs (k : Nat) (g : TxAgent → TxAgent) : (s.modTx k g).regs = s.regs := rfl
@[simp] theorem State.modTx_regions (k : Nat) (g : TxAgent → TxAgent) : (s.modTx k g).regions = s.regions := rfl
@[simp] theorem State.modTx_mem (k : Nat) (g : TxAgent → TxAgent) : (s.modTx k g).mem = s.mem := rfl
@[simp] theorem State.modTx_host (k : Nat) (g : TxAgent → TxAgent) : (s.modTx k g).host = s.host := rfl
@[simp] theorem State.modTx_irq (k : Nat) (g : TxAgent → TxAgent) : (s.modTx k g).irq = s.irq := rfl
@[simp] theorem State.modTx_bh (k : Nat) (g : TxAgent → TxAgent) : (s.modTx k g).bh = s.bh := rfl
@[simp] theorem State.modTx_txc (k : Nat) (g : TxAgent → TxAgent) : (s.modTx k g).txc = s.txc.modify k g := rfl
@[simp] theorem State.modTx_txLock (k : Nat) (g : TxAgent → TxAgent) : (s.modTx k g).txLock = s.txLock := rfl
@[simp] theorem State.modTx_coord (k : Nat) (g : TxAgent → TxAgent) : (s.modTx k g).coord = s.coord := rfl
@[simp] theorem State.modTx_dev (k : Nat) (g : TxAgent → TxAgent) : (s.modTx k g).dev = s.dev := rfl
@[simp] theorem State.modTx_wireIn (k : Nat) (g : TxAgent → TxAgent) : (s.modTx k g).wireIn = s.wireIn := rfl
@[simp] theorem State.modTx_wireOut (k : Nat) (g : TxAgent → TxAgent) : (s.modTx k g).wireOut = s.wireOut := rfl
@[simp] theorem State.modTx_faults (k : Nat) (g : TxAgent → TxAgent) : (s.modTx k g).faults = s.faults := rfl
@[simp] theorem State.modTx_refused (k : Nat) (g : TxAgent → TxAgent) : (s.modTx k g).refused = s.refused := rfl
@[simp] theorem State.modTx_history (k : Nat) (g : TxAgent → TxAgent) : (s.modTx k g).history = s.history := rfl

/-! ### txGo -/

@[simp] theorem State.txGo_cfg (k : Nat) (pc : TxPc) : (s.txGo k pc).cfg = s.cfg := rfl
@[simp] theorem State.txGo_script (k : Nat) (pc : TxPc) : (s.txGo k pc).script = s.script := rfl
@[simp] theorem State.txGo_drawCount (k : Nat) (pc : TxPc) : (s.txGo k pc).drawCount = s.drawCount := rfl
@[simp] theorem State.txGo_idleTurns (k : Nat) (pc : TxPc) : (s.txGo k pc).idleTurns = s.idleTurns := rfl
@[simp] theorem State.txGo_stopped (k : Nat) (pc : TxPc) : (s.txGo k pc).stopped = s.stopped := rfl
@[simp] theorem State.txGo_life (k : Nat) (pc : TxPc) : (s.txGo k pc).life = s.life := rfl
@[simp] theorem State.txGo_acquired (k : Nat) (pc : TxPc) : (s.txGo k pc).acquired = s.acquired := rfl
@[simp] theorem State.txGo_regs (k : Nat) (pc : TxPc) : (s.txGo k pc).regs = s.regs := rfl
@[simp] theorem State.txGo_regions (k : Nat) (pc : TxPc) : (s.txGo k pc).regions = s.regions := rfl
@[simp] theorem State.txGo_mem (k : Nat) (pc : TxPc) : (s.txGo k pc).mem = s.mem := rfl
@[simp] theorem State.txGo_host (k : Nat) (pc : TxPc) : (s.txGo k pc).host = s.host := rfl
@[simp] theorem State.txGo_irq (k : Nat) (pc : TxPc) : (s.txGo k pc).irq = s.irq := rfl
@[simp] theorem State.txGo_bh (k : Nat) (pc : TxPc) : (s.txGo k pc).bh = s.bh := rfl
@[simp] theorem State.txGo_txc (k : Nat) (pc : TxPc) :
    (s.txGo k pc).txc = s.txc.modify k fun t => { t with pc := pc } := rfl
@[simp] theorem State.txGo_txLock (k : Nat) (pc : TxPc) : (s.txGo k pc).txLock = s.txLock := rfl
@[simp] theorem State.txGo_coord (k : Nat) (pc : TxPc) : (s.txGo k pc).coord = s.coord := rfl
@[simp] theorem State.txGo_dev (k : Nat) (pc : TxPc) : (s.txGo k pc).dev = s.dev := rfl
@[simp] theorem State.txGo_wireIn (k : Nat) (pc : TxPc) : (s.txGo k pc).wireIn = s.wireIn := rfl
@[simp] theorem State.txGo_wireOut (k : Nat) (pc : TxPc) : (s.txGo k pc).wireOut = s.wireOut := rfl
@[simp] theorem State.txGo_faults (k : Nat) (pc : TxPc) : (s.txGo k pc).faults = s.faults := rfl
@[simp] theorem State.txGo_refused (k : Nat) (pc : TxPc) : (s.txGo k pc).refused = s.refused := rfl
@[simp] theorem State.txGo_history (k : Nat) (pc : TxPc) : (s.txGo k pc).history = s.history := rfl

/-! ### txRelease -/

@[simp] theorem State.txRelease_cfg : (s.txRelease).cfg = s.cfg := rfl
@[simp] theorem State.txRelease_script : (s.txRelease).script = s.script := rfl
@[simp] theorem State.txRelease_drawCount : (s.txRelease).drawCount = s.drawCount := rfl
@[simp] theorem State.txRelease_idleTurns : (s.txRelease).idleTurns = s.idleTurns := rfl
@[simp] theorem State.txRelease_stopped : (s.txRelease).stopped = s.stopped := rfl
@[simp] theorem State.txRelease_life : (s.txRelease).life = s.life := rfl
@[simp] theorem State.txRelease_acquired : (s.txRelease).acquired = s.acquired := rfl
@[simp] theorem State.txRelease_regs : (s.txRelease).regs = s.regs := rfl
@[simp] theorem State.txRelease_regions : (s.txRelease).regions = s.regions := rfl
@[simp] theorem State.txRelease_mem : (s.txRelease).mem = s.mem := rfl
@[simp] theorem State.txRelease_host : (s.txRelease).host = s.host := rfl
@[simp] theorem State.txRelease_irq : (s.txRelease).irq = s.irq := rfl
@[simp] theorem State.txRelease_bh : (s.txRelease).bh = s.bh := rfl
@[simp] theorem State.txRelease_txc : (s.txRelease).txc = s.txc := rfl
@[simp] theorem State.txRelease_txLock : (s.txRelease).txLock = none := rfl
@[simp] theorem State.txRelease_coord : (s.txRelease).coord = s.coord := rfl
@[simp] theorem State.txRelease_dev : (s.txRelease).dev = s.dev := rfl
@[simp] theorem State.txRelease_wireIn : (s.txRelease).wireIn = s.wireIn := rfl
@[simp] theorem State.txRelease_wireOut : (s.txRelease).wireOut = s.wireOut := rfl
@[simp] theorem State.txRelease_faults : (s.txRelease).faults = s.faults := rfl
@[simp] theorem State.txRelease_refused : (s.txRelease).refused = s.refused := rfl
@[simp] theorem State.txRelease_history : (s.txRelease).history = s.history := rfl

/-! ### txBusy -/

@[simp] theorem State.txBusy_cfg (k : Nat) (r : DropReason) : (s.txBusy k r).cfg = s.cfg := rfl
@[simp] theorem State.txBusy_script (k : Nat) (r : DropReason) : (s.txBusy k r).script = s.script := rfl
@[simp] theorem State.txBusy_drawCount (k : Nat) (r : DropReason) : (s.txBusy k r).drawCount = s.drawCount := rfl
@[simp] theorem State.txBusy_idleTurns (k : Nat) (r : DropReason) : (s.txBusy k r).idleTurns = s.idleTurns := rfl
@[simp] theorem State.txBusy_stopped (k : Nat) (r : DropReason) : (s.txBusy k r).stopped = s.stopped := rfl
@[simp] theorem State.txBusy_life (k : Nat) (r : DropReason) : (s.txBusy k r).life = s.life := rfl
@[simp] theorem State.txBusy_acquired (k : Nat) (r : DropReason) : (s.txBusy k r).acquired = s.acquired := rfl
@[simp] theorem State.txBusy_regs (k : Nat) (r : DropReason) : (s.txBusy k r).regs = s.regs := rfl
@[simp] theorem State.txBusy_regions (k : Nat) (r : DropReason) : (s.txBusy k r).regions = s.regions := rfl
@[simp] theorem State.txBusy_mem (k : Nat) (r : DropReason) : (s.txBusy k r).mem = s.mem := rfl
@[simp] theorem State.txBusy_host (k : Nat) (r : DropReason) : (s.txBusy k r).host = s.host := rfl
@[simp] theorem State.txBusy_irq (k : Nat) (r : DropReason) : (s.txBusy k r).irq = s.irq := rfl
@[simp] theorem State.txBusy_bh (k : Nat) (r : DropReason) : (s.txBusy k r).bh = s.bh := rfl
@[simp] theorem State.txBusy_txc (k : Nat) (r : DropReason) :
    (s.txBusy k r).txc = s.txc.modify k fun t => { t with frame := [], pc := .idle } := rfl
@[simp] theorem State.txBusy_txLock (k : Nat) (r : DropReason) : (s.txBusy k r).txLock = s.txLock := rfl
@[simp] theorem State.txBusy_coord (k : Nat) (r : DropReason) : (s.txBusy k r).coord = s.coord := rfl
@[simp] theorem State.txBusy_dev (k : Nat) (r : DropReason) : (s.txBusy k r).dev = s.dev := rfl
@[simp] theorem State.txBusy_wireIn (k : Nat) (r : DropReason) : (s.txBusy k r).wireIn = s.wireIn := rfl
@[simp] theorem State.txBusy_wireOut (k : Nat) (r : DropReason) : (s.txBusy k r).wireOut = s.wireOut := rfl
@[simp] theorem State.txBusy_faults (k : Nat) (r : DropReason) : (s.txBusy k r).faults = s.faults := rfl
@[simp] theorem State.txBusy_refused (k : Nat) (r : DropReason) : (s.txBusy k r).refused = s.refused := rfl
@[simp] theorem State.txBusy_history (k : Nat) (r : DropReason) :
    (s.txBusy k r).history = s.history ++ [.txDrop k r] ++ [.txResult k .busy] := rfl

/-! ### schedule -/

@[simp] theorem State.schedule_cfg (x : Agent) : (s.schedule x).cfg = s.cfg := rfl
@[simp] theorem State.schedule_script (x : Agent) : (s.schedule x).script = s.script := rfl
@[simp] theorem State.schedule_drawCount (x : Agent) : (s.schedule x).drawCount = s.drawCount := rfl
@[simp] theorem State.schedule_idleTurns (x : Agent) : (s.schedule x).idleTurns = s.idleTurns := rfl
@[simp] theorem State.schedule_stopped (x : Agent) : (s.schedule x).stopped = s.stopped := rfl
@[simp] theorem State.schedule_life (x : Agent) : (s.schedule x).life = s.life := rfl
@[simp] theorem State.schedule_acquired (x : Agent) : (s.schedule x).acquired = s.acquired := rfl
@[simp] theorem State.schedule_regs (x : Agent) : (s.schedule x).regs = s.regs := rfl
@[simp] theorem State.schedule_regions (x : Agent) : (s.schedule x).regions = s.regions := rfl
@[simp] theorem State.schedule_mem (x : Agent) : (s.schedule x).mem = s.mem := rfl
@[simp] theorem State.schedule_host (x : Agent) : (s.schedule x).host = s.host := rfl
@[simp] theorem State.schedule_irq (x : Agent) : (s.schedule x).irq = s.irq := rfl
@[simp] theorem State.schedule_bh (x : Agent) : (s.schedule x).bh = s.bh := rfl
@[simp] theorem State.schedule_txc (x : Agent) : (s.schedule x).txc = s.txc := rfl
@[simp] theorem State.schedule_txLock (x : Agent) : (s.schedule x).txLock = s.txLock := rfl
@[simp] theorem State.schedule_coord (x : Agent) : (s.schedule x).coord = { s.coord with pending := true } := rfl
@[simp] theorem State.schedule_dev (x : Agent) : (s.schedule x).dev = s.dev := rfl
@[simp] theorem State.schedule_wireIn (x : Agent) : (s.schedule x).wireIn = s.wireIn := rfl
@[simp] theorem State.schedule_wireOut (x : Agent) : (s.schedule x).wireOut = s.wireOut := rfl
@[simp] theorem State.schedule_faults (x : Agent) : (s.schedule x).faults = s.faults := rfl
@[simp] theorem State.schedule_refused (x : Agent) : (s.schedule x).refused = s.refused := rfl
@[simp] theorem State.schedule_history (x : Agent) : (s.schedule x).history = s.history ++ [.bhSched x] := rfl

/-! ### startRun -/

@[simp] theorem State.startRun_cfg : (s.startRun).cfg = s.cfg := rfl
@[simp] theorem State.startRun_script : (s.startRun).script = s.script := rfl
@[simp] theorem State.startRun_drawCount : (s.startRun).drawCount = s.drawCount := rfl
@[simp] theorem State.startRun_idleTurns : (s.startRun).idleTurns = s.idleTurns := rfl
@[simp] theorem State.startRun_stopped : (s.startRun).stopped = s.stopped := rfl
@[simp] theorem State.startRun_life : (s.startRun).life = s.life := rfl
@[simp] theorem State.startRun_acquired : (s.startRun).acquired = s.acquired := rfl
@[simp] theorem State.startRun_regs : (s.startRun).regs = s.regs := rfl
@[simp] theorem State.startRun_regions : (s.startRun).regions = s.regions := rfl
@[simp] theorem State.startRun_mem : (s.startRun).mem = s.mem := rfl
@[simp] theorem State.startRun_host : (s.startRun).host = s.host := rfl
@[simp] theorem State.startRun_irq : (s.startRun).irq = s.irq := rfl
@[simp] theorem State.startRun_bh : (s.startRun).bh = { s.bh with pc := .rxSnap } := rfl
@[simp] theorem State.startRun_txc : (s.startRun).txc = s.txc := rfl
@[simp] theorem State.startRun_txLock : (s.startRun).txLock = s.txLock := rfl
@[simp] theorem State.startRun_coord : (s.startRun).coord = ⟨false, true⟩ := rfl
@[simp] theorem State.startRun_dev : (s.startRun).dev = s.dev := rfl
@[simp] theorem State.startRun_wireIn : (s.startRun).wireIn = s.wireIn := rfl
@[simp] theorem State.startRun_wireOut : (s.startRun).wireOut = s.wireOut := rfl
@[simp] theorem State.startRun_faults : (s.startRun).faults = s.faults := rfl
@[simp] theorem State.startRun_refused : (s.startRun).refused = s.refused := rfl
@[simp] theorem State.startRun_history : (s.startRun).history = s.history := rfl

/-! ### endRun -/

@[simp] theorem State.endRun_cfg : (s.endRun).cfg = s.cfg := rfl
@[simp] theorem State.endRun_script : (s.endRun).script = s.script := rfl
@[simp] theorem State.endRun_drawCount : (s.endRun).drawCount = s.drawCount := rfl
@[simp] theorem State.endRun_idleTurns : (s.endRun).idleTurns = s.idleTurns := rfl
@[simp] theorem State.endRun_stopped : (s.endRun).stopped = s.stopped := rfl
@[simp] theorem State.endRun_life : (s.endRun).life = s.life := rfl
@[simp] theorem State.endRun_acquired : (s.endRun).acquired = s.acquired := rfl
@[simp] theorem State.endRun_regs : (s.endRun).regs = s.regs := rfl
@[simp] theorem State.endRun_regions : (s.endRun).regions = s.regions := rfl
@[simp] theorem State.endRun_mem : (s.endRun).mem = s.mem := rfl
@[simp] theorem State.endRun_host : (s.endRun).host = s.host := rfl
@[simp] theorem State.endRun_irq : (s.endRun).irq = s.irq := rfl
@[simp] theorem State.endRun_bh : (s.endRun).bh = { s.bh with pc := .idle } := rfl
@[simp] theorem State.endRun_txc : (s.endRun).txc = s.txc := rfl
@[simp] theorem State.endRun_txLock : (s.endRun).txLock = s.txLock := rfl
@[simp] theorem State.endRun_coord : (s.endRun).coord = { s.coord with running := false } := rfl
@[simp] theorem State.endRun_dev : (s.endRun).dev = s.dev := rfl
@[simp] theorem State.endRun_wireIn : (s.endRun).wireIn = s.wireIn := rfl
@[simp] theorem State.endRun_wireOut : (s.endRun).wireOut = s.wireOut := rfl
@[simp] theorem State.endRun_faults : (s.endRun).faults = s.faults := rfl
@[simp] theorem State.endRun_refused : (s.endRun).refused = s.refused := rfl
@[simp] theorem State.endRun_history : (s.endRun).history = s.history := rfl

/-! ### returnIrq -/

@[simp] theorem State.returnIrq_cfg (r : IrqResult) : (s.returnIrq r).cfg = s.cfg := rfl
@[simp] theorem State.returnIrq_script (r : IrqResult) : (s.returnIrq r).script = s.script := rfl
@[simp] theorem State.returnIrq_drawCount (r : IrqResult) : (s.returnIrq r).drawCount = s.drawCount := rfl
@[simp] theorem State.returnIrq_idleTurns (r : IrqResult) : (s.returnIrq r).idleTurns = s.idleTurns := rfl
@[simp] theorem State.returnIrq_stopped (r : IrqResult) : (s.returnIrq r).stopped = s.stopped := rfl
@[simp] theorem State.returnIrq_life (r : IrqResult) : (s.returnIrq r).life = s.life := rfl
@[simp] theorem State.returnIrq_acquired (r : IrqResult) : (s.returnIrq r).acquired = s.acquired := rfl
@[simp] theorem State.returnIrq_regs (r : IrqResult) : (s.returnIrq r).regs = s.regs := rfl
@[simp] theorem State.returnIrq_regions (r : IrqResult) : (s.returnIrq r).regions = s.regions := rfl
@[simp] theorem State.returnIrq_mem (r : IrqResult) : (s.returnIrq r).mem = s.mem := rfl
@[simp] theorem State.returnIrq_host (r : IrqResult) : (s.returnIrq r).host = s.host := rfl
@[simp] theorem State.returnIrq_irq (r : IrqResult) : (s.returnIrq r).irq = { s.irq with pc := .idle } := rfl
@[simp] theorem State.returnIrq_bh (r : IrqResult) : (s.returnIrq r).bh = s.bh := rfl
@[simp] theorem State.returnIrq_txc (r : IrqResult) : (s.returnIrq r).txc = s.txc := rfl
@[simp] theorem State.returnIrq_txLock (r : IrqResult) : (s.returnIrq r).txLock = s.txLock := rfl
@[simp] theorem State.returnIrq_coord (r : IrqResult) : (s.returnIrq r).coord = s.coord := rfl
@[simp] theorem State.returnIrq_dev (r : IrqResult) : (s.returnIrq r).dev = s.dev := rfl
@[simp] theorem State.returnIrq_wireIn (r : IrqResult) : (s.returnIrq r).wireIn = s.wireIn := rfl
@[simp] theorem State.returnIrq_wireOut (r : IrqResult) : (s.returnIrq r).wireOut = s.wireOut := rfl
@[simp] theorem State.returnIrq_faults (r : IrqResult) : (s.returnIrq r).faults = s.faults := rfl
@[simp] theorem State.returnIrq_refused (r : IrqResult) : (s.returnIrq r).refused = s.refused := rfl
@[simp] theorem State.returnIrq_history (r : IrqResult) :
    (s.returnIrq r).history = s.history ++ [.irqResult r] := rfl

/-! ### enterIrq -/

@[simp] theorem State.enterIrq_cfg : (s.enterIrq).cfg = s.cfg := rfl
@[simp] theorem State.enterIrq_script : (s.enterIrq).script = s.script := rfl
@[simp] theorem State.enterIrq_drawCount : (s.enterIrq).drawCount = s.drawCount := rfl
@[simp] theorem State.enterIrq_idleTurns : (s.enterIrq).idleTurns = s.idleTurns := rfl
@[simp] theorem State.enterIrq_stopped : (s.enterIrq).stopped = s.stopped := rfl
@[simp] theorem State.enterIrq_life : (s.enterIrq).life = s.life := rfl
@[simp] theorem State.enterIrq_acquired : (s.enterIrq).acquired = s.acquired := rfl
@[simp] theorem State.enterIrq_regs : (s.enterIrq).regs = s.regs := rfl
@[simp] theorem State.enterIrq_regions : (s.enterIrq).regions = s.regions := rfl
@[simp] theorem State.enterIrq_mem : (s.enterIrq).mem = s.mem := rfl
@[simp] theorem State.enterIrq_host : (s.enterIrq).host = s.host := rfl
@[simp] theorem State.enterIrq_irq : (s.enterIrq).irq = { s.irq with pc := .read } := rfl
@[simp] theorem State.enterIrq_bh : (s.enterIrq).bh = s.bh := rfl
@[simp] theorem State.enterIrq_txc : (s.enterIrq).txc = s.txc := rfl
@[simp] theorem State.enterIrq_txLock : (s.enterIrq).txLock = s.txLock := rfl
@[simp] theorem State.enterIrq_coord : (s.enterIrq).coord = s.coord := rfl
@[simp] theorem State.enterIrq_dev : (s.enterIrq).dev = s.dev := rfl
@[simp] theorem State.enterIrq_wireIn : (s.enterIrq).wireIn = s.wireIn := rfl
@[simp] theorem State.enterIrq_wireOut : (s.enterIrq).wireOut = s.wireOut := rfl
@[simp] theorem State.enterIrq_faults : (s.enterIrq).faults = s.faults := rfl
@[simp] theorem State.enterIrq_refused : (s.enterIrq).refused = s.refused := rfl
@[simp] theorem State.enterIrq_history : (s.enterIrq).history = s.history := rfl

/-! ### setCause -/

@[simp] theorem State.setCause_cfg (c : Word) : (s.setCause c).cfg = s.cfg := rfl
@[simp] theorem State.setCause_script (c : Word) : (s.setCause c).script = s.script := rfl
@[simp] theorem State.setCause_drawCount (c : Word) : (s.setCause c).drawCount = s.drawCount := rfl
@[simp] theorem State.setCause_idleTurns (c : Word) : (s.setCause c).idleTurns = s.idleTurns := rfl
@[simp] theorem State.setCause_stopped (c : Word) : (s.setCause c).stopped = s.stopped := rfl
@[simp] theorem State.setCause_life (c : Word) : (s.setCause c).life = s.life := rfl
@[simp] theorem State.setCause_acquired (c : Word) : (s.setCause c).acquired = s.acquired := rfl
@[simp] theorem State.setCause_regs (c : Word) :
    (s.setCause c).regs = { s.regs with icr := s.regs.icr ||| c } := rfl
@[simp] theorem State.setCause_regions (c : Word) : (s.setCause c).regions = s.regions := rfl
@[simp] theorem State.setCause_mem (c : Word) : (s.setCause c).mem = s.mem := rfl
@[simp] theorem State.setCause_host (c : Word) : (s.setCause c).host = s.host := rfl
@[simp] theorem State.setCause_irq (c : Word) : (s.setCause c).irq = s.irq := rfl
@[simp] theorem State.setCause_bh (c : Word) : (s.setCause c).bh = s.bh := rfl
@[simp] theorem State.setCause_txc (c : Word) : (s.setCause c).txc = s.txc := rfl
@[simp] theorem State.setCause_txLock (c : Word) : (s.setCause c).txLock = s.txLock := rfl
@[simp] theorem State.setCause_coord (c : Word) : (s.setCause c).coord = s.coord := rfl
@[simp] theorem State.setCause_dev (c : Word) : (s.setCause c).dev = s.dev := rfl
@[simp] theorem State.setCause_wireIn (c : Word) : (s.setCause c).wireIn = s.wireIn := rfl
@[simp] theorem State.setCause_wireOut (c : Word) : (s.setCause c).wireOut = s.wireOut := rfl
@[simp] theorem State.setCause_faults (c : Word) : (s.setCause c).faults = s.faults := rfl
@[simp] theorem State.setCause_refused (c : Word) : (s.setCause c).refused = s.refused := rfl
@[simp] theorem State.setCause_history (c : Word) : (s.setCause c).history = s.history := rfl

/-! ### allocate -/

@[simp] theorem State.allocate_cfg (k : RegionKind) (loc dma : Nat) : (s.allocate k loc dma).cfg = s.cfg := rfl
@[simp] theorem State.allocate_script (k : RegionKind) (loc dma : Nat) :
    (s.allocate k loc dma).script = s.script := rfl
@[simp] theorem State.allocate_drawCount (k : RegionKind) (loc dma : Nat) :
    (s.allocate k loc dma).drawCount = s.drawCount := rfl
@[simp] theorem State.allocate_idleTurns (k : RegionKind) (loc dma : Nat) :
    (s.allocate k loc dma).idleTurns = s.idleTurns := rfl
@[simp] theorem State.allocate_stopped (k : RegionKind) (loc dma : Nat) :
    (s.allocate k loc dma).stopped = s.stopped := rfl
@[simp] theorem State.allocate_life (k : RegionKind) (loc dma : Nat) : (s.allocate k loc dma).life = s.life := rfl
@[simp] theorem State.allocate_acquired (k : RegionKind) (loc dma : Nat) :
    (s.allocate k loc dma).acquired = s.acquired ++ [.region k] := rfl
@[simp] theorem State.allocate_regs (k : RegionKind) (loc dma : Nat) : (s.allocate k loc dma).regs = s.regs := rfl
@[simp] theorem State.allocate_regions (k : RegionKind) (loc dma : Nat) :
    (s.allocate k loc dma).regions = s.regions.set k ⟨true, loc, dma⟩ := rfl
@[simp] theorem State.allocate_mem (k : RegionKind) (loc dma : Nat) :
    (s.allocate k loc dma).mem = s.mem.clear dma (regionSize s.cfg k) := rfl
@[simp] theorem State.allocate_host (k : RegionKind) (loc dma : Nat) : (s.allocate k loc dma).host = s.host := rfl
@[simp] theorem State.allocate_irq (k : RegionKind) (loc dma : Nat) : (s.allocate k loc dma).irq = s.irq := rfl
@[simp] theorem State.allocate_bh (k : RegionKind) (loc dma : Nat) : (s.allocate k loc dma).bh = s.bh := rfl
@[simp] theorem State.allocate_txc (k : RegionKind) (loc dma : Nat) : (s.allocate k loc dma).txc = s.txc := rfl
@[simp] theorem State.allocate_txLock (k : RegionKind) (loc dma : Nat) :
    (s.allocate k loc dma).txLock = s.txLock := rfl
@[simp] theorem State.allocate_coord (k : RegionKind) (loc dma : Nat) :
    (s.allocate k loc dma).coord = s.coord := rfl
@[simp] theorem State.allocate_dev (k : RegionKind) (loc dma : Nat) : (s.allocate k loc dma).dev = s.dev := rfl
@[simp] theorem State.allocate_wireIn (k : RegionKind) (loc dma : Nat) :
    (s.allocate k loc dma).wireIn = s.wireIn := rfl
@[simp] theorem State.allocate_wireOut (k : RegionKind) (loc dma : Nat) :
    (s.allocate k loc dma).wireOut = s.wireOut := rfl
@[simp] theorem State.allocate_faults (k : RegionKind) (loc dma : Nat) :
    (s.allocate k loc dma).faults = s.faults := rfl
@[simp] theorem State.allocate_refused (k : RegionKind) (loc dma : Nat) :
    (s.allocate k loc dma).refused = s.refused := rfl
@[simp] theorem State.allocate_history (k : RegionKind) (loc dma : Nat) :
    (s.allocate k loc dma).history = s.history := rfl

/-! ### failAttach -/

@[simp] theorem State.failAttach_cfg (r : AttachResult) : (s.failAttach r).cfg = s.cfg := rfl
@[simp] theorem State.failAttach_script (r : AttachResult) : (s.failAttach r).script = s.script := rfl
@[simp] theorem State.failAttach_drawCount (r : AttachResult) : (s.failAttach r).drawCount = s.drawCount := rfl
@[simp] theorem State.failAttach_idleTurns (r : AttachResult) : (s.failAttach r).idleTurns = s.idleTurns := rfl
@[simp] theorem State.failAttach_stopped (r : AttachResult) : (s.failAttach r).stopped = s.stopped := rfl
@[simp] theorem State.failAttach_life (r : AttachResult) : (s.failAttach r).life = s.life := rfl
@[simp] theorem State.failAttach_acquired (r : AttachResult) : (s.failAttach r).acquired = s.acquired := rfl
@[simp] theorem State.failAttach_regs (r : AttachResult) : (s.failAttach r).regs = s.regs := rfl
@[simp] theorem State.failAttach_regions (r : AttachResult) : (s.failAttach r).regions = s.regions := rfl
@[simp] theorem State.failAttach_mem (r : AttachResult) : (s.failAttach r).mem = s.mem := rfl
@[simp] theorem State.failAttach_host (r : AttachResult) :
    (s.failAttach r).host = { s.host with result := r, pc := if s.acquired.isEmpty then .aFailed else .aUnwind } := rfl
@[simp] theorem State.failAttach_irq (r : AttachResult) : (s.failAttach r).irq = s.irq := rfl
@[simp] theorem State.failAttach_bh (r : AttachResult) : (s.failAttach r).bh = s.bh := rfl
@[simp] theorem State.failAttach_txc (r : AttachResult) : (s.failAttach r).txc = s.txc := rfl
@[simp] theorem State.failAttach_txLock (r : AttachResult) : (s.failAttach r).txLock = s.txLock := rfl
@[simp] theorem State.failAttach_coord (r : AttachResult) : (s.failAttach r).coord = s.coord := rfl
@[simp] theorem State.failAttach_dev (r : AttachResult) : (s.failAttach r).dev = s.dev := rfl
@[simp] theorem State.failAttach_wireIn (r : AttachResult) : (s.failAttach r).wireIn = s.wireIn := rfl
@[simp] theorem State.failAttach_wireOut (r : AttachResult) : (s.failAttach r).wireOut = s.wireOut := rfl
@[simp] theorem State.failAttach_faults (r : AttachResult) : (s.failAttach r).faults = s.faults := rfl
@[simp] theorem State.failAttach_refused (r : AttachResult) : (s.failAttach r).refused = s.refused := rfl
@[simp] theorem State.failAttach_history (r : AttachResult) : (s.failAttach r).history = s.history := rfl

/-! ### setPosted: W[x] only -/

@[simp] theorem State.setPosted_cfg (x : Agent) (w : List Posted) : (s.setPosted x w).cfg = s.cfg := by
  cases x <;> rfl
@[simp] theorem State.setPosted_script (x : Agent) (w : List Posted) : (s.setPosted x w).script = s.script := by
  cases x <;> rfl
@[simp] theorem State.setPosted_drawCount (x : Agent) (w : List Posted) : (s.setPosted x w).drawCount = s.drawCount := by
  cases x <;> rfl
@[simp] theorem State.setPosted_idleTurns (x : Agent) (w : List Posted) : (s.setPosted x w).idleTurns = s.idleTurns := by
  cases x <;> rfl
@[simp] theorem State.setPosted_stopped (x : Agent) (w : List Posted) : (s.setPosted x w).stopped = s.stopped := by
  cases x <;> rfl
@[simp] theorem State.setPosted_life (x : Agent) (w : List Posted) : (s.setPosted x w).life = s.life := by
  cases x <;> rfl
@[simp] theorem State.setPosted_acquired (x : Agent) (w : List Posted) : (s.setPosted x w).acquired = s.acquired := by
  cases x <;> rfl
@[simp] theorem State.setPosted_regs (x : Agent) (w : List Posted) : (s.setPosted x w).regs = s.regs := by
  cases x <;> rfl
@[simp] theorem State.setPosted_regions (x : Agent) (w : List Posted) : (s.setPosted x w).regions = s.regions := by
  cases x <;> rfl
@[simp] theorem State.setPosted_mem (x : Agent) (w : List Posted) : (s.setPosted x w).mem = s.mem := by
  cases x <;> rfl
@[simp] theorem State.setPosted_txLock (x : Agent) (w : List Posted) : (s.setPosted x w).txLock = s.txLock := by
  cases x <;> rfl
@[simp] theorem State.setPosted_coord (x : Agent) (w : List Posted) : (s.setPosted x w).coord = s.coord := by
  cases x <;> rfl
@[simp] theorem State.setPosted_dev (x : Agent) (w : List Posted) : (s.setPosted x w).dev = s.dev := by
  cases x <;> rfl
@[simp] theorem State.setPosted_wireIn (x : Agent) (w : List Posted) : (s.setPosted x w).wireIn = s.wireIn := by
  cases x <;> rfl
@[simp] theorem State.setPosted_wireOut (x : Agent) (w : List Posted) : (s.setPosted x w).wireOut = s.wireOut := by
  cases x <;> rfl
@[simp] theorem State.setPosted_faults (x : Agent) (w : List Posted) : (s.setPosted x w).faults = s.faults := by
  cases x <;> rfl
@[simp] theorem State.setPosted_refused (x : Agent) (w : List Posted) : (s.setPosted x w).refused = s.refused := by
  cases x <;> rfl
@[simp] theorem State.setPosted_history (x : Agent) (w : List Posted) : (s.setPosted x w).history = s.history := by
  cases x <;> rfl

@[simp] theorem State.setPosted_host_pc (x : Agent) (w : List Posted) : (s.setPosted x w).host.pc = s.host.pc := by
  cases x <;> rfl
@[simp] theorem State.setPosted_irq_pc (x : Agent) (w : List Posted) : (s.setPosted x w).irq.pc = s.irq.pc := by
  cases x <;> rfl
@[simp] theorem State.setPosted_irq_registered (x : Agent) (w : List Posted) :
    (s.setPosted x w).irq.registered = s.irq.registered := by
  cases x <;> rfl
@[simp] theorem State.setPosted_bh_pc (x : Agent) (w : List Posted) : (s.setPosted x w).bh.pc = s.bh.pc := by
  cases x <;> rfl
@[simp] theorem State.setPosted_bh_acc (x : Agent) (w : List Posted) : (s.setPosted x w).bh.acc = s.bh.acc := by
  cases x <;> rfl
@[simp] theorem State.setPosted_bh_tail (x : Agent) (w : List Posted) : (s.setPosted x w).bh.tail = s.bh.tail := by
  cases x <;> rfl

/-- What a new W[x] leaves of the transmit callers: everything but one posted list. -/
theorem State.setPosted_txc (x : Agent) (w : List Posted) :
    (s.setPosted x w).txc
      = match x with
        | .txc k => s.txc.modify k fun t => { t with posted := w }
        | _ => s.txc := by
  cases x <;> rfl

end Sys2Proof.Machine
end

