-- ==== Sys2Proof/Laws/Ops.lean ====
section
/-! SUPPORT. For each shared operation, once, everything it can do. -/

namespace Sys2Proof.Machine

/-! ### Taking a micro-step and taking a fault -/

theorem take_stopped {x : Agent} {s : State} (m : Micro) (h : x ∈ s.stopped) : take x s m = .next s.passTurn := by
  simp [take, h]

theorem take_done {x : Agent} {s : State} (t : State) (h : x ∉ s.stopped) : take x s (.done t) = .next t := by
  simp [take, h]

theorem take_hold (x : Agent) (s : State) : take x s .hold = .next s.passTurn := by
  simp [take]

theorem take_raise {x : Agent} {s : State} (f : BlockFault) (h : x ∉ s.stopped) :
    take x s (.raise f) = .next (s.raiseFault x f) := by
  simp [take, h]

theorem take_stuck {x : Agent} {s : State} (f : Fault) (h : x ∉ s.stopped) : take x s (.stuck f) = .fault f := by
  simp [take, h]

/-- Everything that taking a micro-step can do when it gives a next state. -/
theorem take_next {x : Agent} {s t : State} {m : Micro} (h : take x s m = .next t) :
    t = s.passTurn ∨ (x ∉ s.stopped ∧ m = .done t) ∨ (x ∉ s.stopped ∧ ∃ f, m = .raise f ∧ t = s.raiseFault x f) := by
  by_cases hx : x ∈ s.stopped
  · rw [take_stopped m hx] at h
    exact .inl (Host.Outcome.next.inj h).symm
  · cases m with
    | done u => rw [take_done u hx] at h; cases h; exact .inr (.inl ⟨hx, rfl⟩)
    | hold => rw [take_hold] at h; exact .inl (Host.Outcome.next.inj h).symm
    | raise f => rw [take_raise f hx] at h; exact .inr (.inr ⟨hx, f, rfl, (Host.Outcome.next.inj h).symm⟩)
    | stuck f => rw [take_stuck f hx] at h; cases h

theorem mem_insertFault {c d : FaultCode} {fs : List FaultCode} : d ∈ insertFault c fs ↔ d = c ∨ d ∈ fs := by
  induction fs with
  | nil => simp [insertFault]
  | cons e es ih =>
    simp only [insertFault]
    split
    · simp
    · split
      · rename_i h
        have h : c = e := by simpa using h
        subst h
        simp
      · simp only [List.mem_cons, ih]
        exact or_left_comm

theorem State.mem_raiseFault_stopped {s : State} {x y : Agent} {f : BlockFault} :
    y ∈ (s.raiseFault x f).stopped ↔ y = x ∨ y ∈ s.stopped := by
  by_cases hx : x ∈ s.stopped
  · simp only [State.raiseFault_stopped, List.contains_iff_mem, hx, if_true]
    constructor
    · exact .inr
    · rintro (rfl | h) <;> assumption
  · simp [State.raiseFault_stopped, hx, or_comm]

/-- What `andThen` can complete with. -/
theorem Micro.andThen_done {m : Micro} {f : State → State} {t : State} (h : m.andThen f = .done t) :
    ∃ u, m = .done u ∧ t = f u := by
  cases m with
  | done u => cases h; exact ⟨u, rfl, rfl⟩
  | hold => cases h
  | raise b => cases h
  | stuck b => cases h

theorem Micro.ofExcept_done {e : Except BlockFault State} {t : State} (h : Micro.ofExcept e = .done t) : e = .ok t := by
  cases e with
  | ok u => cases h; rfl
  | error f => cases h

/-! ### Regions -/

/-- What a live region that holds an access is. -/
theorem State.localRegion_some {s : State} {a n : Nat} {k : RegionKind} (h : s.localRegion a n = some k) :
    (s.regions.get k).live = true ∧ (s.regions.get k).loc ≤ a
      ∧ a + n ≤ (s.regions.get k).loc + regionSize s.cfg k := by
  have := List.find?_some h
  simp only [Bool.and_eq_true, decide_eq_true_eq] at this
  exact ⟨this.1.1, this.1.2, this.2⟩

/-- A byte of an access inside a live region is a live DMA byte (R62). -/
theorem State.dmaLive_of_localRegion {s : State} {a n i : Nat} {k : RegionKind} (h : s.localRegion a n = some k)
    (hi : i < n) : s.dmaLive (s.dmaOf k a + i) = true := by
  obtain ⟨hl, h1, h2⟩ := State.localRegion_some h
  have h3 : (s.regions.get k).dma ≤ s.dmaOf k a + i := by
    simp only [State.dmaOf]
    omega
  have h4 : s.dmaOf k a + i < (s.regions.get k).dma + regionSize s.cfg k := by
    simp only [State.dmaOf]
    omega
  exact List.any_eq_true.2 ⟨k, by cases k <;> simp [allRegions], by simp [hl, h3, h4]⟩

/-- No dead byte in a range: every byte of it is live. -/
theorem State.firstDead_none {s : State} {a n : Nat} (h : s.firstDead a n = none) :
    ∀ i < n, s.dmaLive (a + i) = true := by
  induction n generalizing a with
  | zero => intro i hi; omega
  | succ n ih =>
    simp only [State.firstDead] at h
    split at h
    · rename_i hl
      intro i hi
      cases i with
      | zero => exact hl
      | succ i =>
        have := ih h i (by omega)
        rwa [show a + 1 + i = a + (i + 1) by omega] at this
    · cases h

/-- A dead byte that is reported lies in the range and in no live region. -/
theorem State.firstDead_some {s : State} {a n b : Nat} (h : s.firstDead a n = some b) :
    a ≤ b ∧ b < a + n ∧ s.dmaLive b = false := by
  induction n generalizing a with
  | zero => cases h
  | succ n ih =>
    simp only [State.firstDead] at h
    split at h
    · obtain ⟨h1, h2, h3⟩ := ih h
      exact ⟨by omega, by omega, h3⟩
    · rename_i hl
      cases h
      exact ⟨le_refl _, by omega, by simpa using hl⟩

@[simp] theorem Regions.get_set (r : Regions) (k j : RegionKind) (v : Region) :
    (r.set k v).get j = if j = k then v else r.get j := by
  cases k <;> cases j <;> rfl

/-! ### Coherent memory by the engine agents -/

/-- Everything a read by an engine agent can do (R67). -/
theorem memRead_ok {x : Agent} {a n : Nat} {s t : State} {bs : List Byte} (h : memRead x a n s = .ok (bs, t)) :
    ∃ k c, s.localRegion a n = some k ∧ bs.length = n
      ∧ (bs, c) = fillDraws (s.view x k a n) s.drawCount
      ∧ t = { s with drawCount := c, history := s.history ++ [.mem x .read a bs] } := by
  simp only [memRead] at h
  split at h
  · cases h
  · rename_i k hk
    injection h with h
    injection h with h1 h2
    refine ⟨k, (fillDraws (s.view x k a n) s.drawCount).2, hk, ?_, ?_, ?_⟩
    · rw [← h1]; simp
    · rw [← h1]
    · rw [← h2, ← h1]; rfl

theorem memRead_error {x : Agent} {a n : Nat} {s : State} {f : BlockFault} (h : memRead x a n s = .error f) :
    s.localRegion a n = none ∧ f = .memBad a := by
  simp only [memRead] at h
  split at h
  · rename_i hk; cases h; exact ⟨hk, rfl⟩
  · cases h

/-- Everything a write by an engine agent can do (R66): posted, or visible at once under SC. -/
theorem memWrite_ok {x : Agent} {a : Nat} {bs : List Byte} {s t : State} (h : memWrite x a bs s = .ok t) :
    ∃ k, s.localRegion a bs.length = some k
      ∧ ((s.cfg.postedOrder = .sc
            ∧ t = { s with
                mem := s.mem.write (s.dmaOf k a) bs
                history := s.history ++ [.visible x a bs] ++ [.mem x .write a bs] })
        ∨ (s.cfg.postedOrder ≠ .sc
            ∧ t = (s.setPosted x (s.posted x ++ [⟨a, bs⟩])).emit (.mem x .write a bs))) := by
  simp only [memWrite] at h
  split at h
  · cases h
  · rename_i k hk
    refine ⟨k, hk, ?_⟩
    split at h
    · rename_i hs
      injection h with h
      exact .inl ⟨by simpa using hs, h.symm⟩
    · rename_i hs
      injection h with h
      exact .inr ⟨by simpa using hs, h.symm⟩

theorem memWrite_error {x : Agent} {a : Nat} {bs : List Byte} {s : State} {f : BlockFault}
    (h : memWrite x a bs s = .error f) : s.localRegion a bs.length = none ∧ f = .memBad a := by
  simp only [memWrite] at h
  split at h
  · rename_i hk; cases h; exact ⟨hk, rfl⟩
  · split at h <;> cases h

/-- Everything a landing can do when it completes (R263). -/
theorem land_done {x : Agent} {pos : Nat} {s t : State} (h : land x pos s = .done t) :
    ∃ e k, (s.posted x)[pos]? = some e ∧ mayLand s.cfg.postedOrder (s.posted x) pos = true
      ∧ s.localRegion e.addr e.bytes.length = some k
      ∧ t = ({ s with mem := s.mem.write (s.dmaOf k e.addr) e.bytes }.setPosted x
          ((s.posted x).eraseIdx pos)).emit (.visible x e.addr e.bytes) := by
  simp only [land] at h
  split at h
  · cases h
  · rename_i hm
    split at h
    · cases h
    · rename_i e he
      split at h
      · cases h
      · rename_i k hk
        injection h with h
        exact ⟨e, k, he, by simpa using hm, hk, h.symm⟩

/-- A barrier completes exactly with an empty list (R262). -/
theorem barrier_done {x : Agent} {s t : State} {go : State → State} (h : barrier x s go = .done t) :
    s.posted x = [] ∧ t = go s := by
  simp only [barrier] at h
  split at h
  · rename_i he
    injection h with h
    exact ⟨by simpa using he, h.symm⟩
  · cases h

/-! ### Coherent memory by DEV -/

@[simp] theorem devRead_length (a n : Nat) (s : State) : (devRead a n s).1.length = n := by
  simp [devRead]

theorem devRead_state (a n : Nat) (s : State) :
    ∃ c, (devRead a n s).2
      = { s with drawCount := c, history := s.history ++ [.mem .dev .read a (devRead a n s).1] } := ⟨_, rfl⟩

theorem devWrite_state (a : Nat) (bs : List Byte) (s : State) :
    devWrite a bs s = { s with mem := s.mem.write a bs, history := s.history ++ [.mem .dev .write a bs] } := rfl

/-- Moving a head on in a ring that has descriptors: the next index, and no draw (R282, R288). -/
theorem State.headAfter_pos {s : State} {n : Nat} (v : Word) (h : n ≠ 0) :
    s.headAfter n v = toWord (nextIdx n v.toNat) ∧ s.headCount n = s.drawCount := ⟨if_neg h, if_neg h⟩

/-- Moving a head on where the length register names no descriptor: a free index, which is one draw (R9, log entry 16), with bits 31:16
zero (R106). -/
theorem State.headAfter_zero {s : State} {n : Nat} (v : Word) (h : n = 0) :
    (s.headAfter n v).toNat < 2 ^ 16 ∧ s.headCount n = s.drawCount + 1 := by
  refine ⟨?_, if_pos h⟩
  rw [State.headAfter, if_pos h, BitVec.toNat_and]
  exact Nat.lt_of_le_of_lt Nat.and_le_left (by decide)

/-! ### The register file -/

@[simp] theorem regOfOffset_offset (r : RegName) : regOfOffset r.offset = some r := by
  cases r <;> decide

theorem regOfOffset_some {off : Nat} {r : RegName} (h : regOfOffset off = some r) : r.offset = off := by
  simpa using List.find?_some h

theorem RegName.offset_mod (r : RegName) : r.offset % 4 = 0 := by
  cases r <;> decide

/-- The shared checks pass for every register in scope while MAP is held (R250). -/
theorem regAt_offset {s : State} (r : RegName) (d : Dir) (h : Resource.map ∈ s.acquired) :
    regAt r.offset d s = .ok r := by
  simp [regAt, h, r.offset_mod]

/-- What the shared checks accept. -/
theorem regAt_ok {s : State} {off : Nat} {d : Dir} {r : RegName} (h : regAt off d s = .ok r) :
    Resource.map ∈ s.acquired ∧ r.offset = off := by
  simp only [regAt] at h
  split at h
  · cases h
  · rename_i hm
    split at h
    · cases h
    · split at h
      · cases h
      · rename_i q hq
        cases h
        exact ⟨by simpa using hm, regOfOffset_some hq⟩

/-- Everything a register read can do (R250, R252, R253). -/
theorem regRead_ok {x : Agent} {off : Nat} {s t : State} {v : Word} (h : regRead x off s = .ok (v, t)) :
    ∃ r, r.offset = off ∧ r ≠ .imc ∧ Resource.map ∈ s.acquired ∧ v = s.regValue r
      ∧ t = { s with
          regs := { s.regs with icr := if r = .icr then 0 else s.regs.icr }
          history := s.history ++ [.reg x .read off v] } := by
  simp only [regRead] at h
  split at h
  · cases h
  · cases h
  · rename_i hr
    obtain ⟨hm, ho⟩ := regAt_ok hr
    cases h
    exact ⟨.icr, ho, by decide, hm, rfl, rfl⟩
  · rename_i r h1 h2 hr
    obtain ⟨hm, ho⟩ := regAt_ok hr
    cases h
    have hne : r ≠ .icr := fun e => h2 e
    refine ⟨r, ho, fun e => h1 e, hm, rfl, ?_⟩
    simp only [if_neg hne]
    rfl

/-- A read of a register in scope other than IMC and ICR, while MAP is held. -/
theorem regRead_plain {x : Agent} {s : State} {r : RegName} (hm : Resource.map ∈ s.acquired) (h1 : r ≠ .imc)
    (h2 : r ≠ .icr) : regRead x r.offset s = .ok (s.regValue r, s.emit (.reg x .read r.offset (s.regValue r))) := by
  simp only [regRead, regAt_offset r .read hm]

theorem regRead_icr {x : Agent} {s : State} (hm : Resource.map ∈ s.acquired) :
    regRead x RegName.icr.offset s
      = .ok (s.regs.icr, { s with regs := { s.regs with icr := 0 } }.emit
          (.reg x .read RegName.icr.offset s.regs.icr)) := by
  simp only [regRead, regAt_offset .icr .read hm]

/-- The checks of R250 pass for a write of every register but ICR and the heads. -/
theorem regWriteCheck_offset {s : State} {r : RegName} (v : Word) (hm : Resource.map ∈ s.acquired) (h1 : r ≠ .icr)
    (h2 : r ≠ .rdh) (h3 : r ≠ .tdh) : regWriteCheck r.offset v s = .ok r := by
  simp only [regWriteCheck, regAt_offset r .write hm]

theorem regWriteCheck_ok {s : State} {off : Nat} {v : Word} {r : RegName} (h : regWriteCheck off v s = .ok r) :
    Resource.map ∈ s.acquired ∧ r.offset = off ∧ r ≠ .icr ∧ r ≠ .rdh ∧ r ≠ .tdh := by
  simp only [regWriteCheck] at h
  split at h
  · cases h
  · cases h
  · cases h
  · cases h
  · rename_i q h1 h2 h3 hr
    cases h
    obtain ⟨hm, ho⟩ := regAt_ok hr
    exact ⟨hm, ho, fun e => h1 e, fun e => h2 e, fun e => h3 e⟩

/-- The register file after a write that is accepted (R257 to R260). -/
def Regs.written (g : Regs) (r : RegName) (v : Word) : Regs :=
  match r with
  | .ctrl => { g with ctrl := v }
  | .icr => g
  | .ims => { g with ims := g.ims ||| v }
  | .imc => { g with ims := g.ims &&& ~~~v }
  | .rdbal => { g with rdbal := v }
  | .rdbah => { g with rdbah := v }
  | .rdlen => { g with rdlen := v }
  | .rdh => g
  | .rdt => { g with rdt := v }
  | .tdbal => { g with tdbal := v }
  | .tdbah => { g with tdbah := v }
  | .tdlen => { g with tdlen := v }
  | .tdh => g
  | .tdt => { g with tdt := v }

/-- The value checks of R259 and R260. -/
def RegName.accepts (c : Config) (r : RegName) (v : Word) : Prop :=
  match r with
  | .rdbal => baseLowOk v = true
  | .tdbal => baseLowOk v = true
  | .rdlen => ringLenOk v = true
  | .tdlen => ringLenOk v = true
  | .rdt => v.toNat < c.nRx ∧ v.toNat < 2 ^ 16
  | .tdt => v.toNat < c.nTx ∧ v.toNat < 2 ^ 16
  | .icr => False
  | .rdh => False
  | .tdh => False
  | .ctrl => True
  | .ims => True
  | .imc => True
  | .rdbah => True
  | .tdbah => True

/-- What an index register value that passes the range check is. -/
theorem indexOf_some {n i : Nat} {v : Word} (h : indexOf n v = some i) : i = v.toNat ∧ v.toNat < n ∧ v.toNat < 2 ^ 16 := by
  have hv := v.isLt
  by_cases hb : high16 v = 0 ∧ low16 v < n
  · have e : indexOf n v = some (low16 v) := by simp [indexOf, hb.1, hb.2]
    rw [e] at h
    injection h with h
    simp only [high16, low16] at hb h
    omega
  · have e : indexOf n v = none := by
      rw [indexOf, if_pos]
      simp only [Bool.or_eq_true, bne_iff_ne, ne_eq, decide_eq_true_eq]
      omega
    rw [e] at h
    cases h

theorem indexOf_of_lt {n : Nat} {v : Word} (h1 : v.toNat < n) (h2 : v.toNat < 2 ^ 16) : indexOf n v = some v.toNat := by
  have e1 : high16 v = 0 := Nat.div_eq_of_lt h2
  have e2 : low16 v = v.toNat := Nat.mod_eq_of_lt h2
  simp [indexOf, e1, e2, h1]

/-- The range check fails exactly outside the ring (R107). -/
theorem indexOf_none {n : Nat} {v : Word} (h : indexOf n v = none) : n ≤ v.toNat ∨ 2 ^ 16 ≤ v.toNat := by
  by_contra hb
  rw [indexOf_of_lt (n := n) (by omega) (by omega)] at h
  cases h

theorem toWord_toNat_of_word (v : Word) : toWord v.toNat = v := by
  simp [toWord]

/-- Everything an accepted register write does (R257 to R260). -/
theorem regEffect_ok {r : RegName} {off : Nat} {v : Word} {s t : State} (h : regEffect r off v s = .ok t) :
    r.accepts s.cfg v
      ∧ t = { s with
          regs := s.regs.written r v
          dev := { s.dev with resetBusy := s.dev.resetBusy || (decide (r = .ctrl) && hasRst v) } } := by
  cases r <;> simp only [regEffect] at h
  case rdt =>
    split at h
    · cases h
    · rename_i i hi
      obtain ⟨rfl, h1, h2⟩ := indexOf_some hi
      cases h
      exact ⟨⟨h1, h2⟩, by simp [Regs.written, toWord_toNat_of_word]⟩
  case tdt =>
    split at h
    · cases h
    · rename_i i hi
      obtain ⟨rfl, h1, h2⟩ := indexOf_some hi
      cases h
      exact ⟨⟨h1, h2⟩, by simp [Regs.written, toWord_toNat_of_word]⟩
  all_goals first
    | (split at h
       · rename_i hb; cases h; exact ⟨hb, by simp [Regs.written]⟩
       · cases h)
    | (cases h; exact ⟨trivial, by simp [Regs.written]⟩)
    | cases h

/-- Everything a register write can do when it completes (R250, R257 to R260, R69). -/
theorem regWrite_done {x : Agent} {off : Nat} {v : Word} {s t : State} (h : regWrite x off v s = .done t) :
    ∃ r, r.offset = off ∧ Resource.map ∈ s.acquired ∧ r.accepts s.cfg v
      ∧ (s.cfg.mmioDrains = true → s.posted x = [])
      ∧ t = { s with
          regs := s.regs.written r v
          dev := { s.dev with resetBusy := s.dev.resetBusy || (decide (r = .ctrl) && hasRst v) }
          history := s.history ++ [.reg x .write off v] } := by
  simp only [regWrite, regStore] at h
  split at h
  · cases h
  · rename_i hd
    split at h
    · cases h
    · rename_i r hr
      obtain ⟨hm, ho, -⟩ := regWriteCheck_ok hr
      split at h
      · cases h
      · rename_i u hu
        obtain ⟨ha, rfl⟩ := regEffect_ok hu
        injection h with h
        refine ⟨r, ho, hm, ha, fun hc => ?_, h.symm⟩
        simpa [State.mmioHolds, hc] using hd

/-! ### Resources -/

/-- Everything a release does (R313): one region's liveness and bytes, or the registration, and nothing else. -/
theorem State.release_fields (s : State) (x : Resource) :
    s.release x = { s with
      regions := (s.release x).regions
      mem := (s.release x).mem
      irq := { s.irq with registered := (s.release x).irq.registered } } := by
  cases x <;> rfl

/-- Releasing the newest resource takes one entry off `acquired`. -/
theorem State.releaseLast_acquired (s : State) : s.releaseLast.acquired = s.acquired.dropLast := by
  cases h : s.acquired.getLast? with
  | none =>
    have : s.acquired = [] := by simpa using h
    simp [State.releaseLast, this]
  | some x => simp [State.releaseLast, h]

end Sys2Proof.Machine
end

