-- ==== Sys2Proof/Laws/Done.lean ====
section
/-! SUPPORT. For each micro-step, once, everything it can complete with. -/

namespace Sys2Proof.Machine

variable {s t : State}

/-! ### IRQ -/

theorem irqRead_done (h : irqRead s = .done t) :
    Resource.map ∈ s.acquired ∧ t = { s with
      regs := { s.regs with icr := 0 }
      irq := { s.irq with v := s.regs.icr, pc := .sched }
      history := s.history ++ [.reg .irq .read RegName.icr.offset s.regs.icr] } := by
  simp only [irqRead] at h
  split at h
  · cases h
  · rename_i v u hr
    obtain ⟨r, ho, -, hm, -, -⟩ := regRead_ok hr
    rw [regRead_icr hm] at hr
    cases hr
    exact ⟨hm, (Micro.done.inj h).symm⟩

theorem irqSched_done (h : irqSched s = .done t) :
    t = { s with
      coord := { s.coord with pending := s.coord.pending || s.irq.v != 0 }
      irq := { s.irq with pc := .idle }
      history := s.history ++ (if s.irq.v = 0 then [] else [.bhSched .irq])
        ++ [.irqResult (irqResult s.cfg s.irq.v)] } := by
  simp only [irqSched] at h
  have h := (Micro.done.inj h).symm
  by_cases hv : s.irq.v = 0
  · rw [h, if_pos hv, List.append_nil, show (s.irq.v != 0) = false by simpa using hv, Bool.or_false]
    rfl
  · rw [h, if_neg hv, show (s.irq.v != 0) = true by simpa using hv, Bool.or_true]
    rfl

/-! ### BH -/

theorem bhSchedHost_done (h : bhSchedHost s = .done t) :
    s.host.pc = .idle ∧ s.life ≠ .detached ∧ t = s.schedule .host := by
  simp only [bhSchedHost] at h
  split at h
  · cases h
  · rename_i hp
    split at h
    · cases h
    · rename_i hl
      exact ⟨by simpa using hp, by simpa using hl, (Micro.done.inj h).symm⟩

/-- What reading a register other than ICR and IMC leaves. -/
theorem regRead_state {x : Agent} {r : RegName} {v : Word} (h1 : r ≠ .imc) (h2 : r ≠ .icr)
    (h : regRead x r.offset s = .ok (v, t)) :
    Resource.map ∈ s.acquired ∧ v = s.regValue r ∧ t = s.emit (.reg x .read r.offset v) := by
  obtain ⟨q, -, -, hm, -, -⟩ := regRead_ok h
  rw [regRead_plain hm h1 h2] at h
  cases h
  exact ⟨hm, rfl, rfl⟩

theorem rxSnap_done (h : rxSnap s = .done t) :
    s.regs.rdh.toNat < s.cfg.nRx ∧ t = { s with
      bh := { s.bh with h := s.regs.rdh.toNat, pc := .rxTest }
      history := s.history ++ [.reg .bh .read RegName.rdh.offset s.regs.rdh] } := by
  simp only [rxSnap] at h
  split at h
  · cases h
  · rename_i v u hr
    obtain ⟨-, rfl, rfl⟩ := regRead_state (by decide) (by decide) hr
    split at h
    · cases h
    · rename_i i hi
      obtain ⟨rfl, h1, -⟩ := indexOf_some hi
      exact ⟨h1, (Micro.done.inj h).symm⟩

theorem rxTest_done (h : rxTest s = .done t) :
    (nextIdx s.cfg.nRx s.bh.tail = s.bh.h
        ∧ t = { s with bh := { s.bh with n := nextIdx s.cfg.nRx s.bh.tail, pc := .rxExit } })
      ∨ (nextIdx s.cfg.nRx s.bh.tail ≠ s.bh.h
        ∧ ∃ bs c pc, (pc = .rxExit ∨ pc = .rxAlloc)
          ∧ t = { s with
              drawCount := c
              bh := { s.bh with n := nextIdx s.cfg.nRx s.bh.tail, pc := pc }
              history := s.history ++ [.mem .bh .read (s.rxdAddr (nextIdx s.cfg.nRx s.bh.tail) + 12) bs] }) := by
  simp only [rxTest] at h
  split at h
  · rename_i he
    exact .inl ⟨by simpa using he, (Micro.done.inj h).symm⟩
  · rename_i he
    split at h
    · cases h
    · rename_i bs u hr
      obtain ⟨k, c, -, -, -, rfl⟩ := memRead_ok hr
      refine .inr ⟨by simpa using he, bs, c, if bs == [0x00] then .rxExit else .rxAlloc, ?_,
        (Micro.done.inj h).symm⟩
      split <;> simp

theorem rxAlloc_done {d : Draws} (h : rxAlloc d s = .done t) :
    (s.bh.acc ≠ none ∧ t = s.bhGo .rxAdv)
      ∨ (s.bh.acc = none
        ∧ t = ((s.emit (.allocAcc s.cfg.accCap false)).emit .rxAllocDefer).bhGo .rxExit)
      ∨ (s.bh.acc = none ∧ t = { s with
          bh := { s.bh with acc := some [], pc := .rxAdv }
          history := s.history ++ [.allocAcc s.cfg.accCap true] }) := by
  simp only [rxAlloc] at h
  split at h
  · rename_i bs hb
    exact .inl ⟨by simp [hb], (Micro.done.inj h).symm⟩
  · rename_i hb
    split at h <;> rename_i ha <;> rw [ha] at h
    · exact .inr (.inl ⟨hb, (Micro.done.inj h).symm⟩)
    · exact .inr (.inr ⟨hb, (Micro.done.inj h).symm⟩)

theorem rxAdv_done (h : rxAdv s = .done t) : t = { s with bh := { s.bh with tail := s.bh.n, pc := .rxDesc } } :=
  (Micro.done.inj h).symm

theorem rxDesc_done (h : rxDesc s = .done t) :
    ∃ d c, d.length = 6 ∧ ofLeBytes (d.take 2) ≤ s.cfg.rxBufSize
      ∧ t = { s with
          drawCount := c
          bh := { s.bh with
            len := BitVec.ofNat 16 (ofLeBytes (d.take 2)), st := d.getD 4 0, err := d.getD 5 0, pc := .rxCopy }
          history := s.history ++ [.mem .bh .read (s.rxdAddr s.bh.tail + 8) d] } := by
  simp only [rxDesc] at h
  split at h
  · cases h
  · rename_i d u hr
    obtain ⟨k, c, -, hl, -, rfl⟩ := memRead_ok hr
    split at h
    · cases h
    · rename_i hb
      exact ⟨d, c, hl, Nat.le_of_not_lt hb, (Micro.done.inj h).symm⟩

theorem rxCopy_done (h : rxCopy s = .done t) :
    ∃ bytes, s.bh.acc = some bytes ∧ bytes.length + s.bh.len.toNat ≤ s.cfg.accCap
      ∧ ((s.bh.len = 0 ∧ t = s.bhGo .rxEop)
        ∨ (s.bh.len ≠ 0 ∧ ∃ p c, p.length = s.bh.len.toNat
          ∧ t = { s with
              drawCount := c
              bh := { s.bh with acc := some (bytes ++ p), pc := .rxEop }
              history := s.history ++ [.mem .bh .read (s.rxbufAddr s.bh.tail) p] })) := by
  simp only [rxCopy] at h
  split at h
  · cases h
  · rename_i bytes hb
    split at h
    · cases h
    · rename_i hcap
      refine ⟨bytes, hb, Nat.le_of_not_lt hcap, ?_⟩
      split at h
      · rename_i hz
        exact .inl ⟨by simpa using hz, (Micro.done.inj h).symm⟩
      · rename_i hz
        split at h
        · cases h
        · rename_i p u hr
          obtain ⟨k, c, -, hl, -, rfl⟩ := memRead_ok hr
          exact .inr ⟨by simpa using hz, p, c, hl, (Micro.done.inj h).symm⟩

theorem rxEop_done (h : rxEop s = .done t) :
    (isEop s.bh.st = false ∧ t = s.bhGo .rxClear)
      ∨ (isEop s.bh.st = true ∧ ∃ bytes, s.bh.acc = some bytes
        ∧ t = { s with
            bh := { s.bh with acc := none, pc := .rxClear }
            history := s.history ++ [.deliver (delivered s.bh.st s.bh.err bytes)] }) := by
  simp only [rxEop] at h
  split at h
  · rename_i he
    split at h
    · cases h
    · rename_i bytes hb
      exact .inr ⟨he, bytes, hb, (Micro.done.inj h).symm⟩
  · rename_i he
    exact .inl ⟨by simpa using he, (Micro.done.inj h).symm⟩

theorem rxClear_done (h : rxClear s = .done t) :
    ∃ u, memWrite .bh (s.rxdAddr s.bh.tail + 12) [0x00] s = .ok u ∧ t = u.bhGo .rxWmb := by
  obtain ⟨u, hu, rfl⟩ := Micro.andThen_done h
  exact ⟨u, Micro.ofExcept_done hu, rfl⟩

theorem rxWmb_done (h : rxWmb s = .done t) : s.bh.posted = [] ∧ t = s.bhGo .rxPub := barrier_done h

theorem RegName.offset_inj {r q : RegName} (h : r.offset = q.offset) : r = q := by
  have := regOfOffset_offset r
  rw [h, regOfOffset_offset] at this
  exact (Option.some.inj this).symm

/-- What writing a named register leaves, when it completes. -/
theorem regWrite_named {x : Agent} {r : RegName} {v : Word} (h : regWrite x r.offset v s = .done t) :
    Resource.map ∈ s.acquired ∧ r.accepts s.cfg v ∧ (s.cfg.mmioDrains = true → s.posted x = [])
      ∧ t = { s with
          regs := s.regs.written r v
          dev := { s.dev with resetBusy := s.dev.resetBusy || (decide (r = .ctrl) && hasRst v) }
          history := s.history ++ [.reg x .write r.offset v] } := by
  obtain ⟨q, ho, hm, ha, hd, ht⟩ := regWrite_done h
  obtain rfl := RegName.offset_inj ho
  exact ⟨hm, ha, hd, ht⟩

theorem rxPub_done (h : rxPub s = .done t) :
    RegName.accepts s.cfg .rdt (toWord s.bh.tail) ∧ t = { s with
      regs := { s.regs with rdt := toWord s.bh.tail }
      bh := { s.bh with pc := .rxTest }
      history := s.history ++ [.reg .bh .write RegName.rdt.offset (toWord s.bh.tail)] } := by
  obtain ⟨u, hu, rfl⟩ := Micro.andThen_done h
  obtain ⟨-, ha, -, rfl⟩ := regWrite_named hu
  refine ⟨ha, ?_⟩
  simp [Regs.written, State.bhGo]

theorem rxExit_done (h : rxExit s = .done t) : t = s.endRun := (Micro.done.inj h).symm

/-! ### TXC[k] -/

theorem txIssue_done {k : Nat} {len : Half} {frame : List Byte} (h : txIssue k len frame s = .done t) :
    ∃ c, s.txc[k]? = some c ∧ c.pc = .idle
      ∧ t = (s.emit (.txSubmit k frame)).modTx k fun c => { c with frame := frame, len := len, pc := .lenchk } := by
  simp only [txIssue] at h
  split at h
  · cases h
  · rename_i c hc
    split at h
    · rename_i hp
      exact ⟨c, hc, by simpa using hp, (Micro.done.inj h).symm⟩
    · cases h

theorem txLenchk_done {k : Nat} {c : TxAgent} (h : txLenchk k c s = .done t) :
    s.life = .attached
      ∧ ((s.cfg.txMaxLen < c.len.toNat ∧ t = s.txBusy k .oversize)
        ∨ (c.len.toNat ≤ s.cfg.txMaxLen ∧ t = s.txGo k .lock)) := by
  simp only [txLenchk] at h
  split at h
  · cases h
  · rename_i hl
    refine ⟨by simpa using hl, ?_⟩
    split at h
    · rename_i hb
      exact .inl ⟨hb, (Micro.done.inj h).symm⟩
    · rename_i hb
      exact .inr ⟨Nat.le_of_not_lt hb, (Micro.done.inj h).symm⟩

theorem txLockStep_done {k : Nat} (h : txLockStep k s = .done t) :
    s.txLock = none ∧ t = { s with txLock := some k }.txGo k .readtail := by
  simp only [txLockStep] at h
  split at h
  · rename_i hl
    exact ⟨hl, (Micro.done.inj h).symm⟩
  · cases h

theorem txReadtail_done {k : Nat} (h : txReadtail k s = .done t) :
    s.regs.tdt.toNat < s.cfg.nTx
      ∧ t = (s.emit (.reg (.txc k) .read RegName.tdt.offset s.regs.tdt)).modTx k
          fun c => { c with t := s.regs.tdt.toNat, pc := .check } := by
  simp only [txReadtail] at h
  split at h
  · cases h
  · rename_i v u hr
    obtain ⟨-, rfl, rfl⟩ := regRead_state (by decide) (by decide) hr
    split at h
    · cases h
    · rename_i i hi
      obtain ⟨rfl, h1, -⟩ := indexOf_some hi
      exact ⟨h1, (Micro.done.inj h).symm⟩

theorem txCheck_done {k : Nat} {c : TxAgent} (h : txCheck k c s = .done t) :
    ∃ bs n, bs.length = 1
      ∧ ((txDone (bs.getD 0 0) = false
          ∧ t = (({ s with drawCount := n }.emit
              (.mem (.txc k) .read (s.txdAddr c.t + 12) bs)).txRelease).txBusy k .ringFull)
        ∨ (txDone (bs.getD 0 0) = true
          ∧ t = ({ s with drawCount := n }.emit (.mem (.txc k) .read (s.txdAddr c.t + 12) bs)).txGo k
              (if s.cfg.txKeepOneFree then .headchk else .clrstat))) := by
  simp only [txCheck] at h
  split at h
  · cases h
  · rename_i bs u hr
    obtain ⟨r, n, -, hl, -, rfl⟩ := memRead_ok hr
    refine ⟨bs, n, hl, ?_⟩
    split at h
    · rename_i hd
      exact .inl ⟨by simpa using hd, (Micro.done.inj h).symm⟩
    · rename_i hd
      refine .inr ⟨by simpa using hd, ?_⟩
      split at h
      · rename_i hk
        rw [if_pos hk]
        exact (Micro.done.inj h).symm
      · rename_i hk
        rw [if_neg hk]
        exact (Micro.done.inj h).symm

theorem txHeadchk_done {k : Nat} {c : TxAgent} (h : txHeadchk k c s = .done t) :
    s.regs.tdh.toNat < s.cfg.nTx
      ∧ ((nextIdx s.cfg.nTx c.t = s.regs.tdh.toNat
          ∧ t = ((s.emit (.reg (.txc k) .read RegName.tdh.offset s.regs.tdh)).txRelease).txBusy k .ringFull)
        ∨ (nextIdx s.cfg.nTx c.t ≠ s.regs.tdh.toNat
          ∧ t = (s.emit (.reg (.txc k) .read RegName.tdh.offset s.regs.tdh)).txGo k .clrstat)) := by
  simp only [txHeadchk] at h
  split at h
  · cases h
  · rename_i v u hr
    obtain ⟨-, rfl, rfl⟩ := regRead_state (by decide) (by decide) hr
    split at h
    · cases h
    · rename_i i hi
      obtain ⟨rfl, h1, -⟩ := indexOf_some hi
      refine ⟨h1, ?_⟩
      split at h
      · rename_i he
        exact .inl ⟨beq_iff_eq.1 he, (Micro.done.inj h).symm⟩
      · rename_i he
        exact .inr ⟨fun e => he (beq_iff_eq.2 e), (Micro.done.inj h).symm⟩

theorem txPost_done {k a : Nat} {bs : List Byte} {pc : TxPc} (h : txPost k a bs pc s = .done t) :
    ∃ u, memWrite (.txc k) a bs s = .ok u ∧ t = u.txGo k pc := by
  obtain ⟨u, hu, rfl⟩ := Micro.andThen_done h
  exact ⟨u, Micro.ofExcept_done hu, rfl⟩

theorem txCopy_done {k : Nat} {c : TxAgent} (h : txCopy k c s = .done t) :
    (c.frame = [] ∧ t = s.txGo k .wmb)
      ∨ (c.frame ≠ [] ∧ ∃ u, memWrite (.txc k) (s.txbufAddr c.t) c.frame s = .ok u ∧ t = u.txGo k .wmb) := by
  simp only [txCopy] at h
  split at h
  · rename_i he
    exact .inl ⟨by simpa using he, (Micro.done.inj h).symm⟩
  · rename_i he
    exact .inr ⟨by simpa using he, txPost_done h⟩

theorem txWmb_done {k : Nat} (h : txWmb k s = .done t) : s.posted (.txc k) = [] ∧ t = s.txGo k .pub := barrier_done h

theorem txPub_done {k : Nat} {c : TxAgent} (h : txPub k c s = .done t) :
    RegName.accepts s.cfg .tdt (toWord (nextIdx s.cfg.nTx c.t)) ∧ t = { s with
      regs := { s.regs with tdt := toWord (nextIdx s.cfg.nTx c.t) }
      txc := s.txc.modify k fun c => { c with pc := .unlock }
      history := s.history
        ++ [.reg (.txc k) .write RegName.tdt.offset (toWord (nextIdx s.cfg.nTx c.t))] } := by
  obtain ⟨u, hu, rfl⟩ := Micro.andThen_done h
  obtain ⟨-, ha, -, rfl⟩ := regWrite_named hu
  refine ⟨ha, ?_⟩
  simp [Regs.written, State.txGo, State.modTx]

theorem txUnlock_done {k : Nat} (h : txUnlock k s = .done t) :
    t = (s.txRelease.emit (.txResult k .accepted)).modTx k fun c => { c with frame := [], pc := .idle } :=
  (Micro.done.inj h).symm

/-! ### DEV -/

theorem devRxClaim_done (h : devRxClaim s = .done t) :
    s.dev.resetBusy = false ∧ s.dev.rxEnabled = true ∧ s.regs.rdh ≠ s.regs.rdt
      ∧ ∃ rem waiting, s.nextChunkSource = some (rem, waiting)
        ∧ t = { s with
            drawCount := s.headCount s.devRxDepth
            wireIn := waiting
            dev := { s.dev with
              rxClaimed := s.dev.rxClaimed
                ++ [⟨s.regs.rdh.toNat, rem.take s.cfg.rxBufSize, decide (rem.length ≤ s.cfg.rxBufSize)⟩]
              cur := if rem.length ≤ s.cfg.rxBufSize then none else some (rem.drop s.cfg.rxBufSize) }
            regs := { s.regs with rdh := s.headAfter s.devRxDepth s.regs.rdh } } := by
  simp only [devRxClaim] at h
  split at h
  · cases h
  · rename_i he
    simp only [State.rxClaimEnabled, Bool.and_eq_false_iff, not_or, Bool.not_eq_false,
      bne_iff_ne, ne_eq, Bool.not_eq_eq_eq_not, Bool.not_true] at he
    split at h
    · cases h
    · rename_i rem waiting hs
      refine ⟨by simpa using he.1.1, by simpa using he.1.2, by simpa using he.2, rem, waiting, hs, ?_⟩
      rw [← Micro.done.inj h]
      simp

theorem devRxWb_done {d : WbDraws} (h : devRxWb d s = .done t) :
    ∃ c rest, s.dev.resetBusy = false ∧ s.dev.rxClaimed = c :: rest
      ∧ s.firstDead (s.devRxd c.slot) descSize = none
      ∧ s.firstDead (ofLeBytes (devRead (s.devRxd c.slot) 8 s).1) c.chunk.length = none
      ∧ t = wbEffect c rest (ofLeBytes (devRead (s.devRxd c.slot) 8 s).1) d (devRead (s.devRxd c.slot) 8 s).2 := by
  simp only [devRxWb] at h
  split at h
  · cases h
  · rename_i hb
    split at h
    · cases h
    · rename_i c rest hc
      split at h
      · cases h
      · rename_i h1
        split at h
        · cases h
        · rename_i h2
          exact ⟨c, rest, by simpa using hb, hc, h1, h2, (Micro.done.inj h).symm⟩

/-- Everything a receive write-back changes (R284). -/
theorem wbEffect_state (c : Claim) (rest : List Claim) (a : Nat) (d : WbDraws) (s : State) :
    ∃ ev, wbEffect c rest a d s = { s with
      mem := (if c.chunk = [] then s.mem else s.mem.write a c.chunk).write (s.devRxd c.slot + 8) (wbBytes c d)
      dev := { s.dev with rxClaimed := rest }
      regs := { s.regs with icr := s.regs.icr ||| causeRXT0 }
      history := s.history ++ ev } := by
  simp only [wbEffect]
  by_cases hc : c.chunk = []
  · refine ⟨[.mem .dev .write (s.devRxd c.slot + 8) (wbBytes c d)], ?_⟩
    simp only [hc, List.isEmpty_nil, if_true, devWrite_state, State.setCause]
    rfl
  · refine ⟨[.mem .dev .write a c.chunk, .mem .dev .write (s.devRxd c.slot + 8) (wbBytes c d)], ?_⟩
    have he : c.chunk.isEmpty = false := by simpa using hc
    simp only [he, hc, if_false, Bool.false_eq_true, devWrite_state, State.setCause, List.append_assoc]
    rfl

theorem devTxXmit_done (h : devTxXmit s = .done t) :
    s.dev.resetBusy = false ∧ s.dev.txEnabled = true ∧ s.regs.tdh ≠ s.regs.tdt
      ∧ s.firstDead (s.devTxd s.regs.tdh.toNat) descSize = none
      ∧ ∃ r a n q, r = devRead (s.devTxd s.regs.tdh.toNat) descSize s
        ∧ a = ofLeBytes (r.1.take 8) ∧ n = ofLeBytes ((r.1.drop 8).take 2)
        ∧ s.firstDead a n = none ∧ q = devReadFrame a n r.2 ∧ t = xmitEffect (r.1.getD 11 0) q.1 q.2 := by
  simp only [devTxXmit] at h
  split at h
  · cases h
  · rename_i he
    simp only [State.xmitEnabled, Bool.and_eq_false_iff, not_or, Bool.not_eq_false,
      bne_iff_ne, ne_eq, Bool.not_eq_eq_eq_not, Bool.not_true] at he
    split at h
    · cases h
    · rename_i h1
      split at h
      · cases h
      · rename_i h2
        exact ⟨by simpa using he.1.1, by simpa using he.1.2, by simpa using he.2, h1, _, _, _, _, rfl, rfl, rfl, h2, rfl,
          (Micro.done.inj h).symm⟩

/-- Everything a completed transmit changes (R288). -/
theorem xmitEffect_state (cmd : Byte) (frame : List Byte) (s : State) :
    ∃ ev, xmitEffect cmd frame s = { s with
      drawCount := s.headCount s.devTxDepth
      wireOut := s.wireOut ++ [frame]
      mem := if reportsStatus cmd then s.mem.write (s.devTxd s.regs.tdh.toNat + 12) [txDoneStatus] else s.mem
      regs := { s.regs with
        icr := if reportsStatus cmd then s.regs.icr ||| causeTXDW else s.regs.icr
        tdh := s.headAfter s.devTxDepth s.regs.tdh }
      history := s.history ++ ev } := by
  simp only [xmitEffect]
  cases hr : reportsStatus cmd
  · exact ⟨[.wireOut frame], rfl⟩
  · refine ⟨[.wireOut frame, .mem .dev .write (s.devTxd s.regs.tdh.toNat + 12) [txDoneStatus]], ?_⟩
    simp only [if_true, devWrite_state, State.setCause, State.emit, List.append_assoc]
    rfl

/-- DEV's read of a transmit buffer changes only the draw counter and the history. -/
theorem devReadFrame_state (a n : Nat) (s : State) :
    ∃ c ev, (devReadFrame a n s).2 = { s with drawCount := c, history := s.history ++ ev } := by
  by_cases h : n = 0
  · exact ⟨s.drawCount, [], by simp [devReadFrame, h]⟩
  · exact ⟨_, [_], by simp [devReadFrame, h]; rfl⟩

theorem devRstDone_done {d : Option RstDraws} (h : devRstDone d s = .done t) :
    s.dev.resetBusy = true ∧ t = { s with
      regs := resetRegs (s.rstDraws d)
      drawCount := s.rstCount d
      dev := { rxEnabled := false, txEnabled := false, cur := none, rxClaimed := [], resetBusy := false } } := by
  simp only [devRstDone] at h
  split at h
  · rename_i hb
    exact ⟨hb, (Micro.done.inj h).symm⟩
  · cases h

/-! ### HOST -/

theorem regRdHost_done {off : Nat} (h : regRdHost off s = .done t) :
    s.host.pc = .idle ∧ ∃ v, regRead .host off s = .ok (v, t) := by
  simp only [regRdHost] at h
  split at h
  · cases h
  · rename_i hp
    split at h
    · cases h
    · rename_i v u hr
      refine ⟨by simpa using hp, v, ?_⟩
      rw [hr, Micro.done.inj h]

theorem regWrHost_done {off : Nat} {v : Word} (h : regWrHost off v s = .done t) :
    s.host.pc = .idle ∧ ∃ r, r.offset = off ∧ Resource.map ∈ s.acquired ∧ (r.isGeometry = true → v = s.regValue r)
      ∧ r.accepts s.cfg v
      ∧ t = { s with
          regs := s.regs.written r v
          dev := { s.dev with resetBusy := s.dev.resetBusy || (decide (r = .ctrl) && hasRst v) }
          history := s.history ++ [.reg .host .write off v] } := by
  simp only [regWrHost, regStore] at h
  split at h
  · cases h
  · rename_i hp
    split at h
    · cases h
    · rename_i r hr
      obtain ⟨hm, ho, -⟩ := regWriteCheck_ok hr
      split at h
      · cases h
      · rename_i hg
        split at h
        · cases h
        · rename_i u hu
          obtain ⟨ha, rfl⟩ := regEffect_ok hu
          refine ⟨?_, r, ho, hm, ?_, ha, (Micro.done.inj h).symm⟩
          · simp only [Bool.or_eq_true, not_or, bne_iff_ne, ne_eq, Decidable.not_not] at hp
            exact hp.1
          · intro hgeo
            simpa [hgeo] using hg

theorem wmbHost_done (h : wmbHost s = .done t) : s.host.pc = .idle ∧ s.host.posted = [] ∧ t = s := by
  simp only [wmbHost] at h
  split at h
  · cases h
  · rename_i hp
    obtain ⟨h1, h2⟩ := barrier_done h
    exact ⟨by simpa using hp, h1, h2⟩

theorem aCheck_done (h : aCheck s = .done t) :
    s.life = .detached ∧ t = { s with life := .attaching }.hostGo .aMap := by
  simp only [aCheck] at h
  split at h
  · cases h
  · rename_i hl
    exact ⟨by simpa using hl, (Micro.done.inj h).symm⟩

theorem aMap_done {d : Draws} (h : aMap d s = .done t) :
    t = { s with acquired := [.map] }.hostGo .aRstRd ∨ t = s.failAttach .failMap := by
  simp only [aMap] at h
  split at h
  · exact .inl (Micro.done.inj h).symm
  · exact .inr (Micro.done.inj h).symm

/-- HOST's reads of CTRL, when they are not a fault. -/
theorem hostReadCtrl_done {go : Word → State → Micro} (h : hostReadCtrl s go = .done t) :
    go (s.regValue .ctrl) { s with
      host := { s.host with c := s.regValue .ctrl }
      history := s.history ++ [.reg .host .read RegName.ctrl.offset (s.regValue .ctrl)] } = .done t := by
  simp only [hostReadCtrl] at h
  split at h
  · cases h
  · rename_i v u hr
    obtain ⟨-, rfl, rfl⟩ := regRead_state (by decide) (by decide) hr
    exact h

/-- The state after HOST has read CTRL into host.c (R48, R252). -/
def State.ctrlRead (s : State) (pc : HostPc) : State :=
  { s with
    host := { s.host with c := s.regValue .ctrl, pc := pc }
    history := s.history ++ [.reg .host .read RegName.ctrl.offset (s.regValue .ctrl)] }

theorem aRstRd_done (h : aRstRd s = .done t) : t = s.ctrlRead .aRstWr :=
  (Micro.done.inj (hostReadCtrl_done h)).symm

theorem aLinkRd_done (h : aLinkRd s = .done t) : t = s.ctrlRead .aLinkWr :=
  (Micro.done.inj (hostReadCtrl_done h)).symm

/-- Everything one poll can do (R310, R315): RST is clear, the bound is reached, or it goes on polling. -/
theorem aPoll_done (h : aPoll s = .done t) :
    (hasRst (s.regValue .ctrl) = false ∧ t = s.ctrlRead .aLinkRd)
      ∨ (hasRst (s.regValue .ctrl) = true ∧ s.host.polls + 1 = s.cfg.resetPollMax ∧ t = { s.ctrlRead s.host.pc with
          host := { s.host with
            c := s.regValue .ctrl, polls := s.host.polls + 1, result := .failResetTimeout
            pc := if s.acquired.isEmpty then .aFailed else .aUnwind } })
      ∨ (hasRst (s.regValue .ctrl) = true ∧ s.host.polls + 1 ≠ s.cfg.resetPollMax ∧ t = { s.ctrlRead s.host.pc with
          host := { s.host with c := s.regValue .ctrl, polls := s.host.polls + 1, pc := .aPoll } }) := by
  have h := hostReadCtrl_done h
  by_cases hr : hasRst (s.regValue .ctrl) = true
  · by_cases hp : s.host.polls + 1 = s.cfg.resetPollMax
    · simp only [hr, hp, Bool.not_true, Bool.false_eq_true, if_false, beq_self_eq_true, if_true] at h
      exact .inr (.inl ⟨hr, hp, by rw [← Micro.done.inj h]; simp [State.failAttach, State.ctrlRead, hp]⟩)
    · have hb : (s.host.polls + 1 == s.cfg.resetPollMax) = false := by simpa using hp
      simp only [hr, hb, Bool.not_true, Bool.false_eq_true, if_false] at h
      exact .inr (.inr ⟨hr, hp, (Micro.done.inj h).symm⟩)
  · have hr : hasRst (s.regValue .ctrl) = false := by simpa using hr
    simp only [hr, Bool.not_false, if_true] at h
    exact .inl ⟨hr, (Micro.done.inj h).symm⟩

theorem aRstWr_done (h : aRstWr s = .done t) :
    t = { s with
      regs := { s.regs with ctrl := s.host.c ||| ctrlRst }
      dev := { s.dev with resetBusy := s.dev.resetBusy || hasRst (s.host.c ||| ctrlRst) }
      host := { s.host with polls := 0, pc := .aPoll }
      history := s.history ++ [.reg .host .write RegName.ctrl.offset (s.host.c ||| ctrlRst)] } := by
  obtain ⟨u, hu, rfl⟩ := Micro.andThen_done h
  obtain ⟨-, -, -, rfl⟩ := regWrite_named hu
  simp [Regs.written]

theorem hostWrite_done {r : RegName} {v : Word} {pc : HostPc} (h : hostWrite r v pc s = .done t) :
    Resource.map ∈ s.acquired ∧ r.accepts s.cfg v ∧ t = { s with
      regs := s.regs.written r v
      dev := { s.dev with resetBusy := s.dev.resetBusy || (decide (r = .ctrl) && hasRst v) }
      host := { s.host with pc := pc }
      history := s.history ++ [.reg .host .write r.offset v] } := by
  obtain ⟨u, hu, rfl⟩ := Micro.andThen_done h
  obtain ⟨hm, ha, -, rfl⟩ := regWrite_named hu
  exact ⟨hm, ha, rfl⟩

theorem hostAlloc_done {k : RegionKind} {pc : HostPc} {d : Draws} (h : hostAlloc k pc d s = .done t) :
    (d.alloc = none ∧ t = (s.emit (.alloc k (regionSize s.cfg k) none)).failAttach .failAlloc)
      ∨ ∃ loc dma, d.alloc = some (loc, dma) ∧ s.freshRegion k loc dma = true
        ∧ t = ((s.emit (.alloc k (regionSize s.cfg k) (some (loc, dma)))).allocate k loc dma).hostGo pc := by
  simp only [hostAlloc] at h
  split at h
  · rename_i hd
    exact .inl ⟨hd, by rw [← Micro.done.inj h, hd]⟩
  · rename_i loc dma hd
    split at h
    · rename_i hf
      exact .inr ⟨loc, dma, hd, hf, by rw [← Micro.done.inj h, hd]⟩
    · cases h

theorem hostImage_done {a : Nat} {bs : List Byte} {pc : HostPc} (h : hostImage a bs pc s = .done t) :
    ∃ u, memWrite .host a bs s = .ok u ∧ t = u.hostGo pc := by
  obtain ⟨u, hu, rfl⟩ := Micro.andThen_done h
  exact ⟨u, Micro.ofExcept_done hu, rfl⟩

theorem aIrq_done {d : Draws} (h : aIrq d s = .done t) :
    t = { s with
        irq := { s.irq with registered := true }
        acquired := s.acquired ++ [Resource.irq] }.hostGo .aIms
      ∨ t = s.failAttach .failIrq := by
  simp only [aIrq] at h
  split at h
  · exact .inl (Micro.done.inj h).symm
  · exact .inr (Micro.done.inj h).symm

theorem dCheck_done (h : dCheck s = .done t) :
    (s.life = .detached ∧ t = s.hostGo .idle)
      ∨ (s.life ≠ .detached ∧ t = { s with life := .detaching }.hostGo .dQuiesce) := by
  simp only [dCheck] at h
  split at h
  · rename_i hl
    exact .inl ⟨by simpa using hl, (Micro.done.inj h).symm⟩
  · rename_i hl
    exact .inr ⟨by simpa using hl, (Micro.done.inj h).symm⟩

theorem dIrqrel_done (h : dIrqrel s = .done t) :
    s.irq.pc = .idle ∧ t = { s with
      irq := { s.irq with registered := false }
      acquired := s.acquired.filter fun x => x != Resource.irq }.hostGo .dBh := by
  simp only [dIrqrel] at h
  split at h
  · rename_i hp
    exact ⟨by simpa using hp, (Micro.done.inj h).symm⟩
  · cases h

theorem dBhwait_done (h : dBhwait s = .done t) :
    s.coord.pending = false ∧ s.coord.running = false ∧ t = s.hostGo .dTxwait := by
  simp only [dBhwait] at h
  split at h
  · rename_i hc
    simp only [Bool.and_eq_true, Bool.not_eq_true'] at hc
    exact ⟨hc.1, hc.2, (Micro.done.inj h).symm⟩
  · cases h

theorem dTxwait_done (h : dTxwait s = .done t) :
    s.txLock = none ∧ (∀ c ∈ s.txc, c.pc = .idle) ∧ t = s.hostGo .dAcc := by
  simp only [dTxwait] at h
  split at h
  · rename_i hc
    simp only [Bool.and_eq_true, beq_iff_eq, List.all_eq_true] at hc
    exact ⟨hc.1, hc.2, (Micro.done.inj h).symm⟩
  · cases h

end Sys2Proof.Machine
end

