-- ==== Sys2Proof/Laws/Step.lean ====
section
/-! SUPPORT. What one step of the machine can do, said once. -/

namespace Sys2Proof.Machine

/-- Agent `x` completes a micro-step that takes `s` to `t`. -/
inductive Completes (s : State) : Agent → State → Prop where
  | irqTop (h : s.irqTopEnabled = true) : Completes s .irq s.enterIrq
  | irq {t : State} (h : irqMicro s = .done t) : Completes s .irq t
  | sched {t : State} (h : bhSchedHost s = .done t) : Completes s .host t
  | start (h : s.bhRunEnabled = true) : Completes s .bh s.startRun
  | bh {t : State} (d : Draws) (c : Nat) (h : bhMicro d { s with drawCount := c } = .done t) : Completes s .bh t
  | submit {t : State} (k : Nat) (len : Half) (frame : List Byte) (hl : frame.length = len.toNat)
      (h : txIssue k len frame s = .done t) : Completes s (.txc k) t
  | tx {t : State} (k : Nat) (h : txMicro k s = .done t) : Completes s (.txc k) t
  | regRd {t : State} (off : Nat) (h : regRdHost off s = .done t) : Completes s .host t
  | regWr {t : State} (off : Nat) (v : Word) (h : regWrHost off v s = .done t) : Completes s .host t
  | wmb {t : State} (h : wmbHost s = .done t) : Completes s .host t
  | land {t : State} (x : Agent) (pos : Nat) (h : land x pos s = .done t) : Completes s .memsys t
  | attach (h : s.host.pc = .idle) : Completes s .host ((s.emit .attach).hostGo .aCheck)
  | detach (h : s.host.pc = .idle) : Completes s .host ((s.emit .detach).hostGo .dCheck)
  | host {t : State} (d : Draws) (h : hostMicro d s = .done t) : Completes s .host t
  | wireIn (frame : List Byte) :
      Completes s .dev ({ s with wireIn := s.wireIn ++ [frame] }.emit (.wireIn frame))
  | rxClaim {t : State} (h : devRxClaim s = .done t) : Completes s .dev t
  | rxWb {t : State} (d : WbDraws) (h : devRxWb d s = .done t) : Completes s .dev t
  | rxDrop (h : s.rxDropEnabled = true) : Completes s .dev ({ s with wireIn := s.wireIn.tail }.setCause causeRXO)
  | xmit {t : State} (h : devTxXmit s = .done t) : Completes s .dev t
  | cause (c : Word) (h : s.dev.resetBusy = false) : Completes s .dev (s.setCause c)
  | rstDone {t : State} (d : Option RstDraws) (h : devRstDone d s = .done t) : Completes s .dev t

/-- Everything an operation or a turn can do when it gives a next state: nothing but the turn counter, one completed micro-step of a running
agent, or one fault of a running agent. -/
def CanDo (s t : State) : Prop :=
  t = s.passTurn
    ∨ (∃ x, x ∉ s.stopped ∧ Completes s x t)
    ∨ (∃ x f, x ∉ s.stopped ∧ t = s.raiseFault x f)

theorem canDo_of_take {x : Agent} {s t : State} {m : Micro} (h : take x s m = .next t)
    (hm : ∀ u, m = .done u → Completes s x u) : CanDo s t := by
  rcases take_next h with h | ⟨hx, hd⟩ | ⟨hx, f, -, hf⟩
  · exact .inl h
  · exact .inr (.inl ⟨x, hx, hm t hd⟩)
  · exact .inr (.inr ⟨x, f, hx, hf⟩)

/-- The micro-step a record word lets an agent take is one of that agent's. -/
theorem completes_recorded {x : Agent} {s t : State} (h : recorded x s = .done t) : Completes s x t := by
  cases x with
  | host => cases h
  | irq => exact .irq h
  | bh => exact .bh s.recordDraws s.drawCount h
  | dev => cases h
  | memsys => cases h
  | txc k => exact .tx k h

theorem completes_recorded_if {x : Agent} {s t : State} {c : Prop} [Decidable c]
    (h : (if c then recorded x s else Micro.hold) = .done t) : Completes s x t := by
  split at h
  · exact completes_recorded h
  · cases h

/-- A record word of an agent other than HOST (R114): a micro-step of that agent, where its current one is the one recorded. -/
theorem execRegRd_record {x : Agent} (off : Half) (s : State) (hx : x ≠ .host) :
    execRegRd x off s
      = take x s (if (s.readsReg x).map RegName.offset == some off.toNat then recorded x s else .hold) := by
  cases x <;> first | rfl | exact absurd rfl hx

theorem execRegWr_record {x : Agent} (off : Half) (v : Word) (s : State) (hx : x ≠ .host) :
    execRegWr x off v s
      = take x s (if (s.writesReg x).map (fun p => (p.1.offset, p.2)) == some (off.toNat, v) then recorded x s
          else .hold) := by
  cases x <;> first | rfl | exact absurd rfl hx

theorem execWmb_record {x : Agent} (s : State) (hx : x ≠ .host) :
    execWmb x s = take x s (if s.atBarrier x then recorded x s else .hold) := by
  cases x <;> first | rfl | exact absurd rfl hx

/-- Everything an operation can do (R114); the frame of a TX_SUBMIT has the length its IMM gives, as in every decoded one (R113). -/
theorem exec_canDo {i : Instr} {s t : State} (hf : ∀ k len frame, i = .txSubmit k len frame → frame.length = len.toNat) (h : exec i s = .next t) : CanDo s t := by
  cases i with
  | irqTop =>
    refine canDo_of_take h fun u hu => ?_
    split at hu
    · rename_i he; cases hu; exact .irqTop he
    · cases hu
  | bhSched x =>
    cases x with
    | host => exact canDo_of_take h fun u hu => .sched hu
    | irq =>
      refine canDo_of_take h fun u hu => ?_
      split at hu
      · rename_i he
        refine .irq ?_
        simp only [State.irqAsksRun, Bool.and_eq_true, beq_iff_eq] at he
        simp only [irqMicro, he.1]
        exact hu
      · cases hu
    | bh => exact .inl (Host.Outcome.next.inj h).symm
    | dev => exact .inl (Host.Outcome.next.inj h).symm
    | memsys => exact .inl (Host.Outcome.next.inj h).symm
    | txc k => exact .inl (Host.Outcome.next.inj h).symm
  | bhRun =>
    refine canDo_of_take h fun u hu => ?_
    split at hu
    · rename_i he; cases hu; exact .start he
    · cases hu
  | rxRun =>
    refine canDo_of_take h fun u hu => ?_
    split at hu
    · exact .bh _ _ hu
    · exact .bh _ s.drawCount hu
  | txSubmit k len frame => exact canDo_of_take h fun u hu => .submit k len frame (hf k len frame rfl) hu
  | regRd x off =>
    by_cases hx : x = .host
    · subst hx
      exact canDo_of_take h fun u hu => .regRd _ hu
    · simp only [exec] at h
      rw [execRegRd_record off s hx] at h
      exact canDo_of_take h fun u hu => completes_recorded_if hu
  | regWr x off v =>
    by_cases hx : x = .host
    · subst hx
      exact canDo_of_take h fun u hu => .regWr _ v hu
    · simp only [exec] at h
      rw [execRegWr_record off v s hx] at h
      exact canDo_of_take h fun u hu => completes_recorded_if hu
  | wmb x =>
    by_cases hx : x = .host
    · subst hx
      exact canDo_of_take h fun u hu => .wmb hu
    · simp only [exec] at h
      rw [execWmb_record s hx] at h
      exact canDo_of_take h fun u hu => completes_recorded_if hu
  | memDrain x pos => exact canDo_of_take h fun u hu => .land x _ hu
  | devRxClaim => exact canDo_of_take h fun u hu => .rxClaim hu
  | devRxWb d => exact canDo_of_take h fun u hu => .rxWb d hu
  | devTxXmit => exact canDo_of_take h fun u hu => .xmit hu
  | devCause c =>
    refine canDo_of_take h fun u hu => ?_
    split at hu
    · cases hu
    · rename_i hb; cases hu; exact .cause c (by simpa using hb)
  | devRstDone d => exact canDo_of_take h fun u hu => .rstDone d hu
  | devWireIn len frame =>
    simp only [exec, execDevWireIn] at h
    exact canDo_of_take h fun u hu => by cases hu; exact .wireIn frame
  | devRxDrop =>
    refine canDo_of_take h fun u hu => ?_
    split at hu
    · rename_i he; cases hu; exact .rxDrop he
    · cases hu
  | attach =>
    refine canDo_of_take h fun u hu => ?_
    split at hu
    · rename_i he; cases hu; exact .attach (by simpa using he)
    · cases hu
  | detach =>
    refine canDo_of_take h fun u hu => ?_
    split at hu
    · rename_i he; cases hu; exact .detach (by simpa using he)
    · cases hu

/-- Everything a turn given to an agent can do (R1, R29). -/
theorem runMicro_canDo {x : Agent} {d : Draws} {s t : State} (h : runMicro x d s = .next t) : CanDo s t := by
  cases x with
  | host => exact canDo_of_take h fun u hu => .host d hu
  | irq => exact canDo_of_take h fun u hu => .irq hu
  | bh => exact canDo_of_take h fun u hu => .bh d s.drawCount hu
  | dev => exact .inl (Host.Outcome.next.inj h).symm
  | memsys => exact .inl (Host.Outcome.next.inj h).symm
  | txc k => exact canDo_of_take h fun u hu => .tx k hu

/-- What a configured step answers is the answer of a state with legal parameters. -/
theorem State.configured_next {s t : State} {r : Host.Outcome State Fault Refusal} (h : s.configured r = .next t) :
    s.cfg.valid = true ∧ r = .next t := by
  simp only [State.configured] at h
  split at h
  · rename_i hv; exact ⟨hv, h⟩
  · cases h

/-- Everything a step can do: nothing where the schedule is empty, else the next turn is taken off it and is a refused word or something an
agent can do. -/
theorem step_next {s t : State} (h : step s = .next t) :
    s.cfg.valid = true
      ∧ ((s.script = [] ∧ t = s)
        ∨ ∃ u rest, s.script = u :: rest
          ∧ (t = { s with script := rest }.refuseWord ∨ CanDo { s with script := rest } t)) := by
  simp only [step] at h
  split at h
  · rename_i hs
    obtain ⟨hv, h⟩ := State.configured_next h
    exact ⟨hv, .inl ⟨hs, (Host.Outcome.next.inj h).symm⟩⟩
  · rename_i u rest hs
    obtain ⟨hv, h⟩ := State.configured_next h
    refine ⟨hv, .inr ⟨u, rest, hs, ?_⟩⟩
    cases u with
    | word cmd oob =>
      simp only [runTurn] at h
      split at h
      · rename_i i hi
        exact .inr (exec_canDo (fun k len frame e => decode_txSubmit_length (e ▸ hi)) h)
      · exact .inl (Host.Outcome.next.inj h).symm
    | micro x d => exact .inr (runMicro_canDo h)

/-- An invariant is kept by every step if it survives a new schedule, an idle turn, a refused word, a fault, and every micro-step that an agent
completes. -/
theorem step_keeps {P : State → Prop} {s t : State} (hs : P s) (h : step s = .next t)
    (script : ∀ u r, P u → P { u with script := r })
    (pass : ∀ u, P u → P u.passTurn)
    (refuse : ∀ u, P u → P u.refuseWord)
    (fault : ∀ u x f, P u → P (u.raiseFault x f))
    (completes : ∀ u v x, u.cfg.valid = true → P u → Completes u x v → P v) : P t := by
  obtain ⟨hv, ⟨-, rfl⟩ | ⟨u, rest, -, ht⟩⟩ := step_next h
  · exact hs
  · have h0 := script s rest hs
    rcases ht with rfl | rfl | ⟨x, -, hc⟩ | ⟨x, f, -, rfl⟩
    · exact refuse _ h0
    · exact pass _ h0
    · exact completes { s with script := rest } t x hv h0 hc
    · exact fault _ x f h0

end Sys2Proof.Machine
end

