-- ==== Sys2Proof/Laws/Frames.lean ====
section
/-! SUPPORT. For each agent, what its micro-steps may change: everything else of the state is as before. -/

namespace Sys2Proof.Machine

variable {s t : State}

/-- IRQ changes ICR, its own registers, coord.pending and the history. -/
theorem irqMicro_frame (h : irqMicro s = .done t) :
    t = { s with
      regs := { s.regs with icr := t.regs.icr }
      irq := t.irq
      coord := { s.coord with pending := t.coord.pending }
      history := t.history } := by
  unfold irqMicro at h
  split at h
  · cases h
  · obtain ⟨-, rfl⟩ := irqRead_done h; rfl
  · obtain rfl := irqSched_done h; rfl

/-- BH changes RDT, its own registers, coord.running, coherent memory under SC, and the record of the run. -/
theorem bhMicro_frame {d : Draws} (h : bhMicro d s = .done t) :
    t = { s with
      drawCount := t.drawCount
      regs := { s.regs with rdt := t.regs.rdt }
      mem := t.mem
      bh := t.bh
      coord := { s.coord with running := t.coord.running }
      history := t.history } := by
  unfold bhMicro at h
  split at h
  · cases h
  · obtain ⟨-, rfl⟩ := rxSnap_done h; rfl
  · obtain ⟨-, rfl⟩ | ⟨-, bs, c, pc, -, rfl⟩ := rxTest_done h <;> rfl
  · obtain ⟨-, rfl⟩ | ⟨-, rfl⟩ | ⟨-, rfl⟩ := rxAlloc_done h <;> rfl
  · obtain rfl := rxAdv_done h; rfl
  · obtain ⟨d, c, -, -, rfl⟩ := rxDesc_done h; rfl
  · obtain ⟨b, -, -, ⟨-, rfl⟩ | ⟨-, p, c, -, rfl⟩⟩ := rxCopy_done h <;> rfl
  · obtain ⟨-, rfl⟩ | ⟨-, b, -, rfl⟩ := rxEop_done h <;> rfl
  · obtain ⟨u, hu, rfl⟩ := rxClear_done h
    obtain ⟨k, -, ⟨-, rfl⟩ | ⟨-, rfl⟩⟩ := memWrite_ok hu <;> rfl
  · obtain ⟨-, rfl⟩ := rxWmb_done h; rfl
  · obtain ⟨-, rfl⟩ := rxPub_done h; rfl
  · obtain rfl := rxExit_done h; rfl

theorem txPost_frame {k a : Nat} {bs : List Byte} {pc : TxPc} (h : txPost k a bs pc s = .done t) :
    t = { s with mem := t.mem, txc := t.txc, history := t.history } := by
  obtain ⟨u, hu, rfl⟩ := txPost_done h
  obtain ⟨r, -, ⟨-, rfl⟩ | ⟨-, rfl⟩⟩ := memWrite_ok hu <;> rfl

/-- TXC[k] changes TDT, the transmit callers, the lock, coherent memory under SC, and the record of the run. -/
theorem txMicro_frame {k : Nat} (h : txMicro k s = .done t) :
    t = { s with
      drawCount := t.drawCount
      regs := { s.regs with tdt := t.regs.tdt }
      mem := t.mem
      txc := t.txc
      txLock := t.txLock
      history := t.history } := by
  unfold txMicro at h
  split at h
  · cases h
  split at h
  · cases h
  · obtain ⟨-, ⟨-, rfl⟩ | ⟨-, rfl⟩⟩ := txLenchk_done h <;> rfl
  · obtain ⟨-, rfl⟩ := txLockStep_done h; rfl
  · obtain ⟨-, rfl⟩ := txReadtail_done h; rfl
  · obtain ⟨b, n, -, ⟨-, rfl⟩ | ⟨-, rfl⟩⟩ := txCheck_done h <;> rfl
  · obtain ⟨-, ⟨-, rfl⟩ | ⟨-, rfl⟩⟩ := txHeadchk_done h <;> rfl
  · rw [txPost_frame h]
  · rw [txPost_frame h]
  · rw [txPost_frame h]
  · obtain ⟨-, rfl⟩ | ⟨-, u, hu, rfl⟩ := txCopy_done h
    · rfl
    · obtain ⟨r, -, ⟨-, rfl⟩ | ⟨-, rfl⟩⟩ := memWrite_ok hu <;> rfl
  · obtain ⟨-, rfl⟩ := txWmb_done h; rfl
  · obtain ⟨-, rfl⟩ := txPub_done h; rfl
  · obtain rfl := txUnlock_done h; rfl

theorem releaseLast_frame (s : State) :
    s.releaseLast = { s with
      acquired := s.acquired.dropLast
      regions := s.releaseLast.regions
      mem := s.releaseLast.mem
      irq := { s.irq with registered := s.releaseLast.irq.registered } } := by
  cases h : s.acquired.getLast? with
  | none =>
    have e : s.acquired.dropLast = s.acquired := by simp [show s.acquired = [] by simpa using h]
    have e2 : s.releaseLast = s := by simp only [State.releaseLast, h]
    rw [e2, e]
  | some x => cases x <;> simp [State.releaseLast, h, State.release]

theorem hostWrite_frame {r : RegName} {v : Word} {pc : HostPc} (h : hostWrite r v pc s = .done t) :
    t = { s with regs := t.regs, dev := t.dev, host := t.host, history := t.history } := by
  obtain ⟨-, -, rfl⟩ := hostWrite_done h; rfl

theorem hostAlloc_frame {k : RegionKind} {pc : HostPc} {d : Draws} (h : hostAlloc k pc d s = .done t) :
    t = { s with
      acquired := t.acquired, regions := t.regions, mem := t.mem, host := t.host, history := t.history } := by
  obtain ⟨-, rfl⟩ | ⟨loc, dma, -, -, rfl⟩ := hostAlloc_done h <;> rfl

theorem hostImage_frame {a : Nat} {bs : List Byte} {pc : HostPc} (h : hostImage a bs pc s = .done t) :
    t = { s with mem := t.mem, host := t.host, history := t.history } := by
  obtain ⟨u, hu, rfl⟩ := hostImage_done h
  obtain ⟨r, -, ⟨-, rfl⟩ | ⟨-, rfl⟩⟩ := memWrite_ok hu <;> rfl

/-- HOST's micro-steps leave the callers, the wires, most of BH and of IRQ, and the fault record alone. -/
theorem hostMicro_frame {d : Draws} (h : hostMicro d s = .done t) :
    t = { s with
      life := t.life
      acquired := t.acquired
      regs := t.regs
      regions := t.regions
      mem := t.mem
      host := t.host
      irq := { s.irq with registered := t.irq.registered }
      bh := { s.bh with tail := t.bh.tail, acc := t.bh.acc }
      txLock := t.txLock
      coord := t.coord
      dev := t.dev
      history := t.history } := by
  unfold hostMicro at h
  split at h
  all_goals try first | rw [hostWrite_frame h] | rw [hostAlloc_frame h] | rw [hostImage_frame h]
  · cases h
  · obtain ⟨-, rfl⟩ := aCheck_done h; rfl
  · obtain rfl | rfl := aMap_done h <;> rfl
  · obtain rfl := aRstRd_done h; rfl
  · obtain rfl := aRstWr_done h; rfl
  · obtain ⟨-, rfl⟩ | ⟨-, -, rfl⟩ | ⟨-, -, rfl⟩ := aPoll_done h <;> rfl
  · obtain rfl := aLinkRd_done h; rfl
  · obtain ⟨-, rfl⟩ := barrier_done h; rfl
  · cases h; rfl
  · obtain rfl | rfl := aIrq_done h <;> rfl
  · cases h; rfl
  · cases h; rfl
  · cases h; rw [releaseLast_frame s]; rfl
  · cases h; rfl
  · obtain ⟨-, rfl⟩ | ⟨-, rfl⟩ := dCheck_done h <;> rfl
  · cases h; rfl
  · obtain ⟨-, rfl⟩ := dIrqrel_done h; rfl
  · cases h; rfl
  · obtain ⟨-, -, rfl⟩ := dBhwait_done h; rfl
  · obtain ⟨-, -, rfl⟩ := dTxwait_done h; rfl
  · cases h; rfl
  · cases h; rw [releaseLast_frame s]; rfl
  · cases h; rfl

/-- A claim changes the wire queue, the device, RDH and the draw counter. -/
theorem devRxClaim_frame (h : devRxClaim s = .done t) :
    t = { s with
      drawCount := t.drawCount, wireIn := t.wireIn, dev := t.dev, regs := { s.regs with rdh := t.regs.rdh } } := by
  obtain ⟨-, -, -, rem, waiting, -, rfl⟩ := devRxClaim_done h; rfl

/-- A receive write-back changes memory, the claims, ICR and the record of the run. -/
theorem devRxWb_frame {d : WbDraws} (h : devRxWb d s = .done t) :
    t = { s with
      drawCount := t.drawCount
      mem := t.mem
      dev := { s.dev with rxClaimed := t.dev.rxClaimed }
      regs := { s.regs with icr := t.regs.icr }
      history := t.history } := by
  obtain ⟨c, rest, -, -, -, -, rfl⟩ := devRxWb_done h
  obtain ⟨n, hn⟩ := devRead_state (s.devRxd c.slot) 8 s
  obtain ⟨ev, he⟩ := wbEffect_state c rest (ofLeBytes (devRead (s.devRxd c.slot) 8 s).1) d
    (devRead (s.devRxd c.slot) 8 s).2
  rw [he, hn]

/-- A transmit changes memory, ICR, TDH, the wire and the record of the run. -/
theorem devTxXmit_frame (h : devTxXmit s = .done t) :
    t = { s with
      drawCount := t.drawCount
      mem := t.mem
      regs := { s.regs with icr := t.regs.icr, tdh := t.regs.tdh }
      wireOut := t.wireOut
      history := t.history } := by
  obtain ⟨-, -, -, -, r, a, n, q, hr, ha, hn, -, hq, rfl⟩ := devTxXmit_done h
  obtain ⟨c1, e1⟩ := devRead_state (s.devTxd s.regs.tdh.toNat) descSize s
  obtain ⟨c2, ev2, e2⟩ := devReadFrame_state a n r.2
  obtain ⟨ev3, e3⟩ := xmitEffect_state (r.1.getD 11 0) q.1 q.2
  rw [e3, hq, e2, hr, e1]

/-- A landing changes memory, W[x] and the history. -/
theorem land_frame {x : Agent} {pos : Nat} (h : land x pos s = .done t) :
    t = { (s.setPosted x ((s.posted x).eraseIdx pos)) with mem := t.mem, history := t.history } := by
  obtain ⟨e, k, -, -, -, rfl⟩ := land_done h
  cases x <;> rfl

end Sys2Proof.Machine
end

