-- ==== Sys2Proof/Laws/PerInstr.lean ====
section
/-! SUPPORT. One lemma for each constructor of Instr: the word the encoder writes for a well-formed operation carries the OPC of that
operation's row in the opcode map, and an agent that row allows. -/

namespace Sys2Proof

/-- The row an operation belongs to, by name (R114). -/
def Instr.op : Instr → Op
  | .irqTop => .irqTop
  | .bhSched _ => .bhSched
  | .bhRun => .bhRun
  | .rxRun => .rxRun
  | .txSubmit _ _ _ => .txSubmit
  | .regRd _ _ => .regRd
  | .regWr _ _ _ => .regWr
  | .wmb _ => .wmb
  | .memDrain _ _ => .memDrain
  | .devRxClaim => .devRxClaim
  | .devRxWb _ => .devRxWb
  | .devTxXmit => .devTxXmit
  | .devCause _ => .devCause
  | .devRstDone _ => .devRstDone
  | .devWireIn _ _ => .devWireIn
  | .devRxDrop => .devRxDrop
  | .attach => .attach
  | .detach => .detach

/-- The agent whose tag the word of an operation carries (R114). -/
def Instr.agent : Instr → Agent
  | .irqTop => .irq
  | .bhSched x => x
  | .bhRun => .bh
  | .rxRun => .bh
  | .txSubmit k _ _ => .txc k
  | .regRd x _ => x
  | .regWr x _ _ => x
  | .wmb x => x
  | .memDrain x _ => x
  | .devRxClaim => .dev
  | .devRxWb _ => .dev
  | .devTxXmit => .dev
  | .devCause _ => .dev
  | .devRstDone _ => .dev
  | .devWireIn _ _ => .dev
  | .devRxDrop => .dev
  | .attach => .host
  | .detach => .host

/-- The fields of a word built from fields that fit (R110). -/
theorem wordOf_toNat {opc ag imm : Nat} (ho : opc < 256) (ha : ag < 256) (hi : imm < 65536) :
    (wordOf opc ag imm).toNat = opc * 2 ^ 24 + ag * 2 ^ 16 + imm := by
  simp only [wordOf, BitVec.toNat_ofNat]; omega

/-- The OPC of such a word. -/
theorem wordOf_opc {opc ag imm : Nat} (ho : opc < 256) (ha : ag < 256) (hi : imm < 65536) :
    (wordOf opc ag imm).toNat / 2 ^ 24 = opc := by
  rw [wordOf_toNat ho ha hi]; omega

/-- The AG of such a word. -/
theorem wordOf_ag {opc ag imm : Nat} (ho : opc < 256) (ha : ag < 256) (hi : imm < 65536) :
    (wordOf opc ag imm).toNat / 2 ^ 16 % 2 ^ 8 = ag := by
  rw [wordOf_toNat ho ha hi]; omega

/-- A tag fits in eight bits where the agent exists (R111). -/
theorem tag_lt_of_isEngine {n : Nat} {x : Agent} (h : x.isEngine n = true) : x.tag < 256 := by
  cases x <;> simp_all [Agent.isEngine, Agent.tag, callerOk]
  omega

/-- An agent that may schedule has a tag that fits. -/
theorem tag_lt_of_maySchedule {x : Agent} (h : x.maySchedule = true) : x.tag < 256 := by
  cases x <;> simp_all [Agent.maySchedule, Agent.tag]

namespace Laws.EncodeOpcode

/-- The encoder writes the OPC of the operation's row, the tag of its agent, and that row allows the agent. -/
def Statement (i : Instr) : Prop :=
  ∀ n : Nat, i.wellFormed n = true →
    (encodeWord i).toNat / 2 ^ 16 % 2 ^ 8 = i.agent.tag
      ∧ ∃ r ∈ opcodeMap, r.opc = (encodeWord i).toNat / 2 ^ 24 ∧ r.op = i.op ∧ r.ags.allows n i.agent = true

theorem irqTop : Statement .irqTop := by
  intro n h
  exact ⟨wordOf_ag (by decide) (by decide) (by decide), ⟨0x01, .irqTop, .only .irq, true⟩, by simp [opcodeMap],
    (wordOf_opc (by decide) (by decide) (by decide)).symm, rfl, rfl⟩

theorem bhSched (x : Agent) : Statement (.bhSched x) := by
  intro n h
  exact ⟨wordOf_ag (by decide) (tag_lt_of_maySchedule h) (by decide), ⟨0x02, .bhSched, .hostOrIrq, true⟩, by simp [opcodeMap],
    (wordOf_opc (by decide) (tag_lt_of_maySchedule h) (by decide)).symm, rfl, h⟩

theorem bhRun : Statement .bhRun := by
  intro n h
  exact ⟨wordOf_ag (by decide) (by decide) (by decide), ⟨0x03, .bhRun, .only .bh, true⟩, by simp [opcodeMap],
    (wordOf_opc (by decide) (by decide) (by decide)).symm, rfl, rfl⟩

theorem rxRun : Statement .rxRun := by
  intro n h
  exact ⟨wordOf_ag (by decide) (by decide) (by decide), ⟨0x10, .rxRun, .only .bh, true⟩, by simp [opcodeMap],
    (wordOf_opc (by decide) (by decide) (by decide)).symm, rfl, rfl⟩

theorem txSubmit (k : Nat) (len : Half) (frame : List Byte) : Statement (.txSubmit k len frame) := by
  intro n h
  have hk := (Bool.and_eq_true_iff.mp h).1
  exact ⟨wordOf_ag (by decide) (tag_lt_of_isEngine (x := .txc k) hk) (len.isLt), ⟨0x20, .txSubmit, .caller, false⟩, by simp [opcodeMap],
    (wordOf_opc (by decide) (tag_lt_of_isEngine (x := .txc k) hk) (len.isLt)).symm, rfl, hk⟩

theorem regRd (x : Agent) (off : Half) : Statement (.regRd x off) := by
  intro n h
  exact ⟨wordOf_ag (by decide) (tag_lt_of_isEngine h) (off.isLt), ⟨0x30, .regRd, .engine, false⟩, by simp [opcodeMap],
    (wordOf_opc (by decide) (tag_lt_of_isEngine h) (off.isLt)).symm, rfl, h⟩

theorem regWr (x : Agent) (off : Half) (v : Word) : Statement (.regWr x off v) := by
  intro n h
  exact ⟨wordOf_ag (by decide) (tag_lt_of_isEngine h) (off.isLt), ⟨0x31, .regWr, .engine, false⟩, by simp [opcodeMap],
    (wordOf_opc (by decide) (tag_lt_of_isEngine h) (off.isLt)).symm, rfl, h⟩

theorem wmb (x : Agent) : Statement (.wmb x) := by
  intro n h
  exact ⟨wordOf_ag (by decide) (tag_lt_of_isEngine h) (by decide), ⟨0x32, .wmb, .engine, true⟩, by simp [opcodeMap],
    (wordOf_opc (by decide) (tag_lt_of_isEngine h) (by decide)).symm, rfl, h⟩

theorem memDrain (x : Agent) (pos : Half) : Statement (.memDrain x pos) := by
  intro n h
  exact ⟨wordOf_ag (by decide) (tag_lt_of_isEngine h) (pos.isLt), ⟨0x33, .memDrain, .engine, false⟩, by simp [opcodeMap],
    (wordOf_opc (by decide) (tag_lt_of_isEngine h) (pos.isLt)).symm, rfl, h⟩

theorem devRxClaim : Statement .devRxClaim := by
  intro n h
  exact ⟨wordOf_ag (by decide) (by decide) (by decide), ⟨0x40, .devRxClaim, .only .dev, true⟩, by simp [opcodeMap],
    (wordOf_opc (by decide) (by decide) (by decide)).symm, rfl, rfl⟩

theorem devRxWb (d : WbDraws) : Statement (.devRxWb d) := by
  intro n h
  exact ⟨wordOf_ag (by decide) (by decide) (by decide), ⟨0x41, .devRxWb, .only .dev, true⟩, by simp [opcodeMap],
    (wordOf_opc (by decide) (by decide) (by decide)).symm, rfl, rfl⟩

theorem devTxXmit : Statement .devTxXmit := by
  intro n h
  exact ⟨wordOf_ag (by decide) (by decide) (by decide), ⟨0x42, .devTxXmit, .only .dev, true⟩, by simp [opcodeMap],
    (wordOf_opc (by decide) (by decide) (by decide)).symm, rfl, rfl⟩

theorem devCause (c : Word) : Statement (.devCause c) := by
  intro n h
  exact ⟨wordOf_ag (by decide) (by decide) (by decide), ⟨0x43, .devCause, .only .dev, true⟩, by simp [opcodeMap],
    (wordOf_opc (by decide) (by decide) (by decide)).symm, rfl, rfl⟩

theorem devRstDone (d : Option RstDraws) : Statement (.devRstDone d) := by
  intro n h
  exact ⟨wordOf_ag (by decide) (by decide) (by decide), ⟨0x44, .devRstDone, .only .dev, true⟩, by simp [opcodeMap],
    (wordOf_opc (by decide) (by decide) (by decide)).symm, rfl, rfl⟩

theorem devWireIn (len : Half) (frame : List Byte) : Statement (.devWireIn len frame) := by
  intro n h
  exact ⟨wordOf_ag (by decide) (by decide) (len.isLt), ⟨0x45, .devWireIn, .only .dev, false⟩, by simp [opcodeMap],
    (wordOf_opc (by decide) (by decide) (len.isLt)).symm, rfl, rfl⟩

theorem devRxDrop : Statement .devRxDrop := by
  intro n h
  exact ⟨wordOf_ag (by decide) (by decide) (by decide), ⟨0x46, .devRxDrop, .only .dev, true⟩, by simp [opcodeMap],
    (wordOf_opc (by decide) (by decide) (by decide)).symm, rfl, rfl⟩

theorem attach : Statement .attach := by
  intro n h
  exact ⟨wordOf_ag (by decide) (by decide) (by decide), ⟨0x50, .attach, .only .host, true⟩, by simp [opcodeMap],
    (wordOf_opc (by decide) (by decide) (by decide)).symm, rfl, rfl⟩

theorem detach : Statement .detach := by
  intro n h
  exact ⟨wordOf_ag (by decide) (by decide) (by decide), ⟨0x51, .detach, .only .host, true⟩, by simp [opcodeMap],
    (wordOf_opc (by decide) (by decide) (by decide)).symm, rfl, rfl⟩

end Laws.EncodeOpcode

end Sys2Proof
end

