-- ==== Sys2Proof/Tests/Slice0.lean ====
section
/-! SUPPORT. Tests of the model: ill-formed operations, the words of 30_encoding.md R120 and 95_test_vectors.md section 3.8, one step of
each instruction on a small state, and a witness for the hypotheses of each statement of Obligations.lean. Expected values come
from the spec's examples, or by hand from the rule a test names. -/

namespace Sys2Proof.Tests

open Sys2Proof Sys2Proof.Machine

/-! ### WellFormed refuses -/

theorem test_wf_sched_agent : (Instr.bhSched .bh).wellFormed 2 = false := by decide
theorem test_wf_submit_caller : (Instr.txSubmit 2 0 []).wellFormed 2 = false := by decide
theorem test_wf_submit_caller_tag : (Instr.txSubmit 0xF0 0 []).wellFormed 0x200 = false := by decide
theorem test_wf_submit_length : (Instr.txSubmit 0 2 [0xAA]).wellFormed 2 = false := by decide
theorem test_wf_read_agent : (Instr.regRd .dev 0x2818).wellFormed 2 = false := by decide
theorem test_wf_write_agent : (Instr.regWr .memsys 0x2818 7).wellFormed 2 = false := by decide
theorem test_wf_barrier_agent : (Instr.wmb .dev).wellFormed 2 = false := by decide
theorem test_wf_drain_agent : (Instr.memDrain .dev 0).wellFormed 2 = false := by decide
theorem test_wf_wire_length : (Instr.devWireIn 1 []).wellFormed 2 = false := by decide

/-! ### Decoding (95_test_vectors.md section 3.8, R120), N_TXC = 2, the bytes as stored -/

theorem test_decode_irqTop : decode 2 [0x00, 0x00, 0x01, 0x01] .none = some .irqTop := by decide
theorem test_decode_bhSched_host : decode 2 [0x00, 0x00, 0x00, 0x02] .none = some (.bhSched .host) := by decide
theorem test_decode_bhSched_irq : decode 2 [0x00, 0x00, 0x01, 0x02] .none = some (.bhSched .irq) := by decide
theorem test_decode_bhRun : decode 2 [0x00, 0x00, 0x02, 0x03] .none = some .bhRun := by decide
theorem test_decode_rxRun : decode 2 [0x00, 0x00, 0x02, 0x10] .none = some .rxRun := by decide
theorem test_decode_txSubmit :
    decode 2 [0x02, 0x00, 0x11, 0x20] (.bytes [0x10, 0x11]) = some (.txSubmit 1 2 [0x10, 0x11]) := by decide
theorem test_decode_regRd : decode 2 [0x18, 0x28, 0x00, 0x30] .none = some (.regRd .host 0x2818) := by decide
theorem test_decode_regWr : decode 2 [0x18, 0x28, 0x00, 0x31] (.word 7) = some (.regWr .host 0x2818 7) := by decide
theorem test_decode_wmb : decode 2 [0x00, 0x00, 0x00, 0x32] .none = some (.wmb .host) := by decide
theorem test_decode_memDrain : decode 2 [0x03, 0x00, 0x10, 0x33] .none = some (.memDrain (.txc 0) 3) := by decide
theorem test_decode_devRxClaim : decode 2 [0x00, 0x00, 0x03, 0x40] .none = some .devRxClaim := by decide
theorem test_decode_devRxWb : decode 2 [0x00, 0x00, 0x03, 0x41] (.wb ⟨1, 2, 3, 4⟩) = some (.devRxWb ⟨1, 2, 3, 4⟩) := by decide
theorem test_decode_devTxXmit : decode 2 [0x00, 0x00, 0x03, 0x42] .none = some .devTxXmit := by decide
theorem test_decode_devCause : decode 2 [0x00, 0x00, 0x03, 0x43] (.word 4) = some (.devCause 4) := by decide
theorem test_decode_devRstDone :
    decode 2 [0x00, 0x00, 0x03, 0x44] (.rst ⟨1, 2, 3, 4, 5⟩) = some (.devRstDone (some ⟨1, 2, 3, 4, 5⟩)) := by decide
theorem test_decode_devWireIn :
    decode 2 [0x03, 0x00, 0x03, 0x45] (.bytes [0x01, 0x02, 0x03]) = some (.devWireIn 3 [0x01, 0x02, 0x03]) := by decide
theorem test_decode_devRxDrop : decode 2 [0x00, 0x00, 0x03, 0x46] .none = some .devRxDrop := by decide
theorem test_decode_attach : decode 2 [0x00, 0x00, 0x00, 0x50] .none = some .attach := by decide
theorem test_decode_detach : decode 2 [0x00, 0x00, 0x00, 0x51] .none = some .detach := by decide

/-- The refused words of section 3.8 that carry no operand. -/
theorem test_decode_refused :
    ([0x00000000, 0x01000000, 0x01010001, 0x02020000, 0x2003003C, 0x30032818, 0x31002818, 0x32000001, 0x33030000,
      0x47030000, 0x51000001, 0x52000000, 0xFF000000] : List Word).all
      (fun w => (decode 2 (wordBytes w) .none).isNone) = true := by decide

/-- A caller that does not exist, a frame of the wrong length, a word of three bytes (R111, R113, R118). -/
theorem test_decode_refused_operands :
    decode 2 [0x01, 0x00, 0x12, 0x20] (.bytes [0xAA]) = none
      ∧ decode 2 [0x02, 0x00, 0x10, 0x20] (.bytes [0xAA]) = none
      ∧ decode 2 [0x00, 0x00, 0x50] .none = none := by decide

/-- The opcode map has no two rows of one OPC (R114). -/
theorem test_opcodeMap_unambiguous : opcodeMap.Pairwise (fun r q => r.opc ≠ q.opc) := by decide

/-- The host's interface: a table word decodes, and is the first instruction a step runs. -/
theorem test_tableWord : decodeTableWord 32 0x30002818 = some (.regRd .host 0x2818) := by decide

/-! ### Small states -/

/-- Small buffers, so that frames are short: RX_BUF_SIZE = TX_BUF_SIZE = 8, ACC_CAP = 10, TX_MAX_LEN = 6. -/
def cfg : Config := { Config.standard with rxBufSize := 8, txBufSize := 8, accCap := 10, mtuLen := 6 }

/-- The attached state of R312 for `cfg`, with descriptor 0 of each ring in memory. -/
def up : State := { State.reset with
  cfg := cfg
  life := .attached
  acquired := fullAcquired
  regs := { State.reset.regs with
    ctrl := 0x60, ims := 0xC1, rdbal := 0x100000, rdlen := 0x80, rdt := 7, tdbal := 0x300000, tdlen := 0x80 }
  regions :=
    { rxdesc := ⟨true, 0x1000, 0x100000⟩, rxbuf := ⟨true, 0x2000, 0x200000⟩,
      txdesc := ⟨true, 0x3000, 0x300000⟩, txbuf := ⟨true, 0x4000, 0x400000⟩ }
  mem := cellsFrom 0x100000 (rxdBytes 0x200000 0 0 0 0 0) ++ cellsFrom 0x300000 (txdBytes 0x400000 0 0 0 0x01 0 0)
  irq := { State.reset.irq with registered := true }
  bh := { State.reset.bh with tail := 7 }
  dev := { State.reset.dev with rxEnabled := true, txEnabled := true } }

/-- BH at a micro-step, with a frame of three bytes written back in slot 0 (P1 after row 36, with a shorter frame). -/
def bhAt (pc : BhPc) (tail : Nat) (st : Byte) (acc : Option (List Byte)) : State := { up with
  coord := ⟨false, pc != .idle⟩
  bh := { pc := pc, tail := tail, h := 1, n := 0, st := st, err := 0, len := 3, acc := acc, posted := [] }
  regs := { up.regs with rdh := 1 }
  mem := cellsFrom 0x100000 (rxdBytes 0x200000 3 0 st 0 0) ++ cellsFrom 0x200000 [0xA1, 0xA2, 0xA3] }

/-- A caller at a micro-step, its frame three bytes. -/
def caller (pc : TxPc) (w : List Posted) : TxAgent :=
  { pc := pc, frame := [0xB1, 0xB2, 0xB3], len := 3, t := 0, posted := w }

/-- TXC[0] at a micro-step, holding the lock where R217 says so. -/
def txAt (pc : TxPc) (w : List Posted) : State := { up with
  txLock := if pc.critical then some 0 else none
  txc := [caller pc w, TxAgent.reset] }

/-- HOST at a micro-step. -/
def hostAt (pc : HostPc) : State := { up with host := { up.host with pc := pc } }

/-- Draws: every request granted. -/
def grant : Draws := ⟨true, some (0, 0), .drain⟩

/-- What one reads of the next state, if there is one. -/
def look {α : Type} (r : Result) (f : State → α) : Option α :=
  match r with
  | .next t => some (f t)
  | .fault _ => none
  | .refused _ => none

/-- The one fault of a step and what it leaves stopped. -/
def faultOf (r : Result) : Option (List FaultCode × Option Event) := look r fun t => (t.faults, t.history.getLast?)

/-! ### One step of each instruction -/

/-- R230. -/
theorem test_irqTop : look (exec .irqTop up) (fun t => t.irq.pc) = some .read := by decide
/-- R231's example. -/
theorem test_irqRead :
    look (runMicro .irq grant { up with
        irq := { up.irq with pc := .read }
        regs := { up.regs with icr := 0x81 } }) (fun t => (t.irq.v, t.regs.icr)) = some (0x81, 0) := by
  decide
/-- R232's example. -/
theorem test_bhSched :
    look (exec (.bhSched .host) { up with coord := ⟨false, true⟩ }) (fun t => t.coord) = some ⟨true, true⟩ := by decide
/-- CO-6. -/
theorem test_bhSched_detached :
    faultOf (exec (.bhSched .host) State.reset)
      = some ([.notAttached], some (.fault .notAttached .host (.notAttached .bhSched .detached))) := by decide
/-- R233's example. -/
theorem test_bhRun :
    look (exec .bhRun { up with coord := ⟨true, false⟩ }) (fun t => (t.coord, t.bh.pc)) = some (⟨false, true⟩, .rxSnap) := by
  decide
/-- P1 row 40. -/
theorem test_rxRun_test :
    look (exec .rxRun (bhAt .rxTest 7 0x03 none)) (fun t => (t.bh.n, t.bh.pc)) = some (0, .rxAlloc) := by decide
/-- P1 row 44, RX_COPY. -/
theorem test_rxRun_copy :
    look (exec .rxRun (bhAt .rxCopy 0 0x03 (some [0xA0]))) (fun t => t.bh.acc) = some (some [0xA0, 0xA1, 0xA2, 0xA3]) := by
  decide
/-- R200: the issue step. -/
theorem test_txSubmit :
    look (exec (.txSubmit 1 2 [0xC1, 0xC2]) up) (fun t => t.txc.map fun c => (c.pc, c.frame))
      = some [(.idle, []), (.lenchk, [0xC1, 0xC2])] := by decide
/-- TX_COPY (R210), then nothing else has changed in memory. -/
theorem test_txCopy :
    look (runMicro (.txc 0) grant (txAt .copy [])) (fun t => (t.posted (.txc 0), decide (t.mem = up.mem)))
      = some ([⟨0x4000, [0xB1, 0xB2, 0xB3]⟩], true) := by decide
/-- RG-1. -/
theorem test_regRd :
    look (exec (.regRd .host 0x2818) up) (fun t => t.history) = some [.reg .host .read 0x2818 7] := by decide
/-- RG-8. -/
theorem test_regRd_misaligned :
    faultOf (exec (.regRd .host 0x2801) up) = some ([.regBad], some (.fault .regBad .host (.regBad 0x2801 .read))) := by decide
/-- RG-11, the second write. -/
theorem test_regWr : look (exec (.regWr .host 0xD8 0x41) up) (fun t => t.regs.ims) = some 0x80 := by decide
/-- RG-4. -/
theorem test_regWr_tail :
    faultOf (exec (.regWr .host 0x2818 3) up) = some ([.regValue], some (.fault .regValue .host (.regValue 0x2818 3))) := by decide
/-- RG-13. -/
theorem test_wmb : look (exec (.wmb .host) up) (fun t => (t.host.pc, t.idleTurns)) = some (.idle, 0) := by decide
/-- R262's example: after `mem.drain bh, 0`, RXD[0].status is 0 and W[BH] empty. -/
theorem test_memDrain :
    look (exec (.memDrain .bh 0) { bhAt .rxWmb 0 0x03 none with
        bh := { (bhAt .rxWmb 0 0x03 none).bh with posted := [⟨0x100C, [0x00]⟩] } })
      (fun t => (t.mem.get 0x10000C, t.bh.posted)) = some (some 0x00, []) := by decide
/-- The test state of section 3.7 for F_MEM_BAD. -/
theorem test_memDrain_released :
    faultOf (exec (.memDrain .bh 0) { State.reset with bh := { State.reset.bh with posted := [⟨0x100C, [0x00]⟩] } })
      = some ([.memBad], some (.fault .memBad .memsys (.memBad 0x100C))) := by decide
/-- DV-3's first claim, with RX_BUF_SIZE = 8 and nine bytes. -/
theorem test_devRxClaim :
    look (exec .devRxClaim { up with wireIn := [[1, 2, 3, 4, 5, 6, 7, 8, 9]] })
      (fun t => (t.dev.rxClaimed, t.dev.cur, t.regs.rdh)) = some ([⟨0, [1, 2, 3, 4, 5, 6, 7, 8], false⟩], some [9], 1) := by decide
/-- RX-12's write-back: bytes 8..13 of RXD[0], and RXBUF[0]. -/
theorem test_devRxWb :
    look (exec (.devRxWb ⟨0, 0xFF, 0x40, 0⟩) { up with dev := { up.dev with rxClaimed := [⟨0, [0xA1, 0xA2], true⟩] } })
      (fun t => ([8, 9, 10, 11, 12, 13].map fun i => t.mem.get (0x100000 + i), t.mem.get 0x200001, t.regs.icr))
      = some ([some 2, some 0, some 0, some 0, some 0xFF, some 0x40], some 0xA2, 0x80) := by decide
/-- A write-back after the release of its region (R281). -/
theorem test_devRxWb_released :
    faultOf (exec (.devRxWb WbDraws.zero) { State.reset with dev := { State.reset.dev with rxClaimed := [⟨0, [0xA1], true⟩] } })
      = some ([.dmaAfterFree], some (.fault .dmaAfterFree .dev (.dmaAfterFree 0))) := by decide
/-- TXD[0] programmed and published (TX-1's end), then DV-5. -/
def ready : State := { up with
  regs := { up.regs with tdt := 1 }
  mem := cellsFrom 0x300000 (txdBytes 0x400000 3 0 0x09 0x00 0 0) ++ cellsFrom 0x400000 [0xB1, 0xB2, 0xB3] }
theorem test_devTxXmit :
    look (exec .devTxXmit ready) (fun t => (t.wireOut, t.mem.get 0x30000C, t.regs.icr, t.regs.tdh))
      = some ([[0xB1, 0xB2, 0xB3]], some 0x01, 0x01, 1) := by decide
/-- CO-4. -/
theorem test_devCause : look (exec (.devCause 4) up) (fun t => (t.regs.icr, t.lineAsserted)) = some (4, false) := by decide
/-- R293: RST is clear after a reset, whatever was drawn. -/
theorem test_devRstDone :
    look (exec (.devRstDone (some ⟨0xFFFFFFFF, 1, 2, 3, 4⟩)) { up with dev := { up.dev with resetBusy := true } })
      (fun t => (t.regs.ctrl, t.regs.rdbah, t.regs.rdt, t.dev.resetBusy, t.dev.rxEnabled))
      = some (0xFBFFFFFF, 2, 0, false, false) := by decide
/-- R280. -/
theorem test_devWireIn : look (exec (.devWireIn 2 [5, 6]) up) (fun t => t.wireIn) = some [[5, 6]] := by decide
/-- RX-7. -/
theorem test_devRxDrop :
    look (exec .devRxDrop { up with
        wireIn := [[5, 6]]
        regs := { up.regs with rdh := 7 } }) (fun t => (t.wireIn, t.regs.icr)) = some ([], 0x40) := by decide
/-- R310. -/
theorem test_attach : look (exec .attach State.reset) (fun t => t.host.pc) = some .aCheck := by decide
/-- LC-5. -/
theorem test_attach_twice :
    faultOf (runMicro .host grant (hostAt .aCheck))
      = some ([.alreadyAttached], some (.fault .alreadyAttached .host (.alreadyAttached .attached))) := by decide
/-- LC-1. -/
theorem test_detach : look (exec .detach up) (fun t => t.host.pc) = some .dCheck := by decide
/-- D_QUIESCE (R294). -/
theorem test_quiesce :
    look (runMicro .host grant (hostAt .dQuiesce)) (fun t => (t.dev.rxEnabled, t.host.pc)) = some (false, .dImc) := by decide

/-! ### Witnesses: states and operands that meet the hypotheses of the statements, a clause at a time, at boundary values -/

/-- `up` with a schedule. -/
def upTurns (ts : List Turn) : State := { up with script := ts }

theorem witness_DecodeEncode :
    (Instr.txSubmit 239 2 [0xAA, 0xBB]).wellFormed 240 = true ∧ (Instr.regRd (.txc 0) 0xFFFF).wellFormed 1 = true
      ∧ (Instr.devRstDone none).wellFormed 1 = true := by decide

theorem witness_DecodedWordIsEncoded :
    decode 240 [0xFF, 0xFF, 0xFF, 0x33] .none = some (.memDrain (.txc 239) 0xFFFF) := by decide

/-- Each clause: its fields, at the ends of its range. -/
theorem witness_ReservedWordsRefused :
    ([(0x00010000, 0x00, 0x01, 0), (0x04000000, 0x04, 0, 0), (0x0F000000, 0x0F, 0, 0), (0x11000000, 0x11, 0, 0),
      (0x1F000000, 0x1F, 0, 0), (0x21000000, 0x21, 0, 0), (0x2F000000, 0x2F, 0, 0), (0x34000000, 0x34, 0, 0),
      (0x3F000000, 0x3F, 0, 0), (0x47030000, 0x47, 3, 0), (0x4F000000, 0x4F, 0, 0), (0x52000000, 0x52, 0, 0),
      (0xFF000000, 0xFF, 0, 0), (0x30050000, 0x30, 0x05, 0), (0x300F0000, 0x30, 0x0F, 0), (0x32120000, 0x32, 0x12, 0),
      (0x01000000, 0x01, 0x00, 0), (0x02020000, 0x02, 0x02, 0), (0x03000000, 0x03, 0x00, 0), (0x10010000, 0x10, 0x01, 0),
      (0x20020000, 0x20, 0x02, 0), (0x30030000, 0x30, 0x03, 0), (0x33040000, 0x33, 0x04, 0), (0x46020000, 0x46, 0x02, 0),
      (0x51010000, 0x51, 0x01, 0), (0x51000001, 0x51, 0, 1), (0x0101FFFF, 0x01, 0x01, 0xFFFF)] :
      List (Word × Nat × Nat × Nat)).all (fun p =>
        decide (p.2.1 = p.1.toNat / 2 ^ 24) && decide (p.2.2.1 = p.1.toNat / 2 ^ 16 % 2 ^ 8)
          && decide (p.2.2.2 = p.1.toNat % 2 ^ 16)) = true := by decide

theorem witness_StepRunsTurn :
    (upTurns [.word [0, 0, 0, 0x50] .none]).cfg.valid = true
      ∧ (upTurns [.word [0, 0, 0, 0x50] .none]).script = .word [0, 0, 0, 0x50] .none :: []
      ∧ decode cfg.nTxc [0, 0, 0, 0x50] .none = some .attach
      ∧ (upTurns [.word [0, 0, 0, 0] .none]).script = .word [0, 0, 0, 0] .none :: [] ∧ decode cfg.nTxc [0, 0, 0, 0] .none = none
      ∧ (upTurns [.micro .bh grant]).script = .micro .bh grant :: [] ∧ (upTurns []).script = [] := by decide

theorem witness_RefusedWord : decode up.cfg.nTxc [0, 0, 0, 0] .none = none := by decide

/-- DMA_ALIGN = 2 ^ 7; the other constraints are comparisons of numerals. -/
theorem config_meets : Config.meets cfg := by
  have pow : ∃ e, cfg.dmaAlign = 2 ^ e := ⟨7, rfl⟩
  simp only [Config.meets, pow, and_true]
  decide

/-- R111 has tags for 0xF0 callers, and no more. -/
theorem too_many_callers : ¬ Config.meets { cfg with nTxc := 0xF1 } := by simp [Config.meets]

/-- Both sides: parameters that meet R6, and a ring depth of 12 or 0xF1 callers, which no step runs with. -/
theorem witness_RefusedExactlyBadConfig :
    Config.meets up.cfg ∧ ¬ Config.meets { cfg with nRx := 12 }
      ∧ step { up with cfg := { cfg with nRx := 12 } } = .refused .badConfig
      ∧ ¬ Config.meets { cfg with nTxc := 0xF1 } ∧ step { up with cfg := { cfg with nTxc := 0xF1 } } = .refused .badConfig :=
  ⟨config_meets, fun h => absurd h.1 (by decide), rfl, too_many_callers, rfl⟩

/-- HOST asks for a run in the cold state. -/
def misused : State := State.reset.raiseFault .host (.notAttached .bhSched .detached)

theorem witness_FaultHasNoOtherEffect :
    State.reset.moves .host misused
      ∧ misused.history = State.reset.history ++ [.fault .notAttached .host (.notAttached .bhSched .detached)]
      ∧ misused.moves .host { misused with idleTurns := misused.idleTurns + 1 } :=
  ⟨.inl ⟨.bhSched .host, rfl, rfl⟩, rfl, .inl ⟨.attach, rfl, rfl⟩⟩

theorem witness_RecordOnlyGrows :
    step { State.reset with script := [.word [0, 0, 0, 2] .none] } = .next misused
      ∧ { State.reset with script := [.word [0, 0, 0, 2] .none] }.recordInv :=
  ⟨rfl, by simp [State.recordInv, State.reset]⟩

/-! The coordinator -/

/-- IRQ at a micro-step. -/
def irqAt (pc : IrqPc) (v icr : Word) : State := { up with
  irq := { up.irq with pc := pc, v := v }
  regs := { up.regs with icr := icr } }

theorem witness_IrqTopEntry :
    Agent.irq ∉ (irqAt .idle 0 0x80).stopped ∧ (irqAt .idle 0 0x80).irq.pc = .idle
      ∧ (irqAt .idle 0 0x80).irq.registered = true
      ∧ ((irqAt .idle 0 0x80).regs.icr &&& (irqAt .idle 0 0x80).regs.ims ≠ 0) ∧ (irqAt .idle 0 0).cfg.sharedLine = true
      -- no step: in a top half, no handler, the line deasserted and not shared
      ∧ (irqAt .read 0 0x80).irq.pc ≠ .idle ∧ Agent.irq ∉ State.reset.stopped ∧ State.reset.irq.registered = false
      ∧ (irqAt .idle 0 0).regs.icr &&& (irqAt .idle 0 0).regs.ims = 0
      ∧ ({ irqAt .idle 0 0 with cfg := { cfg with sharedLine := false } } : State).cfg.sharedLine = false := by decide

theorem witness_IrqReadTakesCauses :
    Agent.irq ∉ (irqAt .read 0 0x81).stopped ∧ (irqAt .read 0 0x81).irq.pc = .read
      ∧ Resource.map ∈ (irqAt .read 0 0x81).acquired
      ∧ Resource.map ∉ ({ irqAt .read 0 0x81 with acquired := [] } : State).acquired := by decide

theorem witness_IrqSchedReports :
    Agent.irq ∉ (irqAt .sched 1 0).stopped ∧ (irqAt .sched 1 0).irq.pc = .sched ∧ (irqAt .sched 1 0).irq.v ≠ 0
      ∧ (irqAt .sched 0 0).irq.pc = .sched ∧ (irqAt .sched 0 0).irq.v = 0 := by decide

theorem witness_BhSchedHost :
    Agent.host ∉ up.stopped ∧ up.host.pc = .idle ∧ up.life ≠ .detached
      ∧ Agent.host ∉ State.reset.stopped ∧ State.reset.host.pc = .idle ∧ State.reset.life = .detached := by decide

/-- `up` with a run asked for. -/
def asked : State := { up with coord := ⟨true, false⟩ }

theorem witness_BhRunStartAndEnd :
    Agent.bh ∉ asked.stopped ∧ asked.bh.pc = .idle ∧ asked.coord.pending = true ∧ asked.coord.running = false
      ∧ (bhAt .rxTest 7 3 none).coord.running = true ∧ (bhAt .rxTest 7 3 none).bh.pc ≠ .idle ∧ up.coord.pending = false
      ∧ Agent.bh ∉ (bhAt .rxExit 7 0 none).stopped ∧ (bhAt .rxExit 7 0 none).bh.pc = .rxExit := by decide

/-! The receive dispatcher -/

/-- BH at RX_SNAP with a head. -/
def snapAt (h : Word) : State := { bhAt .rxSnap 7 0 none with regs := { up.regs with rdh := h } }

theorem witness_RxSnap :
    Agent.bh ∉ (snapAt 7).stopped ∧ (snapAt 7).bh.pc = .rxSnap ∧ Resource.map ∈ (snapAt 7).acquired
      ∧ (snapAt 7).regs.rdh.toNat < (snapAt 7).cfg.nRx ∧ (snapAt 7).regs.rdh.toNat < 2 ^ 16
      ∧ (snapAt 8).cfg.nRx ≤ (snapAt 8).regs.rdh.toNat % 2 ^ 16 ∧ 2 ^ 16 ≤ (snapAt 0x10000).regs.rdh.toNat
      ∧ Resource.map ∉ ({ snapAt 7 with acquired := [] } : State).acquired := by decide

theorem witness_RxTest :
    Agent.bh ∉ (bhAt .rxTest 7 3 none).stopped ∧ (bhAt .rxTest 7 3 none).bh.pc = .rxTest
      ∧ 0 = ((bhAt .rxTest 7 3 none).bh.tail + 1) % cfg.nRx
      ∧ 0x100C = (bhAt .rxTest 7 3 none).regions.rxdesc.loc + 16 * 0 + 12
      -- at the snapshot head
      ∧ (1 = ((bhAt .rxTest 0 3 none).bh.tail + 1) % cfg.nRx ∧ 1 = (bhAt .rxTest 0 3 none).bh.h)
      -- before it
      ∧ 0 ≠ (bhAt .rxTest 7 3 none).bh.h ∧ (bhAt .rxTest 7 3 none).localRegion 0x100C 1 = some .rxdesc
      ∧ (bhAt .rxTest 7 3 none).view .bh .rxdesc 0x100C 1 = [some 3]
      -- outside every live region
      ∧ ({ bhAt .rxTest 7 3 none with regions := State.reset.regions } : State).localRegion 12 1 = none := by decide

theorem witness_RxAllocAndAdvance :
    Agent.bh ∉ (bhAt .rxAlloc 7 3 none).stopped ∧ (bhAt .rxAlloc 7 3 none).bh.pc = .rxAlloc
      ∧ (bhAt .rxAlloc 7 3 (some [])).bh.acc ≠ none ∧ (bhAt .rxAlloc 7 3 none).bh.acc = none
      ∧ grant.alloc ≠ none ∧ ({ grant with alloc := none } : Draws).alloc = none
      ∧ (bhAt .rxAdv 7 3 none).bh.pc = .rxAdv := by decide

/-- BH at RX_DESC of a descriptor of length 3, for a buffer size. -/
def descAt (size : Nat) : State := { bhAt .rxDesc 0 3 none with cfg := { cfg with rxBufSize := size } }

/-- RX_BUF_SIZE = 3: the length is the bound; 2: it is one above it. -/
theorem witness_RxDesc :
    Agent.bh ∉ (descAt 3).stopped ∧ (descAt 3).bh.pc = .rxDesc
      ∧ 0x1008 = (descAt 3).regions.rxdesc.loc + 16 * (descAt 3).bh.tail + 8
      ∧ (descAt 3).localRegion 0x1008 6 = some .rxdesc
      ∧ (descAt 3).view .bh .rxdesc 0x1008 6 = [some 3, some 0, some 0, some 0, some 3, some 0]
      ∧ (3 : Byte).toNat + 256 * (0 : Byte).toNat ≤ (descAt 3).cfg.rxBufSize
      ∧ (descAt 2).localRegion 0x1008 6 = some .rxdesc
      ∧ (descAt 2).view .bh .rxdesc 0x1008 6 = [some 3, some 0, some 0, some 0, some 3, some 0]
      ∧ (descAt 2).cfg.rxBufSize < (3 : Byte).toNat + 256 * (0 : Byte).toNat
      ∧ ({ descAt 3 with regions := State.reset.regions } : State).localRegion 8 6 = none := by decide

/-- ACC_CAP = 10: seven bytes and three fit, eight and three do not. -/
theorem witness_RxCopy :
    Agent.bh ∉ (bhAt .rxCopy 0 3 (some [])).stopped ∧ (bhAt .rxCopy 0 3 (some [])).bh.pc = .rxCopy
      ∧ (bhAt .rxCopy 0 3 (some [1, 2, 3, 4, 5, 6, 7])).bh.acc = some [1, 2, 3, 4, 5, 6, 7]
      ∧ 0x2000 = (bhAt .rxCopy 0 3 none).regions.rxbuf.loc + (bhAt .rxCopy 0 3 none).bh.tail * cfg.rxBufSize
      ∧ ([1, 2, 3, 4, 5, 6, 7] : List Byte).length + (bhAt .rxCopy 0 3 none).bh.len.toNat ≤ cfg.accCap
      ∧ (bhAt .rxCopy 0 3 none).bh.len ≠ 0 ∧ ({ (bhAt .rxCopy 0 3 none).bh with len := 0 } : BhAgent).len = 0
      ∧ (bhAt .rxCopy 0 3 none).localRegion 0x2000 3 = some .rxbuf
      ∧ (bhAt .rxCopy 0 3 none).view .bh .rxbuf 0x2000 3 = ([0xA1, 0xA2, 0xA3] : List Byte).map some
      ∧ ({ bhAt .rxCopy 0 3 none with regions := State.reset.regions } : State).localRegion 0 3 = none
      ∧ cfg.accCap < ([1, 2, 3, 4, 5, 6, 7, 8] : List Byte).length + (bhAt .rxCopy 0 3 none).bh.len.toNat := by decide

theorem witness_RxEop :
    Agent.bh ∉ (bhAt .rxEop 0 3 (some [7])).stopped ∧ (bhAt .rxEop 0 3 (some [7])).bh.pc = .rxEop
      ∧ (bhAt .rxEop 0 3 (some [7])).bh.st.getLsbD 1 = true ∧ (bhAt .rxEop 0 3 (some [7])).bh.acc = some [7]
      ∧ (bhAt .rxEop 0 1 (some [7])).bh.st.getLsbD 1 = false := by decide

/-- The last slot of the ring. -/
theorem witness_RxClear :
    Agent.bh ∉ (bhAt .rxClear 7 3 none).stopped ∧ (bhAt .rxClear 7 3 none).bh.pc = .rxClear
      ∧ 0x107C = (bhAt .rxClear 7 3 none).regions.rxdesc.loc + 16 * (bhAt .rxClear 7 3 none).bh.tail + 12
      ∧ (bhAt .rxClear 7 3 none).localRegion 0x107C 1 = some .rxdesc ∧ cfg.postedOrder ≠ .sc
      ∧ ({ bhAt .rxClear 7 3 none with cfg := { cfg with postedOrder := .sc } } : State).localRegion 0x107C 1
        = some .rxdesc
      ∧ ({ bhAt .rxClear 7 3 none with regions := State.reset.regions } : State).localRegion 0x7C 1 = none := by decide

theorem witness_RxBarrierAndPublish :
    Agent.bh ∉ (bhAt .rxWmb 7 3 none).stopped ∧ (bhAt .rxWmb 7 3 none).cfg.valid = true
      ∧ (bhAt .rxWmb 7 3 none).bh.pc = .rxWmb ∧ (bhAt .rxWmb 7 3 none).bh.posted = []
      ∧ ({ (bhAt .rxWmb 7 3 none).bh with posted := [⟨0x107C, [0]⟩] } : BhAgent).posted ≠ []
      ∧ (bhAt .rxPub 7 3 none).bh.pc = .rxPub ∧ Resource.map ∈ (bhAt .rxPub 7 3 none).acquired
      ∧ (bhAt .rxPub 7 3 none).bh.tail < cfg.nRx ∧ cfg.mmioDrains = false
      ∧ (bhAt .rxPub 7 3 none).bh.posted = []
      ∧ Resource.map ∉ ({ bhAt .rxPub 7 3 none with acquired := [] } : State).acquired
      ∧ ({ cfg with mmioDrains := true } : Config).mmioDrains = true := by decide

/-! The transmit dispatcher -/

theorem witness_TxSubmitIssue :
    Agent.txc 1 ∉ up.stopped ∧ up.txc[1]? = some TxAgent.reset ∧ TxAgent.reset.pc = .idle
      ∧ (txAt .lock []).txc[0]? = some (caller .lock []) ∧ (caller .lock []).pc ≠ .idle := by decide

/-- TXC[0] at TX_LENCHK with a length. -/
def lenAt (n : Half) : State := { up with txc := [{ caller .lenchk [] with len := n }, TxAgent.reset] }

/-- TX_MAX_LEN = 6: a length of 6 passes, 7 does not. -/
theorem witness_TxLengthCheck :
    Agent.txc 0 ∉ (lenAt 6).stopped ∧ (lenAt 6).txc[0]? = some { caller .lenchk [] with len := 6 }
      ∧ (lenAt 6).life = .attached ∧ (6 : Half).toNat ≤ min (lenAt 6).cfg.mtuLen (lenAt 6).cfg.txBufSize
      ∧ (lenAt 7).txc[0]? = some { caller .lenchk [] with len := 7 }
      ∧ min (lenAt 7).cfg.mtuLen (lenAt 7).cfg.txBufSize < (7 : Half).toNat
      ∧ ({ lenAt 6 with life := .detached } : State).life ≠ .attached := by decide

theorem witness_TxLock :
    Agent.txc 0 ∉ (txAt .lock []).stopped ∧ (txAt .lock []).txc[0]? = some (caller .lock [])
      ∧ (txAt .lock []).txLock = none ∧ ({ txAt .lock [] with txLock := some 1 } : State).txLock ≠ none := by decide

/-- TXC[0] at a micro-step, with a transmit tail and a transmit head. -/
def txRing (pc : TxPc) (t h : Word) : State := { txAt pc [] with regs := { up.regs with tdt := t, tdh := h } }

theorem witness_TxReadTail :
    Agent.txc 0 ∉ (txRing .readtail 7 0).stopped ∧ (txRing .readtail 7 0).txc[0]? = some (caller .readtail [])
      ∧ Resource.map ∈ (txRing .readtail 7 0).acquired ∧ (txRing .readtail 7 0).regs.tdt.toNat < cfg.nTx
      ∧ (txRing .readtail 7 0).regs.tdt.toNat < 2 ^ 16
      ∧ cfg.nTx ≤ (txRing .readtail 8 0).regs.tdt.toNat % 2 ^ 16
      ∧ 2 ^ 16 ≤ (txRing .readtail 0x10000 0).regs.tdt.toNat ∧ Resource.map ∉ State.reset.acquired := by decide

theorem witness_TxDoneTest :
    Agent.txc 0 ∉ (txAt .check []).stopped ∧ (txAt .check []).txc[0]? = some (caller .check []) ∧ (caller .check []).pc = .check
      ∧ 0x300C = (txAt .check []).regions.txdesc.loc + 16 * 0 + 12 ∧ (txAt .check []).localRegion 0x300C 1 = some .txdesc
      ∧ (txAt .check []).view (.txc 0) .txdesc 0x300C 1 = [some 0x01] ∧ (0x01 : Byte).getLsbD 0 = true
      ∧ ({ txAt .check [] with mem := (txAt .check []).mem.write 0x30000C [0xFE] } : State).view (.txc 0) .txdesc 0x300C 1
        = [some 0xFE] ∧ (0xFE : Byte).getLsbD 0 = false
      ∧ ({ txAt .check [] with regions := State.reset.regions } : State).localRegion 12 1 = none := by decide

theorem witness_TxHeadCheck :
    Agent.txc 0 ∉ (txRing .headchk 0 1).stopped ∧ (txRing .headchk 0 1).txc[0]? = some (caller .headchk []) ∧ (caller .headchk []).pc = .headchk
      ∧ Resource.map ∈ (txRing .headchk 0 1).acquired ∧ (txRing .headchk 0 7).regs.tdh.toNat < cfg.nTx
      ∧ (txRing .headchk 0 7).regs.tdh.toNat < 2 ^ 16 ∧ (0 + 1) % cfg.nTx = (txRing .headchk 0 1).regs.tdh.toNat
      ∧ (0 + 1) % cfg.nTx ≠ (txRing .headchk 0 7).regs.tdh.toNat
      ∧ cfg.nTx ≤ (txRing .headchk 0 8).regs.tdh.toNat % 2 ^ 16
      ∧ 2 ^ 16 ≤ (txRing .headchk 0 0x10000).regs.tdh.toNat ∧ Resource.map ∉ State.reset.acquired := by decide

theorem witness_TxProgramSlot :
    Agent.txc 0 ∉ (txAt .clrstat []).stopped
      ∧ (txAt .clrstat []).txc[0]? = some (caller .clrstat []) ∧ (caller .clrstat []).pc = .clrstat
      ∧ (caller .clrstat []).frame ≠ []
      ∧ (txAt .clrstat []).localRegion 0x300C 1 = some .txdesc
      ∧ (txAt .cmd []).txc[0]? = some (caller .cmd []) ∧ (txAt .cmd []).localRegion 0x300B 1 = some .txdesc
      ∧ (txAt .len []).txc[0]? = some (caller .len []) ∧ (txAt .len []).localRegion 0x3008 2 = some .txdesc
      ∧ (txAt .copy []).txc[0]? = some (caller .copy []) ∧ (txAt .copy []).localRegion 0x4000 3 = some .txbuf
      ∧ cfg.postedOrder ≠ .sc ∧ ({ cfg with postedOrder := .sc } : Config).postedOrder = .sc
      ∧ ({ TxAgent.reset with pc := .copy } : TxAgent).frame = []
      ∧ ({ txAt .clrstat [] with regions := State.reset.regions } : State).localRegion 0xC 1 = none := by decide

theorem witness_TxPublish :
    Agent.txc 0 ∉ (txAt .wmb []).stopped ∧ (txAt .wmb []).cfg.valid = true
      ∧ (txAt .wmb []).txc[0]? = some (caller .wmb []) ∧ (caller .wmb []).posted = []
      ∧ (txAt .wmb [⟨0x300C, [0]⟩]).txc[0]? = some (caller .wmb [⟨0x300C, [0]⟩])
      ∧ (caller .wmb [⟨0x300C, [0]⟩]).posted ≠ []
      ∧ (txAt .pub []).txc[0]? = some (caller .pub []) ∧ (caller .pub []).pc = .pub ∧ Resource.map ∈ (txAt .pub []).acquired
      ∧ cfg.mmioDrains = false ∧ (txAt .unlock []).txc[0]? = some (caller .unlock [])
      ∧ Resource.map ∉ ({ txAt .pub [] with acquired := [] } : State).acquired
      ∧ ({ cfg with mmioDrains := true } : Config).mmioDrains = true
      ∧ (caller .pub [⟨0x300C, [0]⟩]).posted ≠ [] := by decide

/-! The register interface -/

theorem witness_RegReadHost :
    Agent.host ∉ up.stopped ∧ up.host.pc = .idle ∧ Resource.map ∈ up.acquired := by decide

/-- A legal stored value, an illegal one, and one outside its ring. -/
theorem witness_RegWriteHost :
    Agent.host ∉ up.stopped ∧ up.host.pc = .idle ∧ Resource.map ∈ up.acquired ∧ up.cfg.mmioDrains = false
      ∧ up.host.posted = [] ∧ up.regs.rdbal.toNat % 16 = 0 ∧ up.regs.rdlen.toNat % 128 = 0 ∧ up.regs.rdlen ≠ 0
      ∧ up.regs.rdlen.toNat ≤ 0xFFF80 ∧ State.reset.regs.rdlen = 0 ∧ (3 : Word) ≠ up.regs.rdt
      ∧ up.regs.rdt.toNat < up.cfg.nRx ∧ up.regs.rdt.toNat < 2 ^ 16
      ∧ cfg.nRx ≤ (snapAt 8).regs.rdh.toNat % 2 ^ 16 := by decide

theorem witness_RegAccessFaults :
    Agent.host ∉ up.stopped ∧ up.host.pc = .idle ∧ up.cfg.mmioDrains = false ∧ Resource.map ∉ State.reset.acquired
      ∧ Resource.map ∈ up.acquired
      ∧ (0x281C : Half) ∉ ([0x0000, 0x00C0, 0x00D0, 0x00D8, 0x2800, 0x2804, 0x2808, 0x2810, 0x2818, 0x3800, 0x3804, 0x3808,
        0x3810, 0x3818] : List Half) := by decide

/-- HOST idle with a posted write, under MMIO_DRAINS. -/
def drains : State := { up with
  cfg := { cfg with mmioDrains := true }
  host := { up.host with posted := [⟨0x1000, [0]⟩] } }

theorem witness_WmbHost :
    Agent.host ∉ up.stopped ∧ up.host.pc = .idle ∧ up.host.posted = [] ∧ Agent.host ∉ drains.stopped
      ∧ drains.host.pc = .idle ∧ drains.host.posted ≠ [] ∧ drains.cfg.mmioDrains = true := by decide

/-- TXC[0] with two posted writes, the last bytes of TXDESC: the second entry just misses the first, or covers it too. -/
def twoPosted (bs : List Byte) : State := txAt .wmb [⟨0x307C, [0]⟩, ⟨0x307B, bs⟩]

/-- Under ANY the second entry may land only where it misses the first; under FIFO only the first may; under SC none. -/
theorem witness_MemDrain_order :
    landsNext .any ((twoPosted [9]).posted (.txc 0)) 1 ⟨0x307B, [9]⟩
      ∧ ¬ landsNext .any ((twoPosted [9, 9]).posted (.txc 0)) 1 ⟨0x307B, [9, 9]⟩
      ∧ landsNext .fifo ((twoPosted [9]).posted (.txc 0)) 0 ⟨0x307C, [0]⟩
      ∧ ¬ landsNext .fifo ((twoPosted [9]).posted (.txc 0)) 1 ⟨0x307B, [9]⟩
      ∧ ¬ landsNext .sc ((twoPosted [9]).posted (.txc 0)) 0 ⟨0x307C, [0]⟩ := by
  refine ⟨fun j hj p hp => ?_, fun h => ?_, rfl, nofun, nofun⟩
  · obtain rfl : j = 0 := by omega
    cases hp
    exact .inr (le_refl _)
  · exact absurd (h 0 (by decide) ⟨0x307C, [0]⟩ rfl) (by decide)

theorem witness_MemDrain :
    Agent.memsys ∉ (twoPosted [9]).stopped
      ∧ ((twoPosted [9]).posted (.txc 0))[(1 : Half).toNat]? = some ⟨0x307B, [9]⟩
      ∧ ((twoPosted [9, 9]).posted (.txc 0))[(1 : Half).toNat]? = some ⟨0x307B, [9, 9]⟩
      ∧ ((twoPosted [9]).posted (.txc 0))[(2 : Half).toNat]? = none ∧ (twoPosted [9]).cfg.postedOrder = .any
      ∧ (twoPosted [9]).localRegion 0x307B 1 = some .txdesc
      ∧ ({ twoPosted [9] with regions := State.reset.regions } : State).localRegion 0x307B 1 = none := by decide

theorem witness_RecordWordsTakeTheirStep :
    up.txc[1]? = some TxAgent.reset ∧ (irqAt .read 0 0).irq.pc = .read
      ∧ (irqAt .sched 1 0).irq.pc = .sched ∧ (irqAt .sched 1 0).irq.v ≠ 0 ∧ (irqAt .sched 0 0).irq.v = 0
      ∧ (snapAt 7).bh.pc = .rxSnap
      ∧ (bhAt .rxPub 7 3 none).bh.pc = .rxPub ∧ (bhAt .rxWmb 7 3 none).bh.pc = .rxWmb
      ∧ (txAt .readtail []).txc[0]? = some (caller .readtail [])
      ∧ (txAt .headchk []).txc[0]? = some (caller .headchk [])
      ∧ (txAt .pub []).txc[0]? = some (caller .pub []) ∧ (txAt .wmb []).txc[0]? = some (caller .wmb [])
      -- elsewhere, and at the micro-step with another register or value
      ∧ up.irq.pc ≠ .read ∧ up.irq.pc ≠ .sched ∧ up.bh.pc ≠ .rxSnap ∧ up.bh.pc ≠ .rxPub ∧ up.bh.pc ≠ .rxWmb
      ∧ TxAgent.reset.pc ≠ .readtail ∧ TxAgent.reset.pc ≠ .headchk ∧ TxAgent.reset.pc ≠ .pub ∧ TxAgent.reset.pc ≠ .wmb
      ∧ (0x2818 : Half) ≠ 0x00C0 ∧ (0x2818 : Half) ≠ 0x2810 ∧ (0x3810 : Half) ≠ 0x3818
      ∧ (6 : Word) ≠ BitVec.ofNat 32 (bhAt .rxPub 7 3 none).bh.tail := by decide

/-- At RX_PUB, a REG_WR word of BH with the value of the tail is the micro-step; one with another value is an idle turn (log entry 3). -/
theorem test_record_value :
    look (exec (.regWr .bh 0x2818 7) (bhAt .rxPub 7 3 none)) (fun t => (t.bh.pc, t.idleTurns)) = some (.rxTest, 0)
      ∧ look (exec (.regWr .bh 0x2818 6) (bhAt .rxPub 7 3 none)) (fun t => (t.bh.pc, t.idleTurns)) = some (.rxPub, 1) := by
  decide

/-! The device -/

/-- `up` with a device reset in progress. -/
def inReset : State := { up with dev := { up.dev with resetBusy := true } }

/-- `up` with a frame waiting and a receive head. -/
def waiting (h : Word) : State := { up with
  wireIn := [[1, 2, 3, 4, 5, 6, 7, 8]]
  regs := { up.regs with rdh := h } }

theorem witness_DevWireCauseDrop :
    Agent.dev ∉ up.stopped ∧ up.dev.resetBusy = false ∧ inReset.dev.resetBusy = true
      ∧ (waiting 7).dev.rxEnabled = true ∧ (waiting 7).dev.cur = none
      ∧ (waiting 7).wireIn = [1, 2, 3, 4, 5, 6, 7, 8] :: [] ∧ (waiting 7).regs.rdh = (waiting 7).regs.rdt
      ∧ (waiting 6).regs.rdh ≠ (waiting 6).regs.rdt ∧ State.reset.dev.rxEnabled = false ∧ up.wireIn = []
      ∧ ({ up with dev := { up.dev with cur := some [9] } } : State).dev.cur ≠ none := by decide

theorem witness_DevRxClaim :
    Agent.dev ∉ (waiting 6).stopped ∧ (waiting 6).dev.resetBusy = false ∧ (waiting 6).dev.rxEnabled = true
      ∧ ((waiting 6).dev.cur = none ∧ (waiting 6).wireIn = [1, 2, 3, 4, 5, 6, 7, 8] :: [])
      ∧ ({ up.dev with cur := some [9] } : Dev).cur = some [9] ∧ (waiting 6).regs.rdh ≠ (waiting 6).regs.rdt
      ∧ (waiting 6).regs.rdlen.toNat / 16 ≠ 0 ∧ State.reset.regs.rdlen.toNat / 16 = 0
      -- no step: no granted slot, a reset, the unit off, no frame
      ∧ (waiting 7).regs.rdh = (waiting 7).regs.rdt ∧ inReset.dev.resetBusy = true ∧ State.reset.dev.rxEnabled = false
      ∧ up.dev.cur = none ∧ up.wireIn = [] := by decide

/-- A length register of 0 stops nothing (log entry 16): the claim and the transmit go on, with a free value as the new head. -/
theorem test_zero_length_ring :
    look (exec .devRxClaim { waiting 6 with regs := { (waiting 6).regs with rdlen := 0 } }) (fun t => (t.dev.rxClaimed.length, t.drawCount))
      = some (1, 1)
      ∧ look (exec .devTxXmit { ready with regs := { ready.regs with tdlen := 0 } }) (fun t => (t.wireOut, t.drawCount))
        = some ([[0xB1, 0xB2, 0xB3]], 1) := by decide

/-- `up` with a claim of slot 0. -/
def claimed : State := { up with dev := { up.dev with rxClaimed := [⟨0, [0xA1, 0xA2], true⟩] } }

theorem witness_DevRxWriteBack :
    inReset.dev.resetBusy = true ∧ up.dev.rxClaimed = [] ∧
    Agent.dev ∉ claimed.stopped ∧ claimed.dev.resetBusy = false
      ∧ claimed.dev.rxClaimed = ⟨0, [0xA1, 0xA2], true⟩ :: []
      ∧ 0x100000 = claimed.regs.rdbah.toNat * 2 ^ 32 + claimed.regs.rdbal.toNat + 16 * 0
      ∧ ((List.range 8).map fun i => claimed.mem.get (0x100000 + i)) = ([0, 0, 0x20, 0, 0, 0, 0, 0] : List Byte).map some
      ∧ 0x200000 = ofLeBytes [0, 0, 0x20, 0, 0, 0, 0, 0]
      ∧ (∀ i < 16, claimed.dmaLive (0x100000 + i) = true) ∧ (∀ i < 2, claimed.dmaLive (0x200000 + i) = true)
      ∧ ([2, 0, 0, 0, 3, 0, 0, 0] : List Byte)
        = leBytes 2 2 ++ leBytes 2 0 ++ [0x01 ||| 0x02 ||| (0x00 &&& 0xFC), 0x00] ++ leBytes 2 0 := by decide

theorem witness_DevTxTransmit :
    Agent.dev ∉ ready.stopped ∧ ready.dev.resetBusy = false ∧ ready.dev.txEnabled = true
      ∧ ready.regs.tdh ≠ ready.regs.tdt ∧ ready.regs.tdlen.toNat / 16 ≠ 0 ∧ State.reset.regs.tdlen.toNat / 16 = 0
      ∧ 0x300000 = ready.regs.tdbah.toNat * 2 ^ 32 + ready.regs.tdbal.toNat + 16 * ready.regs.tdh.toNat
      ∧ ((List.range 16).map fun i => ready.mem.get (0x300000 + i))
        = ([0, 0, 0x40, 0, 0, 0, 0, 0, 3, 0, 0, 9, 0, 0, 0, 0] : List Byte).map some
      ∧ 0x400000 = ofLeBytes [0, 0, 0x40, 0, 0, 0, 0, 0] ∧ 3 = ofLeBytes [3, 0]
      ∧ ((List.range 3).map fun i => ready.mem.get (0x400000 + i)) = ([0xB1, 0xB2, 0xB3] : List Byte).map some
      ∧ (∀ i < 16, ready.dmaLive (0x300000 + i) = true) ∧ (∀ i < 3, ready.dmaLive (0x400000 + i) = true)
      ∧ (9 : Byte).getLsbD 3 = true ∧ (1 : Byte).getLsbD 3 = false
      -- no step: a reset, the unit off, nothing published
      ∧ inReset.dev.resetBusy = true ∧ State.reset.dev.txEnabled = false ∧ up.regs.tdh = up.regs.tdt := by decide

/-- A state whose two buffer regions have been released. -/
def buffersGone (s : State) : State := { s with
  regions := { s.regions with rxbuf := State.reset.regions.rxbuf, txbuf := State.reset.regions.txbuf } }

theorem witness_DevResetDone :
    Agent.dev ∉ inReset.stopped ∧ inReset.dev.resetBusy = true ∧ Agent.dev ∉ up.stopped ∧ up.dev.resetBusy = false := by
  decide

/-- Each descriptor, or each buffer, in a region that has been released. -/
theorem witness_DevAccessAfterFree :
    Agent.dev ∉ claimed.stopped ∧ claimed.dev.resetBusy = false ∧ claimed.dev.rxClaimed = ⟨0, [0xA1, 0xA2], true⟩ :: []
      ∧ ({ claimed with regions := State.reset.regions } : State).dmaLive 0x100000 = false
      ∧ 0x100000 = claimed.regs.rdbah.toNat * 2 ^ 32 + claimed.regs.rdbal.toNat + 16 * 0
      ∧ ({ ready with regions := State.reset.regions } : State).dmaLive 0x300000 = false
      ∧ ready.dev.txEnabled = true ∧ ready.regs.tdh ≠ ready.regs.tdt
      ∧ 0x300000 = ready.regs.tdbah.toNat * 2 ^ 32 + ready.regs.tdbal.toNat + 16 * ready.regs.tdh.toNat
      -- the buffers: two bytes of RXBUF[0], three of TXBUF[0]
      ∧ (∀ i < 16, (buffersGone claimed).dmaLive (0x100000 + i) = true) ∧ (buffersGone claimed).dmaLive 0x200000 = false
      ∧ ((List.range 8).map fun i => (buffersGone claimed).mem.get (0x100000 + i))
        = ([0, 0, 0x20, 0, 0, 0, 0, 0] : List Byte).map some
      ∧ 0x200000 = ofLeBytes [0, 0, 0x20, 0, 0, 0, 0, 0]
      ∧ (∀ i < 16, (buffersGone ready).dmaLive (0x300000 + i) = true) ∧ (buffersGone ready).dmaLive 0x400000 = false
      ∧ ((List.range 16).map fun i => (buffersGone ready).mem.get (0x300000 + i))
        = ([0, 0, 0x40, 0, 0, 0, 0, 0, 3, 0, 0, 9, 0, 0, 0, 0] : List Byte).map some
      ∧ 0x400000 = ofLeBytes [0, 0, 0x40, 0, 0, 0, 0, 0] ∧ 3 = ofLeBytes [3, 0] := by decide

/-- The state after the claim of slot 6. -/
def claimedSix : State := { waiting 6 with
  wireIn := []
  dev := { up.dev with rxClaimed := [⟨6, [1, 2, 3, 4, 5, 6, 7, 8], true⟩] }
  regs := { up.regs with rdh := 7 } }

/-- A claim moves RDH, a transmit moves TDH, and a turn of IRQ moves neither. -/
theorem witness_HeadsMovedOnlyByDevice :
    exec .devRxClaim (waiting 6) = .next claimedSix ∧ claimedSix.regs.rdh ≠ (waiting 6).regs.rdh
      ∧ (∃ t, exec .devTxXmit ready = .next t ∧ t.regs.tdh ≠ ready.regs.tdh) ∧ runMicro .irq grant up = .next up.passTurn :=
  ⟨rfl, by decide, ⟨_, rfl, by decide⟩, rfl⟩

theorem witness_RingPartition : (0 < 8 ∧ 7 < 8 ∧ 0 < 8) ∧ (0 < 1 ∧ 0 < 1 ∧ 0 < 1) := by decide

/-! The lifecycle -/

theorem witness_AttachIssueAndCheck :
    Agent.host ∉ State.reset.stopped ∧ State.reset.host.pc = .idle
      ∧ ({ State.reset with host := { State.reset.host with pc := .aCheck } } : State).host.pc = .aCheck
      ∧ State.reset.life = .detached ∧ (hostAt .aCheck).host.pc = .aCheck ∧ (hostAt .aCheck).life ≠ .detached := by decide

theorem witness_DetachIssueAndCheck :
    Agent.host ∉ State.reset.stopped ∧ State.reset.host.pc = .idle ∧ State.reset.life = .detached
      ∧ Agent.host ∉ up.stopped ∧ up.host.pc = .idle ∧ up.life ≠ .detached := by decide

/-- HOST at A_POLL with a number of polls made, RST set; RESET_POLL_MAX = 4. -/
def polling (n : Nat) : State := { inReset with host := { up.host with pc := .aPoll, polls := n } }

theorem witness_ResetPollBounded :
    Agent.host ∉ (polling 3).stopped ∧ (polling 3).host.pc = .aPoll ∧ Resource.map ∈ (polling 3).acquired
      ∧ (polling 3).dev.resetBusy = true ∧ (polling 3).host.polls + 1 = (polling 3).cfg.resetPollMax
      ∧ (polling 2).host.polls + 1 ≠ (polling 2).cfg.resetPollMax ∧ (hostAt .aPoll).dev.resetBusy = false := by decide

/-- HOST at A_UNWIND with only MAP taken (LC-3). -/
def unwinding : State := { State.reset with
  life := .attaching
  acquired := [.map]
  host := { State.reset.host with pc := .aUnwind, result := .failResetTimeout } }

theorem unwinding_resourceInv : unwinding.resourceInv :=
  ⟨rfl, ⟨1, by decide, by decide, rfl⟩, fun k => by cases k <;> decide, by decide⟩

theorem witness_UnwindReleasesAll :
    Agent.host ∉ unwinding.stopped ∧ unwinding.resourceInv ∧ unwinding.host.pc = .aUnwind
      ∧ [grant, grant].length = unwinding.acquired.length + 1 :=
  ⟨by decide, unwinding_resourceInv, rfl, rfl⟩

/-- ATTACH at A_POLL under POSTED_ORDER = SC, its reset done. -/
def resetDone : State := { State.reset with
  cfg := { cfg with postedOrder := .sc }
  life := .attaching
  acquired := [.map]
  host := { State.reset.host with pc := .aPoll } }

/-- The allocator's answers. -/
def bases : RegionKind → Nat × Nat
  | .rxdesc => (0x1000, 0x100000)
  | .rxbuf => (0x2000, 0x200000)
  | .txdesc => (0x3000, 0x300000)
  | .txbuf => (0x4000, 0xFFFFFFFFFFFFFF80)

/-- The draws of the twenty-three micro-steps. -/
def attachDraws : List Draws :=
  List.replicate 3 grant
    ++ ([.rxdesc, .rxbuf, .txdesc, .txbuf] : List RegionKind).map (fun k => { grant with alloc := some (bases k) })
    ++ List.replicate 16 grant

theorem witness_AttachReachesAttachedState :
    Agent.host ∉ resetDone.stopped ∧ resetDone.cfg.valid = true ∧ resetDone.cfg.postedOrder = .sc
      ∧ resetDone.host.pc = .aPoll ∧ resetDone.life = .attaching ∧ resetDone.acquired = [.map]
      ∧ (∀ k, (resetDone.regions.get k).live = false) ∧ resetDone.irq.registered = false
      ∧ resetDone.irq.pc = .idle ∧ resetDone.bh.pc = .idle ∧ (∀ c ∈ resetDone.txc, c.pc = .idle ∧ c.posted = [])
      ∧ resetDone.host.posted = [] ∧ resetDone.irq.posted = [] ∧ resetDone.bh.posted = []
      ∧ resetDone.dev = { rxEnabled := false, txEnabled := false, cur := none, rxClaimed := [], resetBusy := false }
      ∧ resetDone.regs.ctrl.getLsbD 26 = false ∧ resetDone.regs.ims = 0 ∧ resetDone.regs.rdh = 0 ∧ resetDone.regs.tdh = 0
      ∧ (∀ k, (bases k).2 % resetDone.cfg.dmaAlign = 0 ∧ (bases k).2 + regionSize resetDone.cfg k ≤ 2 ^ 64)
      ∧ (∀ k j, k ≠ j →
          disjointRanges (bases k).1 (regionSize resetDone.cfg k) (bases j).1 (regionSize resetDone.cfg j) = true
            ∧ disjointRanges (bases k).2 (regionSize resetDone.cfg k) (bases j).2 (regionSize resetDone.cfg j) = true)
      ∧ attachDraws.length = 23 ∧ (∀ d ∈ attachDraws, d.granted = true)
      ∧ (attachDraws.map Draws.alloc)[3]? = some (some (bases .rxdesc))
      ∧ (attachDraws.map Draws.alloc)[4]? = some (some (bases .rxbuf))
      ∧ (attachDraws.map Draws.alloc)[5]? = some (some (bases .txdesc))
      ∧ (attachDraws.map Draws.alloc)[6]? = some (some (bases .txbuf)) :=
  ⟨by decide, by decide, rfl, rfl, rfl, rfl, fun k => by cases k <;> rfl, rfl, rfl, rfl, by decide, rfl, rfl, rfl, rfl, by decide,
    rfl, rfl, rfl, fun k => by cases k <;> decide, fun k j => by cases k <;> cases j <;> decide, rfl, by decide, rfl, rfl, rfl,
    rfl⟩

/-! Invariants: `up`, at any schedule, meets all of them -/

theorem up_lifeInv : up.lifeInv := Or.inr rfl

theorem up_coordInv : up.coordInv := ⟨up_lifeInv, by decide, by unfold State.beforeIrq; decide, by decide⟩

theorem up_txInv : up.txInv :=
  ⟨up_lifeInv,
    fun k c hk hc => (by
      rcases k with _ | _ | k
      · cases hk; cases hc
      · cases hk; cases hc
      · cases hk),
    fun h => ((by unfold State.noTransmit; decide : ¬ up.noTransmit) h).elim⟩

theorem up_memInv : up.memInv :=
  ⟨⟨up_lifeInv, rfl, fun k => by cases k <;> decide, by decide⟩, by decide, by decide⟩

theorem up_regionInv : up.regionInv :=
  ⟨fun k => by cases k <;> decide, fun k j => by cases k <;> cases j <;> decide⟩

theorem up_indexInv : up.indexInv := by unfold State.indexInv State.ringLenInv HostPc.resetOver; decide

theorem up_lengthInv : up.lengthInv :=
  ⟨nofun, by decide, by decide, by decide, by decide⟩

theorem up_postedInv : up.postedInv :=
  ⟨by decide, by decide, by decide, by decide, nofun⟩

theorem up_devInv : up.devInv := ⟨up_lifeInv, fun h => ((by unfold State.dmaOff; decide : ¬ up.dmaOff) h).elim⟩

theorem up_engineInv : up.engineInv :=
  ⟨up_coordInv, up_txInv, up_memInv, up_regionInv, up_indexInv, up_lengthInv, up_postedInv, fun x e he => by
    cases x with
    | txc k =>
      rcases k with _ | _ | k <;> cases he
    | _ => cases he⟩

/-- One step of `up`: HOST's DETACH word, and HOST's misaligned read. -/
def detaching : State := upTurns [.word [0, 0, 0, 0x51] .none]
def detaching' : State := { hostAt .dCheck with history := [.detach] }
def misreading : State := upTurns [.word [0x01, 0x28, 0x00, 0x30] .none]
def misread : State := up.raiseFault .host (.regBad 0x2801 .read)

theorem detaching_step : step detaching = .next detaching' := rfl
theorem misreading_step : step misreading = .next misread := rfl

theorem witness_SingleRunnerKept : detaching.coordInv ∧ step detaching = .next detaching' := ⟨up_coordInv, detaching_step⟩
theorem witness_CoordinatorTransitions : detaching.coordInv ∧ step detaching = .next detaching' := ⟨up_coordInv, detaching_step⟩
theorem witness_TxExclusionKept : detaching.txInv ∧ step detaching = .next detaching' := ⟨up_txInv, detaching_step⟩
theorem witness_ResourcesAndMemoryKept : detaching.memInv ∧ step detaching = .next detaching' := ⟨up_memInv, detaching_step⟩
theorem witness_BoundsKept :
    detaching.indexInv ∧ detaching.lengthInv ∧ step detaching = .next detaching' := ⟨up_indexInv, up_lengthInv, detaching_step⟩
theorem witness_PostedWritesDrainedKept : detaching.postedInv ∧ step detaching = .next detaching' :=
  ⟨up_postedInv, detaching_step⟩
theorem witness_DmaOffKept : detaching.devInv ∧ step detaching = .next detaching' := ⟨up_devInv, detaching_step⟩

/-- A frame arrives in the cold state: DEV takes a step while its DMA is off. -/
theorem witness_DmaOffKept_device :
    State.reset.devInv ∧ State.reset.dmaOff
      ∧ State.reset.moves .dev { State.reset with wireIn := [[7]], history := [.wireIn [7]] } :=
  ⟨⟨Or.inl rfl, fun _ => ⟨rfl, rfl, rfl, rfl⟩⟩, Or.inl rfl, Or.inl ⟨.devWireIn 1 [7], rfl, rfl⟩⟩

theorem witness_EngineInvKept : detaching.engineInv ∧ step detaching = .next detaching' := ⟨up_engineInv, detaching_step⟩
theorem witness_EngineFaultsUnreachable :
    misreading.engineInv ∧ step misreading = .next misread
      ∧ misread.history = misreading.history ++ [.fault .regBad .host (.regBad 0x2801 .read)] :=
  ⟨up_engineInv, misreading_step, rfl⟩

/-- TXC[0] holds the lock at TX_COPY, and TXC[1] waits for it (R217). -/
theorem txAt_txInv : (txAt .copy []).txInv :=
  ⟨up_lifeInv,
    fun k c hk hc => (by
      rcases k with _ | _ | k
      · rfl
      · cases hk; cases hc
      · cases hk),
    fun h => ((by unfold State.noTransmit; decide : ¬ (txAt .copy []).noTransmit) h).elim⟩

theorem witness_TxExclusionKept_critical :
    (txAt .copy []).txInv ∧ (txAt .copy []).txc[0]? = some (caller .copy []) ∧ (caller .copy []).pc.critical = true := ⟨txAt_txInv, by decide⟩

/-- HOST at D_CHECK of an idle attached block. -/
theorem detach_memInv : (hostAt .dCheck).memInv :=
  ⟨⟨Or.inr rfl, rfl, fun k => by cases k <;> decide, by decide⟩, by decide, by decide⟩

theorem witness_DetachReachesColdState :
    Agent.host ∉ (hostAt .dCheck).stopped ∧ (hostAt .dCheck).memInv ∧ (hostAt .dCheck).life = .attached
      ∧ (hostAt .dCheck).host.pc = .dCheck
      ∧ { hostAt .dCheck with host := { (hostAt .dCheck).host with pc := .idle } }.agentsIdle
      ∧ (hostAt .dCheck).coord = ⟨false, false⟩ ∧ (hostAt .dCheck).txLock = none
      ∧ (hostAt .dCheck).dev.resetBusy = false ∧ (List.replicate 14 grant).length = 14 :=
  ⟨by decide, detach_memInv, rfl, rfl, by unfold State.agentsIdle; decide, rfl, rfl, rfl, rfl⟩

end Sys2Proof.Tests
end

section
/-! The statements of 00_scope.md: the parameters of R6, and what a step is. -/

namespace Sys2Proof.Machine

/-! ### The check of the parameters (R6, R111, R131) -/

theorem depthOk_iff (n : Nat) : depthOk n = true ↔ n % 8 = 0 ∧ 8 ≤ n ∧ n * 16 ≤ 0xFFF80 := by
  simp only [depthOk, Bool.and_eq_true, beq_iff_eq, decide_eq_true_eq, and_assoc]
  simp only [descSize]

/-- `Nat.log2` finds the exponent, so that the check may compute where R6 asks for some exponent. -/
theorem eq_two_pow_log2_iff (n : Nat) : n = 2 ^ Nat.log2 n ↔ ∃ e, n = 2 ^ e := by
  constructor
  · exact fun h => ⟨_, h⟩
  · rintro ⟨e, rfl⟩
    rw [Nat.log2_two_pow]

/-- The computed check is the constraint column of R6 with R111's bound. -/
theorem Config.valid_iff_meets (c : Config) : c.valid = true ↔ Config.meets c := by
  simp only [Config.valid, Bool.and_eq_true, depthOk_iff, decide_eq_true_eq, beq_iff_eq,
    eq_two_pow_log2_iff, Config.meets, and_assoc]

/-! ### One turn (R115, R119) -/

theorem runTurn_word_of_decode {s : State} {cmd : List Byte} {oob : Oob} {i : Instr}
    (hd : decode s.cfg.nTxc cmd oob = some i) : runTurn (.word cmd oob) s = exec i s := by
  simp only [runTurn, State.decodeTurn, hd]

theorem runTurn_word_of_not_decode {s : State} {cmd : List Byte} {oob : Oob}
    (hd : decode s.cfg.nTxc cmd oob = none) : runTurn (.word cmd oob) s = .next s.refuseWord := by
  simp only [runTurn, State.decodeTurn, hd]

theorem runTurn_micro (x : Agent) (d : Draws) (s : State) : runTurn (.micro x d) s = runMicro x d s := rfl

/-! ### Only the check refuses -/

/-- Every operation is one micro-step taken by the agent of its word; where that agent has none, the micro-step holds. -/
theorem exec_eq_take (i : Instr) (s : State) : ∃ m, exec i s = take (Instr.actor i) s m := by
  cases i with
  | bhSched x =>
    cases x with
    | host => exact ⟨_, rfl⟩
    | irq => exact ⟨_, rfl⟩
    | bh => exact ⟨.hold, (take_hold _ s).symm⟩
    | dev => exact ⟨.hold, (take_hold _ s).symm⟩
    | memsys => exact ⟨.hold, (take_hold _ s).symm⟩
    | txc k => exact ⟨.hold, (take_hold _ s).symm⟩
  | regRd x off =>
    rcases eq_or_ne x .host with rfl | hx
    · exact ⟨_, rfl⟩
    · exact ⟨_, execRegRd_record off s hx⟩
  | regWr x off v =>
    rcases eq_or_ne x .host with rfl | hx
    · exact ⟨_, rfl⟩
    · exact ⟨_, execRegWr_record off v s hx⟩
  | wmb x =>
    rcases eq_or_ne x .host with rfl | hx
    · exact ⟨_, rfl⟩
    · exact ⟨_, execWmb_record s hx⟩
  | devWireIn len frame => exact ⟨.done _, rfl⟩
  | _ => exact ⟨_, rfl⟩

/-- A turn given to an agent is one micro-step taken by it; DEV and MEMSYS, which have no pc, hold. -/
theorem runMicro_eq_take (x : Agent) (d : Draws) (s : State) : ∃ m, runMicro x d s = take x s m := by
  cases x with
  | dev => exact ⟨.hold, (take_hold _ s).symm⟩
  | memsys => exact ⟨.hold, (take_hold _ s).symm⟩
  | _ => exact ⟨_, rfl⟩

theorem take_ne_refused (x : Agent) (s : State) (m : Micro) (r : Refusal) : take x s m ≠ .refused r := by
  by_cases hx : x ∈ s.stopped
  · simp [take_stopped m hx]
  · cases m with
    | done t => simp [take_done t hx]
    | hold => simp [take_hold]
    | raise f => simp [take_raise f hx]
    | stuck f => simp [take_stuck f hx]

/-- A word that decodes is a micro-step taken, and so is an agent's turn; a word that does not decode gives a next state (R119). -/
theorem runTurn_ne_refused (t : Turn) (s : State) (r : Refusal) : runTurn t s ≠ .refused r := by
  cases t with
  | word cmd oob =>
    cases hd : decode s.cfg.nTxc cmd oob with
    | none => simp [runTurn_word_of_not_decode hd]
    | some i =>
      obtain ⟨m, hm⟩ := exec_eq_take i s
      rw [runTurn_word_of_decode hd, hm]
      exact take_ne_refused _ s m r
  | micro x d =>
    obtain ⟨m, hm⟩ := runMicro_eq_take x d s
    rw [runTurn_micro, hm]
    exact take_ne_refused x s m r

/-! ### What a step is -/

theorem State.configured_of_valid {s : State} (hv : s.cfg.valid = true) (o : Host.Outcome State Fault Refusal) :
    s.configured o = o := by
  simp [State.configured, hv]

/-- With an outcome that is no refusal of its own, the check is what refuses. -/
theorem State.configured_refused_iff {s : State} {o : Host.Outcome State Fault Refusal} (ho : ∀ r, o ≠ .refused r) :
    (∃ r, s.configured o = .refused r) ↔ ¬ s.cfg.valid = true := by
  by_cases hv : s.cfg.valid = true
  · simp [State.configured_of_valid hv, hv, ho]
  · simp [State.configured, hv]

theorem step_of_nil {s : State} (hs : s.script = []) : step s = s.configured (.next s) := by
  simp only [step, hs]

theorem step_of_cons {s : State} {t : Turn} {rest : List Turn} (hs : s.script = t :: rest) :
    step s = s.configured (runTurn t { s with script := rest }) := by
  simp only [step, hs]

theorem step_refused_iff (s : State) : (∃ r, step s = .refused r) ↔ ¬ s.cfg.valid = true := by
  cases hs : s.script with
  | nil =>
    rw [step_of_nil hs]
    exact State.configured_refused_iff fun r h => by cases h
  | cons t rest =>
    rw [step_of_cons hs]
    exact State.configured_refused_iff (runTurn_ne_refused t _)

end Sys2Proof.Machine

namespace Sys2Proof.Proofs
open Sys2Proof Sys2Proof.Machine

/-- Settles O7: no turn answers a refusal, so that a step's refusal is that of the parameter check, which computes R6's column. -/
theorem refusedExactlyBadConfig : Obligations.RefusedExactlyBadConfig := fun s => by
  rw [step_refused_iff, Config.valid_iff_meets]

/-- Settles O5, one clause for each form of the schedule. -/
theorem stepRunsTurn : Obligations.StepRunsTurn := by
  intro s hv
  refine ⟨?word, ?refusedWord, ?micro, ?idle⟩
  case word =>
    intro cmd oob rest i hs hd
    rw [step_of_cons hs, State.configured_of_valid hv]
    exact runTurn_word_of_decode hd
  case refusedWord =>
    intro cmd oob rest hs hd
    rw [step_of_cons hs, State.configured_of_valid hv]
    exact runTurn_word_of_not_decode hd
  case micro =>
    intro x d rest hs
    rw [step_of_cons hs, State.configured_of_valid hv, runTurn_micro]
  case idle =>
    intro hs
    rw [step_of_nil hs, State.configured_of_valid hv]

end Sys2Proof.Proofs
end

section
/-! The statements of 10_state.md: what every step keeps of the record, the resources, coherent memory, the posted writes, the device units and
the heads. -/

namespace Sys2Proof.Machine

variable {s t u : State}

/-! ### The record of the run -/

/-- A history grown by events, none of them a Fault event. -/
def Appends (before after : List Event) : Prop :=
  ∃ new, after = before ++ new ∧ ∀ c x f, Event.fault c x f ∉ new

theorem Appends.refl (es : List Event) : Appends es es := ⟨[], by simp, by simp⟩

theorem Appends.trans {as bs cs : List Event} (h₁ : Appends as bs) (h₂ : Appends bs cs) : Appends as cs := by
  obtain ⟨new₁, rfl, hno₁⟩ := h₁
  obtain ⟨new₂, rfl, hno₂⟩ := h₂
  exact ⟨new₁ ++ new₂, List.append_assoc .., fun c x f hm => (List.mem_append.1 hm).elim (hno₁ c x f) (hno₂ c x f)⟩

theorem Appends.event (es : List Event) {e : Event} (he : ∀ c x f, e ≠ .fault c x f) : Appends es (es ++ [e]) :=
  ⟨[e], rfl, fun c x f hm => he c x f (List.mem_singleton.1 hm).symm⟩

theorem Appends.fault_mem_iff {es fs : List Event} (h : Appends es fs) (c : FaultCode) (x : Agent) (f : BlockFault) :
    Event.fault c x f ∈ fs ↔ Event.fault c x f ∈ es := by
  obtain ⟨new, rfl, hno⟩ := h
  simp [hno c x f]

/-- A micro-step that completes raises no fault: it appends other events, and leaves the fault record, `refused` and the parameters alone. -/
structure Records (s t : State) : Prop where
  cfg : t.cfg = s.cfg
  faults : t.faults = s.faults
  refused : t.refused = s.refused
  stopped : t.stopped = s.stopped
  history : Appends s.history t.history

theorem Records.refl (s : State) : Records s s := ⟨rfl, rfl, rfl, rfl, .refl _⟩

theorem Records.trans (h₁ : Records s t) (h₂ : Records t u) : Records s u :=
  ⟨h₂.cfg.trans h₁.cfg, h₂.faults.trans h₁.faults, h₂.refused.trans h₁.refused, h₂.stopped.trans h₁.stopped,
    h₁.history.trans h₂.history⟩

theorem memWrite_records {x : Agent} {a : Nat} {bs : List Byte} (h : memWrite x a bs s = .ok t) : Records s t := by
  obtain ⟨k, -, ⟨-, rfl⟩ | ⟨-, rfl⟩⟩ := memWrite_ok h
  · exact ⟨rfl, rfl, rfl, rfl, (Appends.event _ (by simp)).trans (.event _ (by simp))⟩
  · exact ⟨by simp, by simp, by simp, by simp, by simpa using Appends.event s.history (by simp)⟩

theorem land_records {x : Agent} {pos : Nat} (h : land x pos s = .done t) : Records s t := by
  obtain ⟨e, k, -, -, -, rfl⟩ := land_done h
  exact ⟨by simp, by simp, by simp, by simp, by simpa using Appends.event s.history (by simp)⟩

theorem devRead_records (a n : Nat) (s : State) : Records s (devRead a n s).2 :=
  ⟨rfl, rfl, rfl, rfl, .event _ (by simp)⟩

theorem devWrite_records (a : Nat) (bs : List Byte) (s : State) : Records s (devWrite a bs s) :=
  ⟨rfl, rfl, rfl, rfl, .event _ (by simp)⟩

/-! ### Posted writes -/

@[simp] theorem State.setPosted_posted_of_ne {x y : Agent} (w : List Posted) (h : y ≠ x) :
    (s.setPosted x w).posted y = s.posted y := by
  cases x with
  | txc k =>
    cases y with
    | txc j =>
      have hjk : k ≠ j := fun e => h (e ▸ rfl)
      simp [State.setPosted, State.modTx, State.posted, List.getElem?_modify_ne _ _ hjk]
    | _ => rfl
  | _ => cases y <;> first | rfl | exact absurd rfl h

/-- An update of a caller that keeps its posted writes keeps everyone's. -/
theorem State.modTx_posted {k : Nat} {f : TxAgent → TxAgent} (hf : ∀ c, (f c).posted = c.posted) (x : Agent) :
    (s.modTx k f).posted x = s.posted x := by
  cases x with
  | txc j =>
    by_cases hkj : k = j
    · subst hkj
      cases hc : s.txc[k]? <;> simp [State.modTx, State.posted, hc, hf]
    · simp [State.modTx, State.posted, List.getElem?_modify_ne _ _ hkj]
  | _ => rfl

/-! ### Micro-steps that write no memory -/

/-- A micro-step that neither writes coherent memory nor posts a write. -/
structure Quiet (s t : State) : Prop where
  records : Records s t
  mem : t.mem = s.mem
  posted : ∀ x, t.posted x = s.posted x

theorem Quiet.trans (h₁ : Quiet s t) (h₂ : Quiet t u) : Quiet s u :=
  ⟨h₁.records.trans h₂.records, h₂.mem.trans h₁.mem, fun x => (h₂.posted x).trans (h₁.posted x)⟩

/-- A change of BH's own registers, of registers and coordinator bits, and of the record. -/
theorem Quiet.of_bh {n : Nat} {g : Regs} {b : BhAgent} {co : Coord} {es : List Event} (hb : b.posted = s.bh.posted)
    (hes : Appends s.history es) :
    Quiet s { s with drawCount := n, regs := g, bh := b, coord := co, history := es } :=
  ⟨⟨rfl, rfl, rfl, rfl, hes⟩, rfl, fun x => by cases x <;> first | rfl | exact hb⟩

theorem Quiet.emit (e : Event) (he : ∀ c x f, e ≠ .fault c x f) : Quiet s (s.emit e) :=
  ⟨⟨rfl, rfl, rfl, rfl, .event _ he⟩, rfl, fun x => by cases x <;> rfl⟩

theorem Quiet.bhGo (pc : BhPc) : Quiet s (s.bhGo pc) := .of_bh rfl (.refl _)

theorem Quiet.modTx (k : Nat) {f : TxAgent → TxAgent} (hf : ∀ c, (f c).posted = c.posted) : Quiet s (s.modTx k f) :=
  ⟨⟨rfl, rfl, rfl, rfl, .refl _⟩, rfl, State.modTx_posted hf⟩

theorem irqMicro_quiet (h : irqMicro s = .done t) : Quiet s t := by
  unfold irqMicro at h
  split at h
  case h_1 => cases h
  case h_2 =>
    obtain ⟨-, rfl⟩ := irqRead_done h
    exact ⟨⟨rfl, rfl, rfl, rfl, .event _ (by simp)⟩, rfl, fun x => by cases x <;> rfl⟩
  case h_3 =>
    obtain rfl := irqSched_done h
    refine ⟨⟨rfl, rfl, rfl, rfl, .trans ?_ (.event _ (by simp))⟩, rfl, fun x => by cases x <;> rfl⟩
    split
    · simpa using Appends.refl s.history
    · exact .event _ (by simp)

/-- BH posts a write at RX_CLEAR, and no other micro-step of it writes memory; only RX_CLEAR leads to RX_WMB, which waits for the list to be empty. -/
theorem bhMicro_posts_or_quiet {d : Draws} (h : bhMicro d s = .done t) :
    (∃ a bs u, memWrite .bh a bs s = .ok u ∧ t = u.bhGo .rxWmb)
      ∨ (Quiet s t ∧ (s.bh.pc = .rxWmb → s.bh.posted = [])) := by
  unfold bhMicro at h
  cases hp : s.bh.pc <;> rw [hp] at h
  case idle => cases h
  case rxClear =>
    obtain ⟨u, hu, rfl⟩ := rxClear_done h
    exact .inl ⟨_, _, u, hu, rfl⟩
  case rxWmb =>
    obtain ⟨hw, rfl⟩ := rxWmb_done h
    exact .inr ⟨.bhGo _, fun _ => hw⟩
  all_goals refine .inr ⟨?_, by simp⟩
  case rxSnap =>
    obtain ⟨-, rfl⟩ := rxSnap_done h
    exact .of_bh rfl (.event _ (by simp))
  case rxTest =>
    obtain ⟨-, rfl⟩ | ⟨-, bs, c, pc, -, rfl⟩ := rxTest_done h
    · exact .of_bh rfl (.refl _)
    · exact .of_bh rfl (.event _ (by simp))
  case rxAlloc =>
    obtain ⟨-, rfl⟩ | ⟨-, rfl⟩ | ⟨-, rfl⟩ := rxAlloc_done h
    · exact .bhGo _
    · exact (Quiet.emit _ (by simp)).trans ((Quiet.emit _ (by simp)).trans (.bhGo _))
    · exact .of_bh rfl (.event _ (by simp))
  case rxAdv =>
    obtain rfl := rxAdv_done h
    exact .of_bh rfl (.refl _)
  case rxDesc =>
    obtain ⟨d, c, -, -, rfl⟩ := rxDesc_done h
    exact .of_bh rfl (.event _ (by simp))
  case rxCopy =>
    obtain ⟨b, -, -, ⟨-, rfl⟩ | ⟨-, p, c, -, rfl⟩⟩ := rxCopy_done h
    · exact .bhGo _
    · exact .of_bh rfl (.event _ (by simp))
  case rxEop =>
    obtain ⟨-, rfl⟩ | ⟨-, b, -, rfl⟩ := rxEop_done h
    · exact .bhGo _
    · exact .of_bh rfl (.event _ (by simp))
  case rxPub =>
    obtain ⟨-, rfl⟩ := rxPub_done h
    exact .of_bh rfl (.event _ (by simp))
  case rxExit =>
    obtain rfl := rxExit_done h
    exact .of_bh rfl (.refl _)

theorem Quiet.setLock (l : Option Nat) : Quiet s { s with txLock := l } :=
  ⟨⟨rfl, rfl, rfl, rfl, .refl _⟩, rfl, fun x => by cases x <;> rfl⟩

theorem Quiet.setDraws (n : Nat) : Quiet s { s with drawCount := n } :=
  ⟨⟨rfl, rfl, rfl, rfl, .refl _⟩, rfl, fun x => by cases x <;> rfl⟩

theorem Quiet.setRegs (g : Regs) : Quiet s { s with regs := g } :=
  ⟨⟨rfl, rfl, rfl, rfl, .refl _⟩, rfl, fun x => by cases x <;> rfl⟩

theorem Quiet.txGo (k : Nat) (pc : TxPc) : Quiet s (s.txGo k pc) := .modTx k fun _ => rfl

theorem Quiet.txBusy (k : Nat) (r : DropReason) : Quiet s (s.txBusy k r) :=
  (Quiet.emit _ (by simp)).trans ((Quiet.emit _ (by simp)).trans (.modTx k fun _ => rfl))

/-- Where a transmit caller may have posted writes: between TX_CLRSTAT and the barrier. -/
abbrev TxPc.undrained (pc : TxPc) : Prop := pc ∈ ([.cmd, .len, .copy, .wmb] : List TxPc)

/-- TXC[k] posts writes only on its way to the barrier; no other micro-step of it writes memory, and none passes the barrier with a write posted. -/
theorem txMicro_posts_or_quiet {k : Nat} (h : txMicro k s = .done t) :
    (∃ a bs u pc, memWrite (.txc k) a bs s = .ok u ∧ t = u.txGo k pc ∧ pc.undrained)
      ∨ (Quiet s t ∧ ∃ c f, s.txc[k]? = some c ∧ t.txc = s.txc.modify k f
        ∧ (c.pc.undrained → s.posted (.txc k) = [] ∨ (f c).pc.undrained)) := by
  unfold txMicro at h
  split at h
  · cases h
  rename_i c hc
  have post {a bs pc} (hp : pc.undrained) (h : txPost k a bs pc s = .done t) :
      ∃ a bs u pc, memWrite (.txc k) a bs s = .ok u ∧ t = u.txGo k pc ∧ pc.undrained := by
    obtain ⟨u, hu, rfl⟩ := txPost_done h
    exact ⟨a, bs, u, pc, hu, rfl, hp⟩
  cases hp : c.pc <;> simp only [hp] at h
  case idle => cases h
  case clrstat | cmd | len => exact .inl (post (by decide) h)
  case copy =>
    obtain ⟨-, rfl⟩ | ⟨-, u, hu, rfl⟩ := txCopy_done h
    · exact .inr ⟨.txGo k _, c, _, hc, rfl, fun _ => .inr (by decide : TxPc.wmb.undrained)⟩
    · exact .inl ⟨_, _, u, _, hu, rfl, by decide⟩
  case wmb =>
    obtain ⟨hw, rfl⟩ := txWmb_done h
    exact .inr ⟨.txGo k _, c, _, hc, rfl, fun _ => .inl hw⟩
  all_goals
    refine .inr ?_
    suffices hq : Quiet s t ∧ ∃ f, t.txc = s.txc.modify k f by
      obtain ⟨hq, f, hf⟩ := hq
      exact ⟨hq, c, f, hc, hf, fun hu => absurd (hp ▸ hu) (by decide)⟩
  case lenchk =>
    obtain ⟨-, ⟨-, rfl⟩ | ⟨-, rfl⟩⟩ := txLenchk_done h
    · exact ⟨.txBusy k _, _, rfl⟩
    · exact ⟨.txGo k _, _, rfl⟩
  case lock =>
    obtain ⟨-, rfl⟩ := txLockStep_done h
    exact ⟨(Quiet.setLock _).trans (.txGo k _), _, rfl⟩
  case readtail =>
    obtain ⟨-, rfl⟩ := txReadtail_done h
    exact ⟨(Quiet.emit _ (by simp)).trans (.modTx k fun _ => rfl), _, rfl⟩
  case check =>
    obtain ⟨b, n, -, ⟨-, rfl⟩ | ⟨-, rfl⟩⟩ := txCheck_done h
    · exact ⟨(Quiet.setDraws n).trans ((Quiet.emit _ (by simp)).trans ((Quiet.setLock none).trans (.txBusy k _))), _, rfl⟩
    · exact ⟨(Quiet.setDraws n).trans ((Quiet.emit _ (by simp)).trans (.txGo k _)), _, rfl⟩
  case headchk =>
    obtain ⟨-, ⟨-, rfl⟩ | ⟨-, rfl⟩⟩ := txHeadchk_done h
    · exact ⟨(Quiet.emit _ (by simp)).trans ((Quiet.setLock none).trans (.txBusy k _)), _, rfl⟩
    · exact ⟨(Quiet.emit _ (by simp)).trans (.txGo k _), _, rfl⟩
  case pub =>
    obtain ⟨-, rfl⟩ := txPub_done h
    exact ⟨(Quiet.setRegs _).trans ((Quiet.emit (.reg (.txc k) .write _ _) (by simp)).trans (.txGo k .unlock)), _, rfl⟩
  case unlock =>
    obtain rfl := txUnlock_done h
    exact ⟨(Quiet.setLock none).trans ((Quiet.emit _ (by simp)).trans (.modTx k fun _ => rfl)), _, rfl⟩

/-! ### HOST -/

/-- `life`, the resources and the parameters are as before. -/
structure SameHoldings (s t : State) : Prop where
  cfg : t.cfg = s.cfg
  life : t.life = s.life
  acquired : t.acquired = s.acquired
  regions : t.regions = s.regions
  registered : t.irq.registered = s.irq.registered

/-- The heads of both rings are as before. -/
def SameHeads (s t : State) : Prop := t.regs.rdh = s.regs.rdh ∧ t.regs.tdh = s.regs.tdh

/-- A micro-step of HOST that takes nothing and gives nothing back, switches no device unit, writes no memory and leaves the other
engine agents where they are. -/
structure Routine (s t : State) : Prop where
  quiet : Quiet s t
  holdings : SameHoldings s t
  heads : SameHeads s t
  units : t.dev = { s.dev with resetBusy := t.dev.resetBusy }
  engines : t.bh.pc = s.bh.pc ∧ t.txc = s.txc

theorem Regs.written_heads (g : Regs) (r : RegName) (v : Word) :
    (g.written r v).rdh = g.rdh ∧ (g.written r v).tdh = g.tdh := by
  cases r <;> exact ⟨rfl, rfl⟩

/-- A change of registers other than the heads, of HOST's and BH's own registers but their posted writes, of the lock and the coordinator, and of
the record. -/
theorem Routine.of_changes {g : Regs} {h : HostAgent} {b : BhAgent} {l : Option Nat} {co : Coord} {busy : Bool} {es : List Event}
    (hes : Appends s.history es) (hg : g.rdh = s.regs.rdh ∧ g.tdh = s.regs.tdh := by exact ⟨rfl, rfl⟩)
    (hh : h.posted = s.host.posted := by rfl) (hb : b.posted = s.bh.posted ∧ b.pc = s.bh.pc := by exact ⟨rfl, rfl⟩) :
    Routine s { s with
      regs := g, host := h, bh := b, txLock := l, coord := co, dev := { s.dev with resetBusy := busy }, history := es } where
  quiet := ⟨⟨rfl, rfl, rfl, rfl, hes⟩, rfl, fun x => by cases x <;> first | rfl | exact hh | exact hb.1⟩
  holdings := ⟨rfl, rfl, rfl, rfl, rfl⟩
  heads := hg
  units := rfl
  engines := ⟨hb.2, rfl⟩

/-- The steps of HOST's pc that take nothing and give nothing back. -/
def hostAdvances : List (HostPc × HostPc) :=
  [(.idle, .idle), (.idle, .aCheck), (.idle, .dCheck), (.dCheck, .idle), (.aRstRd, .aRstWr), (.aRstWr, .aPoll), (.aPoll, .aPoll),
    (.aPoll, .aLinkRd), (.aLinkRd, .aLinkWr), (.aLinkWr, .aRxdesc), (.aWmb, .aRdbal), (.aRdbal, .aRdbah), (.aRdbah, .aRdlen),
    (.aRdlen, .aRdt), (.aRdt, .aTdbal), (.aTdbal, .aTdbah), (.aTdbah, .aTdlen), (.aTdlen, .aTdt), (.aTdt, .aState), (.aState, .aIrq),
    (.aIms, .aEnable), (.dImc, .dIrqrel), (.dBh, .dBhwait), (.dBhwait, .dTxwait), (.dTxwait, .dAcc), (.dAcc, .dRel)]

/-- Where ATTACH asks for each region, and where it goes on with it. -/
def hostAllocs : List (HostPc × RegionKind × HostPc) :=
  [(.aRxdesc, .rxdesc, .aRxbuf), (.aRxbuf, .rxbuf, .aTxdesc), (.aTxdesc, .txdesc, .aTxbuf), (.aTxbuf, .txbuf, .aInitRx)]

/-- Where ATTACH posts a descriptor image, and where it goes on. -/
def hostImages : List (HostPc × HostPc) := [(.aInitRx, .aInitTx), (.aInitTx, .aWmb)]

/-- Where HOST releases a resource, and where it goes on when none is left. -/
def hostReleases : List (HostPc × HostPc) := [(.aUnwind, .aFailed), (.dRel, .dDone)]

/-- Where ATTACH can fail. -/
def hostFails : List HostPc := [.aMap, .aPoll, .aRxdesc, .aRxbuf, .aTxdesc, .aTxbuf, .aIrq]

/-- Everything a micro-step of HOST can complete with, by what it does to the resources, the device units and coherent memory. -/
inductive HostStep (s : State) : State → Prop where
  | advance {t : State} (pcs : (s.host.pc, t.host.pc) ∈ hostAdvances) (routine : Routine s t)
      (drained : s.host.pc = .aWmb → s.host.posted = []) : HostStep s t
  | image {a : Nat} {bs : List Byte} {u : State} {pc : HostPc}
      (pcs : (s.host.pc, pc) ∈ hostImages) (hw : memWrite .host a bs s = .ok u) :
      HostStep s (u.hostGo pc)
  | fail {t : State} (hp : s.host.pc ∈ hostFails) (next : t.host.pc = if s.acquired.isEmpty then .aFailed else .aUnwind)
      (routine : Routine s t) : HostStep s t
  | aCheck (hp : s.host.pc = .aCheck) (hl : s.life = .detached) : HostStep s ({ s with life := .attaching }.hostGo .aMap)
  | aMap (hp : s.host.pc = .aMap) : HostStep s ({ s with acquired := [.map] }.hostGo .aRstRd)
  | alloc {k : RegionKind} {loc dma : Nat} {pc : HostPc} (pcs : (s.host.pc, k, pc) ∈ hostAllocs)
      (fresh : s.freshRegion k loc dma = true) :
      HostStep s (((s.emit (.alloc k (regionSize s.cfg k) (some (loc, dma)))).allocate k loc dma).hostGo pc)
  | aIrq (hp : s.host.pc = .aIrq) :
      HostStep s ({ s with
        irq := { s.irq with registered := true }
        acquired := s.acquired ++ [Resource.irq] }.hostGo .aIms)
  | aEnable (hp : s.host.pc = .aEnable) :
      HostStep s ({ s with dev := { s.dev with rxEnabled := true, txEnabled := true } }.hostGo .aDone)
  | aDone (hp : s.host.pc = .aDone) : HostStep s (({ s with life := .attached }.emit (.attachResult .ok)).hostGo .idle)
  | aFailed (hp : s.host.pc = .aFailed) :
      HostStep s (({ s with life := .detached }.emit (.attachResult s.host.result)).hostGo .idle)
  | release {pc last : HostPc} (hp : s.host.pc = pc) (pcs : (pc, last) ∈ hostReleases) :
      HostStep s (s.releaseLast.hostGo (if s.releaseLast.acquired.isEmpty then last else pc))
  | dCheck (hp : s.host.pc = .dCheck) (hl : s.life ≠ .detached) :
      HostStep s ({ s with life := .detaching }.hostGo .dQuiesce)
  | dQuiesce (hp : s.host.pc = .dQuiesce) : HostStep s ({ s with dev := s.dev.quiesced }.hostGo .dImc)
  | dIrqrel (hp : s.host.pc = .dIrqrel) :
      HostStep s ({ s with
        irq := { s.irq with registered := false }
        acquired := s.acquired.filter fun x => x != Resource.irq }.hostGo .dBh)
  | dDone (hp : s.host.pc = .dDone) : HostStep s ({ s with life := .detached }.hostGo .idle)

/-- A step of HOST's pc that the list has, from anywhere but its barrier. -/
theorem HostStep.routine {pc : HostPc} (pc' : HostPc) (hp : s.host.pc = pc) (hp' : t.host.pc = pc')
    (pcs : (pc, pc') ∈ hostAdvances ∧ pc ≠ .aWmb) (h : Routine s t) : HostStep s t :=
  .advance (hp ▸ hp' ▸ pcs.1) h fun e => absurd (hp.symm.trans e) pcs.2

theorem hostWrite_hostStep {r : RegName} {v : Word} {pc pc' : HostPc} (hp : s.host.pc = pc) (pcs : (pc, pc') ∈ hostAdvances ∧ pc ≠ .aWmb)
    (h : hostWrite r v pc' s = .done t) : HostStep s t := by
  obtain ⟨-, -, rfl⟩ := hostWrite_done h
  exact .routine _ hp rfl pcs (.of_changes (.event _ (by simp)) (Regs.written_heads _ _ _))

theorem hostAlloc_hostStep {k : RegionKind} {d : Draws} {pc pc' : HostPc} (hp : s.host.pc = pc) (pcs : (pc, k, pc') ∈ hostAllocs)
    (hf : pc ∈ hostFails) (h : hostAlloc k pc' d s = .done t) : HostStep s t := by
  obtain ⟨-, rfl⟩ | ⟨loc, dma, -, hfresh, rfl⟩ := hostAlloc_done h
  · exact .fail (hp ▸ hf) rfl (.of_changes (.event _ (by simp)))
  · exact .alloc (hp ▸ pcs) hfresh

theorem hostImage_hostStep {a : Nat} {bs : List Byte} {pc pc' : HostPc} (hp : s.host.pc = pc)
    (pcs : (pc, pc') ∈ hostImages) (h : hostImage a bs pc' s = .done t) : HostStep s t := by
  obtain ⟨u, hu, rfl⟩ := hostImage_done h
  exact .image (hp ▸ pcs) hu

theorem ctrlRead_hostStep {pc pc' : HostPc} (hp : s.host.pc = pc) (pcs : (pc, pc') ∈ hostAdvances ∧ pc ≠ .aWmb) :
    HostStep s (s.ctrlRead pc') :=
  .routine _ hp rfl pcs (.of_changes (.event _ (by simp)))

theorem hostMicro_hostStep {d : Draws} (h : hostMicro d s = .done t) : HostStep s t := by
  unfold hostMicro at h
  cases hp : s.host.pc <;> rw [hp] at h
  case idle => cases h
  case aCheck => obtain ⟨hl, rfl⟩ := aCheck_done h; exact .aCheck hp hl
  case aMap =>
    obtain rfl | rfl := aMap_done h
    · exact .aMap hp
    · exact .fail (by rw [hp]; decide) rfl (.of_changes (.refl _))
  case aRstRd => obtain rfl := aRstRd_done h; exact ctrlRead_hostStep hp (by decide)
  case aRstWr =>
    obtain rfl := aRstWr_done h
    exact .routine .aPoll hp rfl (by decide) (.of_changes (.event _ (by simp)))
  case aPoll =>
    obtain ⟨-, rfl⟩ | ⟨-, -, rfl⟩ | ⟨-, -, rfl⟩ := aPoll_done h
    · exact ctrlRead_hostStep hp (by decide)
    · exact .fail (by rw [hp]; decide) rfl (.of_changes (.event _ (by simp)))
    · exact .routine .aPoll hp rfl (by decide) (.of_changes (.event _ (by simp)))
  case aLinkRd => obtain rfl := aLinkRd_done h; exact ctrlRead_hostStep hp (by decide)
  case aRxdesc | aRxbuf | aTxdesc | aTxbuf => exact hostAlloc_hostStep hp (by decide) (by decide) h
  case aInitRx | aInitTx => exact hostImage_hostStep hp (by decide) h
  case aWmb =>
    obtain ⟨hw, rfl⟩ := barrier_done h
    have pcs : (HostPc.aWmb, HostPc.aRdbal) ∈ hostAdvances := by decide
    exact .advance (hp ▸ pcs) (.of_changes (.refl _)) fun _ => hw
  case aState =>
    cases h
    exact .routine .aIrq hp rfl (by decide) (.of_changes (.refl _))
  case aIrq =>
    obtain rfl | rfl := aIrq_done h
    · exact .aIrq hp
    · exact .fail (by rw [hp]; decide) rfl (.of_changes (.refl _))
  case aEnable => cases h; exact .aEnable hp
  case aDone => cases h; exact .aDone hp
  case aUnwind => cases h; exact .release hp (by decide)
  case aFailed => cases h; exact .aFailed hp
  case dCheck =>
    obtain ⟨-, rfl⟩ | ⟨hl, rfl⟩ := dCheck_done h
    · exact .routine .idle hp rfl (by decide) (.of_changes (.refl _))
    · exact .dCheck hp hl
  case dQuiesce => cases h; exact .dQuiesce hp
  case dIrqrel => obtain ⟨-, rfl⟩ := dIrqrel_done h; exact .dIrqrel hp
  case dBh =>
    cases h
    exact .routine .dBhwait hp rfl (by decide) (.of_changes (.refl _))
  case dBhwait =>
    obtain ⟨-, -, rfl⟩ := dBhwait_done h
    exact .routine .dTxwait hp rfl (by decide) (.of_changes (.refl _))
  case dTxwait =>
    obtain ⟨-, -, rfl⟩ := dTxwait_done h
    exact .routine .dAcc hp rfl (by decide) (.of_changes (.refl _))
  case dAcc =>
    cases h
    exact .routine .dRel hp rfl (by decide) (.of_changes (.refl _))
  case dRel => cases h; exact .release hp (by decide)
  case dDone => cases h; exact .dDone hp
  all_goals exact hostWrite_hostStep hp (by decide) h

/-- Every micro-step that HOST completes is one of those: the words it issues while idle, and its next micro-step. -/
theorem Completes.hostStep (h : Completes s .host t) : HostStep s t := by
  cases h with
  | sched h =>
    obtain ⟨hp, -, rfl⟩ := bhSchedHost_done h
    exact .routine .idle hp hp (by decide) (.of_changes (.event _ (by simp)))
  | regRd off h =>
    obtain ⟨hp, v, hr⟩ := regRdHost_done h
    obtain ⟨r, -, -, -, -, rfl⟩ := regRead_ok hr
    exact .routine .idle hp hp (by decide) (.of_changes (.event _ (by simp)))
  | regWr off v h =>
    obtain ⟨hp, r, -, -, -, -, rfl⟩ := regWrHost_done h
    exact .routine .idle hp hp (by decide) (.of_changes (.event _ (by simp)) (Regs.written_heads _ _ _))
  | wmb h =>
    obtain ⟨hp, -, rfl⟩ := wmbHost_done h
    exact .routine .idle hp hp (by decide) (.of_changes (.refl _))
  | attach hp => exact .routine .aCheck hp rfl (by decide) (.of_changes (.event _ (by simp)))
  | detach hp => exact .routine .dCheck hp rfl (by decide) (.of_changes (.event _ (by simp)))
  | host d h => exact hostMicro_hostStep h

/-! ### The other agents -/

theorem irqMicro_registered (h : irqMicro s = .done t) : t.irq.registered = s.irq.registered := by
  unfold irqMicro at h
  split at h
  · cases h
  · obtain ⟨-, rfl⟩ := irqRead_done h; rfl
  · obtain rfl := irqSched_done h; rfl

/-- No other agent changes `life`, the resources or HOST's pc. -/
theorem Completes.sameHoldings {x : Agent} (hx : x ≠ .host) (h : Completes s x t) :
    SameHoldings s t ∧ t.host.pc = s.host.pc := by
  cases h with
  | irq h =>
    have hr := irqMicro_registered h
    rw [irqMicro_frame h]
    exact ⟨⟨rfl, rfl, rfl, rfl, hr⟩, rfl⟩
  | bh d c h => rw [bhMicro_frame h]; exact ⟨⟨rfl, rfl, rfl, rfl, rfl⟩, rfl⟩
  | submit k len frame hl h => obtain ⟨c, -, -, rfl⟩ := txIssue_done h; exact ⟨⟨rfl, rfl, rfl, rfl, rfl⟩, rfl⟩
  | tx k h => rw [txMicro_frame h]; exact ⟨⟨rfl, rfl, rfl, rfl, rfl⟩, rfl⟩
  | land x pos h => obtain ⟨e, k, -, -, -, rfl⟩ := land_done h; exact ⟨⟨by simp, by simp, by simp, by simp, by simp⟩, by simp⟩
  | rxClaim h => rw [devRxClaim_frame h]; exact ⟨⟨rfl, rfl, rfl, rfl, rfl⟩, rfl⟩
  | rxWb d h => rw [devRxWb_frame h]; exact ⟨⟨rfl, rfl, rfl, rfl, rfl⟩, rfl⟩
  | xmit h => rw [devTxXmit_frame h]; exact ⟨⟨rfl, rfl, rfl, rfl, rfl⟩, rfl⟩
  | rstDone d h => obtain ⟨-, rfl⟩ := devRstDone_done h; exact ⟨⟨rfl, rfl, rfl, rfl, rfl⟩, rfl⟩
  | irqTop | start | wireIn | rxDrop | cause => exact ⟨⟨rfl, rfl, rfl, rfl, rfl⟩, rfl⟩
  | sched | regRd | regWr | wmb | attach | detach | host => exact absurd rfl hx

/-- A change of the device, its wires, the registers and the record. -/
theorem Quiet.of_dev {n : Nat} {g : Regs} {w : List (List Byte)} {d : Dev} {es : List Event} (hes : Appends s.history es) :
    Quiet s { s with drawCount := n, regs := g, wireIn := w, dev := d, history := es } :=
  ⟨⟨rfl, rfl, rfl, rfl, hes⟩, rfl, fun x => by cases x <;> rfl⟩

theorem txIssue_quiet {k : Nat} {len : Half} {frame : List Byte} (h : txIssue k len frame s = .done t) : Quiet s t := by
  obtain ⟨c, -, -, rfl⟩ := txIssue_done h
  exact (Quiet.emit _ (by simp)).trans (.modTx k fun _ => rfl)

/-- Everything a completed micro-step of an agent other than HOST can do to coherent memory and to the posted writes: nothing, a write by an engine
agent, a landing, or a write-back by DEV. -/
inductive MemoryStep (s : State) : State → Prop where
  | quiet {t : State} (h : Quiet s t) : MemoryStep s t
  | write {x : Agent} {a : Nat} {bs : List Byte} {n : Nat} {u t : State} (hw : memWrite x a bs { s with drawCount := n } = .ok u)
      (after : Quiet u t) : MemoryStep s t
  | land {x : Agent} {pos : Nat} {t : State} (h : land x pos s = .done t) : MemoryStep s t
  | rxWb {d : WbDraws} {t : State} (h : devRxWb d s = .done t) : MemoryStep s t
  | xmit {t : State} (h : devTxXmit s = .done t) : MemoryStep s t

theorem Completes.memoryStep {x : Agent} (hx : x ≠ .host) (h : Completes s x t) : MemoryStep s t := by
  cases h with
  | irqTop => exact .quiet ⟨⟨rfl, rfl, rfl, rfl, .refl _⟩, rfl, fun x => by cases x <;> rfl⟩
  | irq h => exact .quiet (irqMicro_quiet h)
  | start => exact .quiet (.of_bh rfl (.refl _))
  | bh d n h =>
    obtain ⟨a, bs, u, hu, rfl⟩ | ⟨hq, -⟩ := bhMicro_posts_or_quiet h
    · exact .write hu (.bhGo _)
    · exact .quiet ((Quiet.setDraws n).trans hq)
  | submit k len frame hl h => exact .quiet (txIssue_quiet h)
  | tx k h =>
    obtain ⟨a, bs, u, pc, hu, rfl, -⟩ | ⟨hq, -⟩ := txMicro_posts_or_quiet h
    · exact .write (n := s.drawCount) hu (.txGo k pc)
    · exact .quiet hq
  | land x pos h => exact .land h
  | wireIn frame => exact .quiet (.of_dev (.event _ (by simp)))
  | rxClaim h =>
    obtain ⟨-, -, -, rem, waiting, -, rfl⟩ := devRxClaim_done h
    exact .quiet (.of_dev (.refl _))
  | rxWb d h => exact .rxWb h
  | rxDrop => exact .quiet (.of_dev (.refl _))
  | xmit h => exact .xmit h
  | cause c => exact .quiet (.of_dev (.refl _))
  | rstDone d h =>
    obtain ⟨-, rfl⟩ := devRstDone_done h
    exact .quiet (.of_dev (.refl _))
  | sched | regRd | regWr | wmb | attach | detach | host => exact absurd rfl hx

/-! ## The record only grows (R40 to R42, R46, R342, R343) -/

theorem wbEffect_records (c : Claim) (rest : List Claim) (a : Nat) (d : WbDraws) (s : State) :
    Records s (wbEffect c rest a d s) := by
  have hclaims : Records s { s with dev := { s.dev with rxClaimed := rest } } := ⟨rfl, rfl, rfl, rfl, .refl _⟩
  have hbuffer (s₂ : State) : Records s₂ (if c.chunk.isEmpty then s₂ else devWrite a c.chunk s₂) := by
    split
    · exact .refl s₂
    · exact devWrite_records _ _ _
  exact ((hclaims.trans (hbuffer _)).trans (devWrite_records _ _ _)).trans ⟨rfl, rfl, rfl, rfl, .refl _⟩

theorem xmitEffect_records (cmd : Byte) (frame : List Byte) (s : State) : Records s (xmitEffect cmd frame s) := by
  have hwire : Records s ({ s with wireOut := s.wireOut ++ [frame] }.emit (.wireOut frame)) :=
    ⟨rfl, rfl, rfl, rfl, .event _ (by simp)⟩
  have hdone (s₃ : State) (a : Nat) :
      Records s₃ (if reportsStatus cmd then (devWrite a [txDoneStatus] s₃).setCause causeTXDW else s₃) := by
    split
    · exact (devWrite_records _ _ _).trans ⟨rfl, rfl, rfl, rfl, .refl _⟩
    · exact .refl s₃
  exact (hwire.trans (hdone _ _)).trans ⟨rfl, rfl, rfl, rfl, .refl _⟩

theorem devReadFrame_records (a n : Nat) (s : State) : Records s (devReadFrame a n s).2 := by
  unfold devReadFrame
  split
  · exact .refl s
  · exact devRead_records a n s

theorem devRxWb_records {d : WbDraws} (h : devRxWb d s = .done t) : Records s t := by
  obtain ⟨c, rest, -, -, -, -, rfl⟩ := devRxWb_done h
  exact .trans (devRead_records _ _ s) (wbEffect_records _ _ _ _ _)

theorem devTxXmit_records (h : devTxXmit s = .done t) : Records s t := by
  obtain ⟨-, -, -, -, r, a, n, q, rfl, -, -, -, rfl, rfl⟩ := devTxXmit_done h
  exact .trans (.trans (devRead_records _ _ s) (devReadFrame_records a n _)) (xmitEffect_records _ _ _)

theorem MemoryStep.records (h : MemoryStep s t) : Records s t := by
  cases h with
  | quiet h => exact h.records
  | @write _ _ _ n _ _ hw after => exact (Quiet.setDraws n).records.trans ((memWrite_records hw).trans after.records)
  | land h => exact land_records h
  | rxWb h => exact devRxWb_records h
  | xmit h => exact devTxXmit_records h

theorem HostStep.records (h : HostStep s t) : Records s t := by
  cases h with
  | advance pcs routine drained => exact routine.quiet.records
  | fail hp next routine => exact routine.quiet.records
  | image pcs hw => exact (memWrite_records hw).trans ⟨rfl, rfl, rfl, rfl, .refl _⟩
  | alloc pcs fresh => exact ⟨rfl, rfl, rfl, rfl, .event _ (by simp)⟩
  | release hp pcs => rw [releaseLast_frame s]; exact ⟨rfl, rfl, rfl, rfl, .refl _⟩
  | aDone | aFailed => exact ⟨rfl, rfl, rfl, rfl, .event _ (by simp)⟩
  | aCheck | aMap | aIrq | aEnable | dCheck | dQuiesce | dIrqrel | dDone => exact ⟨rfl, rfl, rfl, rfl, .refl _⟩

theorem Completes.records {x : Agent} (h : Completes s x t) : Records s t := by
  by_cases hx : x = .host
  · subst hx
    exact h.hostStep.records
  · exact (h.memoryStep hx).records

/-- What a step does to the record of the run and to the parameters: nothing is taken back, and the fault set and the stopped agents stay those of the
Fault events. -/
structure RecordGrows (s t : State) : Prop where
  faults : ∀ c ∈ s.faults, c ∈ t.faults
  refused : s.refused = true → t.refused = true
  history : s.history <+: t.history
  stopped : ∀ x ∈ s.stopped, x ∈ t.stopped
  cfg : t.cfg = s.cfg
  inv : s.recordInv → t.recordInv

theorem RecordGrows.refl (s : State) : RecordGrows s s := ⟨fun _ h => h, id, ⟨[], List.append_nil _⟩, fun _ h => h, rfl, id⟩

theorem RecordGrows.trans (h₁ : RecordGrows s t) (h₂ : RecordGrows t u) : RecordGrows s u :=
  ⟨fun c h => h₂.faults c (h₁.faults c h), h₂.refused ∘ h₁.refused, h₁.history.trans h₂.history,
    fun x h => h₂.stopped x (h₁.stopped x h), h₂.cfg.trans h₁.cfg, h₂.inv ∘ h₁.inv⟩

theorem Records.recordGrows (h : Records s t) : RecordGrows s t where
  faults c hc := h.faults ▸ hc
  refused hr := h.refused.trans hr
  history := by
    obtain ⟨new, hnew, -⟩ := h.history
    exact ⟨new, hnew.symm⟩
  stopped x hx := h.stopped ▸ hx
  cfg := h.cfg
  inv := fun ⟨hfaults, hstopped, hcode⟩ => by
    refine ⟨fun c => ?_, fun x => ?_, fun c x f hm => hcode c x f ((h.history.fault_mem_iff c x f).1 hm)⟩
    · simp only [h.faults, h.history.fault_mem_iff, hfaults]
    · simp only [h.stopped, h.history.fault_mem_iff, hstopped]

/-- Taking a fault adds its code, its agent and its event together (R342). -/
theorem RecordGrows.raiseFault (s : State) (x : Agent) (f : BlockFault) : RecordGrows s (s.raiseFault x f) where
  faults c hc := mem_insertFault.2 (.inr hc)
  refused := id
  history := ⟨_, rfl⟩
  stopped y hy := State.mem_raiseFault_stopped.2 (.inr hy)
  cfg := rfl
  inv := fun ⟨hfaults, hstopped, hcode⟩ => by
    have hmem (c y g) : Event.fault c y g ∈ (s.raiseFault x f).history
        ↔ Event.fault c y g ∈ s.history ∨ (c = f.code ∧ y = x ∧ g = f) := by simp
    refine ⟨fun c => ?_, fun y => ?_, fun c y g hm => ?_⟩
    · rw [State.raiseFault_faults, mem_insertFault, hfaults]
      simp only [hmem, exists_or]
      simp [or_comm]
    · rw [State.mem_raiseFault_stopped, hstopped]
      simp only [hmem, exists_or]
      simp [or_comm]
    · rcases (hmem c y g).1 hm with hm | ⟨rfl, -, rfl⟩
      · exact hcode c y g hm
      · rfl

theorem step_recordGrows (h : step s = .next t) : RecordGrows s t :=
  step_keeps (P := RecordGrows s) (.refl s) h
    (script := fun _ _ hg => ⟨hg.faults, hg.refused, hg.history, hg.stopped, hg.cfg, hg.inv⟩)
    (pass := fun _ hg => ⟨hg.faults, hg.refused, hg.history, hg.stopped, hg.cfg, hg.inv⟩)
    (refuse := fun _ hg => ⟨hg.faults, fun _ => rfl, hg.history, hg.stopped, hg.cfg, hg.inv⟩)
    (fault := fun _ x f hg => hg.trans (.raiseFault _ x f))
    (completes := fun _ _ _ _ hg hc => hg.trans hc.records.recordGrows)

/-! ## The heads (R24, R133) -/

theorem SameHeads.of_regs (h : t.regs = s.regs) : SameHeads s t := ⟨by rw [h], by rw [h]⟩

theorem memWrite_regs {x : Agent} {a : Nat} {bs : List Byte} (h : memWrite x a bs s = .ok t) : t.regs = s.regs := by
  obtain ⟨k, -, ⟨-, rfl⟩ | ⟨-, rfl⟩⟩ := memWrite_ok h <;> simp

theorem HostStep.sameHeads (h : HostStep s t) : SameHeads s t := by
  cases h with
  | advance pcs routine drained => exact routine.heads
  | fail hp next routine => exact routine.heads
  | image pcs hw => have hr := memWrite_regs hw; exact .of_regs hr
  | release hp pcs => rw [releaseLast_frame s]; exact ⟨rfl, rfl⟩
  | aCheck | aMap | alloc | aIrq | aEnable | aDone | aFailed | dCheck | dQuiesce | dIrqrel | dDone => exact ⟨rfl, rfl⟩

theorem Completes.sameHeads {x : Agent} (hx : x ≠ .dev) (h : Completes s x t) : SameHeads s t := by
  by_cases hhost : x = .host
  · subst hhost
    exact h.hostStep.sameHeads
  cases h with
  | irq h => rw [irqMicro_frame h]; exact ⟨rfl, rfl⟩
  | bh d n h => rw [bhMicro_frame h]; exact ⟨rfl, rfl⟩
  | submit k len frame hl h => obtain ⟨c, -, -, rfl⟩ := txIssue_done h; exact ⟨rfl, rfl⟩
  | tx k h => rw [txMicro_frame h]; exact ⟨rfl, rfl⟩
  | land y pos h => obtain ⟨e, k, -, -, -, rfl⟩ := land_done h; exact .of_regs (by simp)
  | irqTop | start => exact ⟨rfl, rfl⟩
  | sched | regRd | regWr | wmb | attach | detach | host => exact absurd rfl hhost
  | wireIn | rxClaim | rxWb | rxDrop | xmit | cause | rstDone => exact absurd rfl hx

/-- An idle turn and a fault leave the registers alone, so that only a completed micro-step changes one. -/
theorem take_regs {x : Agent} {m : Micro} (h : take x s m = .next t) : t.regs = s.regs ∨ m = .done t := by
  obtain rfl | ⟨-, hd⟩ | ⟨-, f, -, rfl⟩ := take_next h
  · exact .inl rfl
  · exact .inr hd
  · exact .inl rfl

theorem take_sameHeads {x : Agent} {m : Micro} (h : take x s m = .next t) (hm : m = .done t → SameHeads s t) :
    SameHeads s t := (take_regs h).elim .of_regs hm

/-- DEV has no micro-step that a record word names. -/
theorem recorded_sameHeads {x : Agent} {c : Prop} [Decidable c] (h : (if c then recorded x s else Micro.hold) = .done t) :
    SameHeads s t := by
  refine (completes_recorded_if h).sameHeads ?_
  rintro rfl
  split at h <;> cases h

theorem runMicro_sameHeads {x : Agent} {d : Draws} (h : runMicro x d s = .next t) : SameHeads s t := by
  cases x with
  | host => exact take_sameHeads h fun hu => (Completes.host d hu).sameHeads (by decide)
  | irq => exact take_sameHeads h fun hu => (Completes.irq hu).sameHeads (by decide)
  | bh => exact take_sameHeads h fun hu => (Completes.bh d s.drawCount hu).sameHeads (by decide)
  | txc k => exact take_sameHeads h fun hu => (Completes.tx k hu).sameHeads (by simp)
  | dev | memsys => cases h; exact ⟨rfl, rfl⟩

theorem exec_sameHeads {i : Instr} (h : exec i s = .next t) (hclaim : i ≠ .devRxClaim) (hxmit : i ≠ .devTxXmit)
    (hreset : ∀ d, i ≠ .devRstDone d) : SameHeads s t := by
  cases i with
  | irqTop => exact take_sameHeads h fun hu => by split at hu <;> cases hu; exact ⟨rfl, rfl⟩
  | bhSched x =>
    cases x with
    | host => exact take_sameHeads h fun hu => (Completes.sched hu).sameHeads (by decide)
    | irq =>
      refine take_sameHeads h fun hu => ?_
      split at hu
      · rw [irqSched_done hu]; exact ⟨rfl, rfl⟩
      · cases hu
    | bh | dev | memsys | txc => cases h; exact ⟨rfl, rfl⟩
  | bhRun => exact take_sameHeads h fun hu => by split at hu <;> cases hu; exact ⟨rfl, rfl⟩
  | rxRun =>
    refine take_sameHeads h fun hu => ?_
    split at hu
    · exact (Completes.bh _ _ hu).sameHeads (by decide)
    · exact (Completes.bh _ s.drawCount hu).sameHeads (by decide)
  | txSubmit k len frame =>
    refine take_sameHeads h fun hu => ?_
    obtain ⟨c, -, -, rfl⟩ := txIssue_done hu
    exact ⟨rfl, rfl⟩
  | regRd x off =>
    by_cases hx : x = .host
    · subst hx
      exact take_sameHeads h fun hu => (Completes.regRd _ hu).sameHeads (by decide)
    · exact take_sameHeads ((execRegRd_record off s hx).symm.trans h) recorded_sameHeads
  | regWr x off v =>
    by_cases hx : x = .host
    · subst hx
      exact take_sameHeads h fun hu => (Completes.regWr _ v hu).sameHeads (by decide)
    · exact take_sameHeads ((execRegWr_record off v s hx).symm.trans h) recorded_sameHeads
  | wmb x =>
    by_cases hx : x = .host
    · subst hx
      exact take_sameHeads h fun hu => (Completes.wmb hu).sameHeads (by decide)
    · exact take_sameHeads ((execWmb_record s hx).symm.trans h) recorded_sameHeads
  | memDrain x pos => exact take_sameHeads h fun hu => (Completes.land x _ hu).sameHeads (by decide)
  | devRxWb d =>
    refine take_sameHeads h fun hu => ?_
    rw [devRxWb_frame hu]
    exact ⟨rfl, rfl⟩
  | devCause c => exact take_sameHeads h fun hu => by split at hu <;> cases hu; exact ⟨rfl, rfl⟩
  | devWireIn len frame =>
    exact take_sameHeads (m := .done _) h fun hu => by cases hu; exact ⟨rfl, rfl⟩
  | devRxDrop => exact take_sameHeads h fun hu => by split at hu <;> cases hu; exact ⟨rfl, rfl⟩
  | attach => exact take_sameHeads h fun hu => by split at hu <;> cases hu; exact ⟨rfl, rfl⟩
  | detach => exact take_sameHeads h fun hu => by split at hu <;> cases hu; exact ⟨rfl, rfl⟩
  | devRxClaim => exact absurd rfl hclaim
  | devTxXmit => exact absurd rfl hxmit
  | devRstDone d => exact absurd rfl (hreset d)

theorem exec_devRxClaim_tdh (h : exec .devRxClaim s = .next t) : t.regs.tdh = s.regs.tdh := by
  obtain hr | hu := take_regs h
  · rw [hr]
  · rw [devRxClaim_frame hu]

theorem exec_devTxXmit_rdh (h : exec .devTxXmit s = .next t) : t.regs.rdh = s.regs.rdh := by
  obtain hr | hu := take_regs h
  · rw [hr]
  · rw [devTxXmit_frame hu]

/-! ## Posted writes are drained (R36, R322, R390, R391) -/

/-- Between a write of agent `x` and the barrier after it. -/
def State.mayPost (s : State) : Agent → Prop
  | .host => s.host.pc = .aInitTx ∨ s.host.pc = .aWmb
  | .bh => s.bh.pc = .rxWmb
  | .txc k => ∃ c, s.txc[k]? = some c ∧ c.pc.undrained
  | .irq | .dev | .memsys => False

/-- The invariant of the posted writes, agent by agent. -/
theorem State.postedInv_iff :
    s.postedInv ↔ (∀ x, ¬ s.mayPost x → s.posted x = []) ∧ (s.cfg.postedOrder = .sc → ∀ x, s.posted x = []) := by
  constructor
  · rintro ⟨hirq, hbh, hhost, htx, hsc⟩
    refine ⟨fun x hx => ?_, hsc⟩
    cases x with
    | host => exact hhost (fun e => hx (.inl e)) (fun e => hx (.inr e))
    | irq => exact hirq
    | bh => exact hbh hx
    | txc k =>
      cases hc : s.txc[k]? with
      | none => simp [State.posted, hc]
      | some c => simpa [State.posted, hc] using htx c (List.mem_of_getElem? hc) fun hu => hx ⟨c, hc, hu⟩
    | dev | memsys => rfl
  · rintro ⟨hempty, hsc⟩
    refine ⟨hempty .irq id, hempty .bh, fun h₁ h₂ => hempty .host fun h => h.elim h₁ h₂, fun c hc hu => ?_, hsc⟩
    obtain ⟨k, hk⟩ := List.getElem?_of_mem hc
    have hk' : ¬ s.mayPost (.txc k) := fun ⟨c', hc', hu'⟩ => hu (Option.some.inj (hk.symm.trans hc') ▸ hu')
    simpa [State.posted, hk] using hempty (.txc k) hk'

/-- The invariant survives when no list grows, and no agent gets past its barrier with a write posted. -/
theorem State.postedInv.keep (hs : s.postedInv) (hcfg : t.cfg = s.cfg) (hempty : ∀ x, s.posted x = [] → t.posted x = [])
    (hmay : ∀ x, s.mayPost x → t.mayPost x ∨ s.posted x = []) : t.postedInv := by
  obtain ⟨hdrained, hsc⟩ := State.postedInv_iff.1 hs
  refine State.postedInv_iff.2 ⟨fun x hx => hempty x ?_, fun hc x => hempty x (hsc (hcfg ▸ hc) x)⟩
  by_cases hm : s.mayPost x
  · exact (hmay x hm).resolve_left hx
  · exact hdrained x hm

/-- Only these decide who may have writes posted. -/
theorem State.mayPost_congr (hhost : t.host.pc = s.host.pc) (hbh : t.bh.pc = s.bh.pc) (htx : t.txc = s.txc) (x : Agent) :
    t.mayPost x ↔ s.mayPost x := by
  cases x <;> simp only [State.mayPost, hhost, hbh, htx]

theorem State.setPosted_mayPost (s : State) (x : Agent) (w : List Posted) (y : Agent) :
    (s.setPosted x w).mayPost y ↔ s.mayPost y := by
  cases y with
  | txc j =>
    cases x with
    | txc k =>
      by_cases hkj : k = j
      · subst hkj
        cases hc : s.txc[k]? <;> simp [State.mayPost, State.setPosted, State.modTx, hc]
      · simp [State.mayPost, State.setPosted, State.modTx, List.getElem?_modify_ne _ _ hkj]
    | _ => rfl
  | _ => cases x <;> rfl

theorem memWrite_mayPost {x : Agent} {a : Nat} {bs : List Byte} (h : memWrite x a bs s = .ok t) (y : Agent) :
    t.mayPost y ↔ s.mayPost y := by
  obtain ⟨k, -, ⟨-, rfl⟩ | ⟨-, rfl⟩⟩ := memWrite_ok h
  · exact State.mayPost_congr rfl rfl rfl y
  · exact State.setPosted_mayPost s x _ y

theorem memWrite_posted_of_ne {x y : Agent} {a : Nat} {bs : List Byte} (h : memWrite x a bs s = .ok t) (hy : y ≠ x) :
    t.posted y = s.posted y := by
  obtain ⟨k, -, ⟨-, rfl⟩ | ⟨-, rfl⟩⟩ := memWrite_ok h
  · cases y <;> rfl
  · exact ((Quiet.emit _ (by simp)).posted y).trans (State.setPosted_posted_of_ne _ hy)

/-- Under SC a write is visible at once and nothing is posted (R36, R66). -/
theorem memWrite_posted_of_sc {x : Agent} {a : Nat} {bs : List Byte} (h : memWrite x a bs s = .ok t)
    (hsc : s.cfg.postedOrder = .sc) (y : Agent) : t.posted y = s.posted y := by
  obtain ⟨k, -, ⟨-, rfl⟩ | ⟨hne, -⟩⟩ := memWrite_ok h
  · cases y <;> rfl
  · exact absurd hsc hne

/-- A write of agent `x` that leaves it before its barrier. -/
theorem State.postedInv.write {x : Agent} {a : Nat} {bs : List Byte} (hs : s.postedInv) (hw : memWrite x a bs s = .ok u)
    (after : Quiet u t) (hx : t.mayPost x ∨ u.posted x = []) (hmay : ∀ y, y ≠ x → u.mayPost y → t.mayPost y) :
    t.postedInv := by
  obtain ⟨hdrained, hsc⟩ := State.postedInv_iff.1 hs
  refine State.postedInv_iff.2 ⟨fun y hy => ?_, fun hc y => ?_⟩
  · rw [after.posted]
    by_cases hyx : y = x
    · subst hyx
      exact hx.resolve_left hy
    · rw [memWrite_posted_of_ne hw hyx]
      exact hdrained y fun hm => hy (hmay y hyx ((memWrite_mayPost hw y).2 hm))
  · have hc : s.cfg.postedOrder = .sc := (memWrite_records hw).cfg ▸ after.records.cfg ▸ hc
    rw [after.posted, memWrite_posted_of_sc hw hc, hsc hc]

/-- A step of HOST that posts nothing leaves no write behind its barrier. -/
theorem State.postedInv.ofHost (hs : s.postedInv) (hcfg : t.cfg = s.cfg) (hposted : ∀ x, t.posted x = s.posted x)
    (hbh : t.bh.pc = s.bh.pc) (htx : t.txc = s.txc) (hhost : s.mayPost .host → s.host.posted = []) : t.postedInv := by
  refine hs.keep hcfg (fun x hx => (hposted x).trans hx) fun x hm => ?_
  cases x with
  | host => exact .inr (hhost hm)
  | bh => exact .inl (hbh.trans hm)
  | txc k => exact .inl (by simpa only [State.mayPost, htx] using hm)
  | irq | dev | memsys => exact hm.elim

/-- A step of a transmit caller that posts nothing leaves no write behind its barrier. -/
theorem State.postedInv.ofCaller {k : Nat} {c : TxAgent} {f : TxAgent → TxAgent} (hs : s.postedInv) (hq : Quiet s t)
    (hhost : t.host.pc = s.host.pc) (hbh : t.bh.pc = s.bh.pc) (hc : s.txc[k]? = some c) (hf : t.txc = s.txc.modify k f)
    (hdrained : c.pc.undrained → s.posted (.txc k) = [] ∨ (f c).pc.undrained) : t.postedInv := by
  refine hs.keep hq.records.cfg (fun x hx => (hq.posted x).trans hx) fun x hm => ?_
  cases x with
  | host => exact .inl (by simpa only [State.mayPost, hhost] using hm)
  | bh => exact .inl (hbh.trans hm)
  | txc j =>
    obtain ⟨c', hc', hu⟩ := hm
    by_cases hkj : k = j
    · subst hkj
      obtain rfl := Option.some.inj (hc.symm.trans hc')
      exact (hdrained hu).symm.imp_left fun e => ⟨f c, by simp [hf, hc], e⟩
    · exact .inl ⟨c', by simp [hf, List.getElem?_modify_ne _ _ hkj, hc'], hu⟩
  | irq | dev | memsys => exact hm.elim

/-- HOST is at a pc with nothing posted. -/
theorem State.not_mayPost_host {pc : HostPc} (hp : s.host.pc = pc) (h : pc ≠ .aInitTx ∧ pc ≠ .aWmb) : ¬ s.mayPost .host := by
  rintro (e | e)
  · exact h.1 (hp.symm.trans e)
  · exact h.2 (hp.symm.trans e)

theorem hostImages_mayPost : ∀ p ∈ hostImages, p.2 = .aInitTx ∨ p.2 = .aWmb := by decide

theorem hostReleases_not_mayPost : ∀ p ∈ hostReleases, p.1 ≠ .aInitTx ∧ p.1 ≠ .aWmb := by decide

theorem hostAllocs_not_mayPost : ∀ p ∈ hostAllocs, p.1 ≠ .aInitTx ∧ p.1 ≠ .aWmb := by decide

theorem HostStep.postedInv (hs : s.postedInv) (h : HostStep s t) : t.postedInv := by
  have calm {u : State} {pc : HostPc} (hp : s.host.pc = pc) (hpc : pc ≠ .aInitTx ∧ pc ≠ .aWmb) (hcfg : u.cfg = s.cfg)
      (hposted : ∀ x, u.posted x = s.posted x) (hbh : u.bh.pc = s.bh.pc) (htx : u.txc = s.txc) : u.postedInv :=
    hs.ofHost hcfg hposted hbh htx fun hm => absurd hm (State.not_mayPost_host hp hpc)
  cases h with
  | advance pcs routine drained =>
    refine hs.ofHost routine.holdings.cfg routine.quiet.posted routine.engines.1 routine.engines.2 ?_
    rintro (e | e)
    · rw [e] at pcs
      simp [hostAdvances] at pcs
    · exact drained e
  | fail hp next routine =>
    refine hs.ofHost routine.holdings.cfg routine.quiet.posted routine.engines.1 routine.engines.2 ?_
    rintro (e | e) <;> exact absurd (e ▸ hp) (by decide)
  | @image a bs u pc pcs hw =>
    have hquiet : Quiet u (u.hostGo pc) := ⟨⟨rfl, rfl, rfl, rfl, .refl _⟩, rfl, fun x => by cases x <;> rfl⟩
    refine hs.write hw hquiet (.inl ?_) fun y hy hm => ?_
    · exact hostImages_mayPost _ pcs
    · cases y with
      | host => exact absurd rfl hy
      | _ => exact hm
  | @alloc k loc dma pc pcs fresh =>
    exact calm rfl (hostAllocs_not_mayPost _ pcs) rfl (fun x => by cases x <;> rfl) rfl rfl
  | @release pc last hp pcs =>
    rw [releaseLast_frame s]
    exact calm hp (hostReleases_not_mayPost _ pcs) rfl (fun x => by cases x <;> rfl) rfl rfl
  | aCheck hp | aMap hp | aIrq hp | aEnable hp | aDone hp | aFailed hp | dCheck hp | dQuiesce hp | dIrqrel hp | dDone hp =>
    exact calm hp (by decide) rfl (fun x => by cases x <;> rfl) rfl rfl

theorem bhMicro_postedInv {d : Draws} {n : Nat} (hs : s.postedInv) (h : bhMicro d { s with drawCount := n } = .done t) :
    t.postedInv := by
  have hs' : { s with drawCount := n }.postedInv :=
    hs.keep rfl (fun x hx => ((Quiet.setDraws n).posted x).trans hx) fun x hm => .inl ((State.mayPost_congr rfl rfl rfl x).2 hm)
  obtain ⟨a, bs, u, hu, rfl⟩ | ⟨hq, hdrained⟩ := bhMicro_posts_or_quiet h
  · refine hs'.write hu (.bhGo _) (.inl rfl) fun y hy hm => ?_
    cases y with
    | bh => exact absurd rfl hy
    | _ => exact hm
  · refine hs'.keep hq.records.cfg (fun x hx => (hq.posted x).trans hx) fun x hm => ?_
    have hf := bhMicro_frame h
    cases x with
    | host => rw [hf]; exact .inl hm
    | bh => exact .inr (hdrained hm)
    | txc k => rw [hf]; exact .inl hm
    | irq | dev | memsys => exact hm.elim

theorem txMicro_postedInv {k : Nat} (hs : s.postedInv) (h : txMicro k s = .done t) : t.postedInv := by
  obtain ⟨a, bs, u, pc, hu, rfl, hpc⟩ | ⟨hq, c, f, hc, hf, hdrained⟩ := txMicro_posts_or_quiet h
  · refine hs.write hu (.txGo k pc) ?_ fun y hy hm => ?_
    · cases hk : u.txc[k]? with
      | none => exact .inr (by simp [State.posted, hk])
      | some c => exact .inl ⟨{ c with pc := pc }, by simp [hk], hpc⟩
    · cases y with
      | txc j =>
        have hkj : k ≠ j := fun e => hy (e ▸ rfl)
        simpa [State.mayPost, List.getElem?_modify_ne _ _ hkj] using hm
      | _ => exact hm
  · exact hs.ofCaller hq (by rw [txMicro_frame h]) (by rw [txMicro_frame h]) hc hf hdrained

/-- A landing takes one entry off one list, which it finds not empty (R263). -/
theorem land_postedInv {x : Agent} {pos : Nat} (hs : s.postedInv) (h : land x pos s = .done t) : t.postedInv := by
  obtain ⟨e, k, he, -, -, rfl⟩ := land_done h
  refine hs.keep (by simp) (fun y hy => ?_) fun y hm => .inl ((State.setPosted_mayPost _ x _ y).2 hm)
  rw [(Quiet.emit _ (by simp)).posted]
  by_cases hyx : y = x
  · subst hyx
    simp [hy] at he
  · rw [State.setPosted_posted_of_ne _ hyx]
    exact hy

theorem Completes.postedInv {x : Agent} (hs : s.postedInv) (h : Completes s x t) : t.postedInv := by
  by_cases hx : x = .host
  · subst hx
    exact h.hostStep.postedInv hs
  have still {u : State} (hcfg : u.cfg = s.cfg) (hposted : ∀ y, u.posted y = s.posted y) (hhost : u.host.pc = s.host.pc)
      (hbh : u.bh.pc = s.bh.pc) (htx : u.txc = s.txc) : u.postedInv :=
    hs.keep hcfg (fun y hy => (hposted y).trans hy) fun y hm => .inl ((State.mayPost_congr hhost hbh htx y).2 hm)
  cases h with
  | irqTop => exact still rfl (fun x => by cases x <;> rfl) rfl rfl rfl
  | irq h =>
    have hf := irqMicro_frame h
    exact still (irqMicro_quiet h).records.cfg (irqMicro_quiet h).posted (by rw [hf]) (by rw [hf]) (by rw [hf])
  | start he =>
    simp only [State.bhRunEnabled, Bool.and_eq_true, beq_iff_eq] at he
    obtain ⟨⟨hidle, -⟩, -⟩ := he
    refine hs.keep rfl (fun y hy => by cases y <;> exact hy) fun y hm => ?_
    cases y with
    | bh => exact absurd (hidle.symm.trans hm) (by decide)
    | _ => exact .inl hm
  | bh d n h => exact bhMicro_postedInv hs h
  | submit k len frame hl h =>
    have hq := txIssue_quiet h
    obtain ⟨c, hc, hp, rfl⟩ := txIssue_done h
    exact hs.ofCaller hq rfl rfl hc rfl fun hu => absurd (hp ▸ hu) (by decide)
  | tx k h => exact txMicro_postedInv hs h
  | land x pos h => exact land_postedInv hs h
  | rxClaim h => rw [devRxClaim_frame h]; exact still rfl (fun x => by cases x <;> rfl) rfl rfl rfl
  | rxWb d h => rw [devRxWb_frame h]; exact still rfl (fun x => by cases x <;> rfl) rfl rfl rfl
  | xmit h => rw [devTxXmit_frame h]; exact still rfl (fun x => by cases x <;> rfl) rfl rfl rfl
  | rstDone d h =>
    obtain ⟨-, rfl⟩ := devRstDone_done h
    exact still rfl (fun x => by cases x <;> rfl) rfl rfl rfl
  | wireIn | rxDrop | cause => exact still rfl (fun x => by cases x <;> rfl) rfl rfl rfl
  | sched | regRd | regWr | wmb | attach | detach | host => exact absurd rfl hx

/-! ## `life` (R21, R310, R320) -/

/-- Only the phase of HOST's pc and `life` decide the invariant of `life`. -/
theorem State.lifeInv_congr (hpc : t.host.pc.phase = s.host.pc.phase) (hlife : t.life = s.life) : t.lifeInv ↔ s.lifeInv := by
  simp only [State.lifeInv, hpc, hlife]

theorem State.lifeInv_attaching (h : s.host.pc.phase = .attaching) : s.lifeInv ↔ s.life = .attaching := by
  simp only [State.lifeInv, h]

theorem hostAdvances_phase : ∀ p ∈ hostAdvances, p.2.phase = p.1.phase := by decide

theorem hostAllocs_phase : ∀ p ∈ hostAllocs, p.2.2.phase = p.1.phase := by decide

theorem hostFails_phase : ∀ pc ∈ hostFails, pc.phase = .attaching := by decide

theorem memWrite_sameHoldings {x : Agent} {a : Nat} {bs : List Byte} (h : memWrite x a bs s = .ok t) :
    SameHoldings s t ∧ t.host.pc = s.host.pc := by
  obtain ⟨k, -, ⟨-, rfl⟩ | ⟨-, rfl⟩⟩ := memWrite_ok h
  · exact ⟨⟨rfl, rfl, rfl, rfl, rfl⟩, rfl⟩
  · exact ⟨⟨by simp, by simp, by simp, by simp, by simp⟩, by simp⟩

theorem hostImages_phase : ∀ p ∈ hostImages, p.2.phase = p.1.phase := by decide

theorem hostReleases_phase : ∀ p ∈ hostReleases, p.2.phase = p.1.phase := by decide

theorem HostStep.lifeInv (hs : s.lifeInv) (h : HostStep s t) : t.lifeInv := by
  have same {u : State} (hpc : u.host.pc.phase = s.host.pc.phase) (hlife : u.life = s.life) : u.lifeInv :=
    (State.lifeInv_congr hpc hlife).2 hs
  cases h with
  | advance pcs routine drained => exact same (hostAdvances_phase _ pcs) routine.holdings.life
  | image pcs hw => exact same (hostImages_phase _ pcs) (memWrite_sameHoldings hw).1.life
  | fail hp next routine =>
    refine same ?_ routine.holdings.life
    rw [next, hostFails_phase _ hp]
    split <;> rfl
  | alloc pcs => exact same (hostAllocs_phase _ pcs) rfl
  | @release pc last hp pcs =>
    refine same ?_ (by rw [releaseLast_frame s]; rfl)
    rw [State.hostGo_host, hp]
    simp only [apply_ite HostPc.phase, hostReleases_phase _ pcs, ite_self]
  | aMap hp | aIrq hp | aEnable hp | dQuiesce hp | dIrqrel hp => exact same (by rw [hp]; rfl) rfl
  | aCheck | dCheck => exact rfl
  | aDone => exact .inr rfl
  | aFailed | dDone => exact .inl rfl

/-! ## The device's DMA is off (R37, R294, R297, R322) -/

/-- The device units are off, with nothing claimed and no frame part-way. -/
def Dev.off (d : Dev) : Prop := d.rxEnabled = false ∧ d.txEnabled = false ∧ d.cur = none ∧ d.rxClaimed = []

/-- Where HOST stands while it keeps the DMA off: in ATTACH up to A_ENABLE, in DETACH after D_QUIESCE. -/
abbrev HostPc.dmaOff (pc : HostPc) : Prop := (pc.phase = .attaching ∧ pc ≠ .aDone) ∨ (pc.phase = .detaching ∧ pc ≠ .dQuiesce)

theorem State.dmaOff_iff : s.dmaOff ↔ s.life = .detached ∨ s.host.pc.dmaOff := .rfl

theorem hostAdvances_dmaOff : ∀ p ∈ hostAdvances, p.2.dmaOff → p.1.dmaOff := by decide

theorem hostFails_dmaOff : ∀ pc ∈ hostFails, pc.dmaOff := by decide

theorem hostImages_dmaOff : ∀ p ∈ hostImages, p.1.dmaOff := by decide

theorem hostReleases_dmaOff : ∀ p ∈ hostReleases, p.1.dmaOff := by decide

theorem hostAllocs_dmaOff : ∀ p ∈ hostAllocs, p.1.dmaOff := by decide

/-- With the DMA off before the step, it is enough that the step leaves the units off. -/
theorem State.devInv.keep (hs : s.devInv) (hlife : t.lifeInv) (hoff : t.dmaOff → s.dmaOff) (hdev : s.dev.off → t.dev.off) :
    t.devInv := ⟨hlife, fun h => hdev (hs.2 (hoff h))⟩

theorem memWrite_dev {x : Agent} {a : Nat} {bs : List Byte} (h : memWrite x a bs s = .ok t) : t.dev = s.dev := by
  obtain ⟨k, -, ⟨-, rfl⟩ | ⟨-, rfl⟩⟩ := memWrite_ok h <;> simp

theorem HostStep.devInv (hs : s.devInv) (h : HostStep s t) : t.devInv := by
  have hlife : t.lifeInv := h.lifeInv hs.1
  have already (hoff : s.host.pc.dmaOff) (hdev : s.dev.off → t.dev.off) : t.devInv := hs.keep hlife (fun _ => .inr hoff) hdev
  have running (hon : t.life ≠ .detached) (hpc : ¬ t.host.pc.dmaOff) : t.devInv := ⟨hlife, fun h => (h.elim hon hpc).elim⟩
  cases h with
  | advance pcs routine drained =>
    refine hs.keep hlife (fun h => ?_) fun h => by rw [routine.units]; exact h
    rw [State.dmaOff_iff, routine.holdings.life] at h
    exact h.imp_right (hostAdvances_dmaOff _ pcs)
  | image pcs hw =>
    exact already (hostImages_dmaOff _ pcs) fun h => by rw [State.hostGo_dev, memWrite_dev hw]; exact h
  | fail hp next routine => exact already (hostFails_dmaOff _ hp) fun h => by rw [routine.units]; exact h
  | alloc pcs => exact already (hostAllocs_dmaOff _ pcs) id
  | release hp pcs =>
    exact already (hp ▸ hostReleases_dmaOff _ pcs) fun h => by rw [releaseLast_frame s]; exact h
  | aCheck hp hl => exact hs.keep hlife (fun _ => .inl hl) id
  | aEnable hp =>
    have hl : s.life = .attaching := (State.lifeInv_attaching (by rw [hp]; rfl)).1 hs.1
    exact running (by simp [hl]) (by decide : ¬ HostPc.aDone.dmaOff)
  | aDone hp => exact running (by simp) (by decide : ¬ HostPc.idle.dmaOff)
  | dCheck hp hl => exact running (by simp) (by decide : ¬ HostPc.dQuiesce.dmaOff)
  | dQuiesce hp => exact ⟨hlife, fun _ => ⟨rfl, rfl, rfl, rfl⟩⟩
  | aMap hp | aIrq hp | aFailed hp | dIrqrel hp | dDone hp => exact already (by rw [hp]; decide) id

/-- With its units off, DEV claims and writes back nothing; the other agents do not reach the units. -/
theorem Completes.dev_off {x : Agent} (hx : x ≠ .host) (hoff : s.dev.off) (h : Completes s x t) : t.dev.off := by
  cases h with
  | irq h => rw [irqMicro_frame h]; exact hoff
  | bh d n h => rw [bhMicro_frame h]; exact hoff
  | submit k len frame hl h => obtain ⟨c, -, -, rfl⟩ := txIssue_done h; exact hoff
  | tx k h => rw [txMicro_frame h]; exact hoff
  | land y pos h => obtain ⟨e, k, -, -, -, rfl⟩ := land_done h; simpa using hoff
  | rxClaim h =>
    obtain ⟨-, hon, -⟩ := devRxClaim_done h
    obtain ⟨hrx, -⟩ := hoff
    exact absurd (hon.symm.trans hrx) (by decide)
  | rxWb d h =>
    obtain ⟨c, rest, -, hc, -⟩ := devRxWb_done h
    obtain ⟨-, -, -, hclaimed⟩ := hoff
    exact absurd (hc.symm.trans hclaimed) (by simp)
  | xmit h => rw [devTxXmit_frame h]; exact hoff
  | rstDone d h => obtain ⟨-, rfl⟩ := devRstDone_done h; exact ⟨rfl, rfl, rfl, rfl⟩
  | irqTop | start | wireIn | rxDrop | cause => exact hoff
  | sched | regRd | regWr | wmb | attach | detach | host => exact absurd rfl hx

theorem Completes.devInv {x : Agent} (hs : s.devInv) (h : Completes s x t) : t.devInv := by
  by_cases hx : x = .host
  · subst hx
    exact h.hostStep.devInv hs
  · obtain ⟨hsame, hpc⟩ := h.sameHoldings hx
    refine hs.keep ((State.lifeInv_congr (by rw [hpc]) hsame.life).2 hs.1) (fun hoff => ?_) fun hoff => h.dev_off hx hoff
    rwa [State.dmaOff_iff, hsame.life, hpc] at hoff

/-- A step in which DEV accesses no memory: memory is as before, and the record grows by no access and no fault of DEV. -/
def DevQuiet (s t : State) : Prop :=
  t.mem = s.mem ∧ ∃ new, t.history = s.history ++ new
    ∧ ∀ e ∈ new, (∀ dir a bs, e ≠ .mem .dev dir a bs) ∧ ∀ c f, e ≠ .fault c .dev f

theorem DevQuiet.of_same (hmem : t.mem = s.mem) (hhist : t.history = s.history) : DevQuiet s t :=
  ⟨hmem, [], by simp [hhist], by simp⟩

/-- What a turn of DEV has to avoid: a fault, and a completed access. -/
theorem take_devQuiet {m : Micro} (h : take .dev s m = .next t) (hraise : ∀ f, m ≠ .raise f)
    (hdone : m = .done t → DevQuiet s t) : DevQuiet s t := by
  obtain rfl | ⟨-, hd⟩ | ⟨-, f, hf, -⟩ := take_next h
  · exact .of_same rfl rfl
  · exact hdone hd
  · exact absurd hf (hraise f)

theorem take_hold_devQuiet {m : Micro} (hm : m = .hold) (h : take .dev s m = .next t) : DevQuiet s t :=
  take_devQuiet h (by simp [hm]) (by simp [hm])

theorem devRxClaim_of_off (hoff : s.dev.off) : devRxClaim s = .hold := by
  simp [devRxClaim, State.rxClaimEnabled, hoff.1]

theorem devRxWb_of_off (d : WbDraws) (hoff : s.dev.off) : devRxWb d s = .hold := by
  obtain ⟨-, -, -, hclaimed⟩ := hoff
  simp [devRxWb, hclaimed]

theorem devTxXmit_of_off (hoff : s.dev.off) : devTxXmit s = .hold := by
  simp [devTxXmit, State.xmitEnabled, hoff.2.1]

theorem rxDropEnabled_of_off (hoff : s.dev.off) : s.rxDropEnabled = false := by
  simp [State.rxDropEnabled, hoff.1]

theorem recorded_dev_if (c : Prop) [Decidable c] : (if c then recorded .dev s else Micro.hold) = .hold := by
  split <;> rfl

theorem exec_devQuiet {i : Instr} (hoff : s.dev.off) (hi : Instr.actor i = .dev) (h : exec i s = .next t) : DevQuiet s t := by
  cases i with
  | devRxClaim => exact take_hold_devQuiet (devRxClaim_of_off hoff) h
  | devRxWb d => exact take_hold_devQuiet (devRxWb_of_off d hoff) h
  | devTxXmit => exact take_hold_devQuiet (devTxXmit_of_off hoff) h
  | devRxDrop => exact take_hold_devQuiet (by simp [rxDropEnabled_of_off hoff]) h
  | devCause c =>
    refine take_devQuiet h (fun f => ?_) fun hd => ?_
    · split <;> simp
    · split at hd <;> cases hd
      exact .of_same rfl rfl
  | devRstDone d =>
    refine take_devQuiet h (fun f => ?_) fun hd => ?_
    · unfold devRstDone
      split <;> simp
    · obtain ⟨-, rfl⟩ := devRstDone_done hd
      exact .of_same rfl rfl
  | devWireIn len frame =>
    refine take_devQuiet (m := .done _) h (by simp) fun hd => ?_
    cases hd
    exact ⟨rfl, [.wireIn frame], rfl, by simp⟩
  | bhSched x => subst hi; cases h; exact .of_same rfl rfl
  | regRd x off =>
    subst hi
    exact take_hold_devQuiet (recorded_dev_if _) ((execRegRd_record off s (by decide)).symm.trans h)
  | regWr x off v =>
    subst hi
    exact take_hold_devQuiet (recorded_dev_if _) ((execRegWr_record off v s (by decide)).symm.trans h)
  | wmb x =>
    subst hi
    exact take_hold_devQuiet (recorded_dev_if _) ((execWmb_record s (by decide)).symm.trans h)
  | irqTop | bhRun | rxRun | txSubmit | memDrain | attach | detach => cases hi

theorem State.moves.devQuiet (hoff : s.dev.off) (h : s.moves .dev t) : DevQuiet s t := by
  obtain ⟨i, hi, he⟩ | ⟨d, hd⟩ := h
  · exact exec_devQuiet hoff hi he
  · cases hd
    exact .of_same rfl rfl

/-! ## Resources (R21, R25, R35, R313, R314) -/

/-- How many entries of the full list may be acquired at a pc of HOST. -/
def HostPc.holds (pc : HostPc) (l : Life) : List Nat :=
  match pc with
  | .idle | .aCheck | .dCheck => [if l = .detached then 0 else 6]
  | .aMap | .aFailed | .dDone => [0]
  | .aRstRd | .aRstWr | .aPoll | .aLinkRd | .aLinkWr | .aRxdesc => [1]
  | .aRxbuf => [2]
  | .aTxdesc => [3]
  | .aTxbuf => [4]
  | .aInitRx | .aInitTx | .aWmb | .aRdbal | .aRdbah | .aRdlen | .aRdt | .aTdbal | .aTdbah | .aTdlen | .aTdt | .aState | .aIrq
  | .dBh | .dBhwait | .dTxwait | .dAcc => [5]
  | .aIms | .aEnable | .aDone | .dQuiesce | .dImc | .dIrqrel => [6]
  | .aUnwind | .dRel => List.range' 1 5

theorem State.acquiredOk_iff : s.acquiredOk ↔ ∃ n ∈ s.host.pc.holds s.life, s.acquired = fullAcquired.take n := by
  cases hp : s.host.pc
  case aUnwind | dRel =>
    simp only [State.acquiredOk, hp, HostPc.holds, List.mem_range'_1, and_assoc]
    exact exists_congr fun n => and_congr_right fun _ => and_congr_left fun _ => by omega
  case idle | aCheck | dCheck =>
    by_cases hl : s.life = .detached <;> simp [State.acquiredOk, hp, HostPc.holds, hl, fullAcquired]
  all_goals simp [State.acquiredOk, hp, HostPc.holds, fullAcquired]

/-- The first `n` resources are acquired; the live regions and the registration are what is acquired. -/
structure Holds (s : State) (n : Nat) : Prop where
  acquired : s.acquired = fullAcquired.take n
  live : ∀ k, (s.regions.get k).live = true ↔ Resource.region k ∈ fullAcquired.take n
  registered : s.irq.registered = true ↔ Resource.irq ∈ fullAcquired.take n

theorem State.resourceInv_iff : s.resourceInv ↔ s.lifeInv ∧ ∃ n ∈ s.host.pc.holds s.life, Holds s n := by
  simp only [State.resourceInv, State.acquiredOk_iff]
  constructor
  · rintro ⟨hlife, ⟨n, hn, ha⟩, hlive, hreg⟩
    exact ⟨hlife, n, hn, ha, fun k => ha ▸ hlive k, ha ▸ hreg⟩
  · rintro ⟨hlife, n, hn, h⟩
    exact ⟨hlife, ⟨n, hn, h.acquired⟩, fun k => h.acquired ▸ h.live k, h.acquired ▸ h.registered⟩

theorem Holds.congr {n : Nat} (h : Holds s n) (hacq : t.acquired = s.acquired) (hreg : t.regions = s.regions)
    (hirq : t.irq.registered = s.irq.registered) : Holds t n :=
  ⟨hacq.trans h.acquired, hreg ▸ h.live, hirq ▸ h.registered⟩

/-- No resource is listed twice. -/
theorem fullAcquired_nodup : fullAcquired.Nodup := by decide

theorem mem_take_succ {n : Nat} {x y : Resource} (hx : fullAcquired[n]? = some x) :
    y ∈ fullAcquired.take (n + 1) ↔ y ∈ fullAcquired.take n ∨ x = y := by
  simp [List.take_add_one, hx, eq_comm]

theorem mem_take_iff_of_succ {n : Nat} {x y : Resource} (hx : fullAcquired[n]? = some x) :
    y ∈ fullAcquired.take n ↔ y ∈ fullAcquired.take (n + 1) ∧ x ≠ y := by
  have hnodup : (fullAcquired.take n ++ [x]).Nodup := by
    have := (List.take_sublist (n + 1) fullAcquired).nodup fullAcquired_nodup
    simpa [List.take_add_one, hx] using this
  have hfresh : x ∉ fullAcquired.take n := fun hm =>
    List.disjoint_of_nodup_append hnodup hm (List.mem_singleton.2 rfl)
  rw [mem_take_succ hx]
  constructor
  · exact fun h => ⟨.inl h, fun e => hfresh (e ▸ h)⟩
  · exact fun ⟨h, hne⟩ => h.resolve_right hne

/-- The next resource is acquired. -/
theorem Holds.push {n : Nat} {x : Resource} (h : Holds s n) (hx : fullAcquired[n]? = some x)
    (hacq : t.acquired = s.acquired ++ [x])
    (hlive : ∀ k, (t.regions.get k).live = true ↔ (s.regions.get k).live = true ∨ x = .region k)
    (hreg : t.irq.registered = true ↔ s.irq.registered = true ∨ x = .irq) : Holds t (n + 1) where
  acquired := by rw [hacq, h.acquired, List.take_add_one, hx]; rfl
  live k := by rw [hlive, mem_take_succ hx, h.live]
  registered := by rw [hreg, mem_take_succ hx, h.registered]

/-- The newest resource is released. -/
theorem Holds.pop {n : Nat} {x : Resource} (h : Holds s (n + 1)) (hx : fullAcquired[n]? = some x)
    (hacq : t.acquired = fullAcquired.take n)
    (hlive : ∀ k, (t.regions.get k).live = true ↔ (s.regions.get k).live = true ∧ x ≠ .region k)
    (hreg : t.irq.registered = true ↔ s.irq.registered = true ∧ x ≠ .irq) : Holds t n where
  acquired := hacq
  live k := by rw [hlive, mem_take_iff_of_succ hx, h.live]
  registered := by rw [hreg, mem_take_iff_of_succ hx, h.registered]

theorem State.release_life (s : State) (x : Resource) : (s.release x).life = s.life := by cases x <;> rfl

theorem State.release_live (s : State) (x : Resource) (k : RegionKind) :
    ((s.release x).regions.get k).live = true ↔ (s.regions.get k).live = true ∧ x ≠ .region k := by
  cases x with
  | region j =>
    by_cases hkj : k = j
    · simp [State.release, hkj]
    · simp [State.release, hkj, Ne.symm hkj]
  | map | irq => simp [State.release]

theorem State.release_registered (s : State) (x : Resource) :
    (s.release x).irq.registered = true ↔ s.irq.registered = true ∧ x ≠ .irq := by
  cases x <;> simp [State.release]

theorem Holds.releaseLast_eq {n : Nat} {x : Resource} (h : Holds s (n + 1)) (hx : fullAcquired[n]? = some x) :
    s.releaseLast = { s.release x with acquired := fullAcquired.take n } := by
  have hacq : s.acquired = fullAcquired.take n ++ [x] := by rw [h.acquired, List.take_add_one, hx]; rfl
  simp [State.releaseLast, hacq]

/-! ## Coherent memory (R25, R62) -/

/-- The memory part of the invariant: the canonical form, and no byte outside the live regions. -/
def State.memOk (s : State) : Prop := Memory.wf s.mem ∧ ∀ p ∈ s.mem, s.dmaLive p.1 = true

theorem State.dmaLive_iff {a : Nat} : s.dmaLive a = true
    ↔ ∃ k, (s.regions.get k).live = true ∧ (s.regions.get k).dma ≤ a ∧ a < (s.regions.get k).dma + regionSize s.cfg k := by
  have hall (k : RegionKind) : k ∈ allRegions := by cases k <;> decide
  simp [State.dmaLive, hall, and_assoc]

theorem State.memOk.congr (h : s.memOk) (hmem : t.mem = s.mem) (hreg : t.regions = s.regions) (hcfg : t.cfg = s.cfg) :
    t.memOk := by
  obtain ⟨hwf, hlive⟩ := h
  refine ⟨hmem ▸ hwf, fun p hp => ?_⟩
  simpa only [State.dmaLive, hreg, hcfg] using hlive p (hmem ▸ hp)

theorem State.memOk.write {a : Nat} {bs : List Byte} (h : s.memOk) (hlive : ∀ i < bs.length, s.dmaLive (a + i) = true) :
    { s with mem := s.mem.write a bs }.memOk := by
  refine ⟨Memory.wf_write _ _ _ h.1, fun p hp => ?_⟩
  obtain hp | ⟨hlo, hhi⟩ := Memory.mem_write hp
  · exact h.2 p hp
  · have := hlive (p.1 - a) (by omega)
    rwa [Nat.add_sub_cancel' hlo] at this

/-- An allocation of a region that is not live takes no byte out of a live one. -/
theorem State.memOk.allocate {k : RegionKind} (loc dma : Nat) (h : s.memOk) (hk : (s.regions.get k).live ≠ true) :
    (s.allocate k loc dma).memOk := by
  refine ⟨Memory.wf_clear _ _ _ h.1, fun p hp => ?_⟩
  obtain ⟨j, hj, hlo, hhi⟩ := State.dmaLive_iff.1 (h.2 p (Memory.mem_clear.1 hp).1)
  have hjk : j ≠ k := fun e => hk (e ▸ hj)
  exact State.dmaLive_iff.2 ⟨j, by simp [hjk, hj, hlo, hhi]⟩

/-- A release takes the bytes of its region with it. -/
theorem State.memOk.release (x : Resource) (h : s.memOk) : (s.release x).memOk := by
  cases x with
  | map => exact h
  | irq => exact h.congr rfl rfl rfl
  | region k =>
    refine ⟨Memory.wf_clear _ _ _ h.1, fun p hp => ?_⟩
    obtain ⟨hp, hout⟩ := Memory.mem_clear.1 hp
    obtain ⟨j, hj, hlo, hhi⟩ := State.dmaLive_iff.1 (h.2 p hp)
    have hjk : j ≠ k := by
      rintro rfl
      omega
    exact State.dmaLive_iff.2 ⟨j, by simp [State.release, hjk, hj, hlo, hhi]⟩

theorem memWrite_memOk {x : Agent} {a : Nat} {bs : List Byte} (hs : s.memOk) (h : memWrite x a bs s = .ok t) : t.memOk := by
  obtain ⟨k, hk, ⟨-, rfl⟩ | ⟨-, rfl⟩⟩ := memWrite_ok h
  · exact (hs.write fun i hi => State.dmaLive_of_localRegion hk hi).congr rfl rfl rfl
  · exact hs.congr (by simp) (by simp) (by simp)

theorem land_memOk {x : Agent} {pos : Nat} (hs : s.memOk) (h : land x pos s = .done t) : t.memOk := by
  obtain ⟨e, k, -, -, hk, rfl⟩ := land_done h
  exact (hs.write fun i hi => State.dmaLive_of_localRegion hk hi).congr (by simp) (by simp) (by simp)

/-- Part of a descriptor whose bytes are all live. -/
theorem State.dmaLive_of_firstDead {a n off i : Nat} (h : s.firstDead a n = none) (hi : off + i < n) :
    s.dmaLive (a + off + i) = true := by
  rw [Nat.add_assoc]
  exact State.firstDead_none h _ hi

@[simp] theorem wbBytes_length (c : Claim) (d : WbDraws) : (wbBytes c d).length = 8 := by
  simp [wbBytes]

theorem devRxWb_memOk {d : WbDraws} (hs : s.memOk) (h : devRxWb d s = .done t) : t.memOk := by
  obtain ⟨c, rest, -, -, hdesc, hbuf, rfl⟩ := devRxWb_done h
  obtain ⟨ev, he⟩ := wbEffect_state c rest (ofLeBytes (devRead (s.devRxd c.slot) 8 s).1) d (devRead (s.devRxd c.slot) 8 s).2
  rw [he]
  generalize ofLeBytes (devRead (s.devRxd c.slot) 8 s).1 = a at hbuf
  have hchunk : { s with mem := if c.chunk = [] then s.mem else s.mem.write a c.chunk }.memOk := by
    split
    · exact hs
    · exact hs.write fun i hi => State.firstDead_none hbuf i hi
  have hstatus (i : Nat) (hi : i < (wbBytes c d).length) : s.dmaLive (s.devRxd c.slot + 8 + i) = true :=
    State.dmaLive_of_firstDead hdesc (by rw [wbBytes_length] at hi; simp only [descSize]; omega)
  exact (hchunk.write hstatus).congr rfl rfl rfl

theorem devTxXmit_memOk (hs : s.memOk) (h : devTxXmit s = .done t) : t.memOk := by
  obtain ⟨-, -, -, hdesc, r, a, n, q, rfl, -, -, -, rfl, rfl⟩ := devTxXmit_done h
  obtain ⟨c₁, hr⟩ := devRead_state (s.devTxd s.regs.tdh.toNat) descSize s
  obtain ⟨c₂, ev₂, hq⟩ := devReadFrame_state a n (devRead (s.devTxd s.regs.tdh.toNat) descSize s).2
  obtain ⟨ev, he⟩ := xmitEffect_state ((devRead (s.devTxd s.regs.tdh.toNat) descSize s).1.getD 11 0)
    (devReadFrame a n (devRead (s.devTxd s.regs.tdh.toNat) descSize s).2).1
    (devReadFrame a n (devRead (s.devTxd s.regs.tdh.toNat) descSize s).2).2
  rw [he, hq, hr]
  generalize reportsStatus _ = rs
  cases rs with
  | false => exact hs.congr rfl rfl rfl
  | true =>
    have hstatus (i : Nat) (hi : i < [txDoneStatus].length) : s.dmaLive (s.devTxd s.regs.tdh.toNat + 12 + i) = true :=
      State.dmaLive_of_firstDead hdesc (by rw [List.length_singleton] at hi; simp only [descSize]; omega)
    exact (hs.write hstatus).congr rfl rfl rfl

theorem MemoryStep.memOk (hs : s.memOk) (hsame : SameHoldings s t) (h : MemoryStep s t) : t.memOk := by
  cases h with
  | quiet h => exact hs.congr h.mem hsame.regions hsame.cfg
  | @write _ _ _ n u _ hw after =>
    have hu : u.memOk := memWrite_memOk (s := { s with drawCount := n }) hs hw
    have hsame' := (memWrite_sameHoldings hw).1
    exact hu.congr after.mem (hsame.regions.trans hsame'.regions.symm) (hsame.cfg.trans hsame'.cfg.symm)
  | land h => exact land_memOk hs h
  | rxWb h => exact devRxWb_memOk hs h
  | xmit h => exact devTxXmit_memOk hs h

/-! ## HOST's steps keep both -/

theorem hostAdvances_holds (l : Life) : ∀ p ∈ hostAdvances, ∀ n ∈ p.1.holds l, n ∈ p.2.holds l := by
  cases l <;> decide

theorem hostFails_holds (l : Life) : ∀ pc ∈ hostFails, ∀ n ∈ pc.holds l,
    n ∈ (if (fullAcquired.take n).isEmpty then HostPc.aFailed else .aUnwind).holds l := by
  cases l <;> decide

theorem hostAllocs_holds (l : Life) : ∀ p ∈ hostAllocs, ∀ n ∈ p.1.holds l,
    fullAcquired[n]? = some (.region p.2.1) ∧ n + 1 ∈ p.2.2.holds l := by
  cases l <;> decide

theorem hostImages_holds (l : Life) : ∀ p ∈ hostImages, ∀ n ∈ p.1.holds l, n ∈ p.2.holds l := by
  cases l <;> decide

/-- A release goes on to the next one, or to the end when nothing is left. -/
theorem hostReleases_holds (l : Life) : ∀ p ∈ hostReleases, ∀ n ∈ p.1.holds l, n ≠ 0 ∧ n ≤ 6
    ∧ n - 1 ∈ (if (fullAcquired.take (n - 1)).isEmpty then p.2 else p.1).holds l := by
  cases l <;> decide

theorem HostStep.memInv (hs : s.memInv) (h : HostStep s t) : t.memInv := by
  have hmem : s.memOk := hs.2
  obtain ⟨hlife, n, hn, hh⟩ := State.resourceInv_iff.1 hs.1
  have hlife' : t.lifeInv := h.lifeInv hlife
  have holding {m : Nat} (hm : m ∈ t.host.pc.holds t.life) (hh' : Holds t m) (hmem' : t.memOk) : t.memInv :=
    ⟨State.resourceInv_iff.2 ⟨hlife', m, hm, hh'⟩, hmem'⟩
  cases h with
  | advance pcs routine drained =>
    obtain ⟨hcfg, hl, hacq, hreg, hirq⟩ := routine.holdings
    exact holding (hl ▸ hostAdvances_holds _ _ pcs n hn) (hh.congr hacq hreg hirq) (hmem.congr routine.quiet.mem hreg hcfg)
  | image pcs hw =>
    obtain ⟨⟨-, hl, hacq, hreg, hirq⟩, -⟩ := memWrite_sameHoldings hw
    refine holding ?_ (hh.congr hacq hreg hirq) ((memWrite_memOk hmem hw).congr rfl rfl rfl)
    rw [State.hostGo_life, hl]
    exact hostImages_holds _ _ pcs n hn
  | fail hp next routine =>
    obtain ⟨hcfg, hl, hacq, hreg, hirq⟩ := routine.holdings
    refine holding ?_ (hh.congr hacq hreg hirq) (hmem.congr routine.quiet.mem hreg hcfg)
    rw [next, hl, hh.acquired]
    exact hostFails_holds _ _ hp n hn
  | @alloc k loc dma pc pcs fresh =>
    obtain ⟨hx, hn'⟩ := hostAllocs_holds _ _ pcs n hn
    refine holding hn' (hh.push hx rfl (fun j => ?_) (by simp)) ?_
    · by_cases hjk : j = k
      · simp [hjk]
      · simp [hjk, Ne.symm hjk]
    · have hk : (s.regions.get k).live ≠ true := fun hk => ((mem_take_iff_of_succ hx).1 ((hh.live k).1 hk)).2 rfl
      exact (hmem.allocate loc dma hk).congr rfl rfl rfl
  | @release pc last hp pcs =>
    obtain ⟨hpos, hle, hn'⟩ := hostReleases_holds s.life _ pcs n (hp ▸ hn)
    obtain ⟨m, rfl⟩ := Nat.exists_eq_succ_of_ne_zero hpos
    obtain ⟨x, hx⟩ : ∃ x, fullAcquired[m]? = some x := ⟨_, List.getElem?_eq_getElem (show m < 6 by omega)⟩
    have e := hh.releaseLast_eq hx
    refine holding (m := m) ?_ (hh.pop hx (by simp [e]) (fun k => ?_) ?_) ((hmem.release x).congr ?_ ?_ ?_)
    · simpa [e, s.release_life x] using hn'
    · simpa [e] using s.release_live x k
    · simpa [e] using s.release_registered x
    all_goals simp [e]
  | aMap hp =>
    obtain rfl : n = 0 := by simpa [hp, HostPc.holds] using hn
    exact holding (m := 1) (by simp [HostPc.holds])
      (hh.push (x := .map) rfl (by simp [hh.acquired]) (by simp) (by simp)) (hmem.congr rfl rfl rfl)
  | aIrq hp =>
    obtain rfl : n = 5 := by simpa [hp, HostPc.holds] using hn
    exact holding (m := 6) (by simp [HostPc.holds]) (hh.push (x := .irq) rfl rfl (by simp) (by simp)) (hmem.congr rfl rfl rfl)
  | dIrqrel hp =>
    obtain rfl : n = 6 := by simpa [hp, HostPc.holds] using hn
    exact holding (m := 5) (by simp [HostPc.holds])
      (hh.pop (x := .irq) rfl (by simp only [State.hostGo_acquired, hh.acquired]; rfl) (by simp) (by simp)) (hmem.congr rfl rfl rfl)
  | aCheck hp hl => exact holding (by simpa [hp, hl, HostPc.holds] using hn) (hh.congr rfl rfl rfl) (hmem.congr rfl rfl rfl)
  | dCheck hp hl => exact holding (by simpa [hp, hl, HostPc.holds] using hn) (hh.congr rfl rfl rfl) (hmem.congr rfl rfl rfl)
  | aEnable hp | aDone hp | aFailed hp | dQuiesce hp | dDone hp =>
    exact holding (by simpa [hp, HostPc.holds] using hn) (hh.congr rfl rfl rfl) (hmem.congr rfl rfl rfl)

theorem Completes.memInv {x : Agent} (hs : s.memInv) (h : Completes s x t) : t.memInv := by
  by_cases hx : x = .host
  · subst hx
    exact h.hostStep.memInv hs
  · obtain ⟨hsame, hpc⟩ := h.sameHoldings hx
    obtain ⟨hlife, n, hn, hh⟩ := State.resourceInv_iff.1 hs.1
    have hlife' : t.lifeInv := (State.lifeInv_congr (by rw [hpc]) hsame.life).2 hlife
    have hh' : Holds t n := hh.congr hsame.acquired hsame.regions hsame.registered
    exact ⟨State.resourceInv_iff.2 ⟨hlife', n, by rwa [hpc, hsame.life], hh'⟩, (h.memoryStep hx).memOk hs.2 hsame⟩

end Sys2Proof.Machine

namespace Sys2Proof.Proofs
open Sys2Proof Sys2Proof.Machine

/-- Settles O9: a completed micro-step appends events that are no faults, and a fault joins the history, the fault set and the stopped agents in one
step. -/
theorem recordOnlyGrows : Obligations.RecordOnlyGrows := fun _ _ h =>
  have hg := step_recordGrows h
  ⟨hg.faults, hg.refused, hg.history, hg.stopped, hg.cfg, hg.inv⟩

/-- Settles O43: no other operation writes a head, DEV_RX_CLAIM leaves TDH and DEV_TX_XMIT leaves RDH alone, and no turn of an agent is DEV's. -/
theorem headsMovedOnlyByDevice : Obligations.HeadsMovedOnlyByDevice := by
  refine fun s t => ⟨fun i h => ?_, fun x d h => runMicro_sameHeads h⟩
  by_cases hreset : ∃ d, i = .devRstDone d
  · exact ⟨fun _ => .inr hreset, fun _ => .inr hreset⟩
  rcases eq_or_ne i .devRxClaim with rfl | hclaim
  · exact ⟨fun _ => .inl rfl, fun hne => absurd (exec_devRxClaim_tdh h) hne⟩
  rcases eq_or_ne i .devTxXmit with rfl | hxmit
  · exact ⟨fun hne => absurd (exec_devTxXmit_rdh h) hne, fun _ => .inl rfl⟩
  obtain ⟨hrdh, htdh⟩ := exec_sameHeads h hclaim hxmit fun d e => hreset ⟨d, e⟩
  exact ⟨fun hne => absurd hrdh hne, fun hne => absurd htdh hne⟩

/-- Settles O57: an agent's list grows only before its barrier, and the barrier waits for it to be empty. -/
theorem postedWritesDrainedKept : Obligations.PostedWritesDrainedKept := fun _ _ hs h =>
  step_keeps hs h (script := fun _ _ hu => hu) (pass := fun _ hu => hu) (refuse := fun _ hu => hu)
    (fault := fun _ _ _ hu => hu) (completes := fun _ _ _ _ hu hc => hc.postedInv hu)

/-- Settles O58: HOST enables the units only at A_ENABLE, which leads to A_DONE, and with the units off every access of DEV holds. -/
theorem dmaOffKept : Obligations.DmaOffKept :=
  ⟨fun _ _ hs h => step_keeps hs h (script := fun _ _ hu => hu) (pass := fun _ hu => hu) (refuse := fun _ hu => hu)
      (fault := fun _ _ _ hu => hu) (completes := fun _ _ _ _ hu hc => hc.devInv hu),
    fun _ _ hs hoff hm => hm.devQuiet (hs.2 hoff)⟩

/-- Settles O55: HOST takes and gives back one resource at a time, in the order of the full list, with the region's bytes; every write of another
agent lands inside a live region. -/
theorem resourcesAndMemoryKept : Obligations.ResourcesAndMemoryKept := fun _ _ hs h =>
  step_keeps hs h (script := fun _ _ hu => hu) (pass := fun _ hu => hu) (refuse := fun _ hu => hu)
    (fault := fun _ _ _ hu => hu) (completes := fun _ _ _ _ hu hc => hc.memInv hu)

end Sys2Proof.Proofs
end

section
/-! The statements of 30_encoding.md: the decoder and the encoder are inverse, the reserved words are refused, and a record word of another agent than
HOST is that agent's micro-step. -/

namespace Sys2Proof

open Machine (leBytes ofLeBytes)

/-! ### Stored words (R110, R118) -/

theorem leBytes_ofLeBytes (bs : List Byte) : leBytes bs.length (ofLeBytes bs) = bs := by
  induction bs with
  | nil => rfl
  | cons b bs ih =>
    have hb : b.toNat < 256 := b.isLt
    have hlow : BitVec.ofNat 8 (ofLeBytes (b :: bs)) = b := by
      apply BitVec.eq_of_toNat_eq
      simp only [ofLeBytes, BitVec.toNat_ofNat]
      omega
    have hhigh : ofLeBytes (b :: bs) / 256 = ofLeBytes bs := by
      simp only [ofLeBytes]
      omega
    rw [List.length_cons, leBytes, hlow, hhigh, ih]

theorem ofNat_ofLeBytes_wordBytes (w : Word) : BitVec.ofNat 32 (ofLeBytes (wordBytes w)) = w := by
  rw [wordBytes, Machine.ofLeBytes_leBytes, show 256 ^ 4 = 2 ^ 32 from rfl, Nat.mod_eq_of_lt w.isLt, BitVec.ofNat_toNat,
    BitVec.setWidth_eq]

theorem wordBytes_ofNat_ofLeBytes {cmd : List Byte} (h : cmd.length = 4) :
    wordBytes (BitVec.ofNat 32 (ofLeBytes cmd)) = cmd := by
  have hlt : ofLeBytes cmd < 2 ^ 32 := by
    have := Machine.ofLeBytes_lt cmd
    rwa [h] at this
  rw [wordBytes, BitVec.toNat_ofNat, Nat.mod_eq_of_lt hlt, ← h, leBytes_ofLeBytes]

theorem decode_wordBytes (n : Nat) (w : Word) (oob : Oob) : decode n (wordBytes w) oob = decodeWord n w oob := by
  have hw : decode n (wordBytes w) oob = decodeWord n (BitVec.ofNat 32 (ofLeBytes (wordBytes w))) oob := rfl
  rw [hw, ofNat_ofLeBytes_wordBytes]

/-- A word is its three fields (R110). -/
theorem word_eq_of_fields {v w : Word} (hopc : v.toNat / 2 ^ 24 = w.toNat / 2 ^ 24)
    (hag : v.toNat / 2 ^ 16 % 2 ^ 8 = w.toNat / 2 ^ 16 % 2 ^ 8) (himm : v.toNat % 2 ^ 16 = w.toNat % 2 ^ 16) : v = w := by
  apply BitVec.eq_of_toNat_eq
  omega

theorem wordOf_imm (opc ag : Nat) {imm : Nat} (hi : imm < 2 ^ 16) : (wordOf opc ag imm).toNat % 2 ^ 16 = imm := by
  simp only [wordOf, BitVec.toNat_ofNat]
  omega

/-! ### The rows of the opcode map (R114) -/

/-- The row of an operation in the opcode map. -/
def Op.row (op : Op) : Row := (opcodeMap.find? fun r => r.op == op).get (by cases op <;> rfl)

theorem eq_row_of_mem_opcodeMap : ∀ r ∈ opcodeMap, r = r.op.row := by decide

theorem findRow_of_mem_opcodeMap : ∀ r ∈ opcodeMap, findRow r.opc = some r := by decide

/-- An AG value that names an agent that exists names that agent only (R111). -/
theorem agentOfTag_tag {n : Nat} {x : Agent} (hx : ∀ k, x = .txc k → callerOk n k = true) :
    agentOfTag n x.tag = some x := by
  cases x with
  | txc k =>
    have hk := hx k rfl
    have h0 : 0x10 + k ≠ 0x00 ∧ 0x10 + k ≠ 0x01 ∧ 0x10 + k ≠ 0x02 ∧ 0x10 + k ≠ 0x03 ∧ 0x10 + k ≠ 0x04 := by omega
    simp [agentOfTag, Agent.tag, h0, hk]
  | _ => rfl

/-- The converse of `decodeWord_some`: the fields of a row, with operands that assemble, decode (R115). -/
theorem decodeWord_of_fields {n : Nat} {w : Word} {oob : Oob} {r : Row} {x : Agent}
    (hr : findRow (w.toNat / 2 ^ 24) = some r) (hx : agentOfTag n (w.toNat / 2 ^ 16 % 2 ^ 8) = some x)
    (ha : r.ags.allows n x = true) (hz : r.immZero = true → w.toNat % 2 ^ 16 = 0) :
    decodeWord n w oob = assemble r.op x (w.toNat % 2 ^ 16) oob := by
  have himm : (r.immZero && w.toNat % 2 ^ 16 != 0) = false := by
    cases h : r.immZero with
    | false => rfl
    | true => rw [hz h]; rfl
  simp only [decodeWord, hr, hx, ha, himm, Bool.not_true, Bool.false_eq_true, if_false]

/-! ### The encoder's fields -/

/-- The IMM value of an operation's word (R114, R116). -/
def Instr.imm : Instr → Nat
  | .txSubmit _ len _ => len.toNat
  | .regRd _ off => off.toNat
  | .regWr _ off _ => off.toNat
  | .memDrain _ pos => pos.toNat
  | .devWireIn len _ => len.toNat
  | _ => 0

theorem encodeWord_imm (i : Instr) : (encodeWord i).toNat % 2 ^ 16 = i.imm := by
  cases i with
  | txSubmit k len frame => exact wordOf_imm _ _ len.isLt
  | regRd x off => exact wordOf_imm _ _ off.isLt
  | regWr x off v => exact wordOf_imm _ _ off.isLt
  | memDrain x pos => exact wordOf_imm _ _ pos.isLt
  | devWireIn len frame => exact wordOf_imm _ _ len.isLt
  | _ => exact wordOf_imm _ _ (by decide)

/-- Where the row asks for IMM = 0, the operation has no operand there. -/
theorem imm_eq_zero_of_immZero {i : Instr} (h : i.op.row.immZero = true) : i.imm = 0 := by
  cases i with
  | txSubmit | regRd | regWr | memDrain | devWireIn => cases h
  | _ => rfl

theorem callerOk_of_wellFormed {n k : Nat} {i : Instr} (h : i.wellFormed n = true) (hi : i.agent = .txc k) :
    callerOk n k = true := by
  cases i with
  | txSubmit j len frame =>
    obtain rfl : j = k := Agent.txc.inj hi
    exact (Bool.and_eq_true_iff.1 h).1
  | bhSched x =>
    obtain rfl : x = .txc k := hi
    cases h
  | regRd x | regWr x | wmb x | memDrain x =>
    obtain rfl : x = .txc k := hi
    exact h
  | _ => cases hi

/-- The laws of `Laws.EncodeOpcode`, for every operation. -/
theorem encodeWord_statement (i : Instr) : Laws.EncodeOpcode.Statement i :=
  match i with
  | .irqTop => Laws.EncodeOpcode.irqTop
  | .bhSched x => Laws.EncodeOpcode.bhSched x
  | .bhRun => Laws.EncodeOpcode.bhRun
  | .rxRun => Laws.EncodeOpcode.rxRun
  | .txSubmit k len frame => Laws.EncodeOpcode.txSubmit k len frame
  | .regRd x off => Laws.EncodeOpcode.regRd x off
  | .regWr x off v => Laws.EncodeOpcode.regWr x off v
  | .wmb x => Laws.EncodeOpcode.wmb x
  | .memDrain x pos => Laws.EncodeOpcode.memDrain x pos
  | .devRxClaim => Laws.EncodeOpcode.devRxClaim
  | .devRxWb d => Laws.EncodeOpcode.devRxWb d
  | .devTxXmit => Laws.EncodeOpcode.devTxXmit
  | .devCause c => Laws.EncodeOpcode.devCause c
  | .devRstDone d => Laws.EncodeOpcode.devRstDone d
  | .devWireIn len frame => Laws.EncodeOpcode.devWireIn len frame
  | .devRxDrop => Laws.EncodeOpcode.devRxDrop
  | .attach => Laws.EncodeOpcode.attach
  | .detach => Laws.EncodeOpcode.detach

/-- The three fields of the word the encoder writes, with the row they meet. -/
theorem encodeWord_fields {n : Nat} {i : Instr} (h : i.wellFormed n = true) :
    (encodeWord i).toNat / 2 ^ 24 = i.op.row.opc ∧ (encodeWord i).toNat / 2 ^ 16 % 2 ^ 8 = i.agent.tag
      ∧ (encodeWord i).toNat % 2 ^ 16 = i.imm ∧ i.op.row ∈ opcodeMap ∧ i.op.row.op = i.op
      ∧ i.op.row.ags.allows n i.agent = true := by
  obtain ⟨hag, r, hr, hopc, hop, ha⟩ := encodeWord_statement i n h
  obtain rfl : r = i.op.row := hop ▸ eq_row_of_mem_opcodeMap r hr
  exact ⟨hopc.symm, hag, encodeWord_imm i, hr, hop, ha⟩

/-! ### Operand assembly (R113, R116) -/

/-- What the encoder writes for a well-formed operation assembles to that operation. -/
theorem assemble_encode {n : Nat} {i : Instr} (h : i.wellFormed n = true) :
    assemble i.op i.agent i.imm (encodeOob i) = some i := by
  cases i with
  | txSubmit k len frame =>
    have hlen : Machine.hasLength frame len.toNat = true :=
      (Machine.hasLength_iff _ _).2 (eq_of_beq (Bool.and_eq_true_iff.1 h).2)
    simp only [assemble, Instr.op, Instr.agent, Instr.imm, encodeOob, hlen, if_true, BitVec.ofNat_toNat,
      BitVec.setWidth_eq]
  | devWireIn len frame =>
    have hlen : Machine.hasLength frame len.toNat = true := (Machine.hasLength_iff _ _).2 (eq_of_beq h)
    simp only [assemble, Instr.op, Instr.imm, encodeOob, hlen, if_true, BitVec.ofNat_toNat, BitVec.setWidth_eq]
  | regRd | regWr | memDrain =>
    simp only [assemble, Instr.op, Instr.agent, Instr.imm, encodeOob, BitVec.ofNat_toNat, BitVec.setWidth_eq]
  | devRstDone d => cases d <;> rfl
  | _ => rfl

/-- What assembles from a row's fields is a well-formed operation of that row, with the agent and the IMM it was assembled from. -/
theorem assemble_some {n imm : Nat} {op : Op} {x : Agent} {oob : Oob} {i : Instr}
    (ha : op.row.ags.allows n x = true) (hz : op.row.immZero = true → imm = 0) (himm : imm < 2 ^ 16)
    (h : assemble op x imm oob = some i) :
    i.op = op ∧ i.agent = x ∧ i.imm = imm ∧ i.wellFormed n = true := by
  have toNat_imm : (BitVec.ofNat 16 imm).toNat = imm := by rw [BitVec.toNat_ofNat, Nat.mod_eq_of_lt himm]
  cases op with
  | irqTop | bhRun | rxRun | devRxClaim | devTxXmit | devRxDrop | attach | detach =>
    obtain rfl := Option.some.inj h
    exact ⟨rfl, (eq_of_beq ha).symm, (hz rfl).symm, rfl⟩
  | bhSched | wmb =>
    obtain rfl := Option.some.inj h
    exact ⟨rfl, rfl, (hz rfl).symm, ha⟩
  | regRd | memDrain =>
    obtain rfl := Option.some.inj h
    exact ⟨rfl, rfl, toNat_imm, ha⟩
  | regWr =>
    cases oob with
    | word v =>
      obtain rfl := Option.some.inj h
      exact ⟨rfl, rfl, toNat_imm, ha⟩
    | _ => cases h
  | txSubmit =>
    cases x with
    | txc k =>
      cases oob with
      | bytes frame =>
        obtain ⟨hlen, hi⟩ := Option.ite_none_right_eq_some.1 h
        obtain rfl := Option.some.inj hi
        have hlen : frame.length = imm := (Machine.hasLength_iff _ _).1 hlen
        exact ⟨rfl, rfl, toNat_imm, Bool.and_eq_true_iff.2 ⟨ha, by simp [hlen, toNat_imm]⟩⟩
      | _ => cases h
    | _ => cases ha
  | devWireIn =>
    cases oob with
    | bytes frame =>
      obtain ⟨hlen, hi⟩ := Option.ite_none_right_eq_some.1 h
      obtain rfl := Option.some.inj hi
      have hlen : frame.length = imm := (Machine.hasLength_iff _ _).1 hlen
      exact ⟨rfl, (eq_of_beq ha).symm, toNat_imm, by simp [Instr.wellFormed, hlen, toNat_imm]⟩
    | _ => cases h
  | devCause =>
    cases oob with
    | word c =>
      obtain rfl := Option.some.inj h
      exact ⟨rfl, (eq_of_beq ha).symm, (hz rfl).symm, rfl⟩
    | _ => cases h
  | devRxWb =>
    cases oob with
    | wb | none =>
      obtain rfl := Option.some.inj h
      exact ⟨rfl, (eq_of_beq ha).symm, (hz rfl).symm, rfl⟩
    | _ => cases h
  | devRstDone =>
    cases oob with
    | rst | none =>
      obtain rfl := Option.some.inj h
      exact ⟨rfl, (eq_of_beq ha).symm, (hz rfl).symm, rfl⟩
    | _ => cases h

/-! ### The round trip -/

theorem decodeWord_encodeWord {n : Nat} {i : Instr} (h : i.wellFormed n = true) :
    decodeWord n (encodeWord i) (encodeOob i) = some i := by
  obtain ⟨hopc, hag, himm, hrow, hop, ha⟩ := encodeWord_fields h
  have hr : findRow ((encodeWord i).toNat / 2 ^ 24) = some i.op.row := by rw [hopc, findRow_of_mem_opcodeMap _ hrow]
  have hx : agentOfTag n ((encodeWord i).toNat / 2 ^ 16 % 2 ^ 8) = some i.agent := by
    rw [hag, agentOfTag_tag fun _ => callerOk_of_wellFormed h]
  rw [decodeWord_of_fields hr hx ha fun hz => himm.trans (imm_eq_zero_of_immZero hz), hop, himm, assemble_encode h]

theorem encodeWord_of_decodeWord {n : Nat} {w : Word} {oob : Oob} {i : Instr} (h : decodeWord n w oob = some i) :
    i.wellFormed n = true ∧ encodeWord i = w := by
  obtain ⟨r, x, hr, hx, ha, hz, hi⟩ := decodeWord_some h
  obtain ⟨hmem, hopc⟩ := findRow_some hr
  have hrow := eq_row_of_mem_opcodeMap r hmem
  rw [hrow] at ha hz
  obtain ⟨hop, hagent, himm, hwf⟩ := assemble_some ha hz (Nat.mod_lt _ (by decide)) hi
  obtain ⟨hopc', hag', himm', -⟩ := encodeWord_fields hwf
  refine ⟨hwf, word_eq_of_fields ?opc ?ag ?imm⟩
  case opc => rw [hopc', hop, ← hrow, hopc]
  case ag => rw [hag', hagent, agentOfTag_some hx]
  case imm => rw [himm', himm]

/-! ### The words that spell an operation (R114, R117) -/

/-- The tag of a transmit caller (R111). -/
def IsCallerTag (n ag : Nat) : Prop := 0x10 ≤ ag ∧ ag < 0x10 + n

/-- The "AG allowed" column of R114, on tags. -/
def AgRule.AllowsTag (n : Nat) : AgRule → Nat → Prop
  | .only y, ag => ag = y.tag
  | .hostOrIrq, ag => ag ≤ 0x01
  | .caller, ag => IsCallerTag n ag
  | .engine, ag => ag ≤ 0x02 ∨ IsCallerTag n ag

theorem isCallerTag_of_callerOk {n k : Nat} (h : callerOk n k = true) : IsCallerTag n (Agent.txc k).tag := by
  simp only [callerOk, Bool.and_eq_true, decide_eq_true_eq] at h
  simp only [IsCallerTag, Agent.tag]
  omega

theorem AgRule.allowsTag_of_allows {n : Nat} {ags : AgRule} {x : Agent} (h : ags.allows n x = true) :
    ags.AllowsTag n x.tag := by
  cases ags with
  | only y => exact congrArg Agent.tag (eq_of_beq h)
  | hostOrIrq =>
    cases x with
    | host | irq => exact Nat.le_of_ble_eq_true rfl
    | _ => cases h
  | caller =>
    cases x with
    | txc k => exact isCallerTag_of_callerOk h
    | _ => cases h
  | engine =>
    cases x with
    | txc k => exact .inr (isCallerTag_of_callerOk h)
    | host | irq | bh => exact .inl (Nat.le_of_ble_eq_true rfl)
    | _ => cases h

/-- The rows of R114 by their fields, those with the same agents and the same rule for IMM together. -/
inductive SpelledFields (n opc ag imm : Nat) : Prop
  | irqTop (hopc : opc = 0x01) (hag : ag = 0x01) (himm : imm = 0)
  | bhSched (hopc : opc = 0x02) (hag : ag ≤ 0x01) (himm : imm = 0)
  | bottomHalf (hopc : opc = 0x03 ∨ opc = 0x10) (hag : ag = 0x02) (himm : imm = 0)
  | txSubmit (hopc : opc = 0x20) (hag : IsCallerTag n ag)
  | registerOrDrain (hopc : opc = 0x30 ∨ opc = 0x31 ∨ opc = 0x33) (hag : ag ≤ 0x02 ∨ IsCallerTag n ag)
  | wmb (hopc : opc = 0x32) (hag : ag ≤ 0x02 ∨ IsCallerTag n ag) (himm : imm = 0)
  | device (hopc : 0x40 ≤ opc ∧ opc ≤ 0x46) (hag : ag = 0x03) (himm : opc ≠ 0x45 → imm = 0)
  | lifecycle (hopc : opc = 0x50 ∨ opc = 0x51) (hag : ag = 0x00) (himm : imm = 0)

theorem spelledFields_of_row {n ag imm : Nat} {op : Op} (ha : op.row.ags.AllowsTag n ag)
    (hz : op.row.immZero = true → imm = 0) : SpelledFields n op.row.opc ag imm := by
  cases op with
  | irqTop => exact .irqTop rfl ha (hz rfl)
  | bhSched => exact .bhSched rfl ha (hz rfl)
  | bhRun => exact .bottomHalf (.inl rfl) ha (hz rfl)
  | rxRun => exact .bottomHalf (.inr rfl) ha (hz rfl)
  | txSubmit => exact .txSubmit rfl ha
  | regRd => exact .registerOrDrain (.inl rfl) ha
  | regWr => exact .registerOrDrain (.inr (.inl rfl)) ha
  | memDrain => exact .registerOrDrain (.inr (.inr rfl)) ha
  | wmb => exact .wmb rfl ha (hz rfl)
  | devWireIn => exact .device (by decide) ha (absurd rfl)
  | devRxClaim | devRxWb | devTxXmit | devCause | devRstDone | devRxDrop =>
    exact .device (by decide) ha fun _ => hz rfl
  | attach => exact .lifecycle (.inl rfl) ha (hz rfl)
  | detach => exact .lifecycle (.inr rfl) ha (hz rfl)

theorem spelledFields_of_decodeWord {n : Nat} {w : Word} {oob : Oob} {i : Instr} (h : decodeWord n w oob = some i) :
    SpelledFields n (w.toNat / 2 ^ 24) (w.toNat / 2 ^ 16 % 2 ^ 8) (w.toNat % 2 ^ 16) := by
  obtain ⟨r, x, hr, hx, ha, hz, -⟩ := decodeWord_some h
  obtain ⟨hmem, hopc⟩ := findRow_some hr
  have hrow := eq_row_of_mem_opcodeMap r hmem
  rw [hrow] at ha hz
  rw [← hopc, ← agentOfTag_some hx, hrow]
  exact spelledFields_of_row (AgRule.allowsTag_of_allows ha) hz

end Sys2Proof

namespace Sys2Proof.Machine

/-! ### The micro-steps a record word names (R114, log entry 3) -/

variable {s : State} {x : Agent}

/-- Only RX_ALLOC reads the draws of BH's turn (R164). -/
theorem bhMicro_draws (d d' : Draws) (h : s.bh.pc ≠ .rxAlloc) : bhMicro d s = bhMicro d' s := by
  simp only [bhMicro]
  split
  case h_4 hpc => exact absurd hpc h
  all_goals rfl

/-- The micro-step a record word takes is the one the agent's turn takes, whatever that turn's draws. -/
theorem take_recorded (d : Draws) (hx : x ≠ .host) (hbh : x = .bh → s.bh.pc ≠ .rxAlloc) :
    take x s (recorded x s) = runMicro x d s := by
  cases x with
  | host => exact absurd rfl hx
  | bh => exact congrArg (take .bh s) (bhMicro_draws _ d (hbh rfl))
  | dev | memsys => exact take_hold _ s
  | irq | txc => rfl

/-- The current micro-step of `x` reads the register at byte offset `off`. -/
def State.ReadsAt (s : State) (x : Agent) (off : Half) : Prop :=
  (s.readsReg x).map RegName.offset = some off.toNat

/-- The current micro-step of `x` writes `v` to the register at byte offset `off`. -/
def State.WritesAt (s : State) (x : Agent) (off : Half) (v : Word) : Prop :=
  (s.writesReg x).map (fun p => (p.1.offset, p.2)) = some (off.toNat, v)

theorem eq_toNat_iff {a : Nat} (off : Half) (ha : a < 2 ^ 16) : a = off.toNat ↔ off = BitVec.ofNat 16 a := by
  rw [← BitVec.toNat_inj, BitVec.toNat_ofNat, Nat.mod_eq_of_lt ha, eq_comm]

theorem State.readsAt_irq (s : State) (off : Half) : s.ReadsAt .irq off ↔ s.irq.pc = .read ∧ off = 0x00C0 := by
  have hoff : RegName.offset .icr = off.toNat ↔ off = 0x00C0 := eq_toNat_iff off (by decide)
  by_cases hpc : s.irq.pc = .read <;> simp [State.ReadsAt, State.readsReg, hpc, hoff]

theorem State.readsAt_bh (s : State) (off : Half) : s.ReadsAt .bh off ↔ s.bh.pc = .rxSnap ∧ off = 0x2810 := by
  have hoff : RegName.offset .rdh = off.toNat ↔ off = 0x2810 := eq_toNat_iff off (by decide)
  by_cases hpc : s.bh.pc = .rxSnap <;> simp [State.ReadsAt, State.readsReg, hpc, hoff]

theorem State.readsAt_txc {k : Nat} {c : TxAgent} (hc : s.txc[k]? = some c) (off : Half) :
    s.ReadsAt (.txc k) off ↔ (c.pc = .readtail ∧ off = 0x3818) ∨ (c.pc = .headchk ∧ off = 0x3810) := by
  have htail : RegName.offset .tdt = off.toNat ↔ off = 0x3818 := eq_toNat_iff off (by decide)
  have hhead : RegName.offset .tdh = off.toNat ↔ off = 0x3810 := eq_toNat_iff off (by decide)
  by_cases hrd : c.pc = .readtail
  · simp [State.ReadsAt, State.readsReg, hc, hrd, htail]
  · by_cases hhd : c.pc = .headchk <;> simp [State.ReadsAt, State.readsReg, hc, hrd, hhd, hhead]

theorem State.not_writesAt_irq (s : State) (off : Half) (v : Word) : ¬ s.WritesAt .irq off v := nofun

theorem State.writesAt_bh (s : State) (off : Half) (v : Word) :
    s.WritesAt .bh off v ↔ s.bh.pc = .rxPub ∧ off = 0x2818 ∧ v = BitVec.ofNat 32 s.bh.tail := by
  have hoff : RegName.offset .rdt = off.toNat ↔ off = 0x2818 := eq_toNat_iff off (by decide)
  by_cases hpc : s.bh.pc = .rxPub <;> simp [State.WritesAt, State.writesReg, hpc, hoff, toWord, @eq_comm _ _ v]

theorem State.writesAt_txc {k : Nat} {c : TxAgent} (hc : s.txc[k]? = some c) (off : Half) (v : Word) :
    s.WritesAt (.txc k) off v ↔ c.pc = .pub ∧ off = 0x3818 ∧ v = BitVec.ofNat 32 ((c.t + 1) % s.cfg.nTx) := by
  have hoff : RegName.offset .tdt = off.toNat ↔ off = 0x3818 := eq_toNat_iff off (by decide)
  by_cases hpc : c.pc = .pub <;>
    simp [State.WritesAt, State.writesReg, hc, hpc, hoff, toWord, nextIdx, @eq_comm _ _ v]

theorem State.atBarrier_bh (s : State) : s.atBarrier .bh = true ↔ s.bh.pc = .rxWmb := beq_iff_eq

theorem State.atBarrier_txc {k : Nat} {c : TxAgent} (hc : s.txc[k]? = some c) :
    s.atBarrier (.txc k) = true ↔ c.pc = .wmb := by
  simp [State.atBarrier, hc]

theorem State.irqAsksRun_iff (s : State) : s.irqAsksRun = true ↔ s.irq.pc = .sched ∧ s.irq.v ≠ 0 := by
  simp [State.irqAsksRun]

/-! ### Record words (R114, log entries 2 and 3) -/

/-- A micro-step of BH that a record word names is not RX_ALLOC. -/
theorem State.ReadsAt.ne_rxAlloc {off : Half} (h : s.ReadsAt x off) (hx : x = .bh) : s.bh.pc ≠ .rxAlloc := by
  subst hx
  rw [((s.readsAt_bh off).1 h).1]
  decide

theorem State.WritesAt.ne_rxAlloc {off : Half} {v : Word} (h : s.WritesAt x off v) (hx : x = .bh) :
    s.bh.pc ≠ .rxAlloc := by
  subst hx
  rw [((s.writesAt_bh off v).1 h).1]
  decide

theorem State.ne_rxAlloc_of_atBarrier (h : s.atBarrier x = true) (hx : x = .bh) : s.bh.pc ≠ .rxAlloc := by
  subst hx
  rw [s.atBarrier_bh.1 h]
  decide

theorem exec_regRd_of_readsAt (d : Draws) {off : Half} (hx : x ≠ .host) (h : s.ReadsAt x off) :
    exec (.regRd x off) s = runMicro x d s :=
  (execRegRd_record off s hx).trans <| by rw [if_pos (beq_iff_eq.2 h), take_recorded d hx h.ne_rxAlloc]

theorem exec_regRd_idle {off : Half} (hx : x ≠ .host) (h : ¬ s.ReadsAt x off) :
    exec (.regRd x off) s = .next s.passTurn :=
  (execRegRd_record off s hx).trans <| by rw [if_neg (mt beq_iff_eq.1 h), take_hold]

theorem exec_regWr_of_writesAt (d : Draws) {off : Half} {v : Word} (hx : x ≠ .host) (h : s.WritesAt x off v) :
    exec (.regWr x off v) s = runMicro x d s :=
  (execRegWr_record off v s hx).trans <| by rw [if_pos (beq_iff_eq.2 h), take_recorded d hx h.ne_rxAlloc]

theorem exec_regWr_idle {off : Half} {v : Word} (hx : x ≠ .host) (h : ¬ s.WritesAt x off v) :
    exec (.regWr x off v) s = .next s.passTurn :=
  (execRegWr_record off v s hx).trans <| by rw [if_neg (mt beq_iff_eq.1 h), take_hold]

theorem exec_wmb_of_atBarrier (d : Draws) (hx : x ≠ .host) (h : s.atBarrier x = true) :
    exec (.wmb x) s = runMicro x d s :=
  (execWmb_record s hx).trans <| by rw [if_pos h, take_recorded d hx (State.ne_rxAlloc_of_atBarrier h)]

theorem exec_wmb_idle (hx : x ≠ .host) (h : ¬ s.atBarrier x = true) : exec (.wmb x) s = .next s.passTurn :=
  (execWmb_record s hx).trans <| by rw [if_neg h, take_hold]

theorem exec_bhSched_irq (s : State) :
    exec (.bhSched .irq) s = take .irq s (if s.irqAsksRun then irqSched s else .hold) := rfl

/-- At IRQ_SCHED, which makes the request (R235), the word is IRQ's turn. -/
theorem exec_bhSched_irq_of_asksRun (d : Draws) (h : s.irqAsksRun = true) :
    exec (.bhSched .irq) s = runMicro .irq d s := by
  have hm : irqMicro s = irqSched s := by simp only [irqMicro, (s.irqAsksRun_iff.1 h).1]
  rw [exec_bhSched_irq, if_pos h, ← hm, runMicro]

theorem exec_bhSched_irq_idle (h : ¬ s.irqAsksRun = true) : exec (.bhSched .irq) s = .next s.passTurn := by
  rw [exec_bhSched_irq, if_neg h, take_hold]

end Sys2Proof.Machine

namespace Sys2Proof.Proofs
open Sys2Proof Sys2Proof.Machine

/-- Settles O2: the encoder writes the row, the agent and the operands that the decoder reads back, and the four bytes give the word back. -/
theorem decodeEncode : Obligations.DecodeEncode := fun n i h => by
  rw [encode, decode_wordBytes, decodeWord_encodeWord h]

/-- Settles O3: what a word assembles to has the word's row, agent and IMM, and a word is its three fields. -/
theorem decodedWordIsEncoded : Obligations.DecodedWordIsEncoded := fun n cmd oob i h => by
  obtain ⟨hlen, hw⟩ := decode_some h
  obtain ⟨hwf, henc⟩ := encodeWord_of_decodeWord hw
  exact ⟨hwf, by rw [encode, henc, wordBytes_ofNat_ofLeBytes hlen]⟩

/-- Settles O6: the turn of a word that does not decode sets `refused` alone. -/
theorem refusedWord : Obligations.RefusedWord := fun _ _ _ h => runTurn_word_of_not_decode h

/-- Settles O4: each reserved value lies outside the fields of every row. -/
theorem reservedWordsRefused : Obligations.ReservedWordsRefused := by
  rintro n w oob opc ag imm rfl rfl rfl hreserved
  have hnone : decodeWord n w oob = none := by
    refine Option.eq_none_iff_forall_ne_some.2 fun i hi => ?_
    simp only [List.mem_cons, List.not_mem_nil, or_false] at hreserved
    cases spelledFields_of_decodeWord hi with
    | txSubmit _ hag | registerOrDrain _ hag | wmb _ hag =>
      simp only [IsCallerTag] at hag
      omega
    | _ => omega
  refine ⟨hnone, fun s hs => refusedWord s _ oob ?_⟩
  rw [hs, decode_wordBytes, hnone]

/-- Settles O36: an equivalence for each agent says which words name its micro-step; every other word of its holds. -/
theorem recordWordsTakeTheirStep : Obligations.RecordWordsTakeTheirStep := by
  rintro s u d k c hc rfl
  have irq : Agent.irq ≠ .host := nofun
  have bh : Agent.bh ≠ .host := nofun
  have txc : Agent.txc k ≠ .host := nofun
  refine ⟨?readIrq, ?readBh, ?readTail, ?readHead, ?readIrqIdle, ?readBhIdle, ?readTxIdle,
    ?writeBh, ?writeTx, ?writeIrqIdle, ?writeBhIdle, ?writeTxIdle,
    ?wmbBh, ?wmbTx, ?wmbIrqIdle, ?wmbBhIdle, ?wmbTxIdle, ?sched, ?schedIdle⟩
  case readIrq => exact fun h => exec_regRd_of_readsAt d irq ((s.readsAt_irq _).2 ⟨h, rfl⟩)
  case readBh => exact fun h => exec_regRd_of_readsAt d bh ((s.readsAt_bh _).2 ⟨h, rfl⟩)
  case readTail => exact fun h => exec_regRd_of_readsAt d txc ((State.readsAt_txc hc _).2 (.inl ⟨h, rfl⟩))
  case readHead => exact fun h => exec_regRd_of_readsAt d txc ((State.readsAt_txc hc _).2 (.inr ⟨h, rfl⟩))
  case readIrqIdle => exact fun off h => exec_regRd_idle irq (mt (s.readsAt_irq off).1 h)
  case readBhIdle => exact fun off h => exec_regRd_idle bh (mt (s.readsAt_bh off).1 h)
  case readTxIdle =>
    exact fun off htail hhead => exec_regRd_idle txc (mt (State.readsAt_txc hc off).1 (not_or.2 ⟨htail, hhead⟩))
  case writeBh => exact fun h => exec_regWr_of_writesAt d bh ((s.writesAt_bh _ _).2 ⟨h, rfl, rfl⟩)
  case writeTx => exact fun h => exec_regWr_of_writesAt d txc ((State.writesAt_txc hc _ _).2 ⟨h, rfl, rfl⟩)
  case writeIrqIdle => exact fun off v => exec_regWr_idle irq (s.not_writesAt_irq off v)
  case writeBhIdle => exact fun off v h => exec_regWr_idle bh (mt (s.writesAt_bh off v).1 h)
  case writeTxIdle => exact fun off v h => exec_regWr_idle txc (mt (State.writesAt_txc hc off v).1 h)
  case wmbBh => exact fun h => exec_wmb_of_atBarrier d bh (s.atBarrier_bh.2 h)
  case wmbTx => exact fun h => exec_wmb_of_atBarrier d txc ((State.atBarrier_txc hc).2 h)
  case wmbIrqIdle => exact exec_wmb_idle irq nofun
  case wmbBhIdle => exact fun h => exec_wmb_idle bh (mt s.atBarrier_bh.1 h)
  case wmbTxIdle => exact fun h => exec_wmb_idle txc (mt (State.atBarrier_txc hc).1 h)
  case sched => exact fun hpc hv => exec_bhSched_irq_of_asksRun d (s.irqAsksRun_iff.2 ⟨hpc, hv⟩)
  case schedIdle =>
    intro h
    refine exec_bhSched_irq_idle (mt s.irqAsksRun_iff.1 ?_)
    rintro ⟨hpc, hv⟩
    exact h.elim (absurd hpc) hv

/-- Settles O1: each of the nine words is the one the encoder writes. -/
theorem decodeKnownWords : Obligations.DecodeKnownWords :=
  ⟨decodeEncode 2 .irqTop rfl, decodeEncode 2 (.bhSched .host) rfl, decodeEncode 2 .rxRun rfl,
    decodeEncode 2 (.txSubmit 0 3 [0xAA, 0xBB, 0xCC]) rfl, decodeEncode 2 (.regRd .host 0x2810) rfl,
    decodeEncode 2 (.regWr .host 0x2818 7) rfl, decodeEncode 2 (.memDrain .bh 0) rfl,
    decodeEncode 2 (.devCause 4) rfl, decodeEncode 2 .attach rfl⟩

end Sys2Proof.Proofs
end

section
/-! The statements of 40_ring.md: the partition of the receive ring, and the bounds of the indices, the lengths and the reset poll. -/

namespace Sys2Proof.Machine

/-! ### Ring distance (R9) and the slots counted from one on (R134, R135) -/

theorem dist_eq_ite {n a b : Nat} (ha : a ≤ n) (hb : b < n) : dist n a b = if a ≤ b then b - a else b + n - a := by
  unfold dist
  split
  · rw [show b + (n - a) = b - a + n by omega, Nat.add_mod_right, Nat.mod_eq_of_lt (by omega)]
  · rw [Nat.mod_eq_of_lt (by omega)]
    omega

theorem dist_lt {n a b : Nat} (hn : 0 < n) : dist n a b < n := Nat.mod_lt _ hn

/-- Going `j` steps forward from `a` arrives at `i` exactly when `j` is the distance. -/
theorem add_mod_eq_iff_dist {n a i j : Nat} (ha : a ≤ n) (hi : i < n) (hj : j < n) : (a + j) % n = i ↔ j = dist n a i := by
  have hmod : (a + j) % n = if a + j < n then a + j else a + j - n := by
    split
    · exact Nat.mod_eq_of_lt ‹_›
    · rw [Nat.mod_eq_sub_mod (by omega), Nat.mod_eq_of_lt (by omega)]
  rw [hmod, dist_eq_ite ha hi]
  split <;> split <;> omega

theorem length_slotsFrom (n first c : Nat) : (slotsFrom n first c).length = c := by
  simp [slotsFrom]

theorem mem_slotsFrom_iff {n first c i : Nat} (hf : first ≤ n) (hc : c ≤ n) (hi : i < n) :
    i ∈ slotsFrom n first c ↔ dist n first i < c := by
  simp only [slotsFrom, List.mem_map, List.mem_range]
  constructor
  · rintro ⟨j, hj, he⟩
    rwa [← (add_mod_eq_iff_dist hf hi (hj.trans_le hc)).1 he]
  · intro hd
    exact ⟨_, hd, (add_mod_eq_iff_dist hf hi (dist_lt (by omega))).2 rfl⟩

/-- How many slots are pending (R135): the slots from after the tail up to before the head. -/
theorem pendingCount_eq {n head tail : Nat} (hh : head < n) (ht : tail < n) :
    (dist n tail head + n - 1) % n = n - 1 - dist n head tail := by
  rw [dist_eq_ite ht.le hh, dist_eq_ite hh.le ht]
  rcases lt_trichotomy tail head with h | rfl | h
  · rw [if_pos h.le, if_neg h.not_ge, show head - tail + n - 1 = head - tail - 1 + n by omega, Nat.add_mod_right,
      Nat.mod_eq_of_lt (by omega)]
    omega
  · simp [Nat.mod_eq_of_lt (show n - 1 < n by omega)]
  · rw [if_neg h.not_ge, if_pos h.le, show head + n - tail + n - 1 = head + n - tail - 1 + n by omega, Nat.add_mod_right,
      Nat.mod_eq_of_lt (by omega)]
    omega

theorem mem_headToTail_iff {n head tail i : Nat} (hh : head < n) (hi : i < n) :
    i ∈ headToTail n head tail ↔ dist n head i < dist n head tail :=
  mem_slotsFrom_iff hh.le (dist_lt (by omega)).le hi

/-- A slot is pending exactly when it lies beyond the tail, counted from the head. -/
theorem mem_pendingSlots_iff {n head tail i : Nat} (hh : head < n) (ht : tail < n) (hi : i < n) :
    i ∈ pendingSlots n head tail ↔ dist n head tail < dist n head i := by
  rw [pendingSlots, pendingCount_eq hh ht, mem_slotsFrom_iff (by omega) (by omega) hi, dist_eq_ite (by omega) hi,
    dist_eq_ite hh.le ht, dist_eq_ite hh.le hi]
  split <;> split <;> split <;> omega

/-- Distances from the head tell the slots apart. -/
theorem dist_inj {n a i j : Nat} (ha : a < n) (hi : i < n) (hj : j < n) (h : dist n a i = dist n a j) : i = j := by
  rw [dist_eq_ite ha.le hi, dist_eq_ite ha.le hj] at h
  split at h <;> split at h <;> omega

variable {s t : State}

/-! ### Ring lengths (R261, R293, R310, R312) -/

/-- A ring length: 0 or the configured one, and the configured one where it is used. -/
def LenOk (len : Word) (n : Nat) (used : Prop) : Prop := (len = 0 ∨ len.toNat = n * 16) ∧ (used → len.toNat = n * 16)

theorem LenOk.mono {len : Word} {n : Nat} {p q : Prop} (h : LenOk len n p) (hq : q → p) : LenOk len n q :=
  ⟨h.1, fun hu => h.2 (hq hu)⟩

theorem LenOk.configured {len : Word} {n : Nat} {p : Prop} (h : len.toNat = n * 16) : LenOk len n p := ⟨.inr h, fun _ => h⟩

theorem LenOk.zero {n : Nat} {p : Prop} (h : ¬ p) : LenOk 0 n p := ⟨.inl rfl, fun hp => absurd hp h⟩

/-- Where HOST stands in ATTACH between its write of RDLEN and the start of the device. -/
abbrev HostPc.afterRdlen (pc : HostPc) : Prop :=
  pc ∈ ([.aRdt, .aTdbal, .aTdbah, .aTdlen, .aTdt, .aState, .aIrq, .aIms, .aEnable] : List HostPc)

/-- Where HOST stands in ATTACH between its write of TDLEN and the start of the device. -/
abbrev HostPc.afterTdlen (pc : HostPc) : Prop := pc ∈ ([.aTdt, .aState, .aIrq, .aIms, .aEnable] : List HostPc)

/-- The length of the receive ring is in use: DEV may move RDH by it, or ATTACH has written it and will start the device (R281, R310). -/
def State.usesRdlen (s : State) : Prop := s.dev.rxEnabled = true ∨ s.host.pc.afterRdlen

/-- The length of the transmit ring is in use (R281, R310). -/
def State.usesTdlen (s : State) : Prop := s.dev.txEnabled = true ∨ s.host.pc.afterTdlen

/-- The invariant of the ring lengths, ring by ring. -/
theorem State.ringLenInv_iff :
    s.ringLenInv ↔ LenOk s.regs.rdlen s.cfg.nRx s.usesRdlen ∧ LenOk s.regs.tdlen s.cfg.nTx s.usesTdlen
      ∧ (s.host.pc.resetOver → s.dev.resetBusy = false) ∧ (s.host.pc = .aLinkWr → s.host.c.getLsbD 26 = false) := by
  constructor
  · rintro ⟨hrd, htd, hrdUse, htdUse, hbusy, hlink⟩
    exact ⟨⟨hrd, hrdUse⟩, ⟨htd, htdUse⟩, hbusy, hlink⟩
  · rintro ⟨⟨hrd, hrdUse⟩, ⟨htd, htdUse⟩, hbusy, hlink⟩
    exact ⟨hrd, htd, hrdUse, htdUse, hbusy, hlink⟩

theorem HostPc.resetOver_of_afterRdlen {pc : HostPc} (h : pc.afterRdlen) : pc.resetOver := by
  revert pc; unfold HostPc.resetOver; decide

theorem HostPc.afterRdlen_of_afterTdlen {pc : HostPc} (h : pc.afterTdlen) : pc.afterRdlen := by
  revert pc; decide

/-- Both ring lengths are as before, and no unit of the device is switched on. -/
structure SameLens (s t : State) : Prop where
  cfg : t.cfg = s.cfg
  rdlen : t.regs.rdlen = s.regs.rdlen
  tdlen : t.regs.tdlen = s.regs.tdlen
  rx : t.dev.rxEnabled = true → s.dev.rxEnabled = true
  tx : t.dev.txEnabled = true → s.dev.txEnabled = true

theorem SameLens.of_same (hcfg : t.cfg = s.cfg) (hregs : t.regs = s.regs) (hdev : t.dev = s.dev) : SameLens s t :=
  ⟨hcfg, by rw [hregs], by rw [hregs], by rw [hdev]; exact id, by rw [hdev]; exact id⟩

/-- With the lengths kept, a step needs them nowhere new. -/
theorem State.ringLenInv.keep (hs : s.ringLenInv) (hl : SameLens s t) (hrd : t.host.pc.afterRdlen → s.host.pc.afterRdlen)
    (htd : t.host.pc.afterTdlen → s.host.pc.afterTdlen) (hbusy : t.host.pc.resetOver → t.dev.resetBusy = false)
    (hlink : t.host.pc = .aLinkWr → t.host.c.getLsbD 26 = false) : t.ringLenInv := by
  obtain ⟨hrx, htx, -, -⟩ := State.ringLenInv_iff.1 hs
  refine State.ringLenInv_iff.2 ⟨?_, ?_, hbusy, hlink⟩
  · rw [hl.rdlen, hl.cfg]
    exact hrx.mono (Or.imp hl.rx hrd)
  · rw [hl.tdlen, hl.cfg]
    exact htx.mono (Or.imp hl.tx htd)

/-- A step to where HOST relies neither on the lengths nor on the end of the reset. -/
theorem State.ringLenInv.leave (hs : s.ringLenInv) (hpc : ¬ t.host.pc.resetOver := by simp [HostPc.resetOver])
    (hl : SameLens s t := by exact ⟨rfl, rfl, rfl, id, id⟩) : t.ringLenInv :=
  hs.keep hl (fun h => absurd (HostPc.resetOver_of_afterRdlen h) hpc)
    (fun h => absurd (HostPc.resetOver_of_afterRdlen (HostPc.afterRdlen_of_afterTdlen h)) hpc)
    (fun h => absurd h hpc) (fun h => absurd (h ▸ by simp [HostPc.resetOver]) hpc)

/-- A step that leaves HOST where it is. -/
theorem State.ringLenInv.still (hs : s.ringLenInv) (hl : SameLens s t := by exact ⟨rfl, rfl, rfl, id, id⟩)
    (hpc : t.host.pc = s.host.pc := by rfl) (hc : t.host.c = s.host.c := by rfl)
    (hbusy : t.dev.resetBusy = s.dev.resetBusy := by rfl) : t.ringLenInv := by
  obtain ⟨-, -, hb, hlink⟩ := State.ringLenInv_iff.1 hs
  refine hs.keep hl (fun h => hpc ▸ h) (fun h => hpc ▸ h) (fun h => hbusy.trans (hb (hpc ▸ h))) (fun h => ?_)
  rw [hc]
  exact hlink (hpc ▸ h)

/-- HOST goes from `p` to `q` in ATTACH after the reset, and no length is written there. -/
abbrev HostPc.goesOn (p q : HostPc) : Prop :=
  (q.afterRdlen → p.afterRdlen) ∧ (q.afterTdlen → p.afterTdlen) ∧ q ≠ .aLinkWr

theorem State.ringLenInv.goOn {p : HostPc} (hs : s.ringLenInv) (hp : s.host.pc = p) (hpc : p.goesOn t.host.pc)
    (hover : p.resetOver := by simp [HostPc.resetOver]) (hl : SameLens s t := by exact ⟨rfl, rfl, rfl, id, id⟩)
    (hbusy : s.dev.resetBusy = false → t.dev.resetBusy = false := by exact id) : t.ringLenInv := by
  obtain ⟨-, -, hb, -⟩ := State.ringLenInv_iff.1 hs
  subst hp
  obtain ⟨hrd, htd, hne⟩ := hpc
  exact hs.keep hl hrd htd (fun _ => hbusy (hb hover)) fun h => absurd h hne

/-! ### CTRL.RST (R101, R252) -/

/-- A read of CTRL shows the reset in progress. -/
theorem hasRst_ctrlSeen (stored : Word) (busy : Bool) : hasRst (ctrlSeen stored busy) = busy := by
  cases busy <;> simp [hasRst, ctrlSeen, ctrlRst]

theorem hasRst_linkUp (v : Word) : hasRst (v ||| ctrlLinkUp) = hasRst v := by
  simp [hasRst, ctrlLinkUp]

/-! ### Registers -/

theorem toWord_toNat_le (n : Nat) : (toWord n).toNat ≤ n := by
  simp only [toWord, BitVec.toNat_ofNat]
  exact Nat.mod_le _ _

/-- The ring length a legal depth gives fits in its register (R105, R131). -/
theorem toWord_ringLen {n : Nat} (h : n * 16 ≤ 0xFFF80) : (toWord (n * descSize)).toNat = n * 16 := by
  simp only [toWord, descSize, BitVec.toNat_ofNat]
  omega

theorem nextIdx_lt {n : Nat} (hn : 0 < n) (i : Nat) : nextIdx n i < n := Nat.mod_lt _ hn

/-- The heads and the tails are indices of their rings. -/
structure Regs.Indexed (c : Config) (g : Regs) : Prop where
  rdh : g.rdh.toNat < c.nRx
  rdt : g.rdt.toNat < c.nRx
  tdh : g.tdh.toNat < c.nTx
  tdt : g.tdt.toNat < c.nTx

/-- The value check of a tail is its range check (R260). -/
theorem Regs.Indexed.written {c : Config} {g : Regs} {r : RegName} {v : Word} (h : g.Indexed c) (ha : r.accepts c v) :
    (g.written r v).Indexed c := by
  cases r with
  | rdt => exact { h with rdt := ha.1 }
  | tdt => exact { h with tdt := ha.1 }
  | _ => exact { h with }

theorem Regs.written_lens {g : Regs} {r : RegName} {v : Word} (hr : r ≠ .rdlen) (ht : r ≠ .tdlen) :
    (g.written r v).rdlen = g.rdlen ∧ (g.written r v).tdlen = g.tdlen := by
  cases r with
  | rdlen => exact absurd rfl hr
  | tdlen => exact absurd rfl ht
  | _ => exact ⟨rfl, rfl⟩

/-- A stand-alone write changes neither length (R261). -/
theorem Regs.written_geometry {r : RegName} {v : Word} (h : r.isGeometry = true → v = s.regValue r) :
    (s.regs.written r v).rdlen = s.regs.rdlen ∧ (s.regs.written r v).tdlen = s.regs.tdlen := by
  cases r with
  | rdlen => exact ⟨h rfl, rfl⟩
  | tdlen => exact ⟨rfl, h rfl⟩
  | _ => exact ⟨rfl, rfl⟩

/-- What a legal configuration gives: rings with slots, whose lengths fit their registers, and a reset poll that may poll (R6, R131). -/
theorem Config.bounds_of_valid {c : Config} (hv : c.valid = true) :
    (0 < c.nRx ∧ c.nRx * 16 ≤ 0xFFF80) ∧ (0 < c.nTx ∧ c.nTx * 16 ≤ 0xFFF80) ∧ 0 < c.resetPollMax := by
  have hm := (Config.valid_iff_meets c).1 hv
  simp only [Config.meets] at hm
  omega

/-! ### HOST and the ring lengths -/

/-- A failed ATTACH goes to the unwind or straight to its end (R313). -/
theorem not_resetOver_fail (b : Bool) : ¬ (if b then HostPc.aFailed else .aUnwind).resetOver := by
  cases b <;> simp [HostPc.resetOver]

theorem not_resetOver_release (b : Bool) {p : HostPc × HostPc} (hp : p ∈ hostReleases) :
    ¬ (if b then p.2 else p.1).resetOver := by
  revert b p; unfold HostPc.resetOver; decide

/-- HOST writes a register that is neither CTRL nor a length. -/
theorem hostWrite_ringLenInv {r : RegName} {v : Word} {p q : HostPc} (hs : s.ringLenInv) (hp : s.host.pc = p) (hpc : p.goesOn q)
    (hover : p.resetOver) (hr : r ≠ .ctrl ∧ r ≠ .rdlen ∧ r ≠ .tdlen) (h : hostWrite r v q s = .done t) : t.ringLenInv := by
  obtain ⟨-, -, rfl⟩ := hostWrite_done h
  obtain ⟨hctrl, hrdlen, htdlen⟩ := hr
  obtain ⟨hrd, htd⟩ := Regs.written_lens (g := s.regs) (v := v) hrdlen htdlen
  exact hs.goOn hp hpc hover ⟨rfl, hrd, htd, id, id⟩ fun hb => by simp [hb, hctrl]

theorem hostAlloc_ringLenInv {k : RegionKind} {d : Draws} {p q : HostPc} (hs : s.ringLenInv) (hp : s.host.pc = p)
    (hpc : p.goesOn q) (hover : p.resetOver) (h : hostAlloc k q d s = .done t) : t.ringLenInv := by
  obtain ⟨-, rfl⟩ | ⟨loc, dma, -, -, rfl⟩ := hostAlloc_done h
  · exact hs.leave (not_resetOver_fail _)
  · exact hs.goOn hp hpc hover

theorem hostImage_ringLenInv {a : Nat} {bs : List Byte} {p q : HostPc} (hs : s.ringLenInv) (hp : s.host.pc = p)
    (hpc : p.goesOn q) (hover : p.resetOver) (h : hostImage a bs q s = .done t) : t.ringLenInv := by
  obtain ⟨u, hu, rfl⟩ := hostImage_done h
  have hdev : u.dev = s.dev := memWrite_dev hu
  exact hs.goOn hp hpc hover (.of_same (memWrite_records hu).cfg (memWrite_regs (t := u) hu) hdev)
    (by rw [State.hostGo_dev, hdev]; exact id)

/-- HOST's micro-steps keep the ring lengths: it writes the configured ones before the device uses them, and no reset is in progress from
A_POLL's end to A_DONE, since the link is brought up with RST clear (R310). -/
theorem hostMicro_ringLenInv {d : Draws} (hv : s.cfg.valid = true) (hs : s.ringLenInv) (h : hostMicro d s = .done t) :
    t.ringLenInv := by
  obtain ⟨hrx, htx, hbusy, hlink⟩ := State.ringLenInv_iff.1 hs
  obtain ⟨⟨-, hnRx⟩, ⟨-, hnTx⟩, -⟩ := Config.bounds_of_valid hv
  unfold hostMicro at h
  cases hp : s.host.pc <;> rw [hp] at h
  case idle => cases h
  case aCheck => obtain ⟨-, rfl⟩ := aCheck_done h; exact hs.leave
  case aMap =>
    obtain rfl | rfl := aMap_done h
    · exact hs.leave
    · exact hs.leave (not_resetOver_fail _)
  case aRstRd => obtain rfl := aRstRd_done h; exact hs.leave (by simp [State.ctrlRead, HostPc.resetOver])
  case aRstWr => obtain rfl := aRstWr_done h; exact hs.leave
  case aPoll =>
    obtain ⟨hclear, rfl⟩ | ⟨-, -, rfl⟩ | ⟨-, -, rfl⟩ := aPoll_done h
    · exact hs.keep ⟨rfl, rfl, rfl, id, id⟩ nofun nofun (fun _ => (hasRst_ctrlSeen _ _).symm.trans hclear) nofun
    · exact hs.leave (not_resetOver_fail _)
    · exact hs.leave
  case aLinkRd =>
    obtain rfl := aLinkRd_done h
    have hb : s.dev.resetBusy = false := hbusy (by simp [hp, HostPc.resetOver])
    exact hs.keep ⟨rfl, rfl, rfl, id, id⟩ nofun nofun (fun _ => hb) fun _ => (hasRst_ctrlSeen _ _).trans hb
  case aLinkWr =>
    obtain ⟨-, -, rfl⟩ := hostWrite_done h
    have hclear : hasRst (s.host.c ||| ctrlLinkUp) = false := (hasRst_linkUp _).trans (hlink hp)
    exact hs.goOn hp (by decide : HostPc.goesOn _ .aRxdesc) (hbusy := fun hb => by simp [hb, hclear])
  case aRxdesc | aRxbuf | aTxdesc | aTxbuf => exact hostAlloc_ringLenInv hs hp (by decide) (by simp [HostPc.resetOver]) h
  case aInitRx | aInitTx => exact hostImage_ringLenInv hs hp (by decide) (by simp [HostPc.resetOver]) h
  case aWmb => obtain ⟨-, rfl⟩ := barrier_done h; exact hs.goOn hp (by decide : HostPc.goesOn _ .aRdbal)
  case aRdbal | aRdbah | aRdt | aTdbal | aTdbah | aTdt | aIms =>
    exact hostWrite_ringLenInv hs hp (by decide) (by simp [HostPc.resetOver]) (by decide) h
  case aRdlen =>
    obtain ⟨-, -, rfl⟩ := hostWrite_done h
    have hb : s.dev.resetBusy = false := hbusy (by simp [hp, HostPc.resetOver])
    exact State.ringLenInv_iff.2 ⟨.configured (toWord_ringLen hnRx), htx.mono (Or.imp id nofun), fun _ => by simp [hb], nofun⟩
  case aTdlen =>
    obtain ⟨-, -, rfl⟩ := hostWrite_done h
    have hb : s.dev.resetBusy = false := hbusy (by simp [hp, HostPc.resetOver])
    exact State.ringLenInv_iff.2
      ⟨hrx.mono fun _ => .inr (by rw [hp]; decide), .configured (toWord_ringLen hnTx), fun _ => by simp [hb], nofun⟩
  case aState => cases h; exact hs.goOn hp (by decide : HostPc.goesOn _ .aIrq)
  case aIrq =>
    obtain rfl | rfl := aIrq_done h
    · exact hs.goOn hp (by decide : HostPc.goesOn _ .aIms)
    · exact hs.leave (not_resetOver_fail _)
  case aEnable =>
    cases h
    exact State.ringLenInv_iff.2 ⟨hrx.mono fun _ => .inr (by rw [hp]; decide), htx.mono fun _ => .inr (by rw [hp]; decide),
      fun _ => hbusy (by simp [hp, HostPc.resetOver]), nofun⟩
  case aUnwind =>
    cases h
    rw [releaseLast_frame s]
    exact hs.leave (not_resetOver_release _ (p := (.aUnwind, .aFailed)) (by decide))
  case dRel =>
    cases h
    rw [releaseLast_frame s]
    exact hs.leave (not_resetOver_release _ (p := (.dRel, .dDone)) (by decide))
  case dCheck => obtain ⟨-, rfl⟩ | ⟨-, rfl⟩ := dCheck_done h <;> exact hs.leave
  case dQuiesce => cases h; exact hs.leave (hl := ⟨rfl, rfl, rfl, nofun, nofun⟩)
  case dImc => obtain ⟨-, -, rfl⟩ := hostWrite_done h; exact hs.leave
  case dIrqrel => obtain ⟨-, rfl⟩ := dIrqrel_done h; exact hs.leave
  case dBhwait => obtain ⟨-, -, rfl⟩ := dBhwait_done h; exact hs.leave
  case dTxwait => obtain ⟨-, -, rfl⟩ := dTxwait_done h; exact hs.leave
  case aDone | aFailed | dBh | dAcc | dDone => cases h; exact hs.leave

/-! ### HOST and the other bounds -/

/-- What a micro-step of HOST may do to the values that have bounds: it writes registers with their value checks, starts the receive side over,
empties the accumulator and the claims, and counts its polls. -/
structure HostMoves (s t : State) : Prop where
  txc : t.txc = s.txc := by rfl
  bh : t.bh = { s.bh with tail := t.bh.tail, acc := t.bh.acc } := by rfl
  regs : s.regs.Indexed s.cfg → t.regs.Indexed s.cfg := by exact id
  tail : t.bh.tail = s.bh.tail ∨ t.bh.tail = s.cfg.nRx - 1 := by exact .inl rfl
  acc : t.bh.acc = s.bh.acc ∨ t.bh.acc = none := by exact .inl rfl
  claims : t.dev.rxClaimed = s.dev.rxClaimed ∨ t.dev.rxClaimed = [] := by exact .inl rfl
  polls : t.host.pc = .aPoll → t.host.polls = 0
    ∨ (s.host.pc = .aPoll ∧ t.host.polls = s.host.polls + 1 ∧ t.host.polls ≠ s.cfg.resetPollMax) := by exact nofun

theorem fail_ne_aPoll (b : Bool) : (if b then HostPc.aFailed else .aUnwind) ≠ .aPoll := by
  cases b <;> decide

theorem release_ne_aPoll (b : Bool) {p : HostPc × HostPc} (hp : p ∈ hostReleases) : (if b then p.2 else p.1) ≠ .aPoll := by
  revert b p; decide

theorem hostWrite_hostMoves {r : RegName} {v : Word} {q : HostPc} (hq : q ≠ .aPoll) (h : hostWrite r v q s = .done t) :
    HostMoves s t := by
  obtain ⟨-, ha, rfl⟩ := hostWrite_done h
  exact { regs := fun hg => hg.written ha, polls := fun e => absurd e hq }

theorem hostAlloc_hostMoves {k : RegionKind} {d : Draws} {q : HostPc} (hq : q ≠ .aPoll) (h : hostAlloc k q d s = .done t) :
    HostMoves s t := by
  obtain ⟨-, rfl⟩ | ⟨loc, dma, -, -, rfl⟩ := hostAlloc_done h
  · exact { polls := fun e => absurd e (fail_ne_aPoll _) }
  · exact { polls := fun e => absurd e hq }

theorem hostImage_hostMoves {a : Nat} {bs : List Byte} {q : HostPc} (hq : q ≠ .aPoll) (h : hostImage a bs q s = .done t) :
    HostMoves s t := by
  obtain ⟨u, hu, rfl⟩ := hostImage_done h
  obtain ⟨k, -, ⟨-, rfl⟩ | ⟨-, rfl⟩⟩ := memWrite_ok hu <;> exact { polls := fun e => absurd e hq }

theorem hostMicro_hostMoves {d : Draws} (h : hostMicro d s = .done t) : HostMoves s t := by
  unfold hostMicro at h
  cases hp : s.host.pc <;> rw [hp] at h
  case idle => cases h
  case aCheck => obtain ⟨-, rfl⟩ := aCheck_done h; exact {}
  case aMap =>
    obtain rfl | rfl := aMap_done h
    · exact {}
    · exact { polls := fun e => absurd e (fail_ne_aPoll _) }
  case aRstRd => obtain rfl := aRstRd_done h; exact {}
  case aRstWr =>
    obtain rfl := aRstWr_done h
    exact { regs := fun hg => { hg with }, polls := fun _ => .inl rfl }
  case aPoll =>
    obtain ⟨-, rfl⟩ | ⟨-, -, rfl⟩ | ⟨-, hmax, rfl⟩ := aPoll_done h
    · exact {}
    · exact { polls := fun e => absurd e (fail_ne_aPoll _) }
    · exact { polls := fun _ => .inr ⟨hp, rfl, hmax⟩ }
  case aLinkRd => obtain rfl := aLinkRd_done h; exact {}
  case aRxdesc | aRxbuf | aTxdesc | aTxbuf => exact hostAlloc_hostMoves (by decide) h
  case aInitRx | aInitTx => exact hostImage_hostMoves (by decide) h
  case aWmb => obtain ⟨-, rfl⟩ := barrier_done h; exact {}
  case aState => cases h; exact { tail := .inr rfl, acc := .inr rfl }
  case aIrq =>
    obtain rfl | rfl := aIrq_done h
    · exact {}
    · exact { polls := fun e => absurd e (fail_ne_aPoll _) }
  case aUnwind =>
    cases h
    rw [releaseLast_frame s]
    exact { polls := fun e => absurd e (release_ne_aPoll _ (p := (.aUnwind, .aFailed)) (by decide)) }
  case dRel =>
    cases h
    rw [releaseLast_frame s]
    exact { polls := fun e => absurd e (release_ne_aPoll _ (p := (.dRel, .dDone)) (by decide)) }
  case dCheck => obtain ⟨-, rfl⟩ | ⟨-, rfl⟩ := dCheck_done h <;> exact {}
  case dQuiesce => cases h; exact { claims := .inr rfl }
  case dIrqrel => obtain ⟨-, rfl⟩ := dIrqrel_done h; exact {}
  case dBhwait => obtain ⟨-, -, rfl⟩ := dBhwait_done h; exact {}
  case dTxwait => obtain ⟨-, -, rfl⟩ := dTxwait_done h; exact {}
  case dAcc => cases h; exact { acc := .inr rfl }
  case aEnable | aDone | aFailed | dBh | dDone => cases h; exact {}
  all_goals exact hostWrite_hostMoves (by decide) h

/-- HOST's words while it is idle do no more; its writes there pass the same value checks (R256). -/
theorem Completes.hostMoves (h : Completes s .host t) : HostMoves s t := by
  cases h with
  | sched h =>
    obtain ⟨hp, -, rfl⟩ := bhSchedHost_done h
    exact { polls := fun e => absurd (hp.symm.trans e) (by decide) }
  | regRd off h =>
    obtain ⟨hp, v, hr⟩ := regRdHost_done h
    obtain ⟨r, -, -, -, -, rfl⟩ := regRead_ok hr
    exact { regs := fun hg => { hg with }, polls := fun e => absurd (hp.symm.trans e) (by decide) }
  | regWr off v h =>
    obtain ⟨hp, r, -, -, -, ha, rfl⟩ := regWrHost_done h
    exact { regs := fun hg => hg.written ha, polls := fun e => absurd (hp.symm.trans e) (by decide) }
  | wmb h =>
    obtain ⟨hp, -, rfl⟩ := wmbHost_done h
    exact { polls := fun e => absurd (hp.symm.trans e) (by decide) }
  | attach | detach => exact {}
  | host d h => exact hostMicro_hostMoves h

theorem Completes.host_ringLenInv (hv : s.cfg.valid = true) (hs : s.ringLenInv) (h : Completes s .host t) : t.ringLenInv := by
  cases h with
  | sched h => obtain ⟨-, -, rfl⟩ := bhSchedHost_done h; exact hs.still
  | regRd off h =>
    obtain ⟨-, v, hr⟩ := regRdHost_done h
    obtain ⟨r, -, -, -, -, rfl⟩ := regRead_ok hr
    exact hs.still
  | regWr off v h =>
    obtain ⟨hp, r, -, -, hgeo, -, rfl⟩ := regWrHost_done h
    obtain ⟨hrd, htd⟩ := Regs.written_geometry hgeo
    exact hs.leave (by simp [hp, HostPc.resetOver]) ⟨rfl, hrd, htd, id, id⟩
  | wmb h => obtain ⟨-, -, rfl⟩ := wmbHost_done h; exact hs
  | attach | detach => exact hs.leave
  | host d h => exact hostMicro_ringLenInv hv hs h

/-! ### Indices -/

/-- BH's working indices are indices of the receive ring (R132). -/
structure BhAgent.Indexed (n : Nat) (b : BhAgent) : Prop where
  tail : b.tail < n
  h : b.h < n
  n : b.n < n

/-- The invariant of the indices, by who holds them. -/
theorem State.indexInv_iff :
    s.indexInv ↔ s.bh.Indexed s.cfg.nRx ∧ (∀ c ∈ s.txc, c.t < s.cfg.nTx) ∧ s.regs.Indexed s.cfg ∧ s.ringLenInv := by
  constructor
  · rintro ⟨htail, hh, hn, htx, hrdh, hrdt, htdh, htdt, hlen⟩
    exact ⟨⟨htail, hh, hn⟩, htx, ⟨hrdh, hrdt, htdh, htdt⟩, hlen⟩
  · rintro ⟨⟨htail, hh, hn⟩, htx, ⟨hrdh, hrdt, htdh, htdt⟩, hlen⟩
    exact ⟨htail, hh, hn, htx, hrdh, hrdt, htdh, htdt, hlen⟩

/-- A head moved on in its ring stays in it (R282, R288). -/
theorem State.headAfter_lt {n : Nat} (hn : 0 < n) (v : Word) : (s.headAfter n v).toNat < n := by
  rw [(State.headAfter_pos v hn.ne').1]
  exact (toWord_toNat_le _).trans_lt (nextIdx_lt hn _)

/-- DEV's depth of a ring is the configured one where the length register is (R281). -/
theorem depth_of_ringLen {len : Word} {n : Nat} (h : len.toNat = n * 16) : len.toNat / descSize = n := by
  rw [h, descSize, Nat.mul_div_cancel _ (by decide)]

/-- Only the record, memory and W[x] change with a write by an engine agent (R66). -/
theorem memWrite_bh {x : Agent} {a : Nat} {bs : List Byte} (h : memWrite x a bs s = .ok t) :
    t.bh = { s.bh with posted := t.bh.posted } := by
  obtain ⟨k, -, ⟨-, rfl⟩ | ⟨-, rfl⟩⟩ := memWrite_ok h
  · rfl
  · cases x <;> rfl

/-- BH takes a new index from the range check of RDH or from `next` on its ring, and publishes its tail with the check of RDT (R162, R163, R165,
R172). -/
theorem bhMicro_indexed {d : Draws} (hn : 0 < s.cfg.nRx) (hb : s.bh.Indexed s.cfg.nRx) (hg : s.regs.Indexed s.cfg)
    (h : bhMicro d s = .done t) : t.bh.Indexed s.cfg.nRx ∧ t.regs.Indexed s.cfg := by
  unfold bhMicro at h
  cases hp : s.bh.pc <;> rw [hp] at h
  case idle => cases h
  case rxSnap =>
    obtain ⟨hlt, rfl⟩ := rxSnap_done h
    exact ⟨{ hb with h := hlt }, hg⟩
  case rxTest =>
    obtain ⟨-, rfl⟩ | ⟨-, bs, c, pc, -, rfl⟩ := rxTest_done h <;> exact ⟨{ hb with n := nextIdx_lt hn _ }, hg⟩
  case rxAlloc =>
    obtain ⟨-, rfl⟩ | ⟨-, rfl⟩ | ⟨-, rfl⟩ := rxAlloc_done h <;> exact ⟨{ hb with }, hg⟩
  case rxAdv =>
    obtain rfl := rxAdv_done h
    exact ⟨{ hb with tail := hb.n }, hg⟩
  case rxDesc =>
    obtain ⟨d, c, -, -, rfl⟩ := rxDesc_done h
    exact ⟨{ hb with }, hg⟩
  case rxCopy =>
    obtain ⟨b, -, -, ⟨-, rfl⟩ | ⟨-, p, c, -, rfl⟩⟩ := rxCopy_done h <;> exact ⟨{ hb with }, hg⟩
  case rxEop =>
    obtain ⟨-, rfl⟩ | ⟨-, b, -, rfl⟩ := rxEop_done h <;> exact ⟨{ hb with }, hg⟩
  case rxClear =>
    obtain ⟨u, hu, rfl⟩ := rxClear_done h
    refine ⟨?_, memWrite_regs (t := u) hu ▸ hg⟩
    rw [State.bhGo_bh, memWrite_bh hu]
    exact { hb with }
  case rxWmb => obtain ⟨-, rfl⟩ := rxWmb_done h; exact ⟨{ hb with }, hg⟩
  case rxPub =>
    obtain ⟨ha, rfl⟩ := rxPub_done h
    exact ⟨{ hb with }, hg.written (r := .rdt) ha⟩
  case rxExit => obtain rfl := rxExit_done h; exact ⟨{ hb with }, hg⟩

/-! ### The transmit callers -/

/-- A fact about every caller survives an update of one that keeps it. -/
theorem forall_mem_modify {α : Type} {l : List α} {k : Nat} {f : α → α} {P : α → Prop} (hl : ∀ a ∈ l, P a)
    (hf : ∀ a, l[k]? = some a → P (f a)) : ∀ a ∈ l.modify k f, P a := by
  intro a ha
  obtain ⟨j, hj⟩ := List.getElem?_of_mem ha
  by_cases hkj : k = j
  · subst hkj
    cases hk : l[k]? with
    | none => simp [hk] at hj
    | some b =>
      rw [List.getElem?_modify_eq, hk] at hj
      cases hj
      exact hf b hk
  · rw [List.getElem?_modify_ne _ _ hkj] at hj
    exact hl a (List.mem_of_getElem? hj)

/-- What a micro-step may do to its caller's own values that have bounds: a new index is one of the ring, and a call that goes on keeps its frame,
past TX_LENCHK only within TX_MAX_LEN (R201, R204). -/
structure TxAgent.Moves (cfg : Config) (c c' : TxAgent) : Prop where
  index : c'.t = c.t ∨ c'.t < cfg.nTx := by exact .inl rfl
  frame : c'.pc = .idle ∨ (c.pc ≠ .idle ∧ c'.frame = c.frame ∧ c'.len = c.len ∧ (c.pc = .lenchk → c.len.toNat ≤ cfg.txMaxLen))

/-- A micro-step of caller `k`, which is `c`: it updates that caller, and publishes an index only with the check of TDT (R212). -/
structure CallerMoves (s t : State) (k : Nat) (c : TxAgent) : Prop where
  caller : ∃ f, t.txc = s.txc.modify k f ∧ c.Moves s.cfg (f c)
  regs : s.regs.Indexed s.cfg → t.regs.Indexed s.cfg := by simp

/-- A fact about every caller survives if the caller that steps keeps it. -/
theorem CallerMoves.forall_txc {k : Nat} {c : TxAgent} {P : TxAgent → Prop} (h : CallerMoves s t k c) (hc : s.txc[k]? = some c)
    (hs : ∀ c ∈ s.txc, P c) (hP : ∀ c', c.Moves s.cfg c' → P c → P c') : ∀ c ∈ t.txc, P c := by
  obtain ⟨f, hf, hm⟩ := h.caller
  rw [hf]
  refine forall_mem_modify hs fun c' hc' => ?_
  obtain rfl := Option.some.inj (hc.symm.trans hc')
  exact hP _ hm (hs c (List.mem_of_getElem? hc))

theorem txPost_moves {k a : Nat} {bs : List Byte} {pc : TxPc} {c : TxAgent} (hp : c.pc ≠ .idle ∧ c.pc ≠ .lenchk)
    (h : txPost k a bs pc s = .done t) : CallerMoves s t k c := by
  obtain ⟨u, hu, rfl⟩ := txPost_done h
  have hm (w : List Posted) : c.Moves s.cfg { c with posted := w, pc := pc } :=
    { frame := .inr ⟨hp.1, rfl, rfl, fun e => absurd e hp.2⟩ }
  obtain ⟨r, -, ⟨-, rfl⟩ | ⟨-, rfl⟩⟩ := memWrite_ok hu
  · exact { caller := ⟨_, rfl, hm c.posted⟩ }
  · exact { caller := ⟨_, List.modify_modify_eq .., hm _⟩ }

theorem txMicro_moves {k : Nat} (h : txMicro k s = .done t) : ∃ c, s.txc[k]? = some c ∧ CallerMoves s t k c := by
  unfold txMicro at h
  split at h
  · cases h
  rename_i c hc
  refine ⟨c, hc, ?_⟩
  cases hp : c.pc <;> simp only [hp] at h
  case idle => cases h
  case lenchk =>
    obtain ⟨-, ⟨-, rfl⟩ | ⟨hle, rfl⟩⟩ := txLenchk_done h
    · exact { caller := ⟨_, rfl, { frame := .inl rfl }⟩ }
    · exact { caller := ⟨_, rfl, { frame := .inr ⟨by simp [hp], rfl, rfl, fun _ => hle⟩ }⟩ }
  case lock =>
    obtain ⟨-, rfl⟩ := txLockStep_done h
    exact { caller := ⟨_, rfl, { frame := .inr (by simp [hp]) }⟩ }
  case readtail =>
    obtain ⟨hlt, rfl⟩ := txReadtail_done h
    exact { caller := ⟨_, rfl, { index := .inr hlt, frame := .inr (by simp [hp]) }⟩ }
  case check =>
    obtain ⟨b, n, -, ⟨-, rfl⟩ | ⟨-, rfl⟩⟩ := txCheck_done h
    · exact { caller := ⟨_, rfl, { frame := .inl rfl }⟩ }
    · exact { caller := ⟨_, rfl, { frame := .inr (by simp [hp]) }⟩ }
  case headchk =>
    obtain ⟨-, ⟨-, rfl⟩ | ⟨-, rfl⟩⟩ := txHeadchk_done h
    · exact { caller := ⟨_, rfl, { frame := .inl rfl }⟩ }
    · exact { caller := ⟨_, rfl, { frame := .inr (by simp [hp]) }⟩ }
  case clrstat | cmd | len => exact txPost_moves (by simp [hp]) h
  case copy =>
    obtain ⟨-, rfl⟩ | ⟨hne, -⟩ := txCopy_done h
    · exact { caller := ⟨_, rfl, { frame := .inr (by simp [hp]) }⟩ }
    · exact txPost_moves (by simp [hp]) ((if_neg (by simpa using hne)).symm.trans h)
  case wmb =>
    obtain ⟨-, rfl⟩ := txWmb_done h
    exact { caller := ⟨_, rfl, { frame := .inr (by simp [hp]) }⟩ }
  case pub =>
    obtain ⟨ha, rfl⟩ := txPub_done h
    exact { caller := ⟨_, rfl, { frame := .inr (by simp [hp]) }⟩, regs := fun hg => hg.written (r := .tdt) ha }
  case unlock =>
    obtain rfl := txUnlock_done h
    exact { caller := ⟨_, rfl, { frame := .inl rfl }⟩ }

/-- What a landing leaves of the callers: everything but their posted writes. -/
theorem land_txc {x : Agent} {pos : Nat} {P : TxAgent → Prop} (hP : ∀ c w, P c → P { c with posted := w })
    (hs : ∀ c ∈ s.txc, P c) (h : land x pos s = .done t) : ∀ c ∈ t.txc, P c := by
  obtain ⟨e, k, -, -, -, rfl⟩ := land_done h
  cases x with
  | txc j => exact forall_mem_modify hs fun c hc => hP c _ (hs c (List.mem_of_getElem? hc))
  | _ => exact hs

/-! ### The indices are kept -/

theorem land_bh {x : Agent} {pos : Nat} (h : land x pos s = .done t) : t.bh = { s.bh with posted := t.bh.posted } := by
  obtain ⟨e, k, -, -, -, rfl⟩ := land_done h
  cases x <;> rfl

theorem land_host {x : Agent} {pos : Nat} (h : land x pos s = .done t) : t.host = { s.host with posted := t.host.posted } := by
  obtain ⟨e, k, -, -, -, rfl⟩ := land_done h
  cases x <;> rfl

/-- What a transmit leaves as TDH (R288). -/
theorem devTxXmit_tdh (h : devTxXmit s = .done t) : ∃ u : State, t.regs.tdh = u.headAfter s.devTxDepth s.regs.tdh := by
  obtain ⟨-, -, -, -, r, a, n, q, hr, -, -, -, hq, rfl⟩ := devTxXmit_done h
  obtain ⟨c₁, e₁⟩ := devRead_state (s.devTxd s.regs.tdh.toNat) descSize s
  obtain ⟨c₂, ev₂, e₂⟩ := devReadFrame_state a n r.2
  obtain ⟨ev₃, e₃⟩ := xmitEffect_state (r.1.getD 11 0) q.1 q.2
  rw [e₃, hq, e₂, hr, e₁]
  exact ⟨_, rfl⟩

/-- The other agents write no length and start no reset; a device reset completes only where nothing relies on the lengths (R293). -/
theorem Completes.ringLenInv {x : Agent} (hv : s.cfg.valid = true) (hs : s.ringLenInv) (h : Completes s x t) : t.ringLenInv := by
  by_cases hx : x = .host
  · subst hx
    exact h.host_ringLenInv hv hs
  cases h with
  | irq h => rw [irqMicro_frame h]; exact hs.still
  | bh d n h => rw [bhMicro_frame h]; exact hs.still
  | submit k len frame hl h => obtain ⟨c, -, -, rfl⟩ := txIssue_done h; exact hs.still
  | tx k h => rw [txMicro_frame h]; exact hs.still
  | land y pos h =>
    have hhost := land_host h
    obtain ⟨e, k, -, -, -, rfl⟩ := land_done h
    exact hs.still (.of_same (by simp) (by simp) (by simp)) (by rw [hhost]) (by rw [hhost]) (by simp)
  | rxClaim h => obtain ⟨-, -, -, rem, waiting, -, rfl⟩ := devRxClaim_done h; exact hs.still
  | rxWb d h => rw [devRxWb_frame h]; exact hs.still
  | xmit h => rw [devTxXmit_frame h]; exact hs.still
  | rstDone d h =>
    obtain ⟨hb, rfl⟩ := devRstDone_done h
    obtain ⟨-, -, hbusy, hlink⟩ := State.ringLenInv_iff.1 hs
    have hpc : ¬ s.host.pc.resetOver := fun ho => absurd (hb.symm.trans (hbusy ho)) (by decide)
    have hrd : ¬ s.host.pc.afterRdlen := fun hr => hpc (HostPc.resetOver_of_afterRdlen hr)
    have htd : ¬ s.host.pc.afterTdlen := fun hr => hrd (HostPc.afterRdlen_of_afterTdlen hr)
    exact State.ringLenInv_iff.2 ⟨.zero (not_or.2 ⟨nofun, hrd⟩), .zero (not_or.2 ⟨nofun, htd⟩), fun _ => rfl, hlink⟩
  | irqTop | start | wireIn | rxDrop | cause => exact hs.still
  | sched | regRd | regWr | wmb | attach | detach | host => exact absurd rfl hx

theorem Completes.indexInv {x : Agent} (hv : s.cfg.valid = true) (hs : s.indexInv) (h : Completes s x t) : t.indexInv := by
  obtain ⟨hbh, htx, hregs, hlen⟩ := State.indexInv_iff.1 hs
  obtain ⟨⟨hnRx, -⟩, ⟨hnTx, -⟩, -⟩ := Config.bounds_of_valid hv
  obtain ⟨hrdlen, htdlen, -, -⟩ := State.ringLenInv_iff.1 hlen
  have hcfg := h.records.cfg
  have hlen' : t.ringLenInv := h.ringLenInv hv hlen
  suffices ht : t.bh.Indexed s.cfg.nRx ∧ (∀ c ∈ t.txc, c.t < s.cfg.nTx) ∧ t.regs.Indexed s.cfg by
    obtain ⟨hbh', htx', hregs'⟩ := ht
    exact State.indexInv_iff.2 (hcfg ▸ ⟨hbh', htx', hregs', hlen'⟩)
  by_cases hx : x = .host
  · subst hx
    have hm := h.hostMoves
    have htail : t.bh.tail < s.cfg.nRx := by
      obtain e | e := hm.tail
      · exact e ▸ hbh.tail
      · rw [e]
        omega
    exact ⟨by rw [hm.bh]; exact { hbh with tail := htail }, hm.txc ▸ htx, hm.regs hregs⟩
  cases h with
  | irq h => rw [irqMicro_frame h]; exact ⟨hbh, htx, { hregs with }⟩
  | bh d n h =>
    have hb := bhMicro_indexed (s := { s with drawCount := n }) hnRx hbh hregs h
    have hf := bhMicro_frame h
    exact ⟨hb.1, by rw [hf]; exact htx, by rw [hf] at hb ⊢; exact hb.2⟩
  | submit k len frame hl h =>
    obtain ⟨c, hc, -, rfl⟩ := txIssue_done h
    exact ⟨hbh, forall_mem_modify htx fun c hc => htx c (List.mem_of_getElem? hc), hregs⟩
  | tx k h =>
    obtain ⟨c, hc, hm⟩ := txMicro_moves h
    have htx' : ∀ c ∈ t.txc, c.t < s.cfg.nTx := hm.forall_txc hc htx fun c' hm hlt => hm.index.elim (fun e => e ▸ hlt) id
    exact ⟨by rw [txMicro_frame h]; exact hbh, htx', hm.regs hregs⟩
  | land y pos h =>
    refine ⟨?_, land_txc (fun _ _ hc => hc) htx h, ?_⟩
    · rw [land_bh h]
      exact { hbh with }
    · obtain ⟨e, k, -, -, -, rfl⟩ := land_done h
      simpa using hregs
  | rxClaim h =>
    obtain ⟨-, hon, -, rem, waiting, -, rfl⟩ := devRxClaim_done h
    have hdepth : s.devRxDepth = s.cfg.nRx := depth_of_ringLen (hrdlen.2 (.inl hon))
    refine ⟨hbh, htx, { hregs with rdh := ?_ }⟩
    rw [hdepth]
    exact State.headAfter_lt hnRx _
  | rxWb d h => rw [devRxWb_frame h]; exact ⟨hbh, htx, { hregs with }⟩
  | xmit h =>
    obtain ⟨-, hon, -⟩ := devTxXmit_done h
    have hdepth : s.devTxDepth = s.cfg.nTx := depth_of_ringLen (htdlen.2 (.inl hon))
    obtain ⟨u, hu⟩ := devTxXmit_tdh h
    have htdh : t.regs.tdh.toNat < s.cfg.nTx := by
      rw [hu, hdepth]
      exact State.headAfter_lt hnTx _
    rw [devTxXmit_frame h]
    exact ⟨hbh, htx, { hregs with tdh := htdh }⟩
  | rstDone d h =>
    obtain ⟨-, rfl⟩ := devRstDone_done h
    exact ⟨hbh, htx, ⟨hnRx, hnRx, hnTx, hnTx⟩⟩
  | rxDrop | cause => exact ⟨hbh, htx, { hregs with }⟩
  | start => exact ⟨{ hbh with }, htx, hregs⟩
  | irqTop | wireIn => exact ⟨hbh, htx, hregs⟩
  | sched | regRd | regWr | wmb | attach | detach | host => exact absurd rfl hx

/-! ### Lengths (R31, R32, R147, R287) and the reset poll (R315) -/

/-- Where BH works with the length it has read from a descriptor (R166 to R172). -/
abbrev BhPc.lengthRead (pc : BhPc) : Prop := pc ∈ ([.rxCopy, .rxEop, .rxClear, .rxWmb, .rxPub] : List BhPc)

/-- BH's accumulator is within ACC_CAP, and the length it consumes within RX_BUF_SIZE. -/
structure BhAgent.LengthsOk (c : Config) (b : BhAgent) : Prop where
  acc : ∀ bytes, b.acc = some bytes → bytes.length ≤ c.accCap
  len : b.pc.lengthRead → b.len.toNat ≤ c.rxBufSize

/-- A claimed chunk fits its buffer, and fills it where its frame goes on. -/
def Claim.Fits (n : Nat) (c : Claim) : Prop := c.chunk.length ≤ n ∧ (c.eop = false → c.chunk.length = n)

/-- A call in progress has a frame of its length, within TX_MAX_LEN once that is checked. -/
def TxAgent.LengthsOk (cfg : Config) (c : TxAgent) : Prop :=
  (c.pc ≠ .idle → c.frame.length = c.len.toNat) ∧ (c.pc ≠ .idle → c.pc ≠ .lenchk → c.len.toNat ≤ cfg.txMaxLen)

/-- The invariant of the lengths, by who holds them. -/
theorem State.lengthInv_iff :
    s.lengthInv ↔ s.bh.LengthsOk s.cfg ∧ (∀ c ∈ s.dev.rxClaimed, c.Fits s.cfg.rxBufSize) ∧ (∀ c ∈ s.txc, c.LengthsOk s.cfg)
      ∧ (s.host.pc = .aPoll → s.host.polls < s.cfg.resetPollMax) := by
  constructor
  · rintro ⟨hacc, hlen, hclaims, htx, hpolls⟩
    exact ⟨⟨hacc, hlen⟩, hclaims, htx, hpolls⟩
  · rintro ⟨⟨hacc, hlen⟩, hclaims, htx, hpolls⟩
    exact ⟨hacc, hlen, hclaims, htx, hpolls⟩

/-- A step of BH that keeps the accumulator and the length, or empties the accumulator. -/
theorem BhAgent.LengthsOk.keep {c : Config} {b b' : BhAgent} (h : b.LengthsOk c)
    (hacc : b'.acc = b.acc ∨ b'.acc = none ∨ b'.acc = some [] := by exact .inl rfl)
    (hlen : b'.pc.lengthRead → b'.len = b.len ∧ b.pc.lengthRead := by exact nofun) : b'.LengthsOk c where
  acc bytes hb := by
    obtain e | e | e := hacc <;> rw [e] at hb
    · exact h.acc bytes hb
    · cases hb
    · cases hb; exact Nat.zero_le _
  len hpc := by
    obtain ⟨e, hpc⟩ := hlen hpc
    exact e ▸ h.len hpc

/-- RX_DESC refuses a length above RX_BUF_SIZE and RX_COPY one above what is left of ACC_CAP (R166, R167). -/
theorem bhMicro_lengthsOk {d : Draws} (hb : s.bh.LengthsOk s.cfg) (h : bhMicro d s = .done t) : t.bh.LengthsOk s.cfg := by
  unfold bhMicro at h
  cases hp : s.bh.pc <;> rw [hp] at h
  case idle => cases h
  case rxSnap => obtain ⟨-, rfl⟩ := rxSnap_done h; exact hb.keep
  case rxTest =>
    obtain ⟨-, rfl⟩ | ⟨-, bs, c, pc, hpc, rfl⟩ := rxTest_done h
    · exact hb.keep
    · obtain rfl | rfl := hpc <;> exact hb.keep
  case rxAlloc =>
    obtain ⟨-, rfl⟩ | ⟨-, rfl⟩ | ⟨-, rfl⟩ := rxAlloc_done h
    · exact hb.keep
    · exact hb.keep
    · exact hb.keep (.inr (.inr rfl))
  case rxAdv => obtain rfl := rxAdv_done h; exact hb.keep
  case rxDesc =>
    obtain ⟨d, c, -, hle, rfl⟩ := rxDesc_done h
    refine ⟨hb.acc, fun _ => ?_⟩
    rw [BitVec.toNat_ofNat]
    exact (Nat.mod_le _ _).trans hle
  case rxCopy =>
    have hlen := hb.len (by simp [hp])
    obtain ⟨b, -, hcap, ⟨-, rfl⟩ | ⟨-, p, c, hpl, rfl⟩⟩ := rxCopy_done h
    · exact hb.keep (hlen := fun _ => ⟨rfl, by simp [hp]⟩)
    · refine ⟨fun bytes hbytes => ?_, fun _ => hlen⟩
      cases hbytes
      rw [List.length_append, hpl]
      exact hcap
  case rxEop =>
    obtain ⟨-, rfl⟩ | ⟨-, b, -, rfl⟩ := rxEop_done h
    · exact hb.keep (hlen := fun _ => ⟨rfl, by simp [hp]⟩)
    · exact hb.keep (.inr (.inl rfl)) fun _ => ⟨rfl, by simp [hp]⟩
  case rxClear =>
    obtain ⟨u, hu, rfl⟩ := rxClear_done h
    rw [State.bhGo_bh, memWrite_bh hu]
    exact hb.keep (hlen := fun _ => ⟨rfl, by simp [hp]⟩)
  case rxWmb => obtain ⟨-, rfl⟩ := rxWmb_done h; exact hb.keep (hlen := fun _ => ⟨rfl, by simp [hp]⟩)
  case rxPub => obtain ⟨-, rfl⟩ := rxPub_done h; exact hb.keep
  case rxExit => obtain rfl := rxExit_done h; exact hb.keep

theorem TxAgent.LengthsOk.moves {cfg : Config} {c c' : TxAgent} (h : c.LengthsOk cfg) (hm : c.Moves cfg c') : c'.LengthsOk cfg := by
  obtain hidle | ⟨hbusy, hframe, hlen, hchk⟩ := hm.frame
  · exact ⟨fun hne => absurd hidle hne, fun hne => absurd hidle hne⟩
  · refine ⟨fun _ => by rw [hframe, hlen]; exact h.1 hbusy, fun _ _ => ?_⟩
    rw [hlen]
    by_cases hpc : c.pc = .lenchk
    · exact hchk hpc
    · exact h.2 hbusy hpc

/-- DEV claims at most RX_BUF_SIZE bytes, and fewer only at the end of a frame (R282, R287). -/
theorem claim_fits (slot n : Nat) (rem : List Byte) : Claim.Fits n ⟨slot, rem.take n, decide (rem.length ≤ n)⟩ := by
  refine ⟨List.length_take_le _ _, fun he => ?_⟩
  have hlong : n < rem.length := by simpa using he
  rw [List.length_take, min_eq_left hlong.le]

/-- A write-back takes the oldest claim off (R284). -/
theorem devRxWb_claims {d : WbDraws} (h : devRxWb d s = .done t) : t.dev.rxClaimed = s.dev.rxClaimed.tail := by
  obtain ⟨c, rest, -, hc, -, -, rfl⟩ := devRxWb_done h
  obtain ⟨ev, he⟩ := wbEffect_state c rest (ofLeBytes (devRead (s.devRxd c.slot) 8 s).1) d (devRead (s.devRxd c.slot) 8 s).2
  rw [he, hc]
  rfl

theorem Completes.lengthInv {x : Agent} (hv : s.cfg.valid = true) (hs : s.lengthInv) (h : Completes s x t) : t.lengthInv := by
  obtain ⟨hbh, hclaims, htx, hpolls⟩ := State.lengthInv_iff.1 hs
  have hcfg := h.records.cfg
  suffices ht : t.bh.LengthsOk s.cfg ∧ (∀ c ∈ t.dev.rxClaimed, c.Fits s.cfg.rxBufSize) ∧ (∀ c ∈ t.txc, c.LengthsOk s.cfg)
      ∧ (t.host.pc = .aPoll → t.host.polls < s.cfg.resetPollMax) from State.lengthInv_iff.2 (hcfg ▸ ht)
  by_cases hx : x = .host
  · subst hx
    have hm := h.hostMoves
    refine ⟨?_, ?_, hm.txc ▸ htx, fun hp => ?_⟩
    · rw [hm.bh]
      exact hbh.keep (hm.acc.imp_right .inl) fun hpc => ⟨rfl, hpc⟩
    · obtain e | e := hm.claims
      · exact e ▸ hclaims
      · simp [e]
    · obtain ⟨-, -, hmax⟩ := Config.bounds_of_valid hv
      obtain e | ⟨hp', e, hne⟩ := hm.polls hp
      · omega
      · have hlt := hpolls hp'
        omega
  cases h with
  | irq h => rw [irqMicro_frame h]; exact ⟨hbh, hclaims, htx, hpolls⟩
  | start => exact ⟨hbh.keep, hclaims, htx, hpolls⟩
  | bh d n h =>
    have hb := bhMicro_lengthsOk (s := { s with drawCount := n }) hbh h
    rw [bhMicro_frame h]
    exact ⟨hb, hclaims, htx, hpolls⟩
  | submit k len frame hl h =>
    obtain ⟨c, -, -, rfl⟩ := txIssue_done h
    exact ⟨hbh, hclaims, forall_mem_modify htx fun _ _ => ⟨fun _ => hl, fun _ hne => absurd rfl hne⟩, hpolls⟩
  | tx k h =>
    obtain ⟨c, hc, hm⟩ := txMicro_moves h
    have htx' : ∀ c ∈ t.txc, c.LengthsOk s.cfg := hm.forall_txc hc htx fun c' hm hok => hok.moves hm
    rw [txMicro_frame h]
    exact ⟨hbh, hclaims, htx', hpolls⟩
  | land y pos h =>
    refine ⟨?_, ?_, land_txc (fun _ _ hc => hc) htx h, ?_⟩
    · rw [land_bh h]
      exact hbh.keep (hlen := fun hpc => ⟨rfl, hpc⟩)
    · obtain ⟨e, k, -, -, -, rfl⟩ := land_done h
      simpa using hclaims
    · rw [land_host h]
      exact hpolls
  | rxClaim h =>
    obtain ⟨-, -, -, rem, waiting, -, rfl⟩ := devRxClaim_done h
    refine ⟨hbh, fun c hc => ?_, htx, hpolls⟩
    obtain hc | hc := List.mem_append.1 hc
    · exact hclaims c hc
    · exact List.mem_singleton.1 hc ▸ claim_fits _ _ _
  | rxWb d h =>
    have hrest : ∀ c ∈ t.dev.rxClaimed, c.Fits s.cfg.rxBufSize := fun c hc =>
      hclaims c (List.mem_of_mem_tail (devRxWb_claims h ▸ hc))
    rw [devRxWb_frame h]
    exact ⟨hbh, hrest, htx, hpolls⟩
  | xmit h => rw [devTxXmit_frame h]; exact ⟨hbh, hclaims, htx, hpolls⟩
  | rstDone d h =>
    obtain ⟨-, rfl⟩ := devRstDone_done h
    exact ⟨hbh, nofun, htx, hpolls⟩
  | irqTop | wireIn | rxDrop | cause => exact ⟨hbh, hclaims, htx, hpolls⟩
  | sched | regRd | regWr | wmb | attach | detach | host => exact absurd rfl hx

end Sys2Proof.Machine

namespace Sys2Proof.Proofs
open Sys2Proof Sys2Proof.Machine

/-- Settles O44: counted from RDH, a slot lies before RDT, at it, or beyond it. -/
theorem ringPartition : Obligations.RingPartition := by
  intro n head tail hn hh ht
  refine ⟨?_, fun i hi => ?_⟩
  · have hd := dist_lt (a := head) (b := tail) hn
    rw [headToTail, pendingSlots, length_slotsFrom, length_slotsFrom, pendingCount_eq hh ht]
    omega
  · rw [mem_headToTail_iff hh hi, mem_pendingSlots_iff hh ht hi]
    rcases lt_trichotomy (dist n head i) (dist n head tail) with h | h | h
    · exact .inl ⟨h, h.not_gt, fun e => h.ne (e ▸ rfl)⟩
    · exact .inr (.inr ⟨h.not_lt, h.not_gt, dist_inj hh hi ht h⟩)
    · exact .inr (.inl ⟨h.not_gt, h, fun e => h.ne (e ▸ rfl)⟩)

/-- Settles O56: every index comes from a range check, `next` on a ring or a reset, with the configured length where DEV moves a head; every length
from a check against its bound. -/
theorem boundsKept : Obligations.BoundsKept :=
  ⟨fun _ _ hs h => step_keeps hs h (script := fun _ _ hu => hu) (pass := fun _ hu => hu) (refuse := fun _ hu => hu)
      (fault := fun _ _ _ hu => hu) (completes := fun _ _ _ hv hu hc => hc.indexInv hv hu),
    fun _ _ hs h => step_keeps hs h (script := fun _ _ hu => hu) (pass := fun _ hu => hu) (refuse := fun _ hu => hu)
      (fault := fun _ _ _ hu => hu) (completes := fun _ _ _ hv hu hc => hc.lengthInv hv hu)⟩

end Sys2Proof.Proofs
end

section
/-! The statements of 41_rx_dispatcher.md: what each micro-step of BH's run does, under BH's turn and under RX_RUN's word. -/

namespace Sys2Proof.Machine

variable {s t : State} {x : Agent}

/-! ### The outcomes of the shared operations (R62, R66, R67, R107, R250) -/

/-- Inside a live region a read gives values that the bytes held allow, and draws only for bytes that hold none. -/
theorem memRead_of_live {a n : Nat} {k : RegionKind} (hk : s.localRegion a n = some k) :
    ∃ bs c, bs.length = n ∧ readsAs (s.view x k a n) bs ∧ (none ∉ s.view x k a n → c = s.drawCount)
      ∧ memRead x a n s = .ok (bs, { s with drawCount := c, history := s.history ++ [.mem x .read a bs] }) := by
  refine ⟨_, _, ?_, fillDraws_readsAs _ s.drawCount, fillDraws_count _ s.drawCount, ?_⟩
  · simp
  · simp only [memRead, hk, State.emit]

theorem memRead_of_not_live {a n : Nat} (hk : s.localRegion a n = none) : memRead x a n s = .error (.memBad a) := by
  simp only [memRead, hk]

theorem memWrite_posted {a : Nat} {bs : List Byte} {k : RegionKind} (hk : s.localRegion a bs.length = some k)
    (ho : s.cfg.postedOrder ≠ .sc) :
    memWrite x a bs s = .ok ((s.setPosted x (s.posted x ++ [⟨a, bs⟩])).emit (.mem x .write a bs)) := by
  simp only [memWrite, hk, beq_iff_eq, if_neg ho]

theorem memWrite_sc {a : Nat} {bs : List Byte} {k : RegionKind} (hk : s.localRegion a bs.length = some k)
    (ho : s.cfg.postedOrder = .sc) :
    memWrite x a bs s = .ok { s with
      mem := s.mem.write (s.dmaOf k a) bs
      history := s.history ++ [.visible x a bs, .mem x .write a bs] } := by
  simp [memWrite, hk, ho, State.emit]

theorem memWrite_of_not_live {a : Nat} {bs : List Byte} (hk : s.localRegion a bs.length = none) :
    memWrite x a bs s = .error (.memBad a) := by
  simp only [memWrite, hk]

/-- What a write of bytes does to the canonical memory, address by address. -/
theorem Memory.differsBy_write (m : Memory) (a : Nat) (bs : List Byte) : m.differsBy (m.write a bs) a bs := by
  refine ⟨fun i hi => ?_, m.get_write_frame a bs⟩
  rw [Memory.get_write, if_pos (by omega), Nat.add_sub_cancel_left]

theorem indexOf_of_outside {n : Nat} {v : Word} (h : n ≤ v.toNat % 2 ^ 16 ∨ 2 ^ 16 ≤ v.toNat) : indexOf n v = none := by
  refine Option.eq_none_iff_forall_ne_some.2 fun i hi => ?_
  obtain ⟨-, hn, h16⟩ := indexOf_some hi
  omega

theorem regAt_unmapped {off : Nat} (d : Dir) (hm : Resource.map ∉ s.acquired) : regAt off d s = .error (.regUnmapped off) := by
  simp [regAt, hm]

theorem regRead_unmapped {off : Nat} (hm : Resource.map ∉ s.acquired) : regRead x off s = .error (.regUnmapped off) := by
  simp only [regRead, regAt_unmapped .read hm]

/-- MMIO_DRAINS holds a register write exactly while the writer has posted writes (R69). -/
theorem State.mmioHolds_iff : s.mmioHolds x = true ↔ s.cfg.mmioDrains = true ∧ s.posted x ≠ [] := by
  simp [State.mmioHolds]

theorem State.not_mmioHolds (h : s.cfg.mmioDrains = false ∨ s.posted x = []) : ¬ s.mmioHolds x = true := by
  rw [State.mmioHolds_iff]
  rintro ⟨hd, hp⟩
  exact h.elim (by simp [hd]) hp

theorem regWrite_of_mmioHolds {off : Nat} {v : Word} (hh : s.mmioHolds x = true) : regWrite x off v s = .hold := by
  simp only [regWrite, if_pos hh]

theorem regWrite_unmapped {off : Nat} {v : Word} (hh : ¬ s.mmioHolds x = true) (hm : Resource.map ∉ s.acquired) :
    regWrite x off v s = .raise (.regUnmapped off) := by
  simp only [regWrite, if_neg hh, regWriteCheck, regAt_unmapped .write hm]

/-- RDT takes an index of the ring (R260). -/
theorem regWrite_rdt {v : Word} (hh : ¬ s.mmioHolds x = true) (hm : Resource.map ∈ s.acquired) (hn : v.toNat < s.cfg.nRx)
    (h16 : v.toNat < 2 ^ 16) :
    regWrite x RegName.rdt.offset v s = .done { s with
      regs := { s.regs with rdt := v }
      history := s.history ++ [.reg x .write RegName.rdt.offset v] } := by
  have hc := regWriteCheck_offset (r := .rdt) v hm (by decide) (by decide) (by decide)
  simp only [regWrite, if_neg hh, hc, regStore, regEffect, indexOf_of_lt hn h16, toWord_toNat_of_word, State.emit]

/-! ### BH's next micro-step (R29, R161), and the word that records it (R114, log entry 3) -/

/-- BH's next micro-step answers `r`, under BH's turn with any draws and under RX_RUN's word. -/
abbrev State.BhAnswers (s : State) (r : Result) : Prop := (∀ d, runMicro .bh d s = r) ∧ exec .rxRun s = r

theorem runMicro_bh (d : Draws) (s : State) : runMicro .bh d s = take .bh s (bhMicro d s) := rfl

/-- The word's answer at RX_ALLOC is a free value, which is one draw. -/
theorem exec_rxRun_of_asks (hpc : s.bh.pc = .rxAlloc) (hacc : s.bh.acc = none) :
    exec .rxRun s = take .bh s (rxAlloc s.recordDraws { s with drawCount := s.drawCount + 1 }) := by
  have hask : s.bhAsksAlloc = true := by simp [State.bhAsksAlloc, hpc, hacc]
  simp only [exec, execRxRun, if_pos hask, bhMicro, hpc]

theorem exec_rxRun_of_not_asks (h : s.bh.pc = .rxAlloc → s.bh.acc ≠ none) :
    exec .rxRun s = take .bh s (bhMicro s.recordDraws s) := by
  have hask : ¬ s.bhAsksAlloc = true := by simpa [State.bhAsksAlloc] using h
  simp only [exec, execRxRun, if_neg hask]

/-- Where the micro-step asks the allocator for nothing, RX_RUN's word takes the step that BH's turn takes. -/
theorem State.bhAnswers_of_micro {m : Micro} (h : s.bh.pc = .rxAlloc → s.bh.acc ≠ none) (hm : ∀ d, bhMicro d s = m) :
    s.BhAnswers (take .bh s m) :=
  ⟨fun d => by rw [runMicro_bh, hm], by rw [exec_rxRun_of_not_asks h, hm]⟩

/-! ### The micro-step of each pc (R162 to R172) -/

theorem bhMicro_rxAlloc (d : Draws) (hpc : s.bh.pc = .rxAlloc) : bhMicro d s = rxAlloc d s := by simp only [bhMicro, hpc]

theorem State.bhAnswers_rxSnap (hpc : s.bh.pc = .rxSnap) : s.BhAnswers (take .bh s (rxSnap s)) :=
  s.bhAnswers_of_micro (by simp [hpc]) fun d => by simp only [bhMicro, hpc]

theorem State.bhAnswers_rxTest (hpc : s.bh.pc = .rxTest) : s.BhAnswers (take .bh s (rxTest s)) :=
  s.bhAnswers_of_micro (by simp [hpc]) fun d => by simp only [bhMicro, hpc]

theorem State.bhAnswers_rxAdv (hpc : s.bh.pc = .rxAdv) : s.BhAnswers (take .bh s (rxAdv s)) :=
  s.bhAnswers_of_micro (by simp [hpc]) fun d => by simp only [bhMicro, hpc]

theorem State.bhAnswers_rxDesc (hpc : s.bh.pc = .rxDesc) : s.BhAnswers (take .bh s (rxDesc s)) :=
  s.bhAnswers_of_micro (by simp [hpc]) fun d => by simp only [bhMicro, hpc]

theorem State.bhAnswers_rxCopy (hpc : s.bh.pc = .rxCopy) : s.BhAnswers (take .bh s (rxCopy s)) :=
  s.bhAnswers_of_micro (by simp [hpc]) fun d => by simp only [bhMicro, hpc]

theorem State.bhAnswers_rxEop (hpc : s.bh.pc = .rxEop) : s.BhAnswers (take .bh s (rxEop s)) :=
  s.bhAnswers_of_micro (by simp [hpc]) fun d => by simp only [bhMicro, hpc]

theorem State.bhAnswers_rxClear (hpc : s.bh.pc = .rxClear) : s.BhAnswers (take .bh s (rxClear s)) :=
  s.bhAnswers_of_micro (by simp [hpc]) fun d => by simp only [bhMicro, hpc]

theorem State.bhAnswers_rxWmb (hpc : s.bh.pc = .rxWmb) : s.BhAnswers (take .bh s (rxWmb s)) :=
  s.bhAnswers_of_micro (by simp [hpc]) fun d => by simp only [bhMicro, hpc]

theorem State.bhAnswers_rxPub (hpc : s.bh.pc = .rxPub) : s.BhAnswers (take .bh s (rxPub s)) :=
  s.bhAnswers_of_micro (by simp [hpc]) fun d => by simp only [bhMicro, hpc]

theorem rxSnap_index (hm : Resource.map ∈ s.acquired) (hn : s.regs.rdh.toNat < s.cfg.nRx) (h16 : s.regs.rdh.toNat < 2 ^ 16) :
    rxSnap s = .done { s with
      bh := { s.bh with h := s.regs.rdh.toNat, pc := .rxTest }
      history := s.history ++ [.reg .bh .read RegName.rdh.offset s.regs.rdh] } := by
  simp only [rxSnap, regRead_plain (x := .bh) (r := .rdh) hm (by decide) (by decide), State.regValue, indexOf_of_lt hn h16, State.emit]

theorem rxSnap_outside (hm : Resource.map ∈ s.acquired)
    (h : s.cfg.nRx ≤ s.regs.rdh.toNat % 2 ^ 16 ∨ 2 ^ 16 ≤ s.regs.rdh.toNat) :
    rxSnap s = .raise (.indexRange RegName.rdh.offset s.regs.rdh) := by
  simp only [rxSnap, regRead_plain (x := .bh) (r := .rdh) hm (by decide) (by decide), State.regValue, indexOf_of_outside h]

theorem rxSnap_unmapped (hm : Resource.map ∉ s.acquired) : rxSnap s = .raise (.regUnmapped RegName.rdh.offset) := by
  simp only [rxSnap, regRead_unmapped hm]

theorem rxTest_at_head (h : nextIdx s.cfg.nRx s.bh.tail = s.bh.h) :
    rxTest s = .done { s with bh := { s.bh with n := nextIdx s.cfg.nRx s.bh.tail, pc := .rxExit } } := by
  simp only [rxTest, beq_iff_eq, if_pos h]

theorem rxTest_fault {f : BlockFault} (h : nextIdx s.cfg.nRx s.bh.tail ≠ s.bh.h)
    (hr : memRead .bh (s.rxdAddr (nextIdx s.cfg.nRx s.bh.tail) + 12) 1 s = .error f) : rxTest s = .raise f := by
  simp only [rxTest, beq_iff_eq, if_neg h, hr]

theorem rxTest_read {st : Byte} (h : nextIdx s.cfg.nRx s.bh.tail ≠ s.bh.h)
    (hr : memRead .bh (s.rxdAddr (nextIdx s.cfg.nRx s.bh.tail) + 12) 1 s = .ok ([st], t)) :
    rxTest s = .done { t with
      bh := { t.bh with n := nextIdx s.cfg.nRx s.bh.tail, pc := if st = 0 then .rxExit else .rxAlloc } } := by
  simp only [rxTest, beq_iff_eq, if_neg h, hr, List.cons.injEq, and_true]

theorem rxAlloc_kept {d : Draws} (h : s.bh.acc ≠ none) :
    rxAlloc d s = .done { s with bh := { s.bh with pc := .rxAdv } } := by
  obtain ⟨bytes, hb⟩ := Option.ne_none_iff_exists'.1 h
  simp only [rxAlloc, hb, State.bhGo]

theorem rxAlloc_granted {d : Draws} (h : s.bh.acc = none) (hd : d.alloc ≠ none) :
    rxAlloc d s = .done { s with
      bh := { s.bh with acc := some [], pc := .rxAdv }
      history := s.history ++ [.allocAcc s.cfg.accCap true] } := by
  obtain ⟨answer, ha⟩ := Option.ne_none_iff_exists'.1 hd
  simp only [rxAlloc, h, ha, State.emit, Option.isSome_some]

theorem rxAlloc_refused {d : Draws} (h : s.bh.acc = none) (hd : d.alloc = none) :
    rxAlloc d s = .done { s with
      bh := { s.bh with pc := .rxExit }
      history := s.history ++ [.allocAcc s.cfg.accCap false, .rxAllocDefer] } := by
  simp [rxAlloc, h, hd, State.emit, State.bhGo]

theorem rxDesc_fault {f : BlockFault} (hr : memRead .bh (s.rxdAddr s.bh.tail + 8) 6 s = .error f) :
    rxDesc s = .raise f := by
  simp only [rxDesc, hr]

theorem ofLeBytes_pair (b0 b1 : Byte) : ofLeBytes [b0, b1] = b0.toNat + 256 * b1.toNat := by
  simp only [ofLeBytes, Nat.mul_zero, Nat.add_zero]

theorem rxDesc_read {b0 b1 b2 b3 st err : Byte} (h : b0.toNat + 256 * b1.toNat ≤ s.cfg.rxBufSize)
    (hr : memRead .bh (s.rxdAddr s.bh.tail + 8) 6 s = .ok ([b0, b1, b2, b3, st, err], t)) :
    rxDesc s = .done { t with
      bh := { t.bh with len := BitVec.ofNat 16 (b0.toNat + 256 * b1.toNat), st := st, err := err, pc := .rxCopy } } := by
  simp [rxDesc, hr, ofLeBytes_pair, h.not_gt]

theorem rxDesc_too_long {b0 b1 b2 b3 st err : Byte} (h : s.cfg.rxBufSize < b0.toNat + 256 * b1.toNat)
    (hr : memRead .bh (s.rxdAddr s.bh.tail + 8) 6 s = .ok ([b0, b1, b2, b3, st, err], t)) :
    rxDesc s = .raise (.rxLen s.bh.tail (b0.toNat + 256 * b1.toNat)) := by
  simp [rxDesc, hr, ofLeBytes_pair, h]

section
variable {bytes : List Byte} (hb : s.bh.acc = some bytes)
include hb

theorem rxCopy_overflow (h : s.cfg.accCap < bytes.length + s.bh.len.toNat) :
    rxCopy s = .raise (.accOverflow s.bh.tail bytes.length s.bh.len.toNat) := by
  simp only [rxCopy, hb, if_pos h]

theorem rxCopy_zero (h : bytes.length + s.bh.len.toNat ≤ s.cfg.accCap) (hz : s.bh.len = 0) :
    rxCopy s = .done { s with bh := { s.bh with pc := .rxEop } } := by
  simp only [rxCopy, hb, if_neg h.not_gt, beq_iff_eq, if_pos hz, State.bhGo]

theorem rxCopy_fault {f : BlockFault} (h : bytes.length + s.bh.len.toNat ≤ s.cfg.accCap) (hz : s.bh.len ≠ 0)
    (hr : memRead .bh (s.rxbufAddr s.bh.tail) s.bh.len.toNat s = .error f) : rxCopy s = .raise f := by
  simp only [rxCopy, hb, if_neg h.not_gt, beq_iff_eq, if_neg hz, hr]

theorem rxCopy_read {p : List Byte} (h : bytes.length + s.bh.len.toNat ≤ s.cfg.accCap) (hz : s.bh.len ≠ 0)
    (hr : memRead .bh (s.rxbufAddr s.bh.tail) s.bh.len.toNat s = .ok (p, t)) :
    rxCopy s = .done { t with bh := { t.bh with acc := some (bytes ++ p), pc := .rxEop } } := by
  simp only [rxCopy, hb, if_neg h.not_gt, beq_iff_eq, if_neg hz, hr]

theorem rxEop_delivers (h : isEop s.bh.st = true) :
    rxEop s = .done { s with
      bh := { s.bh with acc := none, pc := .rxClear }
      history := s.history ++ [.deliver (delivered s.bh.st s.bh.err bytes)] } := by
  simp only [rxEop, if_pos h, hb, State.emit]

end

theorem rxEop_keeps (h : isEop s.bh.st = false) : rxEop s = .done { s with bh := { s.bh with pc := .rxClear } } := by
  simp [rxEop, h, State.bhGo]

theorem rxClear_fault {f : BlockFault} (hw : memWrite .bh (s.rxdAddr s.bh.tail + 12) [0] s = .error f) :
    rxClear s = .raise f := by
  simp only [rxClear, hw, Micro.ofExcept, Micro.andThen]

theorem rxClear_write (hw : memWrite .bh (s.rxdAddr s.bh.tail + 12) [0] s = .ok t) : rxClear s = .done (t.bhGo .rxWmb) := by
  simp only [rxClear, hw, Micro.ofExcept, Micro.andThen]

theorem rxWmb_drained (h : s.bh.posted = []) : rxWmb s = .done { s with bh := { s.bh with pc := .rxPub } } := by
  simp [rxWmb, barrier, State.posted, h, State.bhGo]

theorem rxWmb_undrained (h : s.bh.posted ≠ []) : rxWmb s = .hold := by
  simp [rxWmb, barrier, State.posted, h]

theorem rxPub_holds (hd : s.cfg.mmioDrains = true) (hp : s.bh.posted ≠ []) : rxPub s = .hold := by
  have hh : s.mmioHolds .bh = true := State.mmioHolds_iff.2 ⟨hd, hp⟩
  simp only [rxPub, regWrite_of_mmioHolds hh, Micro.andThen]

section
variable (hh : s.cfg.mmioDrains = false ∨ s.bh.posted = [])
include hh

theorem rxPub_unmapped (hm : Resource.map ∉ s.acquired) : rxPub s = .raise (.regUnmapped RegName.rdt.offset) := by
  simp only [rxPub, regWrite_unmapped (State.not_mmioHolds (x := .bh) hh) hm, Micro.andThen]

theorem rxPub_publishes (hm : Resource.map ∈ s.acquired) (hn : s.bh.tail < s.cfg.nRx) (h16 : s.cfg.nRx < 2 ^ 16) :
    rxPub s = .done { s with
      regs := { s.regs with rdt := toWord s.bh.tail }
      bh := { s.bh with pc := .rxTest }
      history := s.history ++ [.reg .bh .write RegName.rdt.offset (toWord s.bh.tail)] } := by
  have hle := toWord_toNat_le s.bh.tail
  have hw := regWrite_rdt (x := .bh) (State.not_mmioHolds hh) hm (hle.trans_lt hn) (hle.trans_lt (hn.trans h16))
  simp only [rxPub, hw, Micro.andThen, State.bhGo]

end

end Sys2Proof.Machine

namespace Sys2Proof.Proofs
open Sys2Proof Sys2Proof.Machine

/-- Settles O15: the read of RDH, then the range check of what it holds. -/
theorem rxSnap : Obligations.RxSnap := by
  intro s hrun hpc r hr
  have hstep := State.bhAnswers_rxSnap hpc
  obtain ⟨hmap, hn, h16, rfl⟩ | ⟨hmap, hout, rfl⟩ | ⟨hmap, rfl⟩ := hr
  · rwa [rxSnap_index hmap hn h16, take_done _ hrun] at hstep
  · rwa [rxSnap_outside hmap hout, take_raise _ hrun] at hstep
  · rwa [rxSnap_unmapped hmap, take_raise _ hrun] at hstep

/-- Settles O16: the snapshot head stops the run before the status byte is read. -/
theorem rxTest : Obligations.RxTest := by
  intro s n a hrun hpc hn ha
  obtain rfl : n = nextIdx s.cfg.nRx s.bh.tail := hn
  obtain rfl : a = s.rxdAddr (nextIdx s.cfg.nRx s.bh.tail) + 12 := ha
  have hstep := State.bhAnswers_rxTest hpc
  refine ⟨fun r hr => ?noRead, fun hne k hk => ?read⟩
  case noRead =>
    obtain ⟨heq, rfl⟩ | ⟨hne, hk, rfl⟩ := hr
    · rwa [rxTest_at_head heq, take_done _ hrun] at hstep
    · rwa [rxTest_fault hne (memRead_of_not_live hk), take_raise _ hrun] at hstep
  case read =>
    obtain ⟨bs, c, hlen, hreads, hcount, hr⟩ := memRead_of_live (x := .bh) hk
    obtain ⟨st, rfl⟩ := List.length_eq_one_iff.1 hlen
    rw [rxTest_read hne hr, take_done _ hrun] at hstep
    exact ⟨st, c, _, hreads, hcount, rfl, hstep⟩

/-- Settles O17: BH's turn brings the allocator's answer; under RX_RUN's word it is one free value, ok or fail. -/
theorem rxAllocAndAdvance : Obligations.RxAllocAndAdvance := by
  intro s d hrun
  refine ⟨?kept, ?granted, ?refused, ?word, ?advance⟩
  case kept =>
    intro hpc hacc
    obtain ⟨hturn, hword⟩ := s.bhAnswers_of_micro (fun _ => hacc) fun d => (bhMicro_rxAlloc d hpc).trans (rxAlloc_kept hacc)
    rw [take_done _ hrun] at hturn hword
    exact ⟨hturn d, hword⟩
  case granted =>
    intro hpc hacc hd
    rw [runMicro_bh, bhMicro_rxAlloc d hpc, rxAlloc_granted hacc hd, take_done _ hrun]
  case refused =>
    intro hpc hacc hd
    rw [runMicro_bh, bhMicro_rxAlloc d hpc, rxAlloc_refused hacc hd, take_done _ hrun]
  case word =>
    intro hpc hacc
    have hasked : ({ s with drawCount := s.drawCount + 1 } : State).bh.acc = none := hacc
    rw [exec_rxRun_of_asks hpc hacc]
    by_cases hd : s.recordDraws.alloc = none
    · exact .inr (by rw [rxAlloc_refused hasked hd, take_done _ hrun])
    · exact .inl (by rw [rxAlloc_granted hasked hd, take_done _ hrun])
  case advance =>
    intro hpc
    obtain ⟨hturn, hword⟩ := State.bhAnswers_rxAdv hpc
    rw [Machine.rxAdv, take_done _ hrun] at hturn hword
    exact ⟨hturn d, hword⟩

/-- Settles O18: the six bytes are read first, and their length decides what becomes of the read. -/
theorem rxDesc : Obligations.RxDesc := by
  intro s a hrun hpc ha
  obtain rfl : a = s.rxdAddr s.bh.tail + 8 := ha
  have hstep := State.bhAnswers_rxDesc hpc
  refine ⟨fun hk => ?dead, fun k hk => ?live⟩
  case dead => rwa [rxDesc_fault (memRead_of_not_live hk), take_raise _ hrun] at hstep
  case live =>
    obtain ⟨bs, c, hlen, hreads, hcount, hr⟩ := memRead_of_live (x := .bh) hk
    obtain ⟨b0, b1, b2, b3, st, err, rfl⟩ : ∃ b0 b1 b2 b3 st err, bs = [b0, b1, b2, b3, st, err] := by
      match bs, hlen with
      | [b0, b1, b2, b3, st, err], _ => exact ⟨b0, b1, b2, b3, st, err, rfl⟩
    refine ⟨b0, b1, b2, b3, st, err, c, ?_⟩
    obtain hfits | hlong := le_or_gt (b0.toNat + 256 * b1.toNat) s.cfg.rxBufSize
    · rw [rxDesc_read hfits hr, take_done _ hrun] at hstep
      exact ⟨_, hreads, hcount, fun _ => rfl, fun h => absurd hfits h.not_ge, hstep⟩
    · rw [rxDesc_too_long hlong hr, take_raise _ hrun] at hstep
      exact ⟨_, hreads, hcount, fun h => absurd hlong h.not_gt, fun _ => rfl, hstep⟩

/-- Settles O19: the capacity check comes first, then the test for an empty payload, then the read. -/
theorem rxCopy : Obligations.RxCopy := by
  intro s a bytes hrun hpc hacc ha
  obtain rfl : a = s.rxbufAddr s.bh.tail := ha
  have hstep := State.bhAnswers_rxCopy hpc
  refine ⟨fun r hr => ?noRead, fun hcap hz k hk => ?read⟩
  case noRead =>
    obtain ⟨hcap, hz, rfl⟩ | ⟨hcap, hz, hk, rfl⟩ | ⟨hover, rfl⟩ := hr
    · rwa [rxCopy_zero hacc hcap hz, take_done _ hrun] at hstep
    · rwa [rxCopy_fault hacc hcap hz (memRead_of_not_live hk), take_raise _ hrun] at hstep
    · rwa [rxCopy_overflow hacc hover, take_raise _ hrun] at hstep
  case read =>
    obtain ⟨p, c, -, hreads, hcount, hr⟩ := memRead_of_live (x := .bh) hk
    rw [rxCopy_read hacc hcap hz hr, take_done _ hrun] at hstep
    exact ⟨p, c, _, hreads, hcount, rfl, hstep⟩

/-- Settles O20: EOP is bit 1 of the status byte, and the record of the frame is made of the accumulated bytes. -/
theorem rxEop : Obligations.RxEop := by
  intro s hrun hpc r hr
  have hstep := State.bhAnswers_rxEop hpc
  obtain ⟨heop, bytes, hacc, rfl⟩ | ⟨heop, rfl⟩ := hr
  · rwa [rxEop_delivers hacc heop, take_done _ hrun] at hstep
  · rwa [rxEop_keeps heop, take_done _ hrun] at hstep

/-- Settles O21: one byte at offset 12 of the consumed descriptor, posted or visible at once. -/
theorem rxClear : Obligations.RxClear := by
  intro s a hrun hpc ha
  obtain rfl : a = s.rxdAddr s.bh.tail + 12 := ha
  have hstep := State.bhAnswers_rxClear hpc
  refine ⟨fun hk => ?dead, fun k hk => ⟨fun ho => ?posted, fun ho => ?sc⟩⟩
  case dead => rwa [rxClear_fault (memWrite_of_not_live hk), take_raise _ hrun] at hstep
  case posted =>
    rw [rxClear_write (memWrite_posted hk ho), take_done _ hrun] at hstep
    exact ⟨_, rfl, hstep⟩
  case sc =>
    rw [rxClear_write (memWrite_sc hk ho), take_done _ hrun] at hstep
    exact ⟨_, rfl, s.mem.differsBy_write _ _, hstep⟩

/-- Settles O22: the barrier waits for W[BH]; of RX_PUB's checks MMIO_DRAINS' hold comes first, and a valid ring has fewer than 2^16 slots. -/
theorem rxBarrierAndPublish : Obligations.RxBarrierAndPublish := by
  intro s hrun hvalid r hr
  obtain ⟨hpc, hp, rfl⟩ | ⟨hpc, hp, rfl⟩ | ⟨hpc, hmap, hn, hh, rfl⟩ | ⟨hpc, hmap, hh, rfl⟩ | ⟨hpc, hd, hp, rfl⟩ := hr
  · have hstep := State.bhAnswers_rxWmb hpc
    rwa [rxWmb_drained hp, take_done _ hrun] at hstep
  · have hstep := State.bhAnswers_rxWmb hpc
    rwa [rxWmb_undrained hp, take_hold] at hstep
  · have h16 : s.cfg.nRx < 2 ^ 16 := by
      obtain ⟨⟨-, hrx⟩, -⟩ := Config.bounds_of_valid hvalid
      omega
    have hstep := State.bhAnswers_rxPub hpc
    rwa [rxPub_publishes hh hmap hn h16, take_done _ hrun] at hstep
  · have hstep := State.bhAnswers_rxPub hpc
    rwa [rxPub_unmapped hh hmap, take_raise _ hrun] at hstep
  · have hstep := State.bhAnswers_rxPub hpc
    rwa [rxPub_holds hd hp, take_hold] at hstep

end Sys2Proof.Proofs
end

section
/-! The statements of 42_tx_dispatcher.md: what each micro-step of a transmit caller does, and that tx.lock keeps the callers apart. -/

namespace Sys2Proof.Machine

variable {s t : State} {k : Nat} {c : TxAgent}

/-! ### The next micro-step of a caller, by its pc (R29, R202) -/

section
variable (hc : s.txc[k]? = some c)
include hc

theorem txMicro_lenchk (hpc : c.pc = .lenchk) : txMicro k s = txLenchk k c s := by simp only [txMicro, hc, hpc]

theorem txMicro_lock (hpc : c.pc = .lock) : txMicro k s = txLockStep k s := by simp only [txMicro, hc, hpc]

theorem txMicro_readtail (hpc : c.pc = .readtail) : txMicro k s = txReadtail k s := by simp only [txMicro, hc, hpc]

theorem txMicro_check (hpc : c.pc = .check) : txMicro k s = txCheck k c s := by simp only [txMicro, hc, hpc]

theorem txMicro_headchk (hpc : c.pc = .headchk) : txMicro k s = txHeadchk k c s := by simp only [txMicro, hc, hpc]

theorem txMicro_clrstat (hpc : c.pc = .clrstat) : txMicro k s = txPost k (s.txdAddr c.t + 12) [0x00] .cmd s := by
  simp only [txMicro, hc, hpc, txClrstat]

theorem txMicro_cmd (hpc : c.pc = .cmd) : txMicro k s = txPost k (s.txdAddr c.t + 11) [txCmd] .len s := by
  simp only [txMicro, hc, hpc, txCmdStep]

theorem txMicro_len (hpc : c.pc = .len) : txMicro k s = txPost k (s.txdAddr c.t + 8) (leBytes 2 c.len.toNat) .copy s := by
  simp only [txMicro, hc, hpc, txLen]

theorem txMicro_copy_frame (hpc : c.pc = .copy) (hf : c.frame ≠ []) :
    txMicro k s = txPost k (s.txbufAddr c.t) c.frame .wmb s := by
  simp only [txMicro, hc, hpc, txCopy, List.isEmpty_iff, if_neg hf]

theorem txMicro_copy_empty (hpc : c.pc = .copy) (hf : c.frame = []) : txMicro k s = .done (s.txGo k .wmb) := by
  simp only [txMicro, hc, hpc, txCopy, List.isEmpty_iff, if_pos hf]

theorem txMicro_wmb (hpc : c.pc = .wmb) : txMicro k s = txWmb k s := by simp only [txMicro, hc, hpc]

theorem txMicro_pub (hpc : c.pc = .pub) : txMicro k s = txPub k c s := by simp only [txMicro, hc, hpc]

theorem txMicro_unlock (hpc : c.pc = .unlock) : txMicro k s = txUnlock k s := by simp only [txMicro, hc, hpc]

end

/-- A turn of TXC[k] takes its next micro-step, whatever the draws. -/
theorem runMicro_txc (d : Draws) (s : State) : runMicro (.txc k) d s = take (.txc k) s (txMicro k s) := rfl

section
variable {d : Draws} {m : Micro} (hm : txMicro k s = m) (hrun : Agent.txc k ∉ s.stopped)
include hm

theorem runMicro_txc_hold (h : m = .hold) : runMicro (.txc k) d s = .next s.passTurn := by
  rw [runMicro_txc, hm, h, take_hold]

include hrun

theorem runMicro_txc_done (h : m = .done t) : runMicro (.txc k) d s = .next t := by
  rw [runMicro_txc, hm, h, take_done _ hrun]

theorem runMicro_txc_raise {f : BlockFault} (h : m = .raise f) : runMicro (.txc k) d s = .next (s.raiseFault (.txc k) f) := by
  rw [runMicro_txc, hm, h, take_raise _ hrun]

end

/-! ### A request, TX_LENCHK, TX_LOCK and TX_READTAIL (R200 to R204) -/

theorem txIssue_idle {len : Half} {frame : List Byte} (hc : s.txc[k]? = some c) (hpc : c.pc = .idle) :
    txIssue k len frame s = .done { s with
      txc := s.txc.modify k fun c => { c with frame := frame, len := len, pc := .lenchk }
      history := s.history ++ [.txSubmit k frame] } := by
  simp only [txIssue, hc, beq_iff_eq, if_pos hpc, State.modTx, State.emit]

theorem txIssue_busy {len : Half} {frame : List Byte} (hc : s.txc[k]? = some c) (hpc : c.pc ≠ .idle) :
    txIssue k len frame s = .hold := by
  simp only [txIssue, hc, beq_iff_eq, if_neg hpc]

theorem txLenchk_unattached (hl : s.life ≠ .attached) : txLenchk k c s = .raise (.notAttached .txSubmit s.life) := by
  simp only [txLenchk, bne_iff_ne, if_pos hl]

theorem txLenchk_oversize (hl : s.life = .attached) (hlen : s.cfg.txMaxLen < c.len.toNat) :
    txLenchk k c s = .done { s with
      txc := s.txc.modify k fun c => { c with frame := [], pc := .idle }
      history := s.history ++ [.txDrop k .oversize, .txResult k .busy] } := by
  simp [txLenchk, hl, hlen, State.txBusy, State.emit, State.modTx]

theorem txLenchk_fits (hl : s.life = .attached) (hlen : c.len.toNat ≤ s.cfg.txMaxLen) :
    txLenchk k c s = .done { s with txc := s.txc.modify k fun c => { c with pc := .lock } } := by
  simp [txLenchk, hl, hlen.not_gt, State.txGo, State.modTx]

theorem txLockStep_free (h : s.txLock = none) :
    txLockStep k s = .done { s with txLock := some k, txc := s.txc.modify k fun c => { c with pc := .readtail } } := by
  simp only [txLockStep, h, State.txGo, State.modTx]

theorem txLockStep_held (h : s.txLock ≠ none) : txLockStep k s = .hold := by
  obtain ⟨j, hj⟩ := Option.ne_none_iff_exists'.1 h
  simp only [txLockStep, hj]

theorem txReadtail_index (hm : Resource.map ∈ s.acquired) (hn : s.regs.tdt.toNat < s.cfg.nTx) (h16 : s.regs.tdt.toNat < 2 ^ 16) :
    txReadtail k s = .done { s with
      txc := s.txc.modify k fun c => { c with t := s.regs.tdt.toNat, pc := .check }
      history := s.history ++ [.reg (.txc k) .read RegName.tdt.offset s.regs.tdt] } := by
  simp only [txReadtail, regRead_plain (x := .txc k) (r := .tdt) hm (by decide) (by decide), State.regValue,
    indexOf_of_lt hn h16, State.modTx, State.emit]

theorem txReadtail_outside (hm : Resource.map ∈ s.acquired)
    (h : s.cfg.nTx ≤ s.regs.tdt.toNat % 2 ^ 16 ∨ 2 ^ 16 ≤ s.regs.tdt.toNat) :
    txReadtail k s = .raise (.indexRange RegName.tdt.offset s.regs.tdt) := by
  simp only [txReadtail, regRead_plain (x := .txc k) (r := .tdt) hm (by decide) (by decide), State.regValue,
    indexOf_of_outside h]

theorem txReadtail_unmapped (hm : Resource.map ∉ s.acquired) : txReadtail k s = .raise (.regUnmapped RegName.tdt.offset) := by
  simp only [txReadtail, regRead_unmapped hm]

/-! ### TX_CHECK and TX_HEADCHK (R205, R206) -/

theorem txCheck_fault {f : BlockFault} (hr : memRead (.txc k) (s.txdAddr c.t + 12) 1 s = .error f) : txCheck k c s = .raise f := by
  simp only [txCheck, hr]

section
variable {st : Byte} (hr : memRead (.txc k) (s.txdAddr c.t + 12) 1 s = .ok ([st], t))
include hr

theorem txCheck_busy (hd : st.getLsbD 0 = false) :
    txCheck k c s = .done { t with
      txLock := none
      txc := t.txc.modify k fun c => { c with frame := [], pc := .idle }
      history := t.history ++ [.txDrop k .ringFull, .txResult k .busy] } := by
  have hdone : txDone st = false := hd
  simp [txCheck, hr, hdone, State.txBusy, State.txRelease, State.emit, State.modTx]

theorem txCheck_free (hd : st.getLsbD 0 = true) :
    txCheck k c s = .done { t with
      txc := t.txc.modify k fun c => { c with pc := if s.cfg.txKeepOneFree then .headchk else .clrstat } } := by
  have hdone : txDone st = true := hd
  cases hk : s.cfg.txKeepOneFree <;> simp [txCheck, hr, hdone, hk, State.txGo, State.modTx]

end

section
variable (hm : Resource.map ∈ s.acquired)
include hm

theorem txHeadchk_last (hn : s.regs.tdh.toNat < s.cfg.nTx) (h16 : s.regs.tdh.toNat < 2 ^ 16)
    (hlast : nextIdx s.cfg.nTx c.t = s.regs.tdh.toNat) :
    txHeadchk k c s = .done { s with
      txLock := none
      txc := s.txc.modify k fun c => { c with frame := [], pc := .idle }
      history := s.history ++ [.reg (.txc k) .read RegName.tdh.offset s.regs.tdh, .txDrop k .ringFull, .txResult k .busy] } := by
  simp [txHeadchk, regRead_plain (x := .txc k) (r := .tdh) hm (by decide) (by decide), State.regValue, indexOf_of_lt hn h16,
    hlast, State.txBusy, State.txRelease, State.modTx, State.emit]

theorem txHeadchk_taken (hn : s.regs.tdh.toNat < s.cfg.nTx) (h16 : s.regs.tdh.toNat < 2 ^ 16)
    (hmore : nextIdx s.cfg.nTx c.t ≠ s.regs.tdh.toNat) :
    txHeadchk k c s = .done { s with
      txc := s.txc.modify k fun c => { c with pc := .clrstat }
      history := s.history ++ [.reg (.txc k) .read RegName.tdh.offset s.regs.tdh] } := by
  simp only [txHeadchk, regRead_plain (x := .txc k) (r := .tdh) hm (by decide) (by decide), State.regValue, indexOf_of_lt hn h16,
    beq_iff_eq, if_neg hmore, State.txGo, State.modTx, State.emit]

theorem txHeadchk_outside (h : s.cfg.nTx ≤ s.regs.tdh.toNat % 2 ^ 16 ∨ 2 ^ 16 ≤ s.regs.tdh.toNat) :
    txHeadchk k c s = .raise (.indexRange RegName.tdh.offset s.regs.tdh) := by
  simp only [txHeadchk, regRead_plain (x := .txc k) (r := .tdh) hm (by decide) (by decide), State.regValue,
    indexOf_of_outside h]

end

theorem txHeadchk_unmapped (hm : Resource.map ∉ s.acquired) : txHeadchk k c s = .raise (.regUnmapped RegName.tdh.offset) := by
  simp only [txHeadchk, regRead_unmapped hm]

/-! ### Programming the slot (R207 to R210) -/

theorem State.posted_txc (hc : s.txc[k]? = some c) : s.posted (.txc k) = c.posted := by simp only [State.posted, hc]

/-- An update of one entry depends on what the function makes of that entry. -/
theorem modify_congr_at {α : Type} {l : List α} {i : Nat} {a : α} {f g : α → α} (ha : l[i]? = some a) (h : f a = g a) :
    l.modify i f = l.modify i g := by
  refine List.ext_getElem? fun j => ?_
  by_cases hij : i = j
  · subst hij
    simp [ha, h]
  · simp [List.getElem?_modify_ne _ _ hij]

section
variable {a : Nat} {bs : List Byte} {pc : TxPc}

theorem txPost_dead (hk : s.localRegion a bs.length = none) : txPost k a bs pc s = .raise (.memBad a) := by
  simp only [txPost, memWrite_of_not_live hk, Micro.ofExcept, Micro.andThen]

theorem txPost_posted {r : RegionKind} (hc : s.txc[k]? = some c) (hk : s.localRegion a bs.length = some r)
    (ho : s.cfg.postedOrder ≠ .sc) :
    txPost k a bs pc s = .done { s with
      txc := s.txc.modify k fun c => { c with posted := c.posted ++ [⟨a, bs⟩], pc := pc }
      history := s.history ++ [.mem (.txc k) .write a bs] } := by
  have htxc : (s.txc.modify k fun c' => { c' with posted := c.posted ++ [⟨a, bs⟩] }).modify k (fun c' => { c' with pc := pc })
      = s.txc.modify k fun c => { c with posted := c.posted ++ [⟨a, bs⟩], pc := pc } := by
    rw [List.modify_modify_eq]
    exact modify_congr_at hc rfl
  simp only [txPost, memWrite_posted hk ho, Micro.ofExcept, Micro.andThen, State.posted_txc hc, State.setPosted, State.txGo,
    State.modTx, State.emit, htxc]

theorem txPost_sc {r : RegionKind} (hk : s.localRegion a bs.length = some r) (ho : s.cfg.postedOrder = .sc) :
    txPost k a bs pc s = .done { s with
      mem := s.mem.write (s.dmaOf r a) bs
      txc := s.txc.modify k fun c => { c with pc := pc }
      history := s.history ++ [.visible (.txc k) a bs, .mem (.txc k) .write a bs] } := by
  simp only [txPost, memWrite_sc hk ho, Micro.ofExcept, Micro.andThen, State.txGo, State.modTx]

end

/-! ### Publishing the slot (R211 to R213) -/

theorem txWmb_drained (h : s.posted (.txc k) = []) :
    txWmb k s = .done { s with txc := s.txc.modify k fun c => { c with pc := .pub } } := by
  simp [txWmb, barrier, h, State.txGo, State.modTx]

theorem txWmb_undrained (h : s.posted (.txc k) ≠ []) : txWmb k s = .hold := by
  simp [txWmb, barrier, h]

/-- TDT takes an index of the ring (R260). -/
theorem regWrite_tdt {x : Agent} {v : Word} (hh : ¬ s.mmioHolds x = true) (hm : Resource.map ∈ s.acquired) (hn : v.toNat < s.cfg.nTx)
    (h16 : v.toNat < 2 ^ 16) :
    regWrite x RegName.tdt.offset v s = .done { s with
      regs := { s.regs with tdt := v }
      history := s.history ++ [.reg x .write RegName.tdt.offset v] } := by
  have hc := regWriteCheck_offset (r := .tdt) v hm (by decide) (by decide) (by decide)
  simp only [regWrite, if_neg hh, hc, regStore, regEffect, indexOf_of_lt hn h16, toWord_toNat_of_word, State.emit]

theorem txPub_holds (hh : s.mmioHolds (.txc k) = true) : txPub k c s = .hold := by
  simp only [txPub, regWrite_of_mmioHolds hh, Micro.andThen]

theorem txPub_unmapped (hh : ¬ s.mmioHolds (.txc k) = true) (hm : Resource.map ∉ s.acquired) :
    txPub k c s = .raise (.regUnmapped RegName.tdt.offset) := by
  simp only [txPub, regWrite_unmapped hh hm, Micro.andThen]

theorem txPub_publishes (hh : ¬ s.mmioHolds (.txc k) = true) (hm : Resource.map ∈ s.acquired) (hv : s.cfg.valid = true) :
    txPub k c s = .done { s with
      regs := { s.regs with tdt := toWord (nextIdx s.cfg.nTx c.t) }
      txc := s.txc.modify k fun c => { c with pc := .unlock }
      history := s.history ++ [.reg (.txc k) .write RegName.tdt.offset (toWord (nextIdx s.cfg.nTx c.t))] } := by
  obtain ⟨-, ⟨hpos, hmax⟩, -⟩ := Config.bounds_of_valid hv
  have hn := (toWord_toNat_le _).trans_lt (nextIdx_lt hpos c.t)
  have hw := regWrite_tdt hh hm hn (by omega)
  simp only [txPub, hw, Micro.andThen, State.txGo, State.modTx]

theorem txUnlock_accepts (k : Nat) (s : State) :
    txUnlock k s = .done { s with
      txLock := none
      txc := s.txc.modify k fun c => { c with frame := [], pc := .idle }
      history := s.history ++ [.txResult k .accepted] } := rfl

/-! ### The callers' pcs (R29, R202) -/

/-- The pc of TXC[k], where that caller exists. -/
def State.callerPc (s : State) (k : Nat) : Option TxPc := s.txc[k]?.map TxAgent.pc

theorem State.callerPc_of_caller (hc : s.txc[k]? = some c) : s.callerPc k = some c.pc := by simp [State.callerPc, hc]

theorem State.callerPc_congr (h : t.txc = s.txc) (j : Nat) : t.callerPc j = s.callerPc j := by simp only [State.callerPc, h]

/-- An update of one caller moves no other. -/
theorem State.callerPc_modify {f : TxAgent → TxAgent} (hc : s.txc[k]? = some c) (ht : t.txc = s.txc.modify k f) (j : Nat) :
    t.callerPc j = if j = k then some (f c).pc else s.callerPc j := by
  split
  case isTrue h => subst h; simp [State.callerPc, ht, hc]
  case isFalse h => simp only [State.callerPc, ht, List.getElem?_modify_ne _ _ (Ne.symm h)]

/-- The invariant of the transmit lock, said of the callers' pcs. -/
theorem State.txInv_iff :
    s.txInv ↔ s.lifeInv ∧ (∀ j pc, s.callerPc j = some pc → pc.critical = true → s.txLock = some j)
      ∧ (s.noTransmit → s.txLock = none ∧ ∀ j pc, s.callerPc j = some pc → pc = .idle ∨ pc = .lenchk) := by
  constructor
  · rintro ⟨hlife, hheld, hquiet⟩
    refine ⟨hlife, fun j pc hj => ?_, fun hn => ⟨(hquiet hn).1, fun j pc hj => ?_⟩⟩
    · obtain ⟨c, hc, rfl⟩ := Option.map_eq_some_iff.1 hj
      exact hheld j c hc
    · obtain ⟨c, hc, rfl⟩ := Option.map_eq_some_iff.1 hj
      exact (hquiet hn).2 c (List.mem_of_getElem? hc)
  · rintro ⟨hlife, hheld, hquiet⟩
    refine ⟨hlife, fun j c hc => hheld j c.pc (State.callerPc_of_caller hc), fun hn => ⟨(hquiet hn).1, fun c hc => ?_⟩⟩
    obtain ⟨j, hj⟩ := List.getElem?_of_mem hc
    exact (hquiet hn).2 j c.pc (State.callerPc_of_caller hj)

/-! ### tx.lock and the callers (R33, R203, R213, R217) -/

/-- What a step of caller `k` from pc `p` to pc `q` does to the lock: outside the critical part nothing; TX_LENCHK lets a call on to the lock only
while attached (R201); TX_LOCK takes the free lock; every way out of the critical part frees it. -/
inductive LockStep (s t : State) (k : Nat) : TxPc → TxPc → Prop where
  | outside {p q : TxPc} (hp : p.critical = false) (hq : q = .idle ∨ q = .lenchk) (hl : t.txLock = s.txLock) : LockStep s t k p q
  | goOn (life : s.life = .attached) (hl : t.txLock = s.txLock) : LockStep s t k .lenchk .lock
  | acquire (free : s.txLock = none) (hl : t.txLock = some k) : LockStep s t k .lock .readtail
  | within {p q : TxPc} (hp : p.critical = true) (hq : q.critical = true) (hl : t.txLock = s.txLock) : LockStep s t k p q
  | release {p : TxPc} (hp : p.critical = true) (hl : t.txLock = none) : LockStep s t k p .idle

theorem txPost_lock {a : Nat} {bs : List Byte} {pc : TxPc} (h : txPost k a bs pc s = .done t) :
    t.txLock = s.txLock ∧ ∃ f, t.txc = s.txc.modify k f ∧ ∀ c, (f c).pc = pc := by
  obtain ⟨u, hu, rfl⟩ := txPost_done h
  obtain ⟨r, -, ⟨-, rfl⟩ | ⟨-, rfl⟩⟩ := memWrite_ok hu
  · exact ⟨rfl, _, rfl, fun _ => rfl⟩
  · exact ⟨rfl, _, List.modify_modify_eq .., fun _ => rfl⟩

theorem txMicro_lockStep (h : txMicro k s = .done t) :
    ∃ c f, s.txc[k]? = some c ∧ t.txc = s.txc.modify k f ∧ LockStep s t k c.pc (f c).pc := by
  unfold txMicro at h
  split at h
  · cases h
  rename_i c hc
  refine ⟨c, ?_⟩
  have post {a : Nat} {bs : List Byte} {pc : TxPc} (hp : c.pc.critical = true) (hpc : pc.critical = true) (h : txPost k a bs pc s = .done t) :
      ∃ f, s.txc[k]? = some c ∧ t.txc = s.txc.modify k f ∧ LockStep s t k c.pc (f c).pc := by
    obtain ⟨hl, f, hf, hfpc⟩ := txPost_lock h
    exact ⟨f, hc, hf, .within hp ((hfpc c).symm ▸ hpc) hl⟩
  cases hp : c.pc <;> simp only [hp] at h post
  case idle => cases h
  case lenchk =>
    obtain ⟨hlife, ⟨-, rfl⟩ | ⟨-, rfl⟩⟩ := txLenchk_done h
    · exact ⟨_, hc, rfl, .outside rfl (.inl rfl) rfl⟩
    · exact ⟨_, hc, rfl, .goOn hlife rfl⟩
  case lock =>
    obtain ⟨hfree, rfl⟩ := txLockStep_done h
    exact ⟨_, hc, rfl, .acquire hfree rfl⟩
  case readtail =>
    obtain ⟨-, rfl⟩ := txReadtail_done h
    exact ⟨_, hc, rfl, .within rfl rfl rfl⟩
  case check =>
    obtain ⟨b, n, -, ⟨-, rfl⟩ | ⟨-, rfl⟩⟩ := txCheck_done h
    · exact ⟨_, hc, rfl, .release rfl rfl⟩
    · exact ⟨_, hc, rfl, .within rfl (by dsimp only; split <;> rfl) rfl⟩
  case headchk =>
    obtain ⟨-, ⟨-, rfl⟩ | ⟨-, rfl⟩⟩ := txHeadchk_done h
    · exact ⟨_, hc, rfl, .release rfl rfl⟩
    · exact ⟨_, hc, rfl, .within rfl rfl rfl⟩
  case clrstat | cmd | len => exact post rfl rfl h
  case copy =>
    obtain ⟨-, rfl⟩ | ⟨hne, -⟩ := txCopy_done h
    · exact ⟨_, hc, rfl, .within rfl rfl rfl⟩
    · exact post rfl rfl ((if_neg (by simpa using hne)).symm.trans h)
  case wmb =>
    obtain ⟨-, rfl⟩ := txWmb_done h
    exact ⟨_, hc, rfl, .within rfl rfl rfl⟩
  case pub =>
    obtain ⟨-, rfl⟩ := txPub_done h
    exact ⟨_, hc, rfl, .within rfl rfl rfl⟩
  case unlock =>
    obtain rfl := txUnlock_done h
    exact ⟨_, hc, rfl, .release rfl rfl⟩

/-- While the block is attached, transmit calls may get past TX_LENCHK (R220). -/
theorem State.not_noTransmit_of_attached (hs : s.lifeInv) (hl : s.life = .attached) : ¬ s.noTransmit := by
  have hcalm : s.host.pc.phase = .calm := by
    unfold State.lifeInv at hs
    split at hs
    · assumption
    all_goals simp [hl] at hs
  rintro (h | h | h | h | h)
  · simp [hl] at h
  all_goals exact absurd hcalm (by rw [h]; decide)

/-- A step of one caller keeps the exclusion: it enters the critical part with a free lock, and frees it on its way out. -/
theorem State.txInv.ofCaller {f : TxAgent → TxAgent} (hs : s.txInv) (hlife : t.lifeInv) (hno : t.noTransmit → s.noTransmit)
    (hc : s.txc[k]? = some c) (ht : t.txc = s.txc.modify k f) (h : LockStep s t k c.pc (f c).pc) : t.txInv := by
  obtain ⟨hsl, hheld, hquiet⟩ := State.txInv_iff.1 hs
  have hpc := State.callerPc_of_caller hc
  have hpcs := State.callerPc_modify hc ht
  generalize (f c).pc = q at h hpcs
  generalize c.pc = p at h hpc
  have others {j : Nat} {pc : TxPc} (hne : j ≠ k) (hj : t.callerPc j = some pc) : s.callerPc j = some pc := by
    rw [← hj, hpcs, if_neg hne]
  have own {pc : TxPc} (hk : t.callerPc k = some pc) : pc = q := by
    rw [hpcs, if_pos rfl] at hk
    exact (Option.some.inj hk).symm
  refine State.txInv_iff.2 ⟨hlife, fun j pc hj hcrit => ?held, fun hn => ?quiet⟩
  case held =>
    by_cases hjk : j = k
    · subst hjk
      obtain rfl := own hj
      cases h with
      | outside hp hq hl => obtain rfl | rfl := hq <;> cases hcrit
      | goOn life hl => cases hcrit
      | acquire free hl => exact hl
      | within hp _ hl => exact hl.trans (hheld j p hpc hp)
      | release hp hl => cases hcrit
    · have hheldj := hheld j pc (others hjk hj) hcrit
      cases h with
      | outside _ _ hl | goOn _ hl | within _ _ hl => exact hl.trans hheldj
      | acquire free hl => exact absurd (free.symm.trans hheldj) (by simp)
      | release hp hl => exact absurd (Option.some.inj (hheldj.symm.trans (hheld k p hpc hp))) hjk
  case quiet =>
    obtain ⟨hfree, houtside⟩ := hquiet (hno hn)
    have hp := houtside k p hpc
    cases h with
    | outside _ hq hl =>
      refine ⟨hl.trans hfree, fun j pc hj => ?_⟩
      by_cases hjk : j = k
      · subst hjk
        obtain rfl := own hj
        exact hq
      · exact houtside j pc (others hjk hj)
    | goOn life => exact absurd (hno hn) (State.not_noTransmit_of_attached hsl life)
    | acquire => simp at hp
    | within hcrit | release hcrit => obtain rfl | rfl := hp <;> cases hcrit

/-- A step that moves no caller and neither takes the lock nor frees it in a caller's hands keeps the exclusion. -/
theorem State.txInv.ofSame (hs : s.txInv) (hlife : t.lifeInv) (hpcs : ∀ j, t.callerPc j = s.callerPc j)
    (hlock : t.txLock = s.txLock ∨ (s.noTransmit ∧ t.txLock = none))
    (hno : t.noTransmit → s.noTransmit ∨ (s.txLock = none ∧ ∀ c ∈ s.txc, c.pc = .idle)) : t.txInv := by
  obtain ⟨-, hheld, hquiet⟩ := State.txInv_iff.1 hs
  refine State.txInv_iff.2 ⟨hlife, fun j pc hj hcrit => ?held, fun hn => ?quiet⟩
  case held =>
    have hheldj := hheld j pc (hpcs j ▸ hj) hcrit
    obtain hl | ⟨hn, -⟩ := hlock
    · exact hl.trans hheldj
    · exact absurd ((hquiet hn).1.symm.trans hheldj) (by simp)
  case quiet =>
    have hsame : s.txLock = none ∧ ∀ j pc, s.callerPc j = some pc → pc = .idle ∨ pc = .lenchk := by
      obtain hn | ⟨hfree, hidle⟩ := hno hn
      · exact hquiet hn
      · refine ⟨hfree, fun j pc hj => .inl ?_⟩
        obtain ⟨c, hc, rfl⟩ := Option.map_eq_some_iff.1 hj
        exact hidle c (List.mem_of_getElem? hc)
    refine ⟨?_, fun j pc hj => hsame.2 j pc (hpcs j ▸ hj)⟩
    obtain hl | ⟨-, hl⟩ := hlock
    · exact hl.trans hsame.1
    · exact hl

/-! ### HOST and the callers (R220, R310, R322) -/

/-- Where HOST stands while no transmit call gets past TX_LENCHK: in ATTACH, or in DETACH after D_TXWAIT. -/
abbrev HostPc.noTransmit (pc : HostPc) : Prop := pc.phase = .attaching ∨ pc = .dAcc ∨ pc = .dRel ∨ pc = .dDone

theorem State.noTransmit_iff : s.noTransmit ↔ s.life = .detached ∨ s.host.pc.noTransmit := .rfl

theorem hostAdvances_noTransmit : ∀ p ∈ hostAdvances, p.2.noTransmit → p.1.noTransmit ∨ p.1 = .dTxwait := by decide

theorem hostAllocs_noTransmit : ∀ p ∈ hostAllocs, p.1.noTransmit := by decide

theorem hostImages_noTransmit : ∀ p ∈ hostImages, p.1.noTransmit := by decide

theorem hostReleases_noTransmit : ∀ p ∈ hostReleases, p.1.noTransmit := by decide

theorem hostFails_noTransmit : ∀ pc ∈ hostFails, pc.noTransmit := by decide

/-- HOST shuts the callers out at A_CHECK, while the block is cold, and at D_TXWAIT. -/
theorem HostStep.noTransmit (h : HostStep s t) (hn : t.noTransmit) : s.noTransmit ∨ s.host.pc = .dTxwait := by
  rw [State.noTransmit_iff] at hn ⊢
  cases h with
  | advance pcs routine drained =>
    rw [routine.holdings.life] at hn
    exact hn.elim (fun hl => .inl (.inl hl)) fun hp => (hostAdvances_noTransmit _ pcs hp).imp_left .inr
  | image pcs => exact .inl (.inr (hostImages_noTransmit _ pcs))
  | fail hp => exact .inl (.inr (hostFails_noTransmit _ hp))
  | alloc pcs => exact .inl (.inr (hostAllocs_noTransmit _ pcs))
  | release hp pcs => exact .inl (.inr (hp ▸ hostReleases_noTransmit _ pcs))
  | aCheck hp hl => exact .inl (.inl hl)
  | dCheck => exact absurd hn (not_or.2 ⟨nofun, (by decide : ¬ HostPc.dQuiesce.noTransmit)⟩)
  | dQuiesce => exact .inl (.inl (hn.resolve_right (by decide : ¬ HostPc.dImc.noTransmit)))
  | dIrqrel => exact .inl (.inl (hn.resolve_right (by decide : ¬ HostPc.dBh.noTransmit)))
  | aMap hp | aIrq hp | aEnable hp | aDone hp | aFailed hp | dDone hp => exact .inl (.inr (by rw [hp]; decide))

/-- HOST frees the lock at A_STATE and touches it nowhere else (R310). -/
theorem hostMicro_txLock {d : Draws} (h : hostMicro d s = .done t) :
    t.txLock = s.txLock ∨ (s.host.pc = .aState ∧ t.txLock = none) := by
  unfold hostMicro at h
  cases hp : s.host.pc <;> rw [hp] at h
  case aState => cases h; exact .inr ⟨rfl, rfl⟩
  all_goals refine .inl ?_
  case idle => cases h
  case aCheck => obtain ⟨-, rfl⟩ := aCheck_done h; rfl
  case aMap => obtain rfl | rfl := aMap_done h <;> rfl
  case aRstRd => obtain rfl := aRstRd_done h; rfl
  case aRstWr => obtain rfl := aRstWr_done h; rfl
  case aPoll => obtain ⟨-, rfl⟩ | ⟨-, -, rfl⟩ | ⟨-, -, rfl⟩ := aPoll_done h <;> rfl
  case aLinkRd => obtain rfl := aLinkRd_done h; rfl
  case aRxdesc | aRxbuf | aTxdesc | aTxbuf => rw [hostAlloc_frame h]
  case aInitRx | aInitTx => rw [hostImage_frame h]
  case aWmb => obtain ⟨-, rfl⟩ := barrier_done h; rfl
  case aIrq => obtain rfl | rfl := aIrq_done h <;> rfl
  case aUnwind | dRel => cases h; rw [releaseLast_frame s]; rfl
  case dCheck => obtain ⟨-, rfl⟩ | ⟨-, rfl⟩ := dCheck_done h <;> rfl
  case dIrqrel => obtain ⟨-, rfl⟩ := dIrqrel_done h; rfl
  case dBhwait => obtain ⟨-, -, rfl⟩ := dBhwait_done h; rfl
  case dTxwait => obtain ⟨-, -, rfl⟩ := dTxwait_done h; rfl
  case aEnable | aDone | aFailed | dQuiesce | dBh | dAcc | dDone => cases h; rfl
  all_goals rw [hostWrite_frame h]

theorem Completes.host_txLock (h : Completes s .host t) : t.txLock = s.txLock ∨ (s.noTransmit ∧ t.txLock = none) := by
  cases h with
  | sched h => obtain ⟨-, -, rfl⟩ := bhSchedHost_done h; exact .inl rfl
  | regRd off h =>
    obtain ⟨-, v, hr⟩ := regRdHost_done h
    obtain ⟨r, -, -, -, -, rfl⟩ := regRead_ok hr
    exact .inl rfl
  | regWr off v h => obtain ⟨-, r, -, -, -, -, rfl⟩ := regWrHost_done h; exact .inl rfl
  | wmb h => obtain ⟨-, -, rfl⟩ := wmbHost_done h; exact .inl rfl
  | attach | detach => exact .inl rfl
  | host d h =>
    refine (hostMicro_txLock h).imp_right fun ⟨hp, hl⟩ => ⟨.inr (.inl ?_), hl⟩
    rw [hp]
    rfl

/-- D_TXWAIT waits for a free lock and idle callers (R322); HOST's words while it is idle are not there. -/
theorem Completes.host_dTxwait (h : Completes s .host t) (hp : s.host.pc = .dTxwait) :
    s.txLock = none ∧ ∀ c ∈ s.txc, c.pc = .idle := by
  have busy (hidle : s.host.pc = .idle) : s.txLock = none ∧ ∀ c ∈ s.txc, c.pc = .idle :=
    absurd (hidle.symm.trans hp) (by decide)
  cases h with
  | sched h => exact busy (bhSchedHost_done h).1
  | regRd off h => exact busy (regRdHost_done h).1
  | regWr off v h => exact busy (regWrHost_done h).1
  | wmb h => exact busy (wmbHost_done h).1
  | attach hidle | detach hidle => exact busy hidle
  | host d h =>
    simp only [hostMicro, hp] at h
    obtain ⟨hfree, hidle, -⟩ := dTxwait_done h
    exact ⟨hfree, hidle⟩

theorem Completes.host_txInv (hs : s.txInv) (h : Completes s .host t) : t.txInv :=
  hs.ofSame (h.hostStep.lifeInv hs.1) (State.callerPc_congr h.hostMoves.txc) h.host_txLock
    fun hn => (h.hostStep.noTransmit hn).imp_right h.host_dTxwait

/-! ### The exclusion is kept (R217) -/

theorem State.setPosted_callerPc (s : State) (x : Agent) (w : List Posted) (j : Nat) :
    (s.setPosted x w).callerPc j = s.callerPc j := by
  cases x with
  | txc k =>
    by_cases hjk : k = j
    · subst hjk
      cases hc : s.txc[k]? <;> simp [State.callerPc, State.setPosted, State.modTx, hc]
    · simp [State.callerPc, State.setPosted, State.modTx, List.getElem?_modify_ne _ _ hjk]
  | _ => rfl

theorem Completes.txInv {x : Agent} (hs : s.txInv) (h : Completes s x t) : t.txInv := by
  by_cases hx : x = .host
  · subst hx
    exact h.host_txInv hs
  obtain ⟨hsame, hpc⟩ := h.sameHoldings hx
  have hlife : t.lifeInv := (State.lifeInv_congr (by rw [hpc]) hsame.life).2 hs.1
  have hno : t.noTransmit → s.noTransmit := by
    rw [State.noTransmit_iff, State.noTransmit_iff, hsame.life, hpc]
    exact id
  have still (hpcs : ∀ j, t.callerPc j = s.callerPc j) (hlock : t.txLock = s.txLock) : t.txInv :=
    hs.ofSame hlife hpcs (.inl hlock) fun hn => .inl (hno hn)
  cases h with
  | submit k len frame hl h =>
    obtain ⟨c, hc, hp, rfl⟩ := txIssue_done h
    exact hs.ofCaller hlife hno hc rfl (.outside (by rw [hp]; rfl) (.inr rfl) rfl)
  | tx k h =>
    obtain ⟨c, f, hc, hf, hl⟩ := txMicro_lockStep h
    exact hs.ofCaller hlife hno hc hf hl
  | land y pos h =>
    obtain ⟨e, r, -, -, -, rfl⟩ := land_done h
    exact still (State.setPosted_callerPc _ y _) (by simp)
  | irq h => exact still (State.callerPc_congr (by rw [irqMicro_frame h])) (by rw [irqMicro_frame h])
  | bh d n h => exact still (State.callerPc_congr (by rw [bhMicro_frame h])) (by rw [bhMicro_frame h])
  | rxClaim h => exact still (State.callerPc_congr (by rw [devRxClaim_frame h])) (by rw [devRxClaim_frame h])
  | rxWb d h => exact still (State.callerPc_congr (by rw [devRxWb_frame h])) (by rw [devRxWb_frame h])
  | xmit h => exact still (State.callerPc_congr (by rw [devTxXmit_frame h])) (by rw [devTxXmit_frame h])
  | rstDone d h => obtain ⟨-, rfl⟩ := devRstDone_done h; exact still (fun _ => rfl) rfl
  | irqTop | start | wireIn | rxDrop | cause => exact still (fun _ => rfl) rfl
  | sched | regRd | regWr | wmb | attach | detach | host => exact absurd rfl hx

end Sys2Proof.Machine

namespace Sys2Proof.Proofs
open Sys2Proof Sys2Proof.Machine

/-- Settles O54: TX_LOCK takes only a free lock, every way out of the critical part frees it, and A_STATE frees it while no call is past TX_LENCHK; a
lock has one holder. -/
theorem txExclusionKept : Obligations.TxExclusionKept := by
  refine ⟨fun s t hs h => ?kept, fun s hs j k a b ha hb hacrit hbcrit => ?exclusive⟩
  case kept =>
    exact step_keeps hs h (script := fun _ _ hu => hu) (pass := fun _ hu => hu) (refuse := fun _ hu => hu)
      (fault := fun _ _ _ hu => hu) (completes := fun _ _ _ _ hu hc => hc.txInv hu)
  case exclusive =>
    obtain ⟨-, hheld, -⟩ := hs
    exact Option.some.inj ((hheld j a ha hacrit).symm.trans (hheld k b hb hbcrit))

/-- Settles O27: the status byte is read first, and DD is its bit 0. -/
theorem txDoneTest : Obligations.TxDoneTest := by
  intro s d k c a hrun hc hpc ha
  obtain rfl : a = s.txdAddr c.t + 12 := ha
  have hm := txMicro_check hc hpc
  refine ⟨fun rk hk => ?live, fun hk => ?dead⟩
  case dead => exact runMicro_txc_raise hm hrun (txCheck_fault (memRead_of_not_live hk))
  case live =>
    obtain ⟨bs, n, hlen, hreads, hcount, hr⟩ := memRead_of_live (x := .txc k) hk
    obtain ⟨st, rfl⟩ := List.length_eq_one_iff.1 hlen
    refine ⟨st, n, hreads, hcount, fun hd => ?busy, fun hd => ?free⟩
    case busy =>
      rw [runMicro_txc_done hm hrun (txCheck_busy hr hd)]
      simp only [List.append_assoc, List.cons_append, List.nil_append]
    case free => exact runMicro_txc_done hm hrun (txCheck_free hr hd)

/-- Settles O28: the read of TDH, its range check, then the test for the last free slot. -/
theorem txHeadCheck : Obligations.TxHeadCheck := by
  intro s d k c hrun hc hpc
  have hm := txMicro_headchk hc hpc
  refine ⟨fun hmap hn h16 => ⟨fun hlast => ?last, fun hmore => ?taken⟩, fun hmap hout => ?outside, fun hmap => ?unmapped⟩
  case last => exact runMicro_txc_done hm hrun (txHeadchk_last hmap hn h16 hlast)
  case taken => exact runMicro_txc_done hm hrun (txHeadchk_taken hmap hn h16 hmore)
  case outside => exact runMicro_txc_raise hm hrun (txHeadchk_outside hmap hout)
  case unmapped => exact runMicro_txc_raise hm hrun (txHeadchk_unmapped hmap)

/-- Settles O29: each of the four pcs posts its bytes by the same operation; an empty frame has no byte to post. -/
theorem txProgramSlot : Obligations.TxProgramSlot := by
  intro s d k c hrun hc
  refine ⟨fun p hp hpc hne => ?posts, fun hpc hf => runMicro_txc_done (txMicro_copy_empty hc hpc hf) hrun rfl⟩
  case posts =>
    have hm : txMicro k s = txPost k p.2.1 p.2.2.1 p.2.2.2 s := by
      simp only [List.mem_cons, List.not_mem_nil, or_false] at hp
      obtain rfl | rfl | rfl | rfl := hp
      · exact txMicro_clrstat hc hpc
      · exact txMicro_cmd hc hpc
      · exact txMicro_len hc hpc
      · exact txMicro_copy_frame hc hpc hne
    refine ⟨fun hk => ?dead, fun rk hk => ⟨fun ho => ?posted, fun ho => ?sc⟩⟩
    case dead => exact runMicro_txc_raise hm hrun (txPost_dead hk)
    case posted => exact runMicro_txc_done hm hrun (txPost_posted hc hk ho)
    case sc => exact ⟨_, runMicro_txc_done hm hrun (txPost_sc hk ho), s.mem.differsBy_write _ _, rfl⟩

/-- Settles O30: the barrier waits for W[TXC[k]]; of TX_PUB's checks MMIO_DRAINS' hold comes first, and the next slot is an index of a valid ring. -/
theorem txPublish : Obligations.TxPublish := by
  intro s d k c hrun hvalid hc
  have hposted := State.posted_txc hc
  have mayWrite (hh : s.cfg.mmioDrains = false ∨ c.posted = []) : ¬ s.mmioHolds (.txc k) = true :=
    State.not_mmioHolds (by rwa [hposted])
  refine ⟨fun hpc hw => ?drained, fun hpc hw => ?undrained, fun hpc hmap hh => ?publishes, fun hpc hmap hh => ?unmapped,
    fun hpc hd hw => ?holds, fun hpc => ?unlock⟩
  case drained => exact runMicro_txc_done (txMicro_wmb hc hpc) hrun (txWmb_drained (hposted.trans hw))
  case undrained => exact runMicro_txc_hold (txMicro_wmb hc hpc) (txWmb_undrained (hposted ▸ hw))
  case publishes => exact runMicro_txc_done (txMicro_pub hc hpc) hrun (txPub_publishes (mayWrite hh) hmap hvalid)
  case unmapped => exact runMicro_txc_raise (txMicro_pub hc hpc) hrun (txPub_unmapped (mayWrite hh) hmap)
  case holds => exact runMicro_txc_hold (txMicro_pub hc hpc) (txPub_holds (State.mmioHolds_iff.2 ⟨hd, hposted ▸ hw⟩))
  case unlock => exact runMicro_txc_done (txMicro_unlock hc hpc) hrun (txUnlock_accepts k s)

/-- Settles O23: the issue step asks only whether the caller is idle. -/
theorem txSubmitIssue : Obligations.TxSubmitIssue := by
  intro s k c len frame hrun hc
  have hstep : exec (.txSubmit k len frame) s = take (.txc k) s (txIssue k len frame s) := rfl
  refine ⟨fun hpc => ?idle, fun hpc => ?busy⟩
  case idle => rw [hstep, txIssue_idle hc hpc, take_done _ hrun]
  case busy => rw [hstep, txIssue_busy hc hpc, take_hold, State.passTurn]

/-- Settles O24: `life` is tested before the length. -/
theorem txLengthCheck : Obligations.TxLengthCheck := by
  intro s d k c hrun hc hpc
  have hm := txMicro_lenchk hc hpc
  exact ⟨fun hl => runMicro_txc_raise hm hrun (txLenchk_unattached hl),
    fun hl hlen => runMicro_txc_done hm hrun (txLenchk_oversize hl hlen),
    fun hl hlen => runMicro_txc_done hm hrun (txLenchk_fits hl hlen)⟩

/-- Settles O25: the test and the set are one step. -/
theorem txLock : Obligations.TxLock := by
  intro s d k c hrun hc hpc
  have hm := txMicro_lock hc hpc
  exact ⟨fun hfree => runMicro_txc_done hm hrun (txLockStep_free hfree), fun hheld => runMicro_txc_hold hm (txLockStep_held hheld)⟩

/-- Settles O26: the read of TDT, then the range check of what it holds. -/
theorem txReadTail : Obligations.TxReadTail := by
  intro s d k c hrun hc hpc
  have hm := txMicro_readtail hc hpc
  exact ⟨fun hmap hn h16 => runMicro_txc_done hm hrun (txReadtail_index hmap hn h16),
    fun hmap hout => runMicro_txc_raise hm hrun (txReadtail_outside hmap hout),
    fun hmap => runMicro_txc_raise hm hrun (txReadtail_unmapped hmap)⟩

end Sys2Proof.Proofs
end

section
/-! The statements of 43_coordinator.md: the steps of IRQ, BH_SCHED and BH_RUN, and what every step of the machine does to the coordinator. -/

namespace Sys2Proof.Machine

variable {s t : State} {x : Agent}

/-! ### The operations and IRQ's next micro-step (R29, R230, R232, R233) -/

theorem exec_irqTop (s : State) : exec .irqTop s = take .irq s (if s.irqTopEnabled then .done s.enterIrq else .hold) := rfl

theorem exec_bhSched_host (s : State) : exec (.bhSched .host) s = take .host s (bhSchedHost s) := rfl

theorem exec_bhRun (s : State) : exec .bhRun s = take .bh s (if s.bhRunEnabled then .done s.startRun else .hold) := rfl

theorem runMicro_irq (d : Draws) (s : State) : runMicro .irq d s = take .irq s (irqMicro s) := rfl

theorem irqMicro_read (hpc : s.irq.pc = .read) : irqMicro s = irqRead s := by simp only [irqMicro, hpc]

theorem irqMicro_sched (hpc : s.irq.pc = .sched) : irqMicro s = irqSched s := by simp only [irqMicro, hpc]

/-- Where IRQ_TOP is enabled, the line spelled out (R43, R230). -/
theorem State.irqTopEnabled_iff : s.irqTopEnabled = true ↔
    s.irq.pc = .idle ∧ s.irq.registered = true ∧ (s.regs.icr &&& s.regs.ims ≠ 0 ∨ s.cfg.sharedLine = true) := by
  cases hr : s.irq.registered <;> simp [State.irqTopEnabled, State.lineAsserted, hr]

theorem State.bhRunEnabled_iff : s.bhRunEnabled = true ↔
    s.bh.pc = .idle ∧ s.coord.pending = true ∧ s.coord.running = false := by
  simp [State.bhRunEnabled, and_assoc]

/-! ### The micro-steps of the coordinator (R231, R232, R234, R235) -/

theorem irqRead_mapped (hm : Resource.map ∈ s.acquired) : irqRead s = .done { s with
    regs := { s.regs with icr := 0 }
    irq := { s.irq with v := s.regs.icr, pc := .sched }
    history := s.history ++ [.reg .irq .read RegName.icr.offset s.regs.icr] } := by
  simp only [irqRead, regRead_icr hm, State.emit]

theorem irqRead_unmapped (hm : Resource.map ∉ s.acquired) : irqRead s = .raise (.regUnmapped RegName.icr.offset) := by
  simp only [irqRead, regRead_unmapped hm]

theorem irqSched_cause (hv : s.irq.v ≠ 0) : irqSched s = .done { s with
    coord := { s.coord with pending := true }
    irq := { s.irq with pc := .idle }
    history := s.history ++ [.bhSched .irq, .irqResult .handled] } := by
  have hb : (s.irq.v != 0) = true := bne_iff_ne.2 hv
  simp only [irqSched, irqResult, if_pos hb, State.schedule, State.returnIrq, State.irqGo, State.emit, List.append_assoc]
  rfl

theorem irqSched_no_cause (hv : s.irq.v = 0) : irqSched s = .done { s with
    irq := { s.irq with pc := .idle }
    history := s.history ++ [.irqResult (if s.cfg.irqZeroHandled then .handled else .notHandled)] } := by
  simp [irqSched, irqResult, hv, State.returnIrq, State.irqGo, State.emit]

theorem bhSchedHost_schedules (hpc : s.host.pc = .idle) (hl : s.life ≠ .detached) :
    bhSchedHost s = .done (s.schedule .host) := by
  simp [bhSchedHost, hpc, hl]

theorem bhSchedHost_detached (hpc : s.host.pc = .idle) (hl : s.life = .detached) :
    bhSchedHost s = .raise (.notAttached .bhSched .detached) := by
  simp [bhSchedHost, hpc, hl]

theorem State.bhAnswers_rxExit (hpc : s.bh.pc = .rxExit) : s.BhAnswers (take .bh s (.done s.endRun)) :=
  State.bhAnswers_of_micro (by simp [hpc]) fun d => by simp only [bhMicro, hpc, rxExit]

/-- A request made during a run enables the next one at once (R234). -/
theorem State.endRun_bhRunEnabled (s : State) : s.endRun.bhRunEnabled = s.coord.pending := by
  simp [State.bhRunEnabled]

/-! ### What a micro-step does to the coordinator (R34, R236) -/

/-- Everything a completed micro-step does to the coordinator bits, with the pc of BH after it: a request comes from a top half, or from HOST between
its operations; HOST writes the bits only at A_STATE and at D_BH. -/
inductive CoordStep (s t : State) : Prop where
  | keep (hc : t.coord = s.coord) (hbh : t.bh.pc = .idle ↔ s.bh.pc = .idle)
  | request (asker : s.irq.pc ≠ .idle ∨ (s.host.pc = .idle ∧ s.life ≠ .detached))
      (hc : t.coord = { s.coord with pending := true }) (hbh : t.bh.pc = s.bh.pc)
  | start (enabled : s.bhRunEnabled = true) (hc : t.coord = ⟨false, true⟩) (hbh : t.bh.pc ≠ .idle)
  | finish (hrun : s.bh.pc ≠ .idle) (hc : t.coord = { s.coord with running := false }) (hbh : t.bh.pc = .idle)
  | reset (hp : s.host.pc = .aState) (hc : t.coord = ⟨false, false⟩) (hbh : t.bh.pc = s.bh.pc)
  | cancel (hp : s.host.pc = .dBh) (hc : t.coord = { s.coord with pending := false }) (hbh : t.bh.pc = s.bh.pc)

theorem CoordStep.same (hc : t.coord = s.coord) (hbh : t.bh.pc = s.bh.pc) : CoordStep s t := .keep hc (by rw [hbh])

theorem irqMicro_coordStep (h : irqMicro s = .done t) : CoordStep s t := by
  unfold irqMicro at h
  cases hp : s.irq.pc <;> rw [hp] at h
  case idle => cases h
  case read =>
    obtain ⟨-, rfl⟩ := irqRead_done h
    exact .same rfl rfl
  case sched =>
    obtain rfl := irqSched_done h
    by_cases hv : s.irq.v = 0
    · exact .same (by simp [hv]) rfl
    · exact .request (.inl (hp ▸ nofun)) (by simp only [bne_iff_ne.2 hv, Bool.or_true]) rfl

/-- BH stays in its run with the bits as they are, or RX_EXIT ends the run (R173, R234). -/
theorem bhMicro_goesOn_or_ends {d : Draws} (h : bhMicro d s = .done t) :
    s.bh.pc ≠ .idle ∧ ((t.coord = s.coord ∧ t.bh.pc ≠ .idle) ∨ t = s.endRun) := by
  unfold bhMicro at h
  cases hp : s.bh.pc <;> rw [hp] at h
  case idle => cases h
  all_goals refine ⟨nofun, ?_⟩
  case rxExit => exact .inr (rxExit_done h)
  all_goals refine .inl ?_
  case rxSnap => obtain ⟨-, rfl⟩ := rxSnap_done h; exact ⟨rfl, nofun⟩
  case rxTest =>
    obtain ⟨-, rfl⟩ | ⟨-, bs, c, pc, rfl | rfl, rfl⟩ := rxTest_done h <;> exact ⟨rfl, nofun⟩
  case rxAlloc => obtain ⟨-, rfl⟩ | ⟨-, rfl⟩ | ⟨-, rfl⟩ := rxAlloc_done h <;> exact ⟨rfl, nofun⟩
  case rxAdv => obtain rfl := rxAdv_done h; exact ⟨rfl, nofun⟩
  case rxDesc => obtain ⟨d, c, -, -, rfl⟩ := rxDesc_done h; exact ⟨rfl, nofun⟩
  case rxCopy => obtain ⟨b, -, -, ⟨-, rfl⟩ | ⟨-, p, c, -, rfl⟩⟩ := rxCopy_done h <;> exact ⟨rfl, nofun⟩
  case rxEop => obtain ⟨-, rfl⟩ | ⟨-, b, -, rfl⟩ := rxEop_done h <;> exact ⟨rfl, nofun⟩
  case rxClear =>
    obtain ⟨u, hu, rfl⟩ := rxClear_done h
    obtain ⟨k, -, ⟨-, rfl⟩ | ⟨-, rfl⟩⟩ := memWrite_ok hu <;> exact ⟨rfl, nofun⟩
  case rxWmb => obtain ⟨-, rfl⟩ := rxWmb_done h; exact ⟨rfl, nofun⟩
  case rxPub => obtain ⟨-, rfl⟩ := rxPub_done h; exact ⟨rfl, nofun⟩

theorem bhMicro_coordStep {d : Draws} {n : Nat} (h : bhMicro d { s with drawCount := n } = .done t) : CoordStep s t := by
  obtain ⟨hrun, ⟨hc, hbh⟩ | rfl⟩ := bhMicro_goesOn_or_ends h
  · exact .keep hc (iff_of_false hbh hrun)
  · exact .finish hrun rfl rfl

/-- HOST writes the coordinator bits at A_STATE and at D_BH, and nowhere else (R310, R320). -/
theorem hostMicro_coord {d : Draws} (h : hostMicro d s = .done t) :
    t.coord = s.coord ∨ (s.host.pc = .aState ∧ t.coord = ⟨false, false⟩)
      ∨ (s.host.pc = .dBh ∧ t.coord = { s.coord with pending := false }) := by
  unfold hostMicro at h
  cases hp : s.host.pc <;> rw [hp] at h
  case aState => cases h; exact .inr (.inl ⟨rfl, rfl⟩)
  case dBh =>
    cases h
    by_cases hd : d.treat = .cancel
    · exact .inr (.inr ⟨rfl, by simp [hd]⟩)
    · exact .inl (by simp [hd])
  all_goals refine .inl ?_
  case idle => cases h
  case aCheck => obtain ⟨-, rfl⟩ := aCheck_done h; rfl
  case aMap => obtain rfl | rfl := aMap_done h <;> rfl
  case aRstRd => obtain rfl := aRstRd_done h; rfl
  case aRstWr => obtain rfl := aRstWr_done h; rfl
  case aPoll => obtain ⟨-, rfl⟩ | ⟨-, -, rfl⟩ | ⟨-, -, rfl⟩ := aPoll_done h <;> rfl
  case aLinkRd => obtain rfl := aLinkRd_done h; rfl
  case aRxdesc | aRxbuf | aTxdesc | aTxbuf => rw [hostAlloc_frame h]
  case aInitRx | aInitTx => rw [hostImage_frame h]
  case aWmb => obtain ⟨-, rfl⟩ := barrier_done h; rfl
  case aIrq => obtain rfl | rfl := aIrq_done h <;> rfl
  case aUnwind | dRel => cases h; rw [releaseLast_frame s]; rfl
  case dCheck => obtain ⟨-, rfl⟩ | ⟨-, rfl⟩ := dCheck_done h <;> rfl
  case dIrqrel => obtain ⟨-, rfl⟩ := dIrqrel_done h; rfl
  case dBhwait => obtain ⟨-, -, rfl⟩ := dBhwait_done h; rfl
  case dTxwait => obtain ⟨-, -, rfl⟩ := dTxwait_done h; rfl
  case aEnable | aDone | aFailed | dQuiesce | dAcc | dDone => cases h; rfl
  all_goals rw [hostWrite_frame h]

theorem hostMicro_coordStep {d : Draws} (h : hostMicro d s = .done t) : CoordStep s t := by
  have hbh : t.bh.pc = s.bh.pc := by rw [hostMicro_frame h]
  obtain hc | ⟨hp, hc⟩ | ⟨hp, hc⟩ := hostMicro_coord h
  · exact .same hc hbh
  · exact .reset hp hc hbh
  · exact .cancel hp hc hbh

/-- What a completed micro-step does to the coordinator; and IRQ leaves its idle pc only through its registered handler (R35, R230). -/
theorem Completes.coordStep_irq (h : Completes s x t) :
    CoordStep s t ∧ (s.irq.pc = .idle → t.irq.pc = .idle ∨ (x = .irq ∧ s.irq.registered = true)) := by
  have with_irq {u : State} (hstep : CoordStep s u) (hirq : u.irq.pc = s.irq.pc) :
      CoordStep s u ∧ (s.irq.pc = .idle → u.irq.pc = .idle ∨ (x = .irq ∧ s.irq.registered = true)) :=
    ⟨hstep, fun hidle => .inl (hirq.trans hidle)⟩
  cases h with
  | irqTop he =>
    obtain ⟨-, hreg, -⟩ := State.irqTopEnabled_iff.1 he
    exact ⟨.same rfl rfl, fun _ => .inr ⟨rfl, hreg⟩⟩
  | irq h =>
    refine ⟨irqMicro_coordStep h, fun hidle => ?_⟩
    simp only [irqMicro, hidle] at h
    cases h
  | sched h =>
    obtain ⟨hp, hl, rfl⟩ := bhSchedHost_done h
    exact with_irq (.request (.inr ⟨hp, hl⟩) rfl rfl) rfl
  | start he => exact with_irq (.start he rfl nofun) rfl
  | bh d n h => exact with_irq (bhMicro_coordStep h) (by rw [bhMicro_frame h])
  | submit k len frame hl h => obtain ⟨c, -, -, rfl⟩ := txIssue_done h; exact with_irq (.same rfl rfl) rfl
  | tx k h => rw [txMicro_frame h]; exact with_irq (.same rfl rfl) rfl
  | regRd off h =>
    obtain ⟨-, v, hr⟩ := regRdHost_done h
    obtain ⟨r, -, -, -, -, rfl⟩ := regRead_ok hr
    exact with_irq (.same rfl rfl) rfl
  | regWr off v h => obtain ⟨-, r, -, -, -, -, rfl⟩ := regWrHost_done h; exact with_irq (.same rfl rfl) rfl
  | wmb h => obtain ⟨-, -, rfl⟩ := wmbHost_done h; exact with_irq (.same rfl rfl) rfl
  | land y pos h => rw [land_frame h]; exact with_irq (.same (by simp) (by simp)) (by simp)
  | host d h => exact with_irq (hostMicro_coordStep h) (by rw [hostMicro_frame h])
  | rxClaim h => rw [devRxClaim_frame h]; exact with_irq (.same rfl rfl) rfl
  | rxWb d h => rw [devRxWb_frame h]; exact with_irq (.same rfl rfl) rfl
  | xmit h => rw [devTxXmit_frame h]; exact with_irq (.same rfl rfl) rfl
  | rstDone d h => obtain ⟨-, rfl⟩ := devRstDone_done h; exact with_irq (.same rfl rfl) rfl
  | attach | detach | wireIn | rxDrop | cause => exact with_irq (.same rfl rfl) rfl

theorem Completes.coordStep (h : Completes s x t) : CoordStep s t := h.coordStep_irq.1

theorem Completes.irq_idle (h : Completes s x t) (hidle : s.irq.pc = .idle) (hreg : x = .irq → s.irq.registered = false) :
    t.irq.pc = .idle :=
  (h.coordStep_irq.2 hidle).resolve_right fun ⟨hx, hr⟩ => by simp [hreg hx] at hr

/-- With BH idle and nobody there to ask for a run, none is asked for. -/
theorem CoordStep.rests (h : CoordStep s t) (hc : s.coord = ⟨false, false⟩) (hbh : s.bh.pc = .idle) (hirq : s.irq.pc = .idle)
    (hhost : s.host.pc = .idle → s.life = .detached) : t.coord = ⟨false, false⟩ := by
  cases h with
  | keep hc' => exact hc'.trans hc
  | request asker =>
    obtain hne | ⟨hidle, hl⟩ := asker
    · exact absurd hirq hne
    · exact absurd (hhost hidle) hl
  | start enabled =>
    obtain ⟨-, hpending, -⟩ := State.bhRunEnabled_iff.1 enabled
    simp [hc] at hpending
  | finish hrun => exact absurd hbh hrun
  | reset _ hc' => exact hc'
  | cancel _ hc' => rw [hc', hc]

/-! ### HOST and the handler (R35, R310, R320, R322) -/

/-- Where HOST stands with nothing to run: in ATTACH up to A_IRQ, in the unwind, or in DETACH after D_BHWAIT. -/
abbrev HostPc.beforeIrq (pc : HostPc) : Prop :=
  pc ∈ ([.aMap, .aRstRd, .aRstWr, .aPoll, .aLinkRd, .aLinkWr, .aRxdesc, .aRxbuf, .aTxdesc, .aTxbuf, .aInitRx, .aInitTx, .aWmb,
    .aRdbal, .aRdbah, .aRdlen, .aRdt, .aTdbal, .aTdbah, .aTdlen, .aTdt, .aState, .aIrq, .aUnwind, .aFailed, .dTxwait, .dAcc,
    .dRel, .dDone] : List HostPc)

/-- Where HOST stands with no handler registered: the same, or in DETACH between D_IRQREL and the end of D_BHWAIT. -/
abbrev HostPc.unhooked (pc : HostPc) : Prop := pc.beforeIrq ∨ pc = .dBh ∨ pc = .dBhwait

/-- No handler is registered: cold, or HOST stands where none is. -/
def State.unhooked (s : State) : Prop := s.life = .detached ∨ s.host.pc.unhooked

theorem State.beforeIrq_iff : s.beforeIrq ↔ s.life = .detached ∨ s.host.pc.beforeIrq := .rfl

theorem State.beforeIrq.unhooked (h : s.beforeIrq) : s.unhooked := h.imp_right .inl

/-- The invariant of the coordinator, its two clauses about the handler as one. -/
theorem State.coordInv_iff :
    s.coordInv ↔ s.lifeInv ∧ (s.coord.running = true ↔ s.bh.pc ≠ .idle)
      ∧ (s.unhooked → s.irq.registered = false ∧ s.irq.pc = .idle) ∧ (s.beforeIrq → s.coord = ⟨false, false⟩) := by
  constructor
  · rintro ⟨hlife, hrun, hbefore, hwait⟩
    refine ⟨hlife, hrun, ?_, fun hb => ?_⟩
    · rintro (hl | hp | hp)
      · obtain ⟨hreg, hidle, -⟩ := hbefore (.inl hl)
        exact ⟨hreg, hidle⟩
      · obtain ⟨hreg, hidle, -⟩ := hbefore (.inr hp)
        exact ⟨hreg, hidle⟩
      · exact hwait hp
    · obtain ⟨-, -, hc⟩ := hbefore hb
      exact hc
  · rintro ⟨hlife, hrun, hunhooked, hrest⟩
    refine ⟨hlife, hrun, fun hb => ?_, fun hp => hunhooked (.inr (.inr hp))⟩
    obtain ⟨hreg, hidle⟩ := hunhooked hb.unhooked
    exact ⟨hreg, hidle, hrest hb⟩

theorem hostAdvances_beforeIrq : ∀ p ∈ hostAdvances, p.2.beforeIrq → p.1.beforeIrq ∨ p.1 = .dBhwait := by decide

theorem hostAdvances_unhooked : ∀ p ∈ hostAdvances, p.2.unhooked → p.1.unhooked := by decide

theorem hostAllocs_beforeIrq : ∀ p ∈ hostAllocs, p.1.beforeIrq := by decide

theorem hostImages_beforeIrq : ∀ p ∈ hostImages, p.1.beforeIrq := by decide

theorem hostReleases_beforeIrq : ∀ p ∈ hostReleases, p.1.beforeIrq := by decide

theorem hostFails_beforeIrq : ∀ pc ∈ hostFails, pc.beforeIrq := by decide

/-- HOST comes to where nothing runs at A_CHECK, while the block is cold, and at D_BHWAIT. -/
theorem HostStep.beforeIrq (h : HostStep s t) (ht : t.beforeIrq) : s.beforeIrq ∨ s.host.pc = .dBhwait := by
  rw [State.beforeIrq_iff] at ht ⊢
  cases h with
  | advance pcs routine drained =>
    rw [routine.holdings.life] at ht
    exact ht.elim (fun hl => .inl (.inl hl)) fun hp => (hostAdvances_beforeIrq _ pcs hp).imp_left .inr
  | image pcs => exact .inl (.inr (hostImages_beforeIrq _ pcs))
  | fail hp => exact .inl (.inr (hostFails_beforeIrq _ hp))
  | alloc pcs => exact .inl (.inr (hostAllocs_beforeIrq _ pcs))
  | release hp pcs => exact .inl (.inr (hp ▸ hostReleases_beforeIrq _ pcs))
  | aCheck hp hl => exact .inl (.inl hl)
  | aEnable => exact .inl (.inl (ht.resolve_right (by decide : ¬ HostPc.aDone.beforeIrq)))
  | aDone => exact absurd ht (not_or.2 ⟨nofun, (by decide : ¬ HostPc.idle.beforeIrq)⟩)
  | dCheck => exact absurd ht (not_or.2 ⟨nofun, (by decide : ¬ HostPc.dQuiesce.beforeIrq)⟩)
  | dQuiesce => exact .inl (.inl (ht.resolve_right (by decide : ¬ HostPc.dImc.beforeIrq)))
  | dIrqrel => exact .inl (.inl (ht.resolve_right (by decide : ¬ HostPc.dBh.beforeIrq)))
  | aMap hp | aIrq hp | aFailed hp | dDone hp => exact .inl (.inr (by rw [hp]; decide))

/-- A release registers nothing. -/
theorem releaseLast_registered (h : s.irq.registered = false) : s.releaseLast.irq.registered = false := by
  cases hl : s.acquired.getLast? with
  | none => simpa only [State.releaseLast, hl] using h
  | some r => cases r <;> simp [State.releaseLast, hl, State.release, h]

/-- HOST stands where no handler is registered because it stood there before and registers none, or because D_IRQREL has
just taken the handler away. -/
theorem HostStep.unhooked (hs : s.lifeInv) (h : HostStep s t) (ht : t.unhooked) :
    (s.unhooked ∧ (s.irq.registered = false → t.irq.registered = false))
      ∨ (s.host.pc = .dIrqrel ∧ t.irq.registered = false) := by
  have already (hp : s.host.pc.beforeIrq) : s.unhooked := .inr (.inl hp)
  cases h with
  | advance pcs routine drained =>
    refine .inl ⟨?_, fun hr => routine.holdings.registered.trans hr⟩
    rw [State.unhooked, routine.holdings.life] at ht
    exact ht.imp_right (hostAdvances_unhooked _ pcs)
  | image pcs hw =>
    exact .inl ⟨already (hostImages_beforeIrq _ pcs), fun hr => (memWrite_sameHoldings hw).1.registered.trans hr⟩
  | fail hp next routine =>
    exact .inl ⟨already (hostFails_beforeIrq _ hp), fun hr => routine.holdings.registered.trans hr⟩
  | alloc pcs => exact .inl ⟨already (hostAllocs_beforeIrq _ pcs), id⟩
  | release hp pcs => exact .inl ⟨already (hp ▸ hostReleases_beforeIrq _ pcs), releaseLast_registered⟩
  | aCheck hp hl => exact .inl ⟨.inl hl, id⟩
  | aIrq hp =>
    have hl : s.life = .attaching := (State.lifeInv_attaching (by rw [hp]; rfl)).1 hs
    exact absurd ht (not_or.2 ⟨by simp [hl], (by decide : ¬ HostPc.aIms.unhooked)⟩)
  | aEnable => exact .inl ⟨.inl (ht.resolve_right (by decide : ¬ HostPc.aDone.unhooked)), id⟩
  | aDone => exact absurd ht (not_or.2 ⟨nofun, (by decide : ¬ HostPc.idle.unhooked)⟩)
  | dCheck => exact absurd ht (not_or.2 ⟨nofun, (by decide : ¬ HostPc.dQuiesce.unhooked)⟩)
  | dQuiesce => exact .inl ⟨.inl (ht.resolve_right (by decide : ¬ HostPc.dImc.unhooked)), id⟩
  | dIrqrel hp => exact .inr ⟨hp, rfl⟩
  | aMap hp | aFailed hp | dDone hp => exact .inl ⟨already (by rw [hp]; decide), id⟩

/-- While HOST is in an operation it completes nothing but the operation's next micro-step. -/
theorem Completes.hostMicro_of_busy (h : Completes s .host t) (hp : s.host.pc ≠ .idle) : ∃ d, hostMicro d s = .done t := by
  cases h with
  | sched h => exact absurd (bhSchedHost_done h).1 hp
  | regRd off h => exact absurd (regRdHost_done h).1 hp
  | regWr off v h => exact absurd (regWrHost_done h).1 hp
  | wmb h => exact absurd (wmbHost_done h).1 hp
  | attach hidle | detach hidle => exact absurd hidle hp
  | host d h => exact ⟨d, h⟩

/-- D_IRQREL waits for the top half to return (R320). -/
theorem Completes.host_dIrqrel (h : Completes s .host t) (hp : s.host.pc = .dIrqrel) : s.irq.pc = .idle := by
  obtain ⟨d, h⟩ := h.hostMicro_of_busy (by rw [hp]; nofun)
  simp only [hostMicro, hp] at h
  exact (dIrqrel_done h).1

/-- D_BHWAIT waits for both coordinator bits to be clear (R320). -/
theorem Completes.host_dBhwait (h : Completes s .host t) (hp : s.host.pc = .dBhwait) : s.coord = ⟨false, false⟩ := by
  obtain ⟨d, h⟩ := h.hostMicro_of_busy (by rw [hp]; nofun)
  simp only [hostMicro, hp] at h
  obtain ⟨hpending, hrunning, -⟩ := dBhwait_done h
  exact congrArg₂ Coord.mk hpending hrunning

/-! ### The invariant of the coordinator is kept (R236) -/

/-- `running` follows BH's pc; A_STATE finds BH idle already. -/
theorem CoordStep.running (hs : s.coordInv) (h : CoordStep s t) : t.coord.running = true ↔ t.bh.pc ≠ .idle := by
  obtain ⟨-, hrun, -, hrest⟩ := State.coordInv_iff.1 hs
  cases h with
  | keep hc hbh => rw [hc, hrun, ne_eq, ne_eq, hbh]
  | request _ hc hbh | cancel _ hc hbh => rw [hc, hbh]; exact hrun
  | start _ hc hbh => simp [hc, hbh]
  | finish _ hc hbh => simp [hc, hbh]
  | reset hp hc hbh =>
    have hquiet : s.coord = ⟨false, false⟩ := hrest (.inr (by rw [hp]; decide))
    rw [hc, hbh, ← hquiet]
    exact hrun

/-- Where HOST's place says that no handler is registered, none is, and IRQ is idle. -/
theorem Completes.unhooked (hs : s.coordInv) (h : Completes s x t) (ht : t.unhooked) :
    t.irq.registered = false ∧ t.irq.pc = .idle := by
  obtain ⟨hlife, -, hunhooked, -⟩ := State.coordInv_iff.1 hs
  by_cases hx : x = .host
  · subst hx
    obtain ⟨hu, hkeeps⟩ | ⟨hp, hreg⟩ := h.hostStep.unhooked hlife ht
    · obtain ⟨hreg, hidle⟩ := hunhooked hu
      exact ⟨hkeeps hreg, h.irq_idle hidle nofun⟩
    · exact ⟨hreg, h.irq_idle (h.host_dIrqrel hp) nofun⟩
  · obtain ⟨hsame, hpc⟩ := h.sameHoldings hx
    rw [State.unhooked, hsame.life, hpc] at ht
    obtain ⟨hreg, hidle⟩ := hunhooked ht
    exact ⟨hsame.registered.trans hreg, h.irq_idle hidle fun _ => hreg⟩

/-- Where nothing runs, nothing did before the step, or D_BHWAIT has seen the last run end. -/
theorem Completes.beforeIrq (h : Completes s x t) (ht : t.beforeIrq) :
    s.beforeIrq ∨ (s.host.pc = .dBhwait ∧ s.coord = ⟨false, false⟩) := by
  by_cases hx : x = .host
  · subst hx
    exact (h.hostStep.beforeIrq ht).imp_right fun hp => ⟨hp, h.host_dBhwait hp⟩
  · obtain ⟨hsame, hpc⟩ := h.sameHoldings hx
    rw [State.beforeIrq_iff, hsame.life, hpc] at ht
    exact .inl ht

theorem Completes.coord_rests (hs : s.coordInv) (h : Completes s x t) (ht : t.beforeIrq) : t.coord = ⟨false, false⟩ := by
  obtain ⟨-, hrun, hunhooked, hrest⟩ := State.coordInv_iff.1 hs
  have rests (hc : s.coord = ⟨false, false⟩) (hu : s.unhooked) (hhost : s.host.pc = .idle → s.life = .detached) :
      t.coord = ⟨false, false⟩ := by
    have hbh : s.bh.pc = .idle := by simpa [hc] using hrun
    exact h.coordStep.rests hc hbh (hunhooked hu).2 hhost
  obtain hb | ⟨hp, hc⟩ := h.beforeIrq ht
  · refine rests (hrest hb) hb.unhooked fun hidle => (State.beforeIrq_iff.1 hb).resolve_right ?_
    rw [hidle]
    decide
  · exact rests hc (.inr (.inr (.inr hp))) fun hidle => absurd (hidle.symm.trans hp) nofun

theorem Completes.lifeInv (hs : s.lifeInv) (h : Completes s x t) : t.lifeInv := by
  by_cases hx : x = .host
  · subst hx
    exact h.hostStep.lifeInv hs
  · obtain ⟨hsame, hpc⟩ := h.sameHoldings hx
    exact (State.lifeInv_congr (by rw [hpc]) hsame.life).2 hs

theorem Completes.coordInv (hs : s.coordInv) (h : Completes s x t) : t.coordInv :=
  State.coordInv_iff.2 ⟨h.lifeInv hs.1, h.coordStep.running hs, h.unhooked hs, h.coord_rests hs⟩

/-- The pairs of R236's table, and DETACH's cancel (log entry 34). -/
theorem CoordStep.transition (hs : s.coordInv) (h : CoordStep s t) :
    t.coord = s.coord
      ∨ (s.coord, t.coord) ∈ ([(⟨false, false⟩, ⟨true, false⟩), (⟨false, true⟩, ⟨true, true⟩),
          (⟨true, false⟩, ⟨false, true⟩), (⟨false, true⟩, ⟨false, false⟩), (⟨true, true⟩, ⟨true, false⟩)] :
          List (Coord × Coord))
      ∨ (s.host.pc = .dBh ∧ s.coord.pending = true ∧ t.coord = { s.coord with pending := false }) := by
  obtain ⟨-, hrun, -, hrest⟩ := State.coordInv_iff.1 hs
  rcases hcoord : s.coord with ⟨pending, running⟩
  cases h with
  | keep hc => exact .inl (hc.trans hcoord)
  | request _ hc => cases pending <;> cases running <;> simp [hc, hcoord]
  | start enabled hc =>
    obtain ⟨-, hpending, hrunning⟩ := State.bhRunEnabled_iff.1 enabled
    obtain rfl : pending = true := by simpa only [hcoord] using hpending
    obtain rfl : running = false := by simpa only [hcoord] using hrunning
    simp [hc]
  | finish hbusy hc =>
    have hrunning : running = true := by simpa [hcoord] using hrun.2 hbusy
    cases pending <;> simp [hc, hcoord, hrunning]
  | reset hp hc =>
    have hquiet : s.coord = ⟨false, false⟩ := hrest (.inr (by rw [hp]; decide))
    exact .inl (hc.trans (hquiet.symm.trans hcoord))
  | cancel hp hc =>
    cases pending
    · exact .inl (by rw [hc, hcoord])
    · exact .inr (.inr ⟨hp, rfl, by rw [hc, hcoord]⟩)

end Sys2Proof.Machine

namespace Sys2Proof.Proofs
open Sys2Proof Sys2Proof.Machine

/-- Settles O52: only a start leaves BH in a run and only an end takes it out; A_STATE clears the bits where nothing can run. -/
theorem singleRunnerKept : Obligations.SingleRunnerKept := fun _ _ hs h =>
  step_keeps hs h (script := fun _ _ hu => hu) (pass := fun _ hu => hu) (refuse := fun _ hu => hu)
    (fault := fun _ _ _ hu => hu) (completes := fun _ _ _ _ hu hc => hc.coordInv hu)

/-- Settles O53: a step that completes no micro-step keeps the bits, and a completed one moves them along the table. -/
theorem coordinatorTransitions : Obligations.CoordinatorTransitions := by
  intro s t hs h
  obtain ⟨-, ⟨-, rfl⟩ | ⟨turn, rest, -, ht⟩⟩ := step_next h
  · exact .inl rfl
  · obtain rfl | rfl | ⟨x, -, hc⟩ | ⟨x, f, -, rfl⟩ := ht
    · exact .inl rfl
    · exact .inl rfl
    · exact CoordStep.transition (s := { s with script := rest }) hs hc.coordStep
    · exact .inl rfl

/-- Settles O10: the enabling condition, spelled out; its negation is the three ways to have no step. -/
theorem irqTopEntry : Obligations.IrqTopEntry := by
  intro s hrun
  rw [exec_irqTop]
  refine ⟨fun hpc hreg hline => ?enters, fun hno => ?idles⟩
  case enters => rw [if_pos (State.irqTopEnabled_iff.2 ⟨hpc, hreg, hline⟩), take_done _ hrun, State.enterIrq, State.irqGo]
  case idles =>
    have hdisabled : ¬ s.irqTopEnabled = true := by
      rw [State.irqTopEnabled_iff]
      rintro ⟨hpc, hreg, hline⟩
      obtain hne | hunreg | ⟨hlow, hown⟩ := hno
      · exact hne hpc
      · simp [hreg] at hunreg
      · exact hline.elim (fun h => h hlow) (by simp [hown])
    rw [if_neg hdisabled, take_hold, State.passTurn]

/-- Settles O11: the read of ICR returns its value and clears it. -/
theorem irqReadTakesCauses : Obligations.IrqReadTakesCauses := by
  intro s d hrun hpc
  rw [runMicro_irq, irqMicro_read hpc]
  refine ⟨fun hmap => ?mapped, fun hmap => ?unmapped⟩
  case mapped => rw [irqRead_mapped hmap, take_done _ hrun]; rfl
  case unmapped => rw [irqRead_unmapped hmap, take_raise _ hrun]; rfl

/-- Settles O12: the cause decides the request and the result. -/
theorem irqSchedReports : Obligations.IrqSchedReports := by
  intro s d hrun hpc
  rw [runMicro_irq, irqMicro_sched hpc]
  exact ⟨fun hv => by rw [irqSched_cause hv, take_done _ hrun], fun hv => by rw [irqSched_no_cause hv, take_done _ hrun]⟩

/-- Settles O13: with HOST idle only `life` is asked for. -/
theorem bhSchedHost : Obligations.BhSchedHost := by
  intro s hrun hpc
  rw [exec_bhSched_host]
  refine ⟨fun hl => ?schedules, fun hl => ?detached⟩
  case schedules => rw [bhSchedHost_schedules hpc hl, take_done _ hrun, State.schedule, State.emit]
  case detached => rw [bhSchedHost_detached hpc hl, take_raise _ hrun]

/-- Settles O14: the start is one step, enabled by all three conditions; the end leaves BH idle with `running` clear, so that only `pending` is asked
for. -/
theorem bhRunStartAndEnd : Obligations.BhRunStartAndEnd := by
  intro s hrun
  rw [exec_bhRun]
  refine ⟨fun hpc hpending hrunning => ?starts, fun hno => ?idles, fun hpc => ?ends⟩
  case starts =>
    rw [if_pos (State.bhRunEnabled_iff.2 ⟨hpc, hpending, hrunning⟩), take_done _ hrun, State.startRun, State.bhGo]
  case idles =>
    have hdisabled : ¬ s.bhRunEnabled = true := by
      rw [State.bhRunEnabled_iff]
      rintro ⟨hpc, hpending, hrunning⟩
      obtain hne | hnone | hbusy := hno
      · exact hne hpc
      · simp [hpending] at hnone
      · simp [hrunning] at hbusy
    rw [if_neg hdisabled, take_hold, State.passTurn]
  case ends =>
    obtain ⟨hturn, hword⟩ := State.bhAnswers_rxExit hpc
    rw [take_done _ hrun] at hword
    exact ⟨_, rfl, fun d => (hturn d).trans (take_done _ hrun), hword, s.endRun_bhRunEnabled⟩

end Sys2Proof.Proofs
end

section
/-! The statements of 44_register_interface.md: the register accesses and the barrier of HOST between its operations, and the landing of a posted
write. -/

namespace Sys2Proof.Machine

variable {s t : State} {x : Agent}

/-! ### The words (R251, R256, R262, R263) -/

theorem exec_regRd_host (off : Half) (s : State) : exec (.regRd .host off) s = take .host s (regRdHost off.toNat s) := rfl

theorem exec_regWr_host (off : Half) (v : Word) (s : State) :
    exec (.regWr .host off v) s = take .host s (regWrHost off.toNat v s) := rfl

theorem exec_wmb_host (s : State) : exec (.wmb .host) s = take .host s (wmbHost s) := rfl

theorem exec_memDrain (x : Agent) (pos : Half) (s : State) :
    exec (.memDrain x pos) s = take .memsys s (land x pos.toNat s) := rfl

/-! ### What a read of CTRL shows (R101, R252) -/

/-- Bit 26 of what is seen is the reset in progress, every other bit the stored one. -/
theorem getLsbD_ctrlSeen (stored : Word) (busy : Bool) {b : Nat} (hb : b < 32) :
    (ctrlSeen stored busy).getLsbD b = if b = 26 then busy else stored.getLsbD b := by
  have hrst : ctrlRst.getLsbD b = decide (26 = b) := by
    rw [show ctrlRst = BitVec.twoPow 32 26 by decide, BitVec.getLsbD_twoPow]
    rfl
  by_cases h : b = 26
  · subst h
    rw [if_pos rfl]
    exact hasRst_ctrlSeen stored busy
  · have hkept : ctrlRst.getLsbD b = false := by rw [hrst, decide_eq_false (Ne.symm h)]
    have hflag : (if busy then ctrlRst else 0).getLsbD b = false := by
      cases busy
      · exact BitVec.getLsbD_zero
      · exact hkept
    rw [if_neg h, ctrlSeen, BitVec.getLsbD_or, BitVec.getLsbD_and, BitVec.getLsbD_not, hkept, hflag]
    simp [hb]

/-! ### The checks of R250, in their order -/

/-- An offset of no register, misaligned or not. -/
theorem regAt_unknown {off : Nat} {d : Dir} (hm : Resource.map ∈ s.acquired) (h : regOfOffset off = none) :
    regAt off d s = .error (.regBad off d) := by
  simp [regAt, hm, h]

theorem regRead_unknown {off : Nat} (hm : Resource.map ∈ s.acquired) (h : regOfOffset off = none) :
    regRead x off s = .error (.regBad off .read) := by
  simp only [regRead, regAt_unknown hm h]

theorem regRead_imc (hm : Resource.map ∈ s.acquired) :
    regRead x RegName.imc.offset s = .error (.regBad RegName.imc.offset .read) := by
  simp only [regRead, regAt_offset .imc .read hm]

theorem regWriteCheck_unmapped {off : Nat} {v : Word} (hm : Resource.map ∉ s.acquired) :
    regWriteCheck off v s = .error (.regUnmapped off) := by
  simp only [regWriteCheck, regAt_unmapped .write hm]

theorem regWriteCheck_unknown {off : Nat} {v : Word} (hm : Resource.map ∈ s.acquired) (h : regOfOffset off = none) :
    regWriteCheck off v s = .error (.regBad off .write) := by
  simp only [regWriteCheck, regAt_unknown hm h]

theorem regWriteCheck_icr {v : Word} (hm : Resource.map ∈ s.acquired) :
    regWriteCheck RegName.icr.offset v s = .error (.regBad RegName.icr.offset .write) := by
  simp only [regWriteCheck, regAt_offset .icr .write hm]

theorem regWriteCheck_rdh {v : Word} (hm : Resource.map ∈ s.acquired) :
    regWriteCheck RegName.rdh.offset v s = .error (.headWrite RegName.rdh.offset v) := by
  simp only [regWriteCheck, regAt_offset .rdh .write hm]

theorem regWriteCheck_tdh {v : Word} (hm : Resource.map ∈ s.acquired) :
    regWriteCheck RegName.tdh.offset v s = .error (.headWrite RegName.tdh.offset v) := by
  simp only [regWriteCheck, regAt_offset .tdh .write hm]

theorem regWriteCheck_accepts {r : RegName} {v : Word} (hm : Resource.map ∈ s.acquired) (h : r.accepts s.cfg v) :
    regWriteCheck r.offset v s = .ok r :=
  regWriteCheck_offset v hm (by rintro rfl; exact h) (by rintro rfl; exact h) (by rintro rfl; exact h)

theorem regWriteCheck_geometry {r : RegName} (v : Word) (hm : Resource.map ∈ s.acquired) (hg : r.isGeometry = true) :
    regWriteCheck r.offset v s = .ok r :=
  regWriteCheck_offset v hm (by rintro rfl; cases hg) (by rintro rfl; cases hg) (by rintro rfl; cases hg)

/-- The offsets of R100, as the immediates of command words. -/
def scopeOffsets : List Half := allRegs.map fun r => BitVec.ofNat 16 r.offset

theorem RegName.mem_scopeOffsets (r : RegName) : BitVec.ofNat 16 r.offset ∈ scopeOffsets := by
  cases r <;> decide

theorem regOfOffset_of_not_mem {off : Half} (h : off ∉ scopeOffsets) : regOfOffset off.toNat = none := by
  refine Option.eq_none_iff_forall_ne_some.2 fun r hr => h ?_
  have hoff : BitVec.ofNat 16 r.offset = off := by rw [regOfOffset_some hr, BitVec.ofNat_toNat, BitVec.setWidth_eq]
  exact hoff ▸ r.mem_scopeOffsets

/-! ### The value checks and the effect of a write (R257 to R261) -/

/-- The converse of `regEffect_ok`. -/
theorem regEffect_of_accepts {r : RegName} {off : Nat} {v : Word} (h : r.accepts s.cfg v) :
    regEffect r off v s = .ok { s with
      regs := s.regs.written r v
      dev := { s.dev with resetBusy := s.dev.resetBusy || (decide (r = .ctrl) && hasRst v) } } := by
  cases r with
  | icr | rdh | tdh => exact h.elim
  | rdbal | tdbal | rdlen | tdlen => simp [regEffect, show _ = true from h, Regs.written]
  | rdt | tdt =>
    obtain ⟨hn, h16⟩ := h
    simp [regEffect, indexOf_of_lt hn h16, toWord_toNat_of_word, Regs.written]
  | ctrl | ims | imc | rdbah | tdbah => simp [regEffect, Regs.written]

/-- The fault of a value that a base, a length or a tail does not take (R259, R260). -/
def RegName.valueFault (r : RegName) (off : Nat) (v : Word) : BlockFault :=
  match r with
  | .rdt | .tdt => .indexRange off v
  | _ => .regValue off v

theorem regEffect_of_not_accepts {r : RegName} {off : Nat} {v : Word} (hg : r.isGeometry = true)
    (h : ¬ r.accepts s.cfg v) : regEffect r off v s = .error (r.valueFault off v) := by
  cases r with
  | ctrl | icr | ims | imc | rdh | tdh => cases hg
  | rdbah | tdbah => exact absurd trivial h
  | rdbal | tdbal | rdlen | tdlen => exact if_neg h
  | rdt | tdt =>
    have hout : ∀ n, ¬ (v.toNat < n ∧ v.toNat < 2 ^ 16) → indexOf n v = none := fun n hn =>
      Option.eq_none_iff_forall_ne_some.2 fun i hi => hn (indexOf_some hi).2
    simp only [regEffect, hout _ h, RegName.valueFault]

/-- Writing the value that a base, a length or a tail holds changes no register. -/
theorem Regs.written_held {r : RegName} (hg : r.isGeometry = true) : s.regs.written r (s.regValue r) = s.regs := by
  cases r with
  | ctrl | icr | ims | imc | rdh | tdh => cases hg
  | _ => rfl

theorem baseLowOk_iff {v : Word} : baseLowOk v = true ↔ v.toNat % 16 = 0 := by
  simp [baseLowOk]

theorem ringLenOk_iff {v : Word} : ringLenOk v = true ↔ v.toNat % 128 = 0 ∧ v ≠ 0 ∧ v.toNat ≤ 0xFFF80 := by
  simp [ringLenOk, and_assoc]

/-! ### A register access of HOST between its operations (R251, R256) -/

section
variable (hpc : s.host.pc = .idle)
include hpc

theorem regRdHost_ok {off : Nat} {v : Word} (h : regRead .host off s = .ok (v, t)) : regRdHost off s = .done t := by
  simp [regRdHost, hpc, h]

theorem regRdHost_error {off : Nat} {f : BlockFault} (h : regRead .host off s = .error f) : regRdHost off s = .raise f := by
  simp [regRdHost, hpc, h]

theorem regRdHost_plain {r : RegName} (hm : Resource.map ∈ s.acquired) (himc : r ≠ .imc) (hicr : r ≠ .icr) :
    regRdHost r.offset s = .done { s with history := s.history ++ [.reg .host .read r.offset (s.regValue r)] } := by
  rw [regRdHost_ok hpc (regRead_plain hm himc hicr), State.emit]

theorem regRdHost_icr (hm : Resource.map ∈ s.acquired) : regRdHost RegName.icr.offset s = .done { s with
    regs := { s.regs with icr := 0 }
    history := s.history ++ [.reg .host .read RegName.icr.offset s.regs.icr] } := by
  rw [regRdHost_ok hpc (regRead_icr hm), State.emit]

section
variable (hh : s.cfg.mmioDrains = false ∨ s.host.posted = []) {v : Word}
include hh

theorem regWrHost_error {off : Nat} {f : BlockFault} (h : regWriteCheck off v s = .error f) :
    regWrHost off v s = .raise f := by
  simp [regWrHost, hpc, State.not_mmioHolds (x := .host) hh, h]

/-- Past the checks of R250 and R261 the write is made, or its value refused. -/
theorem regWrHost_store {r : RegName} (hc : regWriteCheck r.offset v s = .ok r) (hv : r.isGeometry = true → v = s.regValue r) :
    regWrHost r.offset v s = regStore .host r r.offset v s := by
  have hkeeps : ¬ (r.isGeometry && v != s.regValue r) = true := by simpa using hv
  simp only [regWrHost, hpc, hc, if_neg hkeeps, if_neg (State.not_mmioHolds (x := .host) hh), bne_self_eq_false,
    Bool.false_or]

variable {r : RegName} (hm : Resource.map ∈ s.acquired)
include hm

/-- A base, a length or a tail takes no other value than the one it holds (R261). -/
theorem regWrHost_changed (hg : r.isGeometry = true) (hv : v ≠ s.regValue r) :
    regWrHost r.offset v s = .raise (.regValue r.offset v) := by
  have hc := regWriteCheck_geometry v hm hg
  simp [regWrHost, hpc, State.not_mmioHolds (x := .host) hh, hc, hg, hv]

theorem regWrHost_accepted (hv : r.isGeometry = true → v = s.regValue r) (ha : r.accepts s.cfg v) :
    regWrHost r.offset v s = .done { s with
      regs := s.regs.written r v
      dev := { s.dev with resetBusy := s.dev.resetBusy || (decide (r = .ctrl) && hasRst v) }
      history := s.history ++ [.reg .host .write r.offset v] } := by
  simp only [regWrHost_store hpc hh (regWriteCheck_accepts hm ha) hv, regStore, regEffect_of_accepts ha, State.emit]

/-- Only CTRL reaches the device (R257). -/
theorem regWrHost_accepted_of_ne_ctrl (hr : r ≠ .ctrl) (hv : r.isGeometry = true → v = s.regValue r)
    (ha : r.accepts s.cfg v) : regWrHost r.offset v s = .done { s with
      regs := s.regs.written r v
      history := s.history ++ [.reg .host .write r.offset v] } := by
  rw [regWrHost_accepted hpc hh hm hv ha, decide_eq_false hr, Bool.false_and, Bool.or_false]

section
variable (hg : r.isGeometry = true) (hv : v = s.regValue r)
include hg hv

theorem regWrHost_held (ha : r.accepts s.cfg v) :
    regWrHost r.offset v s = .done { s with history := s.history ++ [.reg .host .write r.offset v] } := by
  have hr : r ≠ .ctrl := by rintro rfl; cases hg
  rw [regWrHost_accepted_of_ne_ctrl hpc hh hm hr (fun _ => hv) ha, hv, Regs.written_held hg]

theorem regWrHost_illegal (ha : ¬ r.accepts s.cfg v) : regWrHost r.offset v s = .raise (r.valueFault r.offset v) := by
  rw [regWrHost_store hpc hh (regWriteCheck_geometry v hm hg) fun _ => hv, regStore, regEffect_of_not_accepts hg ha]

end
end
end

/-- A held write waits, whatever its checks would say (R69, log entry 13). -/
theorem regWrHost_of_mmioHolds {off : Nat} {v : Word} (hh : s.mmioHolds .host = true) : regWrHost off v s = .hold := by
  simp [regWrHost, hh]

theorem wmbHost_drained (hpc : s.host.pc = .idle) (h : s.host.posted = []) : wmbHost s = .done s := by
  simp [wmbHost, barrier, State.posted, hpc, h]

theorem wmbHost_undrained (h : s.host.posted ≠ []) : wmbHost s = .hold := by
  simp [wmbHost, barrier, State.posted, h]

/-! ### The words of a running HOST -/

section
variable (hrun : Agent.host ∉ s.stopped) {off : Half} {v : Word} {f : BlockFault}
include hrun

theorem exec_regRd_host_done (h : regRdHost off.toNat s = .done t) : exec (.regRd .host off) s = .next t := by
  rw [exec_regRd_host, h, take_done _ hrun]

theorem exec_regRd_host_raise (h : regRdHost off.toNat s = .raise f) :
    exec (.regRd .host off) s = .next (s.raiseFault .host f) := by
  rw [exec_regRd_host, h, take_raise _ hrun]

theorem exec_regWr_host_done (h : regWrHost off.toNat v s = .done t) : exec (.regWr .host off v) s = .next t := by
  rw [exec_regWr_host, h, take_done _ hrun]

theorem exec_regWr_host_raise (h : regWrHost off.toNat v s = .raise f) :
    exec (.regWr .host off v) s = .next (s.raiseFault .host f) := by
  rw [exec_regWr_host, h, take_raise _ hrun]

end

/-! ### Landing a posted write (R62, R68, R263) -/

theorem Posted.not_overlaps_iff {p e : Posted} :
    (!p.overlaps e) = true ↔ p.addr + p.bytes.length ≤ e.addr ∨ e.addr + e.bytes.length ≤ p.addr := by
  simp [Posted.overlaps, disjointRanges]

/-- The order test of the model is the order R68 states. -/
theorem mayLand_iff {o : PostedOrder} {w : List Posted} {pos : Nat} {e : Posted} (he : w[pos]? = some e) :
    mayLand o w pos = true ↔ landsNext o w pos e := by
  cases o with
  | fifo | sc => simp [mayLand, landsNext, he]
  | any =>
    have holder (p : Posted) : p ∈ w.take pos ↔ ∃ j < pos, w[j]? = some p := by
      simp [List.mem_iff_getElem?, List.getElem?_take]
    simp only [mayLand, landsNext, he, List.all_eq_true, Posted.not_overlaps_iff, holder]
    exact ⟨fun h j hj p hp => h p ⟨j, hj, hp⟩, fun h p ⟨j, hj, hp⟩ => h j hj p hp⟩

theorem land_absent {pos : Nat} (h : (s.posted x)[pos]? = none) : land x pos s = .hold := by
  simp [land, h]

theorem State.setPosted_setMem (s : State) (x : Agent) (w : List Posted) (m : Memory) :
    ({ s with mem := m } : State).setPosted x w = { s.setPosted x w with mem := m } := by
  cases x <;> rfl

section
variable {pos : Nat} {e : Posted} (he : (s.posted x)[pos]? = some e)
include he

theorem land_blocked (h : ¬ landsNext s.cfg.postedOrder (s.posted x) pos e) : land x pos s = .hold := by
  rw [← mayLand_iff he] at h
  simp only [land, h, Bool.not_false, if_true]

section
variable (h : landsNext s.cfg.postedOrder (s.posted x) pos e)
include h

theorem land_dead (hk : s.localRegion e.addr e.bytes.length = none) : land x pos s = .raise (.memBad e.addr) := by
  rw [← mayLand_iff he] at h
  simp [land, h, he, hk]

theorem land_live {k : RegionKind} (hk : s.localRegion e.addr e.bytes.length = some k) : land x pos s = .done
    { s.setPosted x ((s.posted x).eraseIdx pos) with
      mem := s.mem.write (s.dmaOf k e.addr) e.bytes
      history := s.history ++ [.visible x e.addr e.bytes] } := by
  rw [← mayLand_iff he] at h
  simp [land, h, he, hk, State.setPosted_setMem, State.emit]

end

/-- An agent that has an entry has a list. -/
theorem State.setPosted_posted_self (w : List Posted) : (s.setPosted x w).posted x = w := by
  cases x with
  | txc k =>
    cases hc : s.txc[k]? with
    | none => simp [State.posted, hc] at he
    | some c => simp [State.setPosted, State.modTx, State.posted, hc]
  | dev | memsys => cases he
  | host | irq | bh => rfl

end

theorem State.posted_setMemHistory (s : State) (m : Memory) (h : List Event) (y : Agent) :
    ({ s with mem := m, history := h } : State).posted y = s.posted y := by
  cases y <;> rfl

end Sys2Proof.Machine

namespace Sys2Proof.Proofs
open Sys2Proof Sys2Proof.Machine

/-- Settles O31: each entry of the list is a register that a read leaves alone. -/
theorem regReadHost : Obligations.RegReadHost := by
  intro s hrun hpc hmap
  refine ⟨fun p hp => ?plain, ?icr, ctrlSeen s.regs.ctrl s.dev.resetBusy, fun b => getLsbD_ctrlSeen _ _, ?ctrl⟩
  case plain =>
    obtain ⟨r, himc, hicr, hoff, hval⟩ : ∃ r : RegName, r ≠ .imc ∧ r ≠ .icr ∧ p.1.toNat = r.offset ∧ p.2 = s.regValue r := by
      revert p hp
      simp only [List.forall_mem_cons]
      exact ⟨⟨.ims, nofun, nofun, rfl, rfl⟩, ⟨.rdbal, nofun, nofun, rfl, rfl⟩, ⟨.rdbah, nofun, nofun, rfl, rfl⟩,
        ⟨.rdlen, nofun, nofun, rfl, rfl⟩, ⟨.rdh, nofun, nofun, rfl, rfl⟩, ⟨.rdt, nofun, nofun, rfl, rfl⟩,
        ⟨.tdbal, nofun, nofun, rfl, rfl⟩, ⟨.tdbah, nofun, nofun, rfl, rfl⟩, ⟨.tdlen, nofun, nofun, rfl, rfl⟩,
        ⟨.tdh, nofun, nofun, rfl, rfl⟩, ⟨.tdt, nofun, nofun, rfl, rfl⟩, nofun⟩
    rw [hoff, hval]
    exact exec_regRd_host_done hrun (hoff ▸ regRdHost_plain hpc hmap himc hicr)
  case icr => exact exec_regRd_host_done hrun (regRdHost_icr hpc hmap)
  case ctrl => exact exec_regRd_host_done hrun (regRdHost_plain (r := .ctrl) hpc hmap nofun nofun)

/-- Settles O32: each entry of the lists is a register that keeps its value; a write of it is checked against its legal values. -/
theorem regWriteHost : Obligations.RegWriteHost := by
  intro s v hrun hpc hmap hh
  refine ⟨?ctrl, ?ims, ?imc, fun p hp => ?value, fun p hp => ?tail⟩
  case ctrl => exact exec_regWr_host_done hrun (regWrHost_accepted (r := .ctrl) hpc hh hmap nofun trivial)
  case ims => exact exec_regWr_host_done hrun (regWrHost_accepted_of_ne_ctrl (r := .ims) hpc hh hmap nofun nofun trivial)
  case imc => exact exec_regWr_host_done hrun (regWrHost_accepted_of_ne_ctrl (r := .imc) hpc hh hmap nofun nofun trivial)
  case value =>
    obtain ⟨r, hg, hfault, hoff, hval, hlegal⟩ : ∃ r : RegName, r.isGeometry = true
        ∧ r.valueFault r.offset v = .regValue r.offset v
        ∧ p.1.toNat = r.offset ∧ p.2.1 = s.regValue r ∧ (r.accepts s.cfg p.2.1 ↔ p.2.2) := by
      revert p hp
      simp only [List.forall_mem_cons]
      exact ⟨⟨.rdbal, rfl, rfl, rfl, rfl, baseLowOk_iff⟩, ⟨.rdbah, rfl, rfl, rfl, rfl, .rfl⟩,
        ⟨.rdlen, rfl, rfl, rfl, rfl, ringLenOk_iff⟩, ⟨.tdbal, rfl, rfl, rfl, rfl, baseLowOk_iff⟩,
        ⟨.tdbah, rfl, rfl, rfl, rfl, .rfl⟩, ⟨.tdlen, rfl, rfl, rfl, rfl, ringLenOk_iff⟩, nofun⟩
    rw [← hlegal, hoff, hval]
    refine ⟨fun hv ha => ?_, fun hbad => exec_regWr_host_raise hrun ?_⟩
    · exact exec_regWr_host_done hrun (hoff ▸ regWrHost_held hpc hh hmap hg hv (hv ▸ ha))
    · rw [hoff]
      by_cases hv : v = s.regValue r
      · have ha : ¬ r.accepts s.cfg v := hv ▸ hbad.resolve_left (not_not.2 hv)
        rw [regWrHost_illegal hpc hh hmap hg hv ha, hfault]
      · exact regWrHost_changed hpc hh hmap hg hv
  case tail =>
    obtain ⟨r, hg, hfault, hoff, hval, hrange⟩ : ∃ r : RegName, r.isGeometry = true
        ∧ r.valueFault r.offset v = .indexRange r.offset v
        ∧ p.1.toNat = r.offset ∧ p.2.1 = s.regValue r ∧ (r.accepts s.cfg v ↔ v.toNat < p.2.2 ∧ v.toNat < 2 ^ 16) := by
      revert p hp
      simp only [List.forall_mem_cons]
      exact ⟨⟨.rdt, rfl, rfl, rfl, rfl, .rfl⟩, ⟨.tdt, rfl, rfl, rfl, rfl, .rfl⟩, nofun⟩
    rw [hoff, hval]
    refine ⟨fun hv hn h16 => ?_, fun hv hout => exec_regWr_host_raise hrun ?_, fun hv => exec_regWr_host_raise hrun ?_⟩
    · exact exec_regWr_host_done hrun (hoff ▸ regWrHost_held hpc hh hmap hg hv (hrange.2 ⟨hn, h16⟩))
    · have ha : ¬ r.accepts s.cfg v := by
        rw [hrange]
        omega
      rw [hoff, regWrHost_illegal hpc hh hmap hg hv ha, hfault]
    · rw [hoff]
      exact regWrHost_changed hpc hh hmap hg hv

/-- Settles O33: the first check that fails names the fault. -/
theorem regAccessFaults : Obligations.RegAccessFaults := by
  intro s off v hrun hpc hh
  have read {off : Half} {f : BlockFault} (h : regRead .host off.toNat s = .error f) :
      exec (.regRd .host off) s = .next (s.raiseFault .host f) :=
    exec_regRd_host_raise hrun (regRdHost_error hpc h)
  have write {off : Half} {f : BlockFault} (h : regWriteCheck off.toNat v s = .error f) :
      exec (.regWr .host off v) s = .next (s.raiseFault .host f) :=
    exec_regWr_host_raise hrun (regWrHost_error hpc hh h)
  refine ⟨fun hmap => ?unmapped, fun hmap hoff => ?unknown, fun hmap => ?kept⟩
  case unmapped => exact ⟨read (regRead_unmapped hmap), write (regWriteCheck_unmapped hmap)⟩
  case unknown =>
    have hnone : regOfOffset off.toNat = none := regOfOffset_of_not_mem hoff
    exact ⟨read (regRead_unknown hmap hnone), write (regWriteCheck_unknown hmap hnone)⟩
  case kept =>
    exact ⟨read (regRead_imc hmap), write (regWriteCheck_icr hmap), write (regWriteCheck_rdh hmap),
      write (regWriteCheck_tdh hmap)⟩

/-- Settles O35: the order test, then the region test, then the landing. -/
theorem memDrain : Obligations.MemDrain := by
  intro s x pos hrun
  rw [exec_memDrain]
  refine ⟨fun hnone => ?absent, fun e he => ⟨fun hno => ?blocked, fun hnext => ⟨fun k hk => ?lands, fun hk => ?dead⟩⟩⟩
  case absent => rw [land_absent hnone, take_hold, State.passTurn]
  case blocked => rw [land_blocked he hno, take_hold, State.passTurn]
  case lands =>
    rw [land_live he hnext hk, take_done _ hrun]
    refine ⟨_, rfl, s.mem.differsBy_write _ _, rfl, ?_, fun y hy => ?_⟩
    · rw [State.posted_setMemHistory, State.setPosted_posted_self he]
    · rw [State.posted_setMemHistory, State.setPosted_posted_of_ne _ hy]
  case dead => rw [land_dead he hnext hk, take_raise _ hrun]

/-- Settles O34: the barrier waits on W[HOST] alone; a held write waits with it. -/
theorem wmbHost : Obligations.WmbHost := by
  intro s hrun hpc
  refine ⟨fun hempty => ?completes, fun hposted => ?waits, fun hposted hdrains off v => ?held⟩
  case completes => rw [exec_wmb_host, wmbHost_drained hpc hempty, take_done _ hrun]
  case waits => rw [exec_wmb_host, wmbHost_undrained hposted, take_hold, State.passTurn]
  case held =>
    have hh : s.mmioHolds .host = true := State.mmioHolds_iff.2 ⟨hdrains, hposted⟩
    rw [exec_regWr_host, regWrHost_of_mmioHolds hh, take_hold, State.passTurn]

end Sys2Proof.Proofs
end

section
/-! The statements of 45_device.md: the steps of DEV, each enabled as R297 says, and the DMA accesses it makes. -/

namespace Sys2Proof.Machine

variable {s : State}

/-! ### The operations of DEV (R280 to R293) -/

theorem exec_devWireIn (len : Half) (frame : List Byte) (s : State) : exec (.devWireIn len frame) s =
    take .dev s (.done { s with wireIn := s.wireIn ++ [frame], history := s.history ++ [.wireIn frame] }) := rfl

theorem exec_devCause (c : Word) (s : State) :
    exec (.devCause c) s = take .dev s (if s.dev.resetBusy then .hold else .done (s.setCause c)) := rfl

theorem exec_devRxDrop (s : State) : exec .devRxDrop s =
    take .dev s (if s.rxDropEnabled then .done ({ s with wireIn := s.wireIn.tail }.setCause causeRXO) else .hold) := rfl

theorem exec_devRxClaim (s : State) : exec .devRxClaim s = take .dev s (devRxClaim s) := rfl

theorem exec_devRxWb (draw : WbDraws) (s : State) : exec (.devRxWb draw) s = take .dev s (devRxWb draw s) := rfl

theorem exec_devTxXmit (s : State) : exec .devTxXmit s = take .dev s (devTxXmit s) := rfl

theorem exec_devRstDone (d : Option RstDraws) (s : State) : exec (.devRstDone d) s = take .dev s (devRstDone d s) := rfl

/-! ### Where they are enabled (R297) -/

theorem State.rxDropEnabled_iff : s.rxDropEnabled = true ↔ s.dev.resetBusy = false ∧ s.dev.rxEnabled = true
    ∧ s.dev.cur = none ∧ s.wireIn ≠ [] ∧ s.regs.rdh = s.regs.rdt := by
  simp [State.rxDropEnabled, and_assoc]

theorem State.rxClaimEnabled_iff : s.rxClaimEnabled = true ↔
    s.dev.resetBusy = false ∧ s.dev.rxEnabled = true ∧ s.regs.rdh ≠ s.regs.rdt := by
  simp [State.rxClaimEnabled, and_assoc]

theorem State.xmitEnabled_iff : s.xmitEnabled = true ↔
    s.dev.resetBusy = false ∧ s.dev.txEnabled = true ∧ s.regs.tdh ≠ s.regs.tdt := by
  simp [State.xmitEnabled, and_assoc]

/-! ### The frame at hand (R282) -/

theorem State.nextChunkSource_eq_some {rem : List Byte} {waiting : List (List Byte)}
    (h : s.dev.cur = some rem ∧ waiting = s.wireIn ∨ s.dev.cur = none ∧ s.wireIn = rem :: waiting) :
    s.nextChunkSource = some (rem, waiting) := by
  obtain ⟨hcur, rfl⟩ | ⟨hcur, hwire⟩ := h
  · simp only [State.nextChunkSource, hcur]
  · simp only [State.nextChunkSource, hcur, hwire]

theorem State.nextChunkSource_eq_none (hcur : s.dev.cur = none) (hwire : s.wireIn = []) : s.nextChunkSource = none := by
  simp only [State.nextChunkSource, hcur, hwire]

theorem devRxClaim_disabled (h : ¬ s.rxClaimEnabled = true) : devRxClaim s = .hold := by
  simp [devRxClaim, h]

theorem devRxClaim_no_frame (h : s.nextChunkSource = none) : devRxClaim s = .hold := by
  simp [devRxClaim, h]

theorem devRxClaim_claims {rem : List Byte} {waiting : List (List Byte)} (he : s.rxClaimEnabled = true)
    (hsrc : s.nextChunkSource = some (rem, waiting)) : devRxClaim s = .done { s with
      drawCount := s.headCount s.devRxDepth
      wireIn := waiting
      dev := { s.dev with
        rxClaimed := s.dev.rxClaimed
          ++ [⟨s.regs.rdh.toNat, rem.take s.cfg.rxBufSize, decide (rem.length ≤ s.cfg.rxBufSize)⟩]
        cur := if rem.length ≤ s.cfg.rxBufSize then none else some (rem.drop s.cfg.rxBufSize) }
      regs := { s.regs with rdh := s.headAfter s.devRxDepth s.regs.rdh } } := by
  simp [devRxClaim, he, hsrc]

/-! ### DMA accesses (R67, R281) -/

/-- A range whose bytes are all live has no dead byte. -/
theorem State.firstDead_eq_none {a n : Nat} (h : ∀ i < n, s.dmaLive (a + i) = true) : s.firstDead a n = none := by
  cases hd : s.firstDead a n with
  | none => rfl
  | some b =>
    obtain ⟨hlo, hhi, hdead⟩ := State.firstDead_some hd
    have hlive := h (b - a) (by omega)
    rw [Nat.add_sub_cancel' hlo, hdead] at hlive
    cases hlive

/-- The dead byte reported is the one that only live bytes come before. -/
theorem State.firstDead_eq_some {a n b : Nat} (hlo : a ≤ b) (hhi : b < a + n) (hdead : s.dmaLive b = false)
    (hbefore : ∀ i, a ≤ i → i < b → s.dmaLive i = true) : s.firstDead a n = some b := by
  induction n generalizing a with
  | zero => omega
  | succ n ih =>
    rw [State.firstDead]
    obtain rfl | hlt := Nat.eq_or_lt_of_le hlo
    · simp [hdead]
    · rw [if_pos (hbefore a (Nat.le_refl a) hlt)]
      exact ih hlt (by omega) fun i hi => hbefore i (by omega)

/-- A read of bytes that all hold a value gives them, and draws nothing. -/
theorem devRead_of_held {a n : Nat} {bs : List Byte} (h : (List.range n).map (fun i => s.mem.get (a + i)) = bs.map some) :
    devRead a n s = (bs, s.emit (.mem .dev .read a bs)) := by
  simp only [devRead, h, fillDraws_some]

/-- DEV's read of a transmit buffer gives what the bytes held allow, and draws only for bytes that hold none (R45). -/
theorem devReadFrame_reads (a n : Nat) (s : State) : ∃ frame c ev,
    devReadFrame a n s = (frame, { s with drawCount := c, history := s.history ++ ev })
      ∧ readsAs ((List.range n).map fun i => s.mem.get (a + i)) frame
      ∧ (none ∉ (List.range n).map (fun i => s.mem.get (a + i)) → c = s.drawCount) := by
  by_cases hn : n = 0
  · subst hn
    exact ⟨[], s.drawCount, [], by simp [devReadFrame], fillDraws_readsAs [] 0, fun _ => rfl⟩
  · exact ⟨_, _, [_], by simp only [devReadFrame, beq_iff_eq, if_neg hn]; rfl, fillDraws_readsAs _ s.drawCount,
      fillDraws_count _ s.drawCount⟩

/-! ### DEV_RX_WB (R284, R352) -/

theorem devRxWb_idle {draw : WbDraws} (h : s.dev.resetBusy = true ∨ s.dev.rxClaimed = []) : devRxWb draw s = .hold := by
  obtain hbusy | hnone := h
  · simp [devRxWb, hbusy]
  · simp [devRxWb, hnone]

section
variable {draw : WbDraws} {c : Claim} {rest : List Claim} {b : Nat} (hbusy : s.dev.resetBusy = false)
  (hclaim : s.dev.rxClaimed = c :: rest)
include hbusy hclaim

theorem devRxWb_descriptor_dead (h : s.firstDead (s.devRxd c.slot) descSize = some b) :
    devRxWb draw s = .raise (.dmaAfterFree b) := by
  simp [devRxWb, hbusy, hclaim, h]

section
variable {ptr : List Byte} (hdesc : s.firstDead (s.devRxd c.slot) descSize = none)
  (hheld : (List.range 8).map (fun i => s.mem.get (s.devRxd c.slot + i)) = ptr.map some)
include hdesc hheld

theorem devRxWb_buffer_dead (h : s.firstDead (ofLeBytes ptr) c.chunk.length = some b) :
    devRxWb draw s = .raise (.dmaAfterFree b) := by
  simp [devRxWb, hbusy, hclaim, hdesc, devRead_of_held hheld, h]

theorem devRxWb_writes (h : s.firstDead (ofLeBytes ptr) c.chunk.length = none) : devRxWb draw s =
    .done (wbEffect c rest (ofLeBytes ptr) draw (s.emit (.mem .dev .read (s.devRxd c.slot) ptr))) := by
  simp [devRxWb, hbusy, hclaim, hdesc, devRead_of_held hheld, h]

end
end

/-- A chunk's bytes after its write, which an empty chunk does not make. -/
theorem Memory.get_writeChunk (m : Memory) (a : Nat) (bs : List Byte) (b : Nat) :
    Memory.get (if bs = [] then m else m.write a bs) b = if a ≤ b ∧ b < a + bs.length then bs[b - a]? else m.get b := by
  split
  · next hnil =>
    subst hnil
    rw [if_neg (by rw [List.length_nil]; omega)]
  · exact m.get_write a bs b

/-! ### DEV_TX_XMIT (R288, R352) -/

theorem devTxXmit_disabled (h : ¬ s.xmitEnabled = true) : devTxXmit s = .hold := by
  simp [devTxXmit, h]

section
variable {b : Nat} (he : s.xmitEnabled = true)
include he

theorem devTxXmit_descriptor_dead (h : s.firstDead (s.devTxd s.regs.tdh.toNat) descSize = some b) :
    devTxXmit s = .raise (.dmaAfterFree b) := by
  simp [devTxXmit, he, h]

section
variable {desc : List Byte} (hdesc : s.firstDead (s.devTxd s.regs.tdh.toNat) descSize = none)
  (hheld : (List.range descSize).map (fun i => s.mem.get (s.devTxd s.regs.tdh.toNat + i)) = desc.map some)
include hdesc hheld

theorem devTxXmit_buffer_dead (h : s.firstDead (ofLeBytes (desc.take 8)) (ofLeBytes ((desc.drop 8).take 2)) = some b) :
    devTxXmit s = .raise (.dmaAfterFree b) := by
  simp [devTxXmit, he, hdesc, devRead_of_held hheld, h]

/-- With the descriptor and the buffer live the transmit completes, from a state that the two reads have changed in draws and record only. -/
theorem devTxXmit_sends {a n : Nat} (ha : a = ofLeBytes (desc.take 8)) (hn : n = ofLeBytes ((desc.drop 8).take 2))
    (hbuf : s.firstDead a n = none) : ∃ frame u c ev, readsAs ((List.range n).map fun i => s.mem.get (a + i)) frame
      ∧ (none ∉ (List.range n).map (fun i => s.mem.get (a + i)) → c = s.drawCount)
      ∧ u = { s with drawCount := c, history := s.history ++ ev }
      ∧ devTxXmit s = .done (xmitEffect (desc.getD 11 0) frame u) := by
  obtain ⟨frame, c, ev, hread, hreads, hdraw⟩ :=
    devReadFrame_reads a n (s.emit (.mem .dev .read (s.devTxd s.regs.tdh.toNat) desc))
  refine ⟨frame, _, c, .mem .dev .read (s.devTxd s.regs.tdh.toNat) desc :: ev, hreads, hdraw, rfl, ?_⟩
  subst ha hn
  simp [devTxXmit, he, hdesc, devRead_of_held hheld, hbuf, hread]

end
end

theorem wireOut_mem_xmitEffect (cmd : Byte) (frame : List Byte) (s : State) :
    Event.wireOut frame ∈ (xmitEffect cmd frame s).history := by
  simp only [xmitEffect]
  split <;> simp [devWrite]

/-! ### DEV_RST_DONE (R293) -/

theorem devRstDone_idle {d : Option RstDraws} (h : s.dev.resetBusy = false) : devRstDone d s = .hold := by
  simp [devRstDone, h]

theorem devRstDone_completes {d : Option RstDraws} (h : s.dev.resetBusy = true) : devRstDone d s = .done { s with
    regs := resetRegs (s.rstDraws d)
    drawCount := s.rstCount d
    dev := { rxEnabled := false, txEnabled := false, cur := none, rxClaimed := [], resetBusy := false } } := by
  simp only [devRstDone, h, if_true, Dev.quiesced]

/-- A CTRL value with RST cleared: bit 26 is 0, every other bit as it was (R101). -/
theorem getLsbD_clearRst (v : Word) {b : Nat} (hb : b < 32) : (v &&& ~~~ctrlRst).getLsbD b = (b != 26 && v.getLsbD b) := by
  have hseen : (v &&& ~~~ctrlRst) = ctrlSeen v false := BitVec.or_zero.symm
  rw [hseen, getLsbD_ctrlSeen v false hb]
  by_cases h : b = 26 <;> simp [h]

end Sys2Proof.Machine

namespace Sys2Proof.Proofs
open Sys2Proof Sys2Proof.Machine

/-- Settles O38: the claim, then the two cases of the next head. -/
theorem devRxClaim : Obligations.DevRxClaim := by
  intro s hrun
  rw [exec_devRxClaim]
  refine ⟨fun rem waiting hbusy hon hgranted hframe => ?claims, fun hno => ?idles⟩
  case claims =>
    have he : s.rxClaimEnabled = true := State.rxClaimEnabled_iff.2 ⟨hbusy, hon, hgranted⟩
    rw [devRxClaim_claims he (State.nextChunkSource_eq_some hframe), take_done _ hrun]
    refine ⟨_, rfl, fun hdepth => ?_, fun hdepth => ?_, rfl⟩
    · obtain ⟨hhead, hcount⟩ := State.headAfter_pos (s := s) s.regs.rdh hdepth
      exact ⟨hcount, hhead⟩
    · exact (State.headAfter_zero (s := s) s.regs.rdh hdepth).1
  case idles =>
    have hold : Machine.devRxClaim s = .hold := by
      by_cases he : s.rxClaimEnabled = true
      · obtain ⟨hbusy, hon, hgranted⟩ := State.rxClaimEnabled_iff.1 he
        obtain ⟨hcur, hwire⟩ : s.dev.cur = none ∧ s.wireIn = [] := by simpa [hbusy, hon, hgranted] using hno
        exact devRxClaim_no_frame (State.nextChunkSource_eq_none hcur hwire)
      · exact devRxClaim_disabled he
    rw [hold, take_hold, State.passTurn]

/-- Settles O39: the descriptor is written after the buffer, so its eight bytes are found there wherever the buffer lies. -/
theorem devRxWriteBack : Obligations.DevRxWriteBack := by
  intro s draw hrun
  rw [exec_devRxWb]
  refine ⟨fun c rest d a ptr desc hbusy hclaim hd hheld ha hlive hbuf hdesc => ?writes, fun hno => ?idles⟩
  case writes =>
    obtain rfl : d = s.devRxd c.slot := hd
    obtain rfl : desc = wbBytes c draw := hdesc
    subst ha
    rw [devRxWb_writes hbusy hclaim (State.firstDead_eq_none hlive) hheld (State.firstDead_eq_none hbuf), take_done _ hrun]
    obtain ⟨ev, he⟩ := wbEffect_state c rest (ofLeBytes ptr) draw (s.emit (.mem .dev .read (s.devRxd c.slot) ptr))
    rw [he]
    have hlen : (wbBytes c draw).length = 8 := wbBytes_length c draw
    refine ⟨_, rfl, fun i hi => ?descriptor, fun b hout hlo hhi => ?chunk, fun b hout hapart => ?frame, rfl⟩
    case descriptor => exact (Memory.differsBy_write _ (s.devRxd c.slot + 8) _).1 i (by omega)
    case chunk =>
      exact (Memory.get_write_frame _ _ _ _ (by rw [hlen]; exact hout)).trans
        ((Memory.get_writeChunk ..).trans (if_pos ⟨hlo, hhi⟩))
    case frame =>
      exact (Memory.get_write_frame _ _ _ _ (by rw [hlen]; exact hout)).trans
        ((Memory.get_writeChunk ..).trans (if_neg (by omega)))
  case idles => rw [devRxWb_idle hno, take_hold, State.passTurn]

/-- Settles O40: the descriptor holds its bytes and draws nothing; the frame's read and the head may draw. -/
theorem devTxTransmit : Obligations.DevTxTransmit := by
  intro s hrun
  rw [exec_devTxXmit]
  refine ⟨fun d a n desc hbusy hon hpublished hd hheld ha hn hlive hbuf => ?sends, fun hno => ?idles⟩
  case sends =>
    have hen : s.xmitEnabled = true := State.xmitEnabled_iff.2 ⟨hbusy, hon, hpublished⟩
    obtain rfl : d = s.devTxd s.regs.tdh.toNat := hd
    obtain ⟨frame, u, c, ev, hreads, hdraw, hu, hsends⟩ :=
      devTxXmit_sends hen (State.firstDead_eq_none hlive) hheld ha hn (State.firstDead_eq_none hbuf)
    have hwire := wireOut_mem_xmitEffect (desc.getD 11 0) frame u
    obtain ⟨ev', heffect⟩ := xmitEffect_state (desc.getD 11 0) frame u
    rw [hsends, take_done _ hrun]
    rw [heffect] at hwire ⊢
    subst hu
    refine ⟨_, _, frame, rfl, rfl, hreads, fun hall hdepth => ?count, fun hdepth => ?next, fun hdepth => ?free,
      fun hrs => ?reports, fun hrs => ?silent, hwire, rfl⟩
    case count => exact (State.headAfter_pos s.regs.tdh hdepth).2.trans (hdraw hall)
    case next => exact (State.headAfter_pos s.regs.tdh hdepth).1
    case free => exact (State.headAfter_zero s.regs.tdh hdepth).1
    case reports =>
      rw [show reportsStatus (desc.getD 11 0) = true from hrs]
      exact s.mem.differsBy_write _ _
    case silent => rw [show reportsStatus (desc.getD 11 0) = false from hrs]; rfl
  case idles =>
    have hoff : ¬ s.xmitEnabled = true := by
      rw [State.xmitEnabled_iff]
      rintro ⟨hbusy, hon, hpublished⟩
      simp [hbusy, hon, hpublished] at hno
    rw [devTxXmit_disabled hoff, take_hold, State.passTurn]

/-- Settles O41: the drawn values are those of the word, where it carries them. -/
theorem devResetDone : Obligations.DevResetDone := by
  intro s d hrun
  rw [exec_devRstDone]
  refine ⟨fun hbusy => ?completes, fun hcalm => ?idles⟩
  case completes =>
    rw [devRstDone_completes hbusy, take_done _ hrun]
    refine ⟨s.rstDraws d, _, fun w hw => ?_, fun b => getLsbD_clearRst _, _, rfl⟩
    rw [hw, State.rstDraws]
  case idles => rw [devRstDone_idle hcalm, take_hold, State.passTurn]

/-- Settles O42: the checks run over the descriptor, then over the buffer it names, before any write. -/
theorem devAccessAfterFree : Obligations.DevAccessAfterFree := by
  intro s b hrun hbusy hdead
  refine ⟨fun draw c rest d hclaim hd => ?receive, fun d hon hpublished hd => ?transmit⟩
  case receive =>
    obtain rfl : d = s.devRxd c.slot := hd
    rw [exec_devRxWb]
    refine ⟨fun hlo hhi hbefore => ?_, fun a ptr hlive hheld ha hlo hhi hbefore => ?_⟩
    · rw [devRxWb_descriptor_dead hbusy hclaim (State.firstDead_eq_some hlo hhi hdead hbefore), take_raise _ hrun]
    · subst ha
      rw [devRxWb_buffer_dead hbusy hclaim (State.firstDead_eq_none hlive) hheld
        (State.firstDead_eq_some hlo hhi hdead hbefore), take_raise _ hrun]
  case transmit =>
    have he : s.xmitEnabled = true := State.xmitEnabled_iff.2 ⟨hbusy, hon, hpublished⟩
    obtain rfl : d = s.devTxd s.regs.tdh.toNat := hd
    rw [exec_devTxXmit]
    refine ⟨fun hlo hhi hbefore => ?_, fun a n desc hlive hheld ha hn hlo hhi hbefore => ?_⟩
    · rw [devTxXmit_descriptor_dead he (State.firstDead_eq_some hlo hhi hdead hbefore), take_raise _ hrun]
    · subst ha hn
      rw [devTxXmit_buffer_dead he (State.firstDead_eq_none hlive) hheld
        (State.firstDead_eq_some hlo hhi hdead hbefore), take_raise _ hrun]

/-- Settles O37: each operation under its enabling condition and under the negation of it. -/
theorem devWireCauseDrop : Obligations.DevWireCauseDrop := by
  intro s hrun
  refine ⟨fun len frame => ?arrives, fun v hcalm => ?raises, fun v hbusy => ?masked,
    fun f rest hcalm hon hcur hwire hfull => ?drops, fun hno => ?keeps⟩
  case arrives => rw [exec_devWireIn, take_done _ hrun]
  case raises => simp only [exec_devCause, hcalm, Bool.false_eq_true, if_false, take_done _ hrun, State.setCause]
  case masked => simp only [exec_devCause, hbusy, if_true, take_hold, State.passTurn]
  case drops =>
    have he : s.rxDropEnabled = true := State.rxDropEnabled_iff.2 ⟨hcalm, hon, hcur, by simp [hwire], hfull⟩
    rw [exec_devRxDrop, if_pos he, take_done _ hrun, hwire, State.setCause]
    rfl
  case keeps =>
    have hoff : ¬ s.rxDropEnabled = true := by
      rw [State.rxDropEnabled_iff]
      rintro ⟨hcalm, hon, hcur, hwire, hfull⟩
      simp [hcalm, hon, hcur, hwire, hfull] at hno
    rw [exec_devRxDrop, if_neg hoff, take_hold, State.passTurn]

end Sys2Proof.Proofs
end

section
/-! The statements of 46_lifecycle.md: the micro-steps of ATTACH and DETACH, one at a time, and the runs of HOST they make up. -/

namespace Sys2Proof.Machine

variable {s t : State} {d : Draws} {ds : List Draws}

/-! ### The operations and HOST's next micro-step (R29, R310, R320) -/

theorem exec_attach (s : State) : exec .attach s =
    take .host s (if s.host.pc == .idle then .done ((s.emit .attach).hostGo .aCheck) else .hold) := rfl

theorem exec_detach (s : State) : exec .detach s =
    take .host s (if s.host.pc == .idle then .done ((s.emit .detach).hostGo .dCheck) else .hold) := rfl

theorem runMicro_host_done (hrun : Agent.host ∉ s.stopped) (h : hostMicro d s = .done t) : runMicro .host d s = .next t := by
  rw [runMicro, h, take_done _ hrun]

theorem hostMicro_aCheck (hpc : s.host.pc = .aCheck) : hostMicro d s = aCheck s := by simp only [hostMicro, hpc]

theorem hostMicro_aPoll (hpc : s.host.pc = .aPoll) : hostMicro d s = aPoll s := by simp only [hostMicro, hpc]

theorem hostMicro_aRxdesc (hpc : s.host.pc = .aRxdesc) : hostMicro d s = hostAlloc .rxdesc .aRxbuf d s := by
  simp only [hostMicro, hpc]

theorem hostMicro_aInitRx (hpc : s.host.pc = .aInitRx) :
    hostMicro d s = hostImage s.regions.rxdesc.loc s.imageRx .aInitTx s := by simp only [hostMicro, hpc]

theorem hostMicro_aRdbal (hpc : s.host.pc = .aRdbal) :
    hostMicro d s = hostWrite .rdbal (toWord s.regions.rxdesc.dma) .aRdbah s := by simp only [hostMicro, hpc]

theorem hostMicro_aState (hpc : s.host.pc = .aState) : hostMicro d s = aState s := by simp only [hostMicro, hpc]

theorem hostMicro_aFailed (hpc : s.host.pc = .aFailed) : hostMicro d s = aFailed s := by simp only [hostMicro, hpc]

theorem hostMicro_dCheck (hpc : s.host.pc = .dCheck) : hostMicro d s = dCheck s := by simp only [hostMicro, hpc]

theorem hostMicro_dDone (hpc : s.host.pc = .dDone) : hostMicro d s = dDone s := by simp only [hostMicro, hpc]

/-- Where HOST releases, it releases the newest resource, and goes on when nothing is left (R313, R320). -/
theorem hostMicro_release {pc last : HostPc} (pcs : (pc, last) ∈ hostReleases) (hpc : s.host.pc = pc) :
    hostMicro d s = .done (s.releaseLast.hostGo (if s.releaseLast.acquired.isEmpty then last else pc)) := by
  simp only [hostReleases, List.mem_cons, Prod.mk.injEq, List.not_mem_nil, or_false] at pcs
  obtain ⟨rfl, rfl⟩ | ⟨rfl, rfl⟩ := pcs
  · simp only [hostMicro, hpc, aUnwind]
  · simp only [hostMicro, hpc, dRel]

/-! ### The checks of `life` (R310, R320, R321) -/

theorem aCheck_detached (hl : s.life = .detached) :
    aCheck s = .done { s with life := .attaching, host := { s.host with pc := .aMap } } := by
  simp [aCheck, hl, State.hostGo]

theorem aCheck_not_detached (hl : s.life ≠ .detached) : aCheck s = .raise (.alreadyAttached s.life) := by
  simp [aCheck, hl]

theorem dCheck_detached (hl : s.life = .detached) : dCheck s = .done { s with host := { s.host with pc := .idle } } := by
  simp [dCheck, hl, State.hostGo]

theorem dCheck_not_detached (hl : s.life ≠ .detached) :
    dCheck s = .done { s with life := .detaching, host := { s.host with pc := .dQuiesce } } := by
  simp [dCheck, hl, State.hostGo]

/-! ### Reads of CTRL and the reset poll (R252, R310, R315) -/

theorem hostReadCtrl_mapped {go : Word → State → Micro} (hm : Resource.map ∈ s.acquired) :
    hostReadCtrl s go = go (s.regValue .ctrl) { s with
      host := { s.host with c := s.regValue .ctrl }
      history := s.history ++ [.reg .host .read RegName.ctrl.offset (s.regValue .ctrl)] } := by
  simp only [hostReadCtrl, regRead_plain (x := .host) (r := .ctrl) hm (by decide) (by decide), State.emit]

/-- With the registers mapped a poll completes; `aPoll_done` says with what. -/
theorem aPoll_completes (hm : Resource.map ∈ s.acquired) : ∃ t, aPoll s = .done t := by
  rw [aPoll, hostReadCtrl_mapped hm]
  dsimp only
  split
  · exact ⟨_, rfl⟩
  · split <;> exact ⟨_, rfl⟩

/-! ### Runs of HOST -/

theorem hostSteps_cons (hrun : Agent.host ∉ s.stopped) (h : hostMicro d s = .done t) :
    hostSteps (d :: ds) s = hostSteps ds t := by
  rw [hostSteps, runMicro_host_done hrun h]

/-- A run of one micro-step more than `ds`. -/
theorem hostSteps_cons_next :
    hostSteps (d :: ds) s = .next t ↔ ∃ u, runMicro .host d s = .next u ∧ hostSteps ds u = .next t := by
  cases hd : runMicro .host d s <;> simp [hostSteps, hd]

theorem hostSteps_append {as bs : List Draws} (h : hostSteps as s = .next t) : hostSteps (as ++ bs) s = hostSteps bs t := by
  induction as generalizing s with
  | nil => cases h; rfl
  | cons d as ih =>
    obtain ⟨u, hd, has⟩ := hostSteps_cons_next.1 h
    rw [List.cons_append, hostSteps, hd]
    exact ih has

theorem exists_append_of_length {α : Type} {xs : List α} {m n : Nat} (h : xs.length = m + n) :
    ∃ as bs, xs = as ++ bs ∧ as.length = m ∧ bs.length = n :=
  ⟨xs.take m, xs.drop m, (List.take_append_drop m xs).symm, by simp [h], by simp [h]⟩

theorem getElem?_map_append {α β : Type} {f : α → β} {xs ys : List α} {n : Nat} (h : xs.length = n) (i : Nat) :
    ((xs ++ ys).map f)[n + i]? = (ys.map f)[i]? := by
  rw [List.map_append, List.getElem?_append_right (by simp [h]), List.length_map, h, Nat.add_sub_cancel_left]

/-! ### Releasing what is acquired (R313, R314, R320) -/

theorem State.releaseLast_live (s : State) (k : RegionKind) : (s.releaseLast.regions.get k).live = true
    ↔ (s.regions.get k).live = true ∧ s.acquired.getLast? ≠ some (.region k) := by
  cases h : s.acquired.getLast? with
  | none => simp [State.releaseLast, h]
  | some x => simpa [State.releaseLast, h] using s.release_live x k

theorem State.releaseLast_registered_iff (s : State) : s.releaseLast.irq.registered = true
    ↔ s.irq.registered = true ∧ s.acquired.getLast? ≠ some .irq := by
  cases h : s.acquired.getLast? with
  | none => simp [State.releaseLast, h]
  | some x => simpa [State.releaseLast, h] using s.release_registered x

theorem Holds.releaseLast {n : Nat} (h : Holds s (n + 1)) (hn : n < fullAcquired.length) : Holds s.releaseLast n := by
  have hx : fullAcquired[n]? = some fullAcquired[n] := List.getElem?_eq_getElem hn
  have he := h.releaseLast_eq hx
  exact h.pop hx (by rw [he]) (fun k => by simpa [he] using s.release_live _ k) (by simpa [he] using s.release_registered _)

theorem Holds.acquired_length {n : Nat} (h : Holds s n) (hn : n ≤ fullAcquired.length) : s.acquired.length = n := by
  rw [h.acquired, List.length_take, min_eq_left hn]

/-- With nothing held, no region is live and no handler registered. -/
theorem Holds.released (h : Holds s 0) : (∀ k, (s.regions.get k).live = false) ∧ s.irq.registered = false :=
  ⟨fun k => by simpa using h.live k, by simpa using h.registered⟩

/-- From `s` to `t` HOST has given back resources and come to `pc`; the rest of the block is as before. -/
def GivesBack (s : State) (pc : HostPc) (t : State) : Prop :=
  t = { s with
    acquired := t.acquired
    regions := t.regions
    mem := t.mem
    irq := { s.irq with registered := t.irq.registered }
    host := { s.host with pc := pc } }

theorem GivesBack.trans {u : State} {p q : HostPc} (h : GivesBack s p t) (h' : GivesBack t q u) : GivesBack s q u := by
  unfold GivesBack at h h' ⊢
  rw [h', h]

theorem GivesBack.pc {pc : HostPc} (h : GivesBack s pc t) : t.host.pc = pc := by rw [h]

theorem GivesBack.stopped {pc : HostPc} (h : GivesBack s pc t) : t.stopped = s.stopped := by rw [h]

/-- One release of the newest resource held. -/
theorem hostMicro_release_of_holds {pc last : HostPc} {n : Nat} (pcs : (pc, last) ∈ hostReleases) (hpc : s.host.pc = pc)
    (hn : n < fullAcquired.length) (hheld : Holds s (n + 1)) :
    ∃ t, hostMicro d s = .done t ∧ Holds t n ∧ GivesBack s (if n = 0 then last else pc) t := by
  have hleft : Holds s.releaseLast n := hheld.releaseLast hn
  have hnext : (if s.releaseLast.acquired.isEmpty then last else pc) = if n = 0 then last else pc := by
    simp only [List.isEmpty_iff_length_eq_zero, hleft.acquired_length hn.le]
  have hstep := hostMicro_release (d := d) pcs hpc
  rw [hnext] at hstep
  refine ⟨_, hstep, hleft.congr rfl rfl rfl, ?_⟩
  rw [GivesBack, State.hostGo_acquired, s.releaseLast_acquired]
  exact congrArg (State.hostGo · _) (releaseLast_frame s)

/-- As many micro-steps as resources are held release them all. -/
theorem hostSteps_release {pc last : HostPc} {n : Nat} (pcs : (pc, last) ∈ hostReleases) (hn : n < fullAcquired.length)
    (hrun : Agent.host ∉ s.stopped) (hpc : s.host.pc = pc) (hheld : Holds s (n + 1)) (hds : ds.length = n + 1) :
    ∃ t, hostSteps ds s = .next t ∧ Holds t 0 ∧ GivesBack s last t := by
  induction n generalizing s ds with
  | zero =>
    obtain ⟨d, rfl⟩ := List.length_eq_one_iff.1 hds
    obtain ⟨u, hu, hleft, hback⟩ := hostMicro_release_of_holds (d := d) pcs hpc hn hheld
    exact ⟨u, hostSteps_cons hrun hu, hleft, hback⟩
  | succ n ih =>
    obtain ⟨d, ds, rfl⟩ := List.exists_cons_of_length_eq_add_one hds
    obtain ⟨u, hu, hleft, hback⟩ := hostMicro_release_of_holds (d := d) pcs hpc hn hheld
    obtain ⟨t, ht, hnone, hback'⟩ :=
      ih (Nat.lt_of_succ_lt hn) (hback.stopped ▸ hrun) hback.pc hleft (Nat.succ.inj hds)
    exact ⟨t, (hostSteps_cons hrun hu).trans ht, hnone, hback.trans hback'⟩

/-! ### Register writes of a running operation (R250, R257 to R260) -/

/-- The converse of `regWrite_named`. -/
theorem regWrite_accepted {x : Agent} {r : RegName} {v : Word} (hh : ¬ s.mmioHolds x = true) (hm : Resource.map ∈ s.acquired)
    (ha : r.accepts s.cfg v) : regWrite x r.offset v s = .done { s with
      regs := s.regs.written r v
      dev := { s.dev with resetBusy := s.dev.resetBusy || (decide (r = .ctrl) && hasRst v) }
      history := s.history ++ [.reg x .write r.offset v] } := by
  simp only [regWrite, if_neg hh, regWriteCheck_accepts hm ha, regStore, regEffect_of_accepts ha, State.emit]

/-- The state after HOST has written a register without starting a device reset. -/
def State.hostWrote (s : State) (r : RegName) (v : Word) (pc : HostPc) : State := { s with
  regs := s.regs.written r v
  host := { s.host with pc := pc }
  history := s.history ++ [.reg .host .write r.offset v] }

/-- A write that starts no device reset does nothing but store its value. -/
theorem hostWrite_accepted {r : RegName} {v : Word} {pc : HostPc} (hw : s.host.posted = []) (hm : Resource.map ∈ s.acquired)
    (ha : r.accepts s.cfg v) (hrst : r = .ctrl → hasRst v = false) : hostWrite r v pc s = .done (s.hostWrote r v pc) := by
  have hstarts : (decide (r = .ctrl) && hasRst v) = false := by simpa using hrst
  rw [hostWrite, regWrite_accepted (State.not_mmioHolds (x := .host) (.inr hw)) hm ha, hstarts, Bool.or_false]
  rfl

/-! ### The descriptor images (R312) -/

section
variable {α : Type} {f : Nat → List α} {w : Nat} (hf : ∀ i, (f i).length = w)
include hf

theorem length_flatMap_range (n : Nat) : ((List.range n).flatMap f).length = n * w := by
  simp [List.length_flatMap, hf]

/-- Pieces of one length, end to end: where piece `i` lies. -/
theorem getElem?_flatMap_range {n i j : Nat} (hi : i < n) (hj : j < w) :
    ((List.range n).flatMap f)[w * i + j]? = (f i)[j]? := by
  induction n with
  | zero => exact absurd hi i.not_lt_zero
  | succ n ih =>
    have hlen : ((List.range n).flatMap f).length = w * n := (length_flatMap_range hf n).trans (Nat.mul_comm n w)
    rw [List.range_succ, List.flatMap_append, List.flatMap_singleton]
    obtain hlt | rfl := Nat.lt_succ_iff_lt_or_eq.1 hi
    · have hin : w * i + j < w * n := calc
        w * i + j < w * (i + 1) := by rw [Nat.mul_succ]; omega
        _ ≤ w * n := Nat.mul_le_mul_left w hlt
      rw [List.getElem?_append_left (hlen ▸ hin), ih hlt]
    · rw [List.getElem?_append_right (hlen ▸ Nat.le_add_right _ _), hlen, Nat.add_sub_cancel_left]

end

theorem rxdBytes_length (addr length csum : Nat) (status errors : Byte) (special : Nat) :
    (rxdBytes addr length csum status errors special).length = 16 := by simp [rxdBytes]

theorem txdBytes_length (addr length : Nat) (cso cmd status css : Byte) (special : Nat) :
    (txdBytes addr length cso cmd status css special).length = 16 := by simp [txdBytes]

theorem State.imageRx_length (s : State) : s.imageRx.length = regionSize s.cfg .rxdesc :=
  length_flatMap_range (fun _ => rxdBytes_length ..) _

theorem State.imageTx_length (s : State) : s.imageTx.length = regionSize s.cfg .txdesc :=
  length_flatMap_range (fun _ => txdBytes_length ..) _

theorem State.imageRx_getElem? (s : State) {i j : Nat} (hi : i < s.cfg.nRx) (hj : j < 16) :
    s.imageRx[16 * i + j]? = (rxdBytes (s.regions.rxbuf.dma + i * s.cfg.rxBufSize) 0 0 0 0 0)[j]? :=
  getElem?_flatMap_range (fun _ => rxdBytes_length ..) hi hj

theorem State.imageTx_getElem? (s : State) {i j : Nat} (hi : i < s.cfg.nTx) (hj : j < 16) :
    s.imageTx[16 * i + j]? = (txdBytes (s.regions.txbuf.dma + i * s.cfg.txBufSize) 0 0 0 s.cfg.txInitStatus 0 0)[j]? :=
  getElem?_flatMap_range (fun _ => txdBytes_length ..) hi hj

theorem disjointRanges_iff {a n b m : Nat} : disjointRanges a n b m = true ↔ a + n ≤ b ∨ b + m ≤ a := by
  simp [disjointRanges]

/-! ### Answers of the allocator (R47, R77) -/

/-- Answers for the four regions, all of which R47 allows together. -/
structure Answers (c : Config) (g : RegionKind → Nat × Nat) : Prop where
  aligned (k : RegionKind) : (g k).2 % c.dmaAlign = 0
  fits (k : RegionKind) : (g k).2 + regionSize c k ≤ 2 ^ 64
  apart (k j : RegionKind) : k ≠ j → disjointRanges (g k).1 (regionSize c k) (g j).1 (regionSize c j) = true
    ∧ disjointRanges (g k).2 (regionSize c k) (g j).2 (regionSize c j) = true

/-- The region that an answer grants. -/
abbrev grantedRegion (g : RegionKind → Nat × Nat) (k : RegionKind) : Region := ⟨true, (g k).1, (g k).2⟩

/-- Each live region is the one its answer grants. -/
def Regions.GrantedBy (r : Regions) (g : RegionKind → Nat × Nat) : Prop :=
  ∀ k, (r.get k).live = true → r.get k = grantedRegion g k

variable {g : RegionKind → Nat × Nat} {k : RegionKind}

theorem Regions.grantedBy_of_dead {r : Regions} (h : ∀ k, (r.get k).live = false) : r.GrantedBy g :=
  fun k hk => absurd (hk.symm.trans (h k)) (by decide)

theorem Regions.GrantedBy.set {r : Regions} (h : r.GrantedBy g) (k : RegionKind) :
    (r.set k (grantedRegion g k)).GrantedBy g := by
  intro j hj
  rw [Regions.get_set] at hj ⊢
  split at hj
  · next hjk => rw [if_pos hjk, hjk]
  · next hjk => rw [if_neg hjk, h j hj]

/-- An answer is allowed whichever of the others have been given. -/
theorem Answers.freshRegion (hg : Answers s.cfg g) (h : s.regions.GrantedBy g) (hk : (s.regions.get k).live = false) :
    s.freshRegion k (g k).1 (g k).2 = true := by
  have hclear (j : RegionKind) : (!(s.regions.get j).live
      || (disjointRanges (g k).2 (regionSize s.cfg k) (s.regions.get j).dma (regionSize s.cfg j)
        && disjointRanges (g k).1 (regionSize s.cfg k) (s.regions.get j).loc (regionSize s.cfg j))) = true := by
    cases hj : (s.regions.get j).live with
    | false => rfl
    | true =>
      have hne : k ≠ j := by rintro rfl; exact absurd (hj.symm.trans hk) (by decide)
      obtain ⟨hloc, hdma⟩ := hg.apart k j hne
      rw [h j hj, hloc, hdma]
      rfl
  simp only [State.freshRegion, hg.aligned k, beq_self_eq_true, decide_eq_true (hg.fits k), Bool.true_and]
  exact List.all_eq_true.2 fun j _ => hclear j

/-- The state after HOST has been granted a region. -/
def State.hostGranted (s : State) (g : RegionKind → Nat × Nat) (k : RegionKind) (pc : HostPc) : State := { s with
  regions := s.regions.set k (grantedRegion g k)
  mem := s.mem.clear (g k).2 (regionSize s.cfg k)
  acquired := s.acquired ++ [.region k]
  host := { s.host with pc := pc }
  history := s.history ++ [.alloc k (regionSize s.cfg k) (some (g k))] }

theorem hostAlloc_granted {pc : HostPc} (hg : Answers s.cfg g) (h : s.regions.GrantedBy g)
    (hk : (s.regions.get k).live = false) (hd : d.alloc = some (g k)) :
    hostAlloc k pc d s = .done (s.hostGranted g k pc) := by
  simp only [hostAlloc, hd, hg.freshRegion h hk, if_true]
  rfl

/-- An access that fills a granted region from its base lies in no other one. -/
theorem State.localRegion_base (hlive : ∀ k, s.regions.get k = grantedRegion g k) (hg : Answers s.cfg g)
    (hpos : 0 < regionSize s.cfg k) : s.localRegion (g k).1 (regionSize s.cfg k) = some k := by
  cases hr : s.localRegion (g k).1 (regionSize s.cfg k) with
  | none =>
    have hk := List.find?_eq_none.1 hr k (by cases k <;> decide)
    simp [hlive k] at hk
  | some j =>
    obtain ⟨-, hlo, hhi⟩ := State.localRegion_some hr
    simp only [hlive j] at hlo hhi
    by_contra hne
    obtain hbefore | hafter := disjointRanges_iff.1 (hg.apart k j (fun e => hne (e ▸ rfl))).1 <;> omega

/-! ### The values ATTACH programs (R103 to R107, R310) -/

theorem ringBase_toWord {a : Nat} (ha : a < 2 ^ 64) : ringBase (toWord (a / 2 ^ 32)) (toWord a) = a := by
  simp only [ringBase, toWord, BitVec.toNat_ofNat]
  omega

/-- DMA_ALIGN is a power of two, at least 128 (R6). -/
theorem Config.dmaAlign_dvd {c : Config} (hv : c.valid = true) : 16 ∣ c.dmaAlign := by
  obtain ⟨-, -, -, -, -, -, -, -, -, -, -, -, -, -, -, hle, e, he⟩ := (Config.valid_iff_meets c).1 hv
  rw [he] at hle ⊢
  have h4 : 4 ≤ e := by
    by_contra hlt
    have : 2 ^ e ≤ 2 ^ 4 := Nat.pow_le_pow_right (by decide) (by omega)
    omega
  exact pow_dvd_pow 2 h4

theorem baseLowOk_toWord {c : Config} {a : Nat} (hv : c.valid = true) (ha : a % c.dmaAlign = 0) :
    baseLowOk (toWord a) = true := by
  obtain ⟨q, rfl⟩ := (Config.dmaAlign_dvd hv).trans (Nat.dvd_of_mod_eq_zero ha)
  simp only [baseLowOk_iff, toWord, BitVec.toNat_ofNat]
  omega

/-- A legal depth gives a legal ring length (R6, R105). -/
theorem ringLenOk_toWord {n : Nat} (h8 : n % 8 = 0) (hn : 8 ≤ n) (hle : n * 16 ≤ 0xFFF80) :
    ringLenOk (toWord (n * descSize)) = true := by
  have hlen : (toWord (n * descSize)).toNat = n * 16 := toWord_ringLen hle
  refine ringLenOk_iff.2 ⟨by omega, fun h0 => ?_, by omega⟩
  rw [h0] at hlen
  have : (0 : Word).toNat = 0 := rfl
  omega

/-- The index of the last slot fits in a tail (R106). -/
theorem toWord_last {n : Nat} (hle : n * 16 ≤ 0xFFF80) : (toWord (n - 1)).toNat = n - 1 := by
  simp only [toWord, BitVec.toNat_ofNat]
  omega

theorem Config.ring_pos {c : Config} (hv : c.valid = true) : 0 < regionSize c .rxdesc ∧ 0 < regionSize c .txdesc := by
  obtain ⟨⟨hrx, -⟩, ⟨htx, -⟩, -⟩ := Config.bounds_of_valid hv
  exact ⟨Nat.mul_pos hrx (by decide), Nat.mul_pos htx (by decide)⟩

/-! ### ATTACH from the end of its reset (R310, R312) -/

theorem aPoll_clear (hm : Resource.map ∈ s.acquired) (hb : s.dev.resetBusy = false) :
    aPoll s = .done (s.ctrlRead .aLinkRd) := by
  have hrst : hasRst (s.regValue .ctrl) = false := (hasRst_ctrlSeen _ _).trans hb
  simp only [aPoll, hostReadCtrl_mapped hm, hrst, Bool.not_false, if_true]
  rfl

theorem aLinkRd_mapped (hm : Resource.map ∈ s.acquired) : aLinkRd s = .done (s.ctrlRead .aLinkWr) :=
  hostReadCtrl_mapped hm

/-- With no reset in progress HOST brings the link up. -/
theorem hostSteps_linkUp (hrun : Agent.host ∉ s.stopped) (hpc : s.host.pc = .aPoll) (hm : Resource.map ∈ s.acquired)
    (hw : s.host.posted = []) (hb : s.dev.resetBusy = false) (hds : ds.length = 3) :
    ∃ t, hostSteps ds s = .next t ∧ t = { s with
      regs := { s.regs with ctrl := s.regValue .ctrl ||| ctrlLinkUp }
      host := { s.host with c := s.regValue .ctrl, pc := .aRxdesc }
      history := t.history } := by
  match ds, hds with
  | [poll, linkRd, linkWr], _ =>
  have hrst : hasRst (s.regValue .ctrl ||| ctrlLinkUp) = false :=
    (hasRst_linkUp _).trans ((hasRst_ctrlSeen _ _).trans hb)
  exact ⟨_,
    .trans (hostSteps_cons hrun ((hostMicro_aPoll hpc).trans (aPoll_clear hm hb))) <|
    .trans (hostSteps_cons hrun (aLinkRd_mapped hm)) <|
    hostSteps_cons hrun (hostWrite_accepted hw hm trivial fun _ => hrst), rfl⟩

/-- The allocator grants the four regions in turn. -/
theorem hostSteps_allocate (hrun : Agent.host ∉ s.stopped) (hpc : s.host.pc = .aRxdesc)
    (hdead : ∀ k, (s.regions.get k).live = false) (hg : Answers s.cfg g)
    (hds : ds.map Draws.alloc = allRegions.map fun k => some (g k)) :
    ∃ t, hostSteps ds s = .next t ∧ (∀ k, t.regions.get k = grantedRegion g k) ∧ t = { s with
      acquired := s.acquired ++ allRegions.map Resource.region
      regions := t.regions
      mem := t.mem
      host := { s.host with pc := .aInitRx }
      history := t.history } := by
  have hlen : ds.length = 4 := by simpa [allRegions] using congrArg List.length hds
  match ds, hlen, hds with
  | [rxdesc, rxbuf, txdesc, txbuf], _, hds =>
  simp only [allRegions, List.map_cons, List.map_nil, List.cons.injEq, and_true] at hds
  obtain ⟨hrxdesc, hrxbuf, htxdesc, htxbuf⟩ := hds
  have hnone : s.regions.GrantedBy g := Regions.grantedBy_of_dead hdead
  have hone := hnone.set .rxdesc
  have htwo := hone.set .rxbuf
  have hthree := htwo.set .txdesc
  refine ⟨_,
    .trans (hostSteps_cons hrun ((hostMicro_aRxdesc hpc).trans (hostAlloc_granted hg hnone (hdead _) hrxdesc))) <|
    .trans (hostSteps_cons hrun (hostAlloc_granted hg hone (hdead .rxbuf) hrxbuf)) <|
    .trans (hostSteps_cons hrun (hostAlloc_granted hg htwo (hdead .txdesc) htxdesc)) <|
    hostSteps_cons hrun (hostAlloc_granted hg hthree (hdead .txbuf) htxbuf), ?_, ?_⟩
  · intro k
    cases k <;> rfl
  · simp only [State.hostGranted, allRegions, List.map_cons, List.map_nil, List.append_assoc, List.cons_append, List.nil_append]

/-- The state after HOST has written bytes at the base of a granted region, under POSTED_ORDER = SC. -/
def State.hostImaged (s : State) (base : Nat × Nat) (bs : List Byte) (pc : HostPc) : State := { s with
  mem := s.mem.write base.2 bs
  host := { s.host with pc := pc }
  history := s.history ++ [.visible .host base.1 bs, .mem .host .write base.1 bs] }

theorem hostImage_sc {bs : List Byte} {pc : HostPc} (hg : Answers s.cfg g) (hlive : ∀ k, s.regions.get k = grantedRegion g k)
    (hpos : 0 < regionSize s.cfg k) (hlen : bs.length = regionSize s.cfg k) (ho : s.cfg.postedOrder = .sc) :
    hostImage (s.regions.get k).loc bs pc s = .done (s.hostImaged (g k) bs pc) := by
  have hregion : s.localRegion (g k).1 bs.length = some k := hlen ▸ State.localRegion_base hlive hg hpos
  have hdma : s.dmaOf k (g k).1 = (g k).2 := by simp [State.dmaOf, hlive k]
  rw [hostImage, hlive k, memWrite_sc hregion ho, hdma]
  rfl

theorem hostBarrier_drained {pc : HostPc} (hw : s.host.posted = []) :
    barrier .host s (fun s1 => s1.hostGo pc) = .done (s.hostGo pc) := by
  simp [barrier, State.posted, hw]

/-- Under POSTED_ORDER = SC the two descriptor images are in memory at once. -/
theorem hostSteps_images (hrun : Agent.host ∉ s.stopped) (hpc : s.host.pc = .aInitRx) (ho : s.cfg.postedOrder = .sc)
    (hw : s.host.posted = []) (hg : Answers s.cfg g) (hlive : ∀ k, s.regions.get k = grantedRegion g k)
    (hrx : 0 < regionSize s.cfg .rxdesc) (htx : 0 < regionSize s.cfg .txdesc) (hds : ds.length = 3) :
    ∃ t, hostSteps ds s = .next t ∧ t = { s with
      mem := (s.mem.write (g .rxdesc).2 s.imageRx).write (g .txdesc).2 s.imageTx
      host := { s.host with pc := .aRdbal }
      history := t.history } := by
  match ds, hds with
  | [initRx, initTx, wmb], _ =>
  exact ⟨_,
    .trans (hostSteps_cons hrun ((hostMicro_aInitRx hpc).trans (hostImage_sc (k := .rxdesc) hg hlive hrx s.imageRx_length ho))) <|
    .trans (hostSteps_cons hrun (hostImage_sc (k := .txdesc) hg hlive htx s.imageTx_length ho)) <|
    hostSteps_cons hrun (hostBarrier_drained hw), rfl⟩

/-- From `s` to `t` HOST has written registers, which now are `r`, and come to `pc`; the rest of the block is as before. -/
def Programs (s : State) (r : Regs) (pc : HostPc) (t : State) : Prop :=
  t = { s with regs := r, host := { s.host with pc := pc }, history := t.history }

/-- One more register, and what follows. -/
theorem Programs.write {P : State → Prop} {r : Regs} {p : HostPc} (h : Programs s r p t) (n : RegName) (v : Word) (q : HostPc)
    (hrun : Agent.host ∉ s.stopped) (hw : s.host.posted = []) (hm : Resource.map ∈ s.acquired)
    (hstep : hostMicro d t = hostWrite n v q t) (hn : n ≠ .ctrl) (ha : n.accepts s.cfg v)
    (hrest : ∀ u, Programs s (r.written n v) q u → ∃ w, hostSteps ds u = .next w ∧ P w) :
    ∃ w, hostSteps (d :: ds) t = .next w ∧ P w := by
  have hdone : hostMicro d t = .done (t.hostWrote n v q) := by
    rw [hstep]
    exact hostWrite_accepted (by rw [h]; exact hw) (by rw [h]; exact hm) (by rw [h]; exact ha) fun e => absurd e hn
  have hprograms : Programs s (r.written n v) q (t.hostWrote n v q) := by
    rw [Programs, h]
    rfl
  rw [hostSteps_cons (by rw [h]; exact hrun) hdone]
  exact hrest _ hprograms

/-- HOST programs both rings: their bases, lengths and tails. -/
theorem hostSteps_program (hrun : Agent.host ∉ s.stopped) (hpc : s.host.pc = .aRdbal) (hm : Resource.map ∈ s.acquired)
    (hw : s.host.posted = []) (hv : s.cfg.valid = true) (hrx : s.regions.rxdesc.dma % s.cfg.dmaAlign = 0)
    (htx : s.regions.txdesc.dma % s.cfg.dmaAlign = 0) (hds : ds.length = 8) :
    ∃ t, hostSteps ds s = .next t ∧ Programs s { s.regs with
      rdbal := toWord s.regions.rxdesc.dma
      rdbah := toWord (s.regions.rxdesc.dma / 2 ^ 32)
      rdlen := toWord (s.cfg.nRx * descSize)
      rdt := toWord (s.cfg.nRx - 1)
      tdbal := toWord s.regions.txdesc.dma
      tdbah := toWord (s.regions.txdesc.dma / 2 ^ 32)
      tdlen := toWord (s.cfg.nTx * descSize)
      tdt := 0 } .aState t := by
  obtain ⟨hrx8, hrxn, hrxle, htx8, htxn, htxle, -⟩ := (Config.valid_iff_meets _).1 hv
  have hlast : (toWord (s.cfg.nRx - 1)).toNat = s.cfg.nRx - 1 := toWord_last hrxle
  have hfirst : (0 : Word).toNat = 0 := rfl
  have hstart : Programs s s.regs .aRdbal s := by rw [Programs, ← hpc]
  match ds, hds with
  | [rdbal, rdbah, rdlen, rdt, tdbal, tdbah, tdlen, tdt], _ =>
  refine hstart.write .rdbal (toWord s.regions.rxdesc.dma) .aRdbah hrun hw hm (hostMicro_aRdbal hpc) nofun
    (baseLowOk_toWord hv hrx) fun s₁ h₁ => ?_
  refine h₁.write .rdbah (toWord (s.regions.rxdesc.dma / 2 ^ 32)) .aRdlen hrun hw hm (by rw [h₁]; rfl) nofun
    trivial fun s₂ h₂ => ?_
  refine h₂.write .rdlen (toWord (s.cfg.nRx * descSize)) .aRdt hrun hw hm (by rw [h₂]; rfl) nofun
    (ringLenOk_toWord hrx8 hrxn hrxle) fun s₃ h₃ => ?_
  refine h₃.write .rdt (toWord (s.cfg.nRx - 1)) .aTdbal hrun hw hm (by rw [h₃]; rfl) nofun
    ⟨by omega, by omega⟩ fun s₄ h₄ => ?_
  refine h₄.write .tdbal (toWord s.regions.txdesc.dma) .aTdbah hrun hw hm (by rw [h₄]; rfl) nofun
    (baseLowOk_toWord hv htx) fun s₅ h₅ => ?_
  refine h₅.write .tdbah (toWord (s.regions.txdesc.dma / 2 ^ 32)) .aTdlen hrun hw hm (by rw [h₅]; rfl) nofun
    trivial fun s₆ h₆ => ?_
  refine h₆.write .tdlen (toWord (s.cfg.nTx * descSize)) .aTdt hrun hw hm (by rw [h₆]; rfl) nofun
    (ringLenOk_toWord htx8 htxn htxle) fun s₇ h₇ => ?_
  refine h₇.write .tdt 0 .aState hrun hw hm (by rw [h₇]; rfl) nofun
    ⟨by omega, by omega⟩ fun s₈ h₈ => ?_
  exact ⟨s₈, rfl, by simpa only [Regs.written] using h₈⟩

theorem aIrq_granted (hd : d.granted = true) : aIrq d s = .done { s with
    irq := { s.irq with registered := true }
    acquired := s.acquired ++ [.irq]
    host := { s.host with pc := .aIms } } := by
  simp [aIrq, hd, State.hostGo]

/-- After both images are written each descriptor of the receive ring reads as its image (R312). -/
theorem State.get_imageRx (s : State) {m : Memory} (hg : Answers s.cfg g) (hlive : ∀ k, s.regions.get k = grantedRegion g k) {i j : Nat}
    (hi : i < s.cfg.nRx) (hj : j < 16) :
    ((m.write (g .rxdesc).2 s.imageRx).write (g .txdesc).2 s.imageTx).get (s.regions.rxdesc.dma + 16 * i + j)
      = (rxdBytes (s.regions.rxbuf.dma + i * s.cfg.rxBufSize) 0 0 0 0 0)[j]? := by
  have hbase : s.regions.rxdesc.dma = (g .rxdesc).2 := congrArg Region.dma (hlive .rxdesc)
  have hin : 16 * i + j < s.imageRx.length := by
    rw [s.imageRx_length, regionSize, descSize]
    omega
  have hout := disjointRanges_iff.1 (hg.apart .rxdesc .txdesc (by decide)).2
  rw [← s.imageRx_length, ← s.imageTx_length] at hout
  rw [Memory.get_write_frame _ _ _ _ (by omega), hbase, Nat.add_assoc, (m.differsBy_write _ _).1 _ hin,
    s.imageRx_getElem? hi hj]

/-- So does each descriptor of the transmit ring. -/
theorem State.get_imageTx (s : State) {m : Memory} (hlive : ∀ k, s.regions.get k = grantedRegion g k) {i j : Nat}
    (hi : i < s.cfg.nTx) (hj : j < 16) :
    (m.write (g .txdesc).2 s.imageTx).get (s.regions.txdesc.dma + 16 * i + j)
      = (txdBytes (s.regions.txbuf.dma + i * s.cfg.txBufSize) 0 0 0 s.cfg.txInitStatus 0 0)[j]? := by
  have hbase : s.regions.txdesc.dma = (g .txdesc).2 := congrArg Region.dma (hlive .txdesc)
  have hin : 16 * i + j < s.imageTx.length := by
    rw [s.imageTx_length, regionSize, descSize]
    omega
  rw [hbase, Nat.add_assoc, (m.differsBy_write _ _).1 _ hin, s.imageTx_getElem? hi hj]

/-- HOST starts the engines and the device, and reports. -/
theorem hostSteps_start (hrun : Agent.host ∉ s.stopped) (hpc : s.host.pc = .aState) (hm : Resource.map ∈ s.acquired)
    (hw : s.host.posted = []) (hds : ds.length = 5) (hgrant : ∀ d ∈ ds, d.granted = true) :
    ∃ t, hostSteps ds s = .next t ∧ t.history.getLast? = some (.attachResult .ok) ∧ t = { s with
      life := .attached
      acquired := s.acquired ++ [.irq]
      regs := { s.regs with ims := s.regs.ims ||| s.cfg.imsInit }
      host := { s.host with pc := .idle }
      irq := { s.irq with registered := true }
      bh := { s.bh with tail := s.cfg.nRx - 1, acc := none }
      txLock := none
      coord := ⟨false, false⟩
      dev := { s.dev with rxEnabled := true, txEnabled := true }
      history := t.history } := by
  match ds, hds with
  | [state, irq, ims, enable, done], _ =>
  have hirq : irq.granted = true := hgrant irq (by simp)
  have hm' : Resource.map ∈ s.acquired ++ [.irq] := List.mem_append_left _ hm
  refine ⟨_,
    .trans (hostSteps_cons hrun (hostMicro_aState hpc)) <|
    .trans (hostSteps_cons hrun (aIrq_granted hirq)) <|
    .trans (hostSteps_cons hrun (hostWrite_accepted hw hm' trivial nofun)) <|
    .trans (hostSteps_cons hrun rfl) <|
    hostSteps_cons hrun rfl, ?_, ?_⟩
  · exact List.getLast?_concat
  · dsimp only [State.hostWrote, State.hostGo, State.emit, Regs.written]

/-- ATTACH from A_POLL on: the link, the four regions, the two images, the ring registers and the start, one after the other. -/
theorem hostSteps_attach {link allocs images program start : List Draws} (hrun : Agent.host ∉ s.stopped)
    (hv : s.cfg.valid = true) (ho : s.cfg.postedOrder = .sc) (hpc : s.host.pc = .aPoll) (hm : Resource.map ∈ s.acquired)
    (hdead : ∀ k, (s.regions.get k).live = false) (hw : s.host.posted = []) (hb : s.dev.resetBusy = false)
    (hg : Answers s.cfg g) (hlink : link.length = 3) (hallocs : allocs.map Draws.alloc = allRegions.map fun k => some (g k))
    (himages : images.length = 3) (hprogram : program.length = 8) (hstart : start.length = 5)
    (hgrant : ∀ d ∈ start, d.granted = true) :
    ∃ t, hostSteps (link ++ (allocs ++ (images ++ (program ++ start)))) s = .next t
      ∧ t.history.getLast? = some (.attachResult .ok)
      ∧ (∀ k, t.regions.get k = grantedRegion g k)
      ∧ (∃ m, t.mem = (Memory.write m (g .rxdesc).2 t.imageRx).write (g .txdesc).2 t.imageTx)
      ∧ t = { s with
        life := .attached
        acquired := s.acquired ++ allRegions.map Resource.region ++ [.irq]
        regs := { s.regs with
          ctrl := s.regValue .ctrl ||| ctrlLinkUp
          ims := s.regs.ims ||| s.cfg.imsInit
          rdbal := toWord t.regions.rxdesc.dma
          rdbah := toWord (t.regions.rxdesc.dma / 2 ^ 32)
          rdlen := toWord (s.cfg.nRx * descSize)
          rdt := toWord (s.cfg.nRx - 1)
          tdbal := toWord t.regions.txdesc.dma
          tdbah := toWord (t.regions.txdesc.dma / 2 ^ 32)
          tdlen := toWord (s.cfg.nTx * descSize)
          tdt := 0 }
        regions := t.regions
        mem := t.mem
        host := { s.host with c := s.regValue .ctrl, pc := .idle }
        irq := { s.irq with registered := true }
        bh := { s.bh with tail := s.cfg.nRx - 1, acc := none }
        txLock := none
        coord := ⟨false, false⟩
        dev := { s.dev with rxEnabled := true, txEnabled := true }
        history := t.history } := by
  obtain ⟨t₁, ht₁, e₁⟩ := hostSteps_linkUp hrun hpc hm hw hb hlink
  obtain ⟨t₂, ht₂, hlive, e₂⟩ := hostSteps_allocate (s := t₁) (g := g) (by rw [e₁]; exact hrun) (by rw [e₁])
    (by rw [e₁]; exact hdead) (by rw [e₁]; exact hg) hallocs
  rw [e₁] at e₂
  have hrun₂ : Agent.host ∉ t₂.stopped := by rw [e₂]; exact hrun
  have hw₂ : t₂.host.posted = [] := by rw [e₂]; exact hw
  have hm₂ : Resource.map ∈ t₂.acquired := by rw [e₂]; exact List.mem_append_left _ hm
  have hv₂ : t₂.cfg.valid = true := by rw [e₂]; exact hv
  have hg₂ : Answers t₂.cfg g := by rw [e₂]; exact hg
  have haligned (k : RegionKind) : (t₂.regions.get k).dma % t₂.cfg.dmaAlign = 0 := by rw [hlive k]; exact hg₂.aligned k
  obtain ⟨hrx, htx⟩ := Config.ring_pos hv₂
  obtain ⟨t₃, ht₃, e₃⟩ := hostSteps_images hrun₂ (by rw [e₂]) (by rw [e₂]; exact ho) hw₂ hg₂ hlive hrx htx himages
  obtain ⟨t₄, ht₄, e₄⟩ := hostSteps_program (s := t₃) (by rw [e₃]; exact hrun₂) (by rw [e₃]) (by rw [e₃]; exact hm₂)
    (by rw [e₃]; exact hw₂) (by rw [e₃]; exact hv₂) (by rw [e₃]; exact haligned .rxdesc)
    (by rw [e₃]; exact haligned .txdesc) hprogram
  obtain ⟨t₅, ht₅, hlast, e₅⟩ := hostSteps_start (s := t₄) (by rw [e₄, e₃]; exact hrun₂) (by rw [e₄])
    (by rw [e₄, e₃]; exact hm₂) (by rw [e₄, e₃]; exact hw₂) hstart hgrant
  have hregions : t₅.regions = t₂.regions := by rw [e₅, e₄, e₃]
  refine ⟨t₅, ?_, hlast, fun k => by rw [hregions, hlive k], ⟨t₂.mem, ?_⟩, ?_⟩
  · rw [hostSteps_append ht₁, hostSteps_append ht₂, hostSteps_append ht₃, hostSteps_append ht₄, ht₅]
  · rw [e₅, e₄, e₃]
    rfl
  · rw [e₅, e₄, e₃, e₂]

/-! ### DETACH of a calm block (R320, R322, R324) -/

theorem dIrqrel_idle (h : s.irq.pc = .idle) : dIrqrel s = .done { s with
    irq := { s.irq with registered := false }
    acquired := s.acquired.filter fun x => x != Resource.irq
    host := { s.host with pc := .dBh } } := by
  simp [dIrqrel, h, State.hostGo]

/-- With no run pending the draw of D_BH makes no difference to the coordinator. -/
theorem dBh_calm (h : s.coord = ⟨false, false⟩) :
    dBh d s = .done { s with host := { s.host with cDraw := d.treat, pc := .dBhwait } } := by
  have hsame : (if d.treat == .cancel then { s.coord with pending := false } else s.coord) = s.coord := by
    rw [h]
    exact ite_self _
  rw [dBh, hsame]

theorem dBhwait_calm (h : s.coord = ⟨false, false⟩) : dBhwait s = .done { s with host := { s.host with pc := .dTxwait } } := by
  simp [dBhwait, h, State.hostGo]

theorem dTxwait_free (hl : s.txLock = none) (hc : ∀ c ∈ s.txc, c.pc = .idle) :
    dTxwait s = .done { s with host := { s.host with pc := .dAcc } } := by
  have hall : s.txc.all (fun c => c.pc == .idle) = true := by simpa using hc
  simp [dTxwait, hl, hall, State.hostGo]

/-- DETACH of a calm block goes from D_CHECK to D_REL in eight micro-steps. -/
theorem hostSteps_quiesce (hrun : Agent.host ∉ s.stopped) (hpc : s.host.pc = .dCheck) (hl : s.life ≠ .detached)
    (hm : Resource.map ∈ s.acquired) (hw : s.host.posted = []) (hirq : s.irq.pc = .idle) (hco : s.coord = ⟨false, false⟩)
    (hlock : s.txLock = none) (hc : ∀ c ∈ s.txc, c.pc = .idle) (hds : ds.length = 8) :
    ∃ t, hostSteps ds s = .next t ∧ t = { s with
      life := .detaching
      acquired := s.acquired.filter fun x => x != Resource.irq
      regs := { s.regs with ims := 0 }
      host := { s.host with cDraw := t.host.cDraw, pc := .dRel }
      irq := { s.irq with registered := false }
      bh := { s.bh with acc := none }
      dev := s.dev.quiesced
      history := t.history } := by
  match ds, hds with
  | [dCheck, dQuiesce, dImc, dIrqrel, dBh, dBhwait, dTxwait, dAcc], _ =>
  have hmask : s.regs.ims &&& ~~~(0xFFFFFFFF : Word) = 0 := by simp
  rw [← hmask]
  exact ⟨_,
    .trans (hostSteps_cons hrun ((hostMicro_dCheck hpc).trans (dCheck_not_detached hl))) <|
    .trans (hostSteps_cons hrun rfl) <|
    .trans (hostSteps_cons hrun (hostWrite_accepted hw hm trivial nofun)) <|
    .trans (hostSteps_cons hrun (dIrqrel_idle hirq)) <|
    .trans (hostSteps_cons hrun (dBh_calm hco)) <|
    .trans (hostSteps_cons hrun (dBhwait_calm hco)) <|
    .trans (hostSteps_cons hrun (dTxwait_free hlock hc)) <|
    hostSteps_cons hrun rfl, rfl⟩

theorem runMicro_memInv {x : Agent} (hs : s.memInv) (h : runMicro x d s = .next t) : t.memInv := by
  obtain rfl | ⟨y, -, hc⟩ | ⟨y, f, -, rfl⟩ := runMicro_canDo h
  · exact hs
  · exact hc.memInv hs
  · exact hs

theorem hostSteps_memInv (hs : s.memInv) (h : hostSteps ds s = .next t) : t.memInv := by
  induction ds generalizing s with
  | nil => cases h; exact hs
  | cons d ds ih =>
    obtain ⟨u, hd, hrest⟩ := hostSteps_cons_next.1 h
    exact ih (runMicro_memInv hs hd) hrest

/-- Without a live region no byte is left (R25). -/
theorem State.memOk.mem_eq_nil (hs : s.memOk) (hdead : ∀ k, (s.regions.get k).live = false) : s.mem = [] := by
  refine List.eq_nil_iff_forall_not_mem.2 fun p hp => ?_
  obtain ⟨k, hk, -⟩ := State.dmaLive_iff.1 (hs.2 p hp)
  exact absurd (hk.symm.trans (hdead k)) (by decide)

end Sys2Proof.Machine

namespace Sys2Proof.Proofs
open Sys2Proof Sys2Proof.Machine

/-- Settles O45: ATTACH is issued from idle, and A_CHECK tells a detached block from any other. -/
theorem attachIssueAndCheck : Obligations.AttachIssueAndCheck := by
  intro s d hrun
  refine ⟨fun hpc => ?issue, fun hpc hl => ?detached, fun hpc hl => ?fault⟩
  case issue =>
    rw [exec_attach, if_pos (beq_iff_eq.2 hpc), take_done _ hrun]
    rfl
  case detached => exact runMicro_host_done hrun ((hostMicro_aCheck hpc).trans (aCheck_detached hl))
  case fault => rw [runMicro, hostMicro_aCheck hpc, aCheck_not_detached hl, take_raise _ hrun]

/-- Settles O46: DETACH is issued from idle, and D_CHECK puts a detached block back where it was. -/
theorem detachIssueAndCheck : Obligations.DetachIssueAndCheck := by
  intro s d hrun hpc
  have back : ({ s.host with pc := .idle } : HostAgent) = s.host := by rw [← hpc]
  refine ⟨_, ?issue, rfl, fun hl => ?detached, fun hl => ?goesOn⟩
  case issue =>
    rw [exec_detach, if_pos (beq_iff_eq.2 hpc), take_done _ hrun]
    rfl
  case detached =>
    rw [← back]
    exact runMicro_host_done hrun ((hostMicro_dCheck rfl).trans (dCheck_detached hl))
  case goesOn => exact runMicro_host_done hrun ((hostMicro_dCheck rfl).trans (dCheck_not_detached hl))

/-- Settles O47: a poll sees RST exactly while the reset is in progress. -/
theorem resetPollBounded : Obligations.ResetPollBounded := by
  intro s d hrun hpc hm
  obtain ⟨t, ht⟩ := aPoll_completes hm
  have hseen : hasRst (s.regValue .ctrl) = s.dev.resetBusy := hasRst_ctrlSeen _ _
  have hheld : s.acquired.isEmpty = false := by simpa using List.ne_nil_of_mem hm
  refine ⟨t, runMicro_host_done hrun ((hostMicro_aPoll hpc).trans ht), ?_⟩
  obtain ⟨hrst, rfl⟩ | ⟨hrst, hmax, rfl⟩ | ⟨hrst, hmax, rfl⟩ := aPoll_done ht <;> rw [hseen] at hrst
  · exact ⟨fun _ => rfl, fun hb => absurd (hb.symm.trans hrst) (by decide), rfl⟩
  · refine ⟨fun hb => absurd (hb.symm.trans hrst) (by decide), fun _ => ⟨rfl, absurd hmax, fun _ => ⟨?_, rfl⟩⟩, rfl⟩
    simp [hheld]
  · exact ⟨fun hb => absurd (hb.symm.trans hrst) (by decide), fun _ => ⟨rfl, fun _ => rfl, fun h => absurd h hmax⟩, rfl⟩

/-- Settles O48: a release takes the newest resource, and the resources are held in order. -/
theorem unwindReleasesAll : Obligations.UnwindReleasesAll := by
  intro s hrun hpc
  have pcs : (HostPc.aUnwind, HostPc.aFailed) ∈ hostReleases := by decide
  refine ⟨fun d => ?release, fun ds hinv hds => ?unwind⟩
  case release =>
    refine ⟨_, runMicro_host_done hrun (hostMicro_release pcs hpc), s.releaseLast_acquired, s.releaseLast_live,
      s.releaseLast_registered_iff, ?_⟩
    simp only [State.hostGo_host, State.hostGo_acquired, List.isEmpty_iff]
  case unwind =>
    obtain ⟨-, n, hn, hheld⟩ := State.resourceInv_iff.1 hinv
    obtain ⟨hpos, hle⟩ : 1 ≤ n ∧ n < 6 := by simpa [hpc, HostPc.holds] using hn
    obtain ⟨n, rfl⟩ := Nat.exists_eq_add_of_le' hpos
    rw [hheld.acquired_length hle.le] at hds
    obtain ⟨as, bs, rfl, has, hbs⟩ := exists_append_of_length hds
    obtain ⟨d, rfl⟩ := List.length_eq_one_iff.1 hbs
    obtain ⟨t, ht, hnone, hback⟩ := hostSteps_release pcs (Nat.lt_of_succ_lt hle) hrun hpc hheld has
    obtain ⟨hdead, hunhooked⟩ := hnone.released
    refine ⟨_, (hostSteps_append ht).trans (hostSteps_cons (hback.stopped ▸ hrun) (hostMicro_aFailed hback.pc)),
      hnone.acquired, hdead, hunhooked, rfl, rfl, ?_⟩
    rw [hback]
    exact ⟨rfl, rfl, rfl, rfl, rfl, rfl⟩

/-- Settles O49: from A_POLL to A_DONE nothing stands in HOST's way, and what it has written is the attached state. -/
theorem attachReachesAttachedState : Obligations.AttachReachesAttachedState := by
  intro s g ds hrun hv ho hpc hlife hacq hdead hreg hirq hbh htx hw hwirq hwbh hdev hctrl hims hrdh htdh hplace hapart hds
    hgrant halloc₀ halloc₁ halloc₂ halloc₃
  have hg : Answers s.cfg g := ⟨fun k => (hplace k).1, fun k => (hplace k).2, hapart⟩
  obtain ⟨link, ds, rfl, hlink, hds⟩ := exists_append_of_length (m := 3) (n := 20) hds
  obtain ⟨allocs, ds, rfl, hallocs, hds⟩ := exists_append_of_length (m := 4) (n := 16) hds
  obtain ⟨images, ds, rfl, himages, hds⟩ := exists_append_of_length (m := 3) (n := 13) hds
  obtain ⟨program, start, rfl, hprogram, hstart⟩ := exists_append_of_length (m := 8) (n := 5) hds
  have hanswers : allocs.map Draws.alloc = allRegions.map fun k => some (g k) := by
    match allocs, hallocs with
    | [d₀, d₁, d₂, d₃], _ =>
    have hrxdesc : d₀.alloc = some (g .rxdesc) := Option.some.inj ((getElem?_map_append hlink 0).symm.trans halloc₀)
    have hrxbuf : d₁.alloc = some (g .rxbuf) := Option.some.inj ((getElem?_map_append hlink 1).symm.trans halloc₁)
    have htxdesc : d₂.alloc = some (g .txdesc) := Option.some.inj ((getElem?_map_append hlink 2).symm.trans halloc₂)
    have htxbuf : d₃.alloc = some (g .txbuf) := Option.some.inj ((getElem?_map_append hlink 3).symm.trans halloc₃)
    simp only [allRegions, List.map_cons, List.map_nil, hrxdesc, hrxbuf, htxdesc, htxbuf]
  have hb : s.dev.resetBusy = false := by rw [hdev]
  have hm : Resource.map ∈ s.acquired := by rw [hacq]; decide
  obtain ⟨t, ht, hlast, hlive, ⟨m, hmem⟩, he⟩ := hostSteps_attach hrun hv ho hpc hm hdead hw hb hg hlink hanswers himages
    hprogram hstart fun d hd => hgrant d (by simp [hd])
  have hg' : Answers t.cfg g := by rw [he]; exact hg
  have hv' : t.cfg.valid = true := by rw [he]; exact hv
  obtain ⟨hrxpos, htxpos⟩ := Config.ring_pos hv'
  have hspace {k : RegionKind} (hk : 0 < regionSize t.cfg k) : (t.regions.get k).dma < 2 ^ 64 := by
    rw [hlive k]
    exact Nat.lt_of_lt_of_le (Nat.lt_add_of_pos_right hk) (hg'.fits k)
  obtain ⟨⟨-, hrxle⟩, ⟨-, htxle⟩, -⟩ := Config.bounds_of_valid hv
  refine ⟨t, ht, ⟨by rw [he], by rw [he, hacq]; rfl, by rw [he], ?idle, fun k => by rw [hlive k], fun i hi j hj => ?rxdesc,
    fun i hi j hj => ?txdesc, ?programmed⟩, hlast, fun k => by rw [hlive k]; exact ⟨rfl, rfl⟩, ?kept⟩
  case idle =>
    rw [he]
    exact ⟨rfl, hirq, hbh, fun c hc => (htx c hc).1, hw, hwirq, hwbh, fun c hc => (htx c hc).2⟩
  case rxdesc => rw [hmem, t.get_imageRx hg' hlive hi hj]
  case txdesc => rw [hmem, t.get_imageTx hlive hi hj]
  case programmed =>
    rw [he]
    refine ⟨ringBase_toWord (hspace hrxpos), toWord_ringLen hrxle, hrdh, toWord_last hrxle, ringBase_toWord (hspace htxpos),
      toWord_ringLen htxle, htdh, rfl, ?ims, ?rst, ?asde, ?slu, rfl, rfl, rfl, rfl, ?dev⟩
    case ims => simp [hims]
    case rst => exact (hasRst_linkUp _).trans ((hasRst_ctrlSeen _ _).trans hb)
    case asde => simp [ctrlLinkUp]
    case slu => simp [ctrlLinkUp]
    case dev => simp [hdev]
  case kept =>
    rw [he]
    exact ⟨rfl, rfl, rfl, rfl, rfl⟩

/-- Settles O50: the calm block is brought to D_REL, which releases the mapping and the four regions. -/
theorem detachReachesColdState : Obligations.DetachReachesColdState := by
  intro s ds hrun hinv hlife hpc hidle hco hlock hbusy hds
  obtain ⟨-, hirq, hbh, htx, hw, hwirq, hwbh, hwtx⟩ := hidle
  obtain ⟨-, n, hn, hheld⟩ := State.resourceInv_iff.1 hinv.1
  obtain rfl : n = 6 := by simpa [hpc, hlife, HostPc.holds] using hn
  have hm : Resource.map ∈ s.acquired := by rw [hheld.acquired]; decide
  obtain ⟨quiesce, rest, rfl, hquiesce, hrest⟩ := exists_append_of_length (m := 8) (n := 6) hds
  obtain ⟨release, last, rfl, hrelease, hlast⟩ := exists_append_of_length (m := 5) (n := 1) hrest
  obtain ⟨d, rfl⟩ := List.length_eq_one_iff.1 hlast
  obtain ⟨u, hquiet, hu⟩ := hostSteps_quiesce hrun hpc (by rw [hlife]; decide) hm hw hirq hco hlock htx hquiesce
  have hfive : Holds u 5 := hheld.pop (x := .irq) rfl (by rw [hu, hheld.acquired]; rfl) (by rw [hu]; simp) (by rw [hu]; simp)
  obtain ⟨t, ht, hnone, hback⟩ := hostSteps_release (pc := .dRel) (last := .dDone) (by decide) (by decide)
    (by rw [hu]; exact hrun) (by rw [hu]) hfive hrelease
  have hend : hostMicro d t = .done _ := hostMicro_dDone hback.pc
  have hsteps := (hostSteps_append hquiet).trans ((hostSteps_append ht).trans
    (hostSteps_cons (ds := []) (by rw [hback, hu]; exact hrun) hend))
  obtain ⟨hdead, hunhooked⟩ := hnone.released
  refine ⟨_, hsteps, ?cold, ?frame⟩
  case cold =>
    have hmem : t.mem = [] := State.memOk.mem_eq_nil (hostSteps_memInv hinv hsteps).2 hdead
    refine ⟨rfl, hnone.acquired, ?idle, hdead, hmem, hunhooked, ?calm⟩ <;> rw [hback, hu]
    case idle => exact ⟨rfl, hirq, hbh, htx, hw, hwirq, hwbh, hwtx⟩
    case calm => exact ⟨rfl, hlock, hco, rfl, rfl, rfl, rfl, hbusy⟩
  case frame =>
    rw [hback, hu]
    exact ⟨rfl, rfl, rfl, rfl, rfl⟩

end Sys2Proof.Proofs
end

section
/-! The statements of 60_exceptions.md: what raising a fault does, and that the engine agents stay inside their registers and regions. -/

namespace Sys2Proof.Machine

variable {s t : State} {x : Agent} {m : Micro} {f : BlockFault}

/-! ### Who raises a fault (R341, R342) -/

/-- Agent `x` stands before a micro-step that raises `f`: the counterpart of `Completes`. -/
inductive Raises (s : State) : Agent → BlockFault → Prop where
  | irq {f : BlockFault} (h : irqMicro s = .raise f) : Raises s .irq f
  | sched {f : BlockFault} (h : bhSchedHost s = .raise f) : Raises s .host f
  | bh {f : BlockFault} (d : Draws) (c : Nat) (h : bhMicro d { s with drawCount := c } = .raise f) : Raises s .bh f
  | tx {f : BlockFault} (k : Nat) (h : txMicro k s = .raise f) : Raises s (.txc k) f
  | regRd {f : BlockFault} (off : Nat) (h : regRdHost off s = .raise f) : Raises s .host f
  | regWr {f : BlockFault} (off : Nat) (v : Word) (h : regWrHost off v s = .raise f) : Raises s .host f
  | land {f : BlockFault} (x : Agent) (pos : Nat) (h : land x pos s = .raise f) : Raises s .memsys f
  | host {f : BlockFault} (d : Draws) (h : hostMicro d s = .raise f) : Raises s .host f
  | rxWb {f : BlockFault} (d : WbDraws) (h : devRxWb d s = .raise f) : Raises s .dev f
  | xmit {f : BlockFault} (h : devTxXmit s = .raise f) : Raises s .dev f

/-- Micro-step `m` is one that agent `x` may be given in `s`: where it completes it records no fault, and where it raises one that is among
the faults of `x`. -/
structure Offers (s : State) (x : Agent) (m : Micro) : Prop where
  completes : ∀ t, m = .done t → Records s t
  raises : ∀ f, m = .raise f → Raises s x f

theorem Offers.hold (s : State) (x : Agent) : Offers s x .hold := ⟨by simp, by simp⟩

theorem Offers.done (x : Agent) (h : Records s t) : Offers s x (.done t) := ⟨fun _ e => Micro.done.inj e ▸ h, by simp⟩

theorem Offers.ite {c : Prop} [Decidable c] {m' : Micro} (h : Offers s x m) (h' : Offers s x m') :
    Offers s x (if c then m else m') := by
  split <;> assumption

/-- A micro-step is offered when its completions and its faults are listed. -/
theorem Offers.of_completes (hc : ∀ t, m = .done t → Completes s x t) (hr : ∀ f, m = .raise f → Raises s x f) : Offers s x m :=
  ⟨fun t h => (hc t h).records, hr⟩

theorem Offers.irq (s : State) : Offers s .irq (irqMicro s) := .of_completes (fun _ h => .irq h) fun _ h => .irq h

theorem Offers.bh (d : Draws) (c : Nat) : Offers s .bh (bhMicro d { s with drawCount := c }) :=
  .of_completes (fun _ h => .bh d c h) fun _ h => .bh d c h

theorem Offers.tx (k : Nat) : Offers s (.txc k) (txMicro k s) := .of_completes (fun _ h => .tx k h) fun _ h => .tx k h

theorem Offers.host (d : Draws) : Offers s .host (hostMicro d s) := .of_completes (fun _ h => .host d h) fun _ h => .host d h

/-- The micro-step a record word lets an agent take is one of that agent's (R114). -/
theorem Offers.recorded (s : State) (x : Agent) : Offers s x (recorded x s) := by
  cases x with
  | irq => exact .irq s
  | bh => exact .bh s.recordDraws s.drawCount
  | txc k => exact .tx k
  | host | dev | memsys => exact .hold s _

theorem wmbHost_ne_raise (s : State) (f : BlockFault) : wmbHost s ≠ .raise f := by
  unfold wmbHost barrier
  split
  · simp
  · split <;> simp

/-- Every operation gives its agent one micro-step (R2, R114). -/
theorem exec_offers (i : Instr) (s : State) : ∃ m, exec i s = take (Instr.actor i) s m ∧ Offers s (Instr.actor i) m := by
  cases i with
  | irqTop => exact ⟨_, rfl, .ite (.done _ ⟨rfl, rfl, rfl, rfl, .refl _⟩) (.hold s _)⟩
  | bhSched x =>
    cases x with
    | host => exact ⟨_, rfl, .of_completes (fun _ h => .sched h) fun _ h => .sched h⟩
    | irq =>
      refine ⟨_, rfl, ?_⟩
      split
      · rename_i he
        simp only [State.irqAsksRun, Bool.and_eq_true, beq_iff_eq] at he
        exact irqMicro_sched he.1 ▸ .irq s
      · exact .hold s _
    | bh | dev | memsys | txc => exact ⟨.hold, (take_hold _ s).symm, .hold s _⟩
  | bhRun => exact ⟨_, rfl, .ite (.done _ ⟨rfl, rfl, rfl, rfl, .refl _⟩) (.hold s _)⟩
  | rxRun =>
    refine ⟨_, rfl, ?_⟩
    split
    · exact .bh s.recordDraws (s.drawCount + 1)
    · exact .bh s.recordDraws s.drawCount
  | txSubmit k len frame =>
    refine ⟨_, rfl, fun _ h => (txIssue_quiet h).records, fun f h => ?_⟩
    unfold txIssue at h
    split at h
    · cases h
    · split at h <;> cases h
  | regRd x off =>
    by_cases hx : x = .host
    · subst hx
      exact ⟨_, rfl, .of_completes (fun _ h => .regRd _ h) fun _ h => .regRd _ h⟩
    · exact ⟨_, execRegRd_record off s hx, .ite (.recorded s x) (.hold s x)⟩
  | regWr x off v =>
    by_cases hx : x = .host
    · subst hx
      exact ⟨_, rfl, .of_completes (fun _ h => .regWr _ v h) fun _ h => .regWr _ v h⟩
    · exact ⟨_, execRegWr_record off v s hx, .ite (.recorded s x) (.hold s x)⟩
  | wmb x =>
    by_cases hx : x = .host
    · subst hx
      exact ⟨_, rfl, .of_completes (fun _ h => .wmb h) fun f h => absurd h (wmbHost_ne_raise s f)⟩
    · exact ⟨_, execWmb_record s hx, .ite (.recorded s x) (.hold s x)⟩
  | memDrain x pos => exact ⟨_, rfl, .of_completes (fun _ h => .land x _ h) fun _ h => .land x _ h⟩
  | devRxClaim =>
    refine ⟨_, rfl, .of_completes (fun _ h => .rxClaim h) fun f h => ?_⟩
    unfold devRxClaim at h
    split at h
    · cases h
    · split at h <;> cases h
  | devRxWb d => exact ⟨_, rfl, .of_completes (fun _ h => .rxWb d h) fun _ h => .rxWb d h⟩
  | devTxXmit => exact ⟨_, rfl, .of_completes (fun _ h => .xmit h) fun _ h => .xmit h⟩
  | devCause c => exact ⟨_, rfl, .ite (.hold s _) (.done _ ⟨rfl, rfl, rfl, rfl, .refl _⟩)⟩
  | devRstDone d =>
    refine ⟨_, rfl, .of_completes (fun _ h => .rstDone d h) fun f h => ?_⟩
    unfold devRstDone at h
    split at h <;> cases h
  | devWireIn len frame => exact ⟨.done _, rfl, .done _ ⟨rfl, rfl, rfl, rfl, .event _ (by simp)⟩⟩
  | devRxDrop => exact ⟨_, rfl, .ite (.done _ ⟨rfl, rfl, rfl, rfl, .refl _⟩) (.hold s _)⟩
  | attach | detach => exact ⟨_, rfl, .ite (.done _ ⟨rfl, rfl, rfl, rfl, .event _ (by simp)⟩) (.hold s _)⟩

/-- A turn gives its agent one micro-step; DEV and MEMSYS have none of their own (R1, R29). -/
theorem runMicro_offers (x : Agent) (d : Draws) (s : State) : ∃ m, runMicro x d s = take x s m ∧ Offers s x m := by
  cases x with
  | host => exact ⟨_, rfl, .host d⟩
  | irq => exact ⟨_, rfl, .irq s⟩
  | bh => exact ⟨_, rfl, .bh d s.drawCount⟩
  | txc k => exact ⟨_, rfl, .tx k⟩
  | dev | memsys => exact ⟨.hold, (take_hold _ s).symm, .hold s _⟩

theorem State.moves.offers (h : s.moves x t) : ∃ m, take x s m = .next t ∧ Offers s x m := by
  obtain ⟨i, rfl, hi⟩ | ⟨d, hd⟩ := h
  · obtain ⟨m, hm, ho⟩ := exec_offers i s
    exact ⟨m, hm ▸ hi, ho⟩
  · obtain ⟨m, hm, ho⟩ := runMicro_offers x d s
    exact ⟨m, hm ▸ hd, ho⟩

/-- A step of an agent records no fault, or is one fault of that agent and nothing else. -/
theorem State.moves.records_or_raises (h : s.moves x t) : Records s t ∨ ∃ f, Raises s x f ∧ t = s.raiseFault x f := by
  obtain ⟨m, hm, ho⟩ := h.offers
  obtain rfl | ⟨-, hd⟩ | ⟨-, f, hf, rfl⟩ := take_next hm
  · exact .inl ⟨rfl, rfl, rfl, rfl, .refl _⟩
  · exact .inl (ho.completes t hd)
  · exact .inr ⟨f, ho.raises f hf, rfl⟩

/-- A stopped agent has no further step (R342). -/
theorem State.moves.of_stopped (h : s.moves x t) (hx : x ∈ s.stopped) : t = s.passTurn := by
  obtain ⟨m, hm, -⟩ := h.offers
  rw [take_stopped m hx] at hm
  exact (Host.Outcome.next.inj hm).symm

theorem Appends.ne_fault {es fs : List Event} (h : Appends es fs) (c : FaultCode) (x : Agent) (f : BlockFault) :
    fs ≠ es ++ [.fault c x f] := by
  obtain ⟨new, rfl, hno⟩ := h
  intro e
  obtain rfl := List.append_cancel_left e
  exact hno c x f (List.mem_singleton.2 rfl)

/-- The event of a fault says what was raised, and by whom (R343). -/
theorem State.raiseFault_event {c : FaultCode} {y : Agent} {g : BlockFault}
    (h : (s.raiseFault x f).history = s.history ++ [.fault c y g]) : c = f.code ∧ y = x ∧ g = f := by
  obtain ⟨hc, hy, hg⟩ := Event.fault.inj (List.singleton_inj.1 (List.append_cancel_left h))
  exact ⟨hc.symm, hy.symm, hg.symm⟩

/-! ### Regions and the accesses that lie in them (R47, R62, R77) -/

theorem mem_allRegions (k : RegionKind) : k ∈ allRegions := by cases k <;> decide

/-- An access is inside a live region. -/
theorem State.localRegion_ne_none_iff {a n : Nat} : s.localRegion a n ≠ none ↔
    ∃ k, (s.regions.get k).live = true ∧ (s.regions.get k).loc ≤ a ∧ a + n ≤ (s.regions.get k).loc + regionSize s.cfg k := by
  simp [State.localRegion, List.find?_eq_none, mem_allRegions, and_assoc]

theorem State.localRegion_congr (hreg : t.regions = s.regions) (hcfg : t.cfg = s.cfg) (a n : Nat) :
    t.localRegion a n = s.localRegion a n := by
  simp only [State.localRegion, hreg, hcfg]

theorem disjointRanges_comm (a n b m : Nat) : disjointRanges a n b m = disjointRanges b m a n := by
  simp only [disjointRanges, Bool.or_comm]

/-- The answers R47 allows. -/
theorem State.freshRegion_iff {k : RegionKind} {loc dma : Nat} : s.freshRegion k loc dma = true ↔
    (dma % s.cfg.dmaAlign = 0 ∧ dma + regionSize s.cfg k ≤ 2 ^ 64) ∧ ∀ j, (s.regions.get j).live = true →
      disjointRanges dma (regionSize s.cfg k) (s.regions.get j).dma (regionSize s.cfg j) = true
        ∧ disjointRanges loc (regionSize s.cfg k) (s.regions.get j).loc (regionSize s.cfg j) = true := by
  simp [State.freshRegion, mem_allRegions, Bool.or_eq_true, Decidable.imp_iff_not_or]

/-- Where every live region is one that was live before, at the same bases, the regions stay apart. -/
theorem State.regionInv.shrink (hs : s.regionInv) (hcfg : t.cfg = s.cfg)
    (h : ∀ k, (t.regions.get k).live = true → t.regions.get k = s.regions.get k) : t.regionInv := by
  obtain ⟨hplaced, hapart⟩ := hs
  have was {k : RegionKind} (hk : (t.regions.get k).live = true) : (s.regions.get k).live = true := h k hk ▸ hk
  refine ⟨fun k hk => ?_, fun k j hne hk hj => ?_⟩
  · rw [h k hk, hcfg]
    exact hplaced k (was hk)
  · rw [h k hk, h j hj, hcfg]
    exact hapart k j hne (was hk) (was hj)

theorem State.regionInv.congr (hs : s.regionInv) (hreg : t.regions = s.regions) (hcfg : t.cfg = s.cfg) : t.regionInv :=
  hs.shrink hcfg fun k _ => by rw [hreg]

/-- An answer that R47 allows is placed and apart from every live region. -/
theorem State.regionInv.allocate {k : RegionKind} {loc dma : Nat} (hs : s.regionInv) (hfresh : s.freshRegion k loc dma = true) :
    (s.allocate k loc dma).regionInv := by
  obtain ⟨hplaced, hapart⟩ := hs
  obtain ⟨hnew, hclear⟩ := State.freshRegion_iff.1 hfresh
  have hget (j : RegionKind) : (s.allocate k loc dma).regions.get j = if j = k then ⟨true, loc, dma⟩ else s.regions.get j := by
    simp
  refine ⟨fun j hj => ?_, fun i j hne hi hj => ?_⟩
  · rw [hget] at hj ⊢
    split at hj
    case isTrue hjk => subst hjk; simpa using hnew
    case isFalse hjk => simpa [hjk] using hplaced j hj
  · rw [hget] at hi hj
    rw [hget, hget, State.allocate_cfg]
    by_cases hik : i = k
    · subst hik
      have hji : j ≠ i := Ne.symm hne
      rw [if_neg hji] at hj
      rw [if_pos rfl, if_neg hji]
      exact hclear j hj
    · rw [if_neg hik] at hi
      rw [if_neg hik]
      by_cases hjk : j = k
      · subst hjk
        rw [if_pos rfl, disjointRanges_comm, disjointRanges_comm _ _ loc]
        exact hclear i hi
      · rw [if_neg hjk] at hj
        rw [if_neg hjk]
        exact hapart i j hne hi hj

/-- A region that is live after a release is as it was. -/
theorem State.release_get (s : State) (r : Resource) (k : RegionKind) (hk : ((s.release r).regions.get k).live = true) :
    (s.release r).regions.get k = s.regions.get k := by
  cases r with
  | region j =>
    have hkj : k ≠ j := by
      rintro rfl
      simp [State.release] at hk
    simp [State.release, hkj]
  | map | irq => rfl

theorem State.releaseLast_get (s : State) (k : RegionKind) (hk : (s.releaseLast.regions.get k).live = true) :
    s.releaseLast.regions.get k = s.regions.get k := by
  cases h : s.acquired.getLast? with
  | none => simp only [State.releaseLast, h]
  | some r =>
    simp only [State.releaseLast, h] at hk ⊢
    exact s.release_get r k hk

theorem HostStep.regionInv (hs : s.regionInv) (h : HostStep s t) : t.regionInv := by
  cases h with
  | advance pcs routine drained => exact hs.congr routine.holdings.regions routine.holdings.cfg
  | fail hp next routine => exact hs.congr routine.holdings.regions routine.holdings.cfg
  | image pcs hw => exact hs.congr (memWrite_sameHoldings hw).1.regions (memWrite_sameHoldings hw).1.cfg
  | alloc pcs fresh => exact (hs.allocate fresh).congr rfl rfl
  | release hp pcs => exact hs.shrink (by rw [releaseLast_frame s]; rfl) s.releaseLast_get
  | aCheck | aMap | aIrq | aEnable | aDone | aFailed | dCheck | dQuiesce | dIrqrel | dDone => exact hs.congr rfl rfl

theorem Completes.regionInv {x : Agent} (hs : s.regionInv) (h : Completes s x t) : t.regionInv := by
  by_cases hx : x = .host
  · subst hx
    exact h.hostStep.regionInv hs
  · obtain ⟨hsame, -⟩ := h.sameHoldings hx
    exact hs.congr hsame.regions hsame.cfg

/-! ### Posted writes stay inside live regions (R36, R62, R322) -/

/-- Every posted write lies in a live region. -/
def State.postedLive (s : State) : Prop := ∀ x, ∀ e ∈ s.posted x, s.localRegion e.addr e.bytes.length ≠ none

/-- The posted writes stay live when every new one is, and no access to a live region becomes one to a dead region. -/
theorem State.postedLive.keep (hs : s.postedLive) (hreg : ∀ a n, s.localRegion a n ≠ none → t.localRegion a n ≠ none)
    (hposted : ∀ x, ∀ e ∈ t.posted x, e ∈ s.posted x ∨ s.localRegion e.addr e.bytes.length ≠ none) : t.postedLive :=
  fun x e he => hreg _ _ ((hposted x e he).elim (hs x e) id)

theorem State.postedLive.still (hs : s.postedLive) (hreg : t.regions = s.regions) (hcfg : t.cfg = s.cfg)
    (hposted : ∀ x, t.posted x = s.posted x) : t.postedLive :=
  hs.keep (fun a n h => State.localRegion_congr hreg hcfg a n ▸ h) fun x _ he => .inl (hposted x ▸ he)

theorem State.mem_setPosted_posted {x y : Agent} {w : List Posted} {e : Posted} (he : e ∈ (s.setPosted x w).posted y) :
    e ∈ s.posted y ∨ (y = x ∧ e ∈ w) := by
  by_cases hyx : y = x
  · subst hyx
    cases y with
    | txc k =>
      cases hc : s.txc[k]? with
      | none => simp [State.setPosted, State.modTx, State.posted, hc] at he
      | some c => exact .inr ⟨rfl, by simpa [State.setPosted, State.modTx, State.posted, hc] using he⟩
    | dev | memsys => cases he
    | host | irq | bh => exact .inr ⟨rfl, he⟩
  · exact .inl (State.setPosted_posted_of_ne w hyx ▸ he)

/-- A write by an engine agent posts at most its own access, which passed the check of R62. -/
theorem memWrite_posted_mem {x y : Agent} {a : Nat} {bs : List Byte} {e : Posted} (h : memWrite x a bs s = .ok t)
    (he : e ∈ t.posted y) : e ∈ s.posted y ∨ s.localRegion e.addr e.bytes.length ≠ none := by
  obtain ⟨k, hk, ⟨hsc, -⟩ | ⟨-, rfl⟩⟩ := memWrite_ok h
  · exact .inl (memWrite_posted_of_sc h hsc y ▸ he)
  · rw [(Quiet.emit _ (by simp)).posted] at he
    obtain he | ⟨rfl, he⟩ := State.mem_setPosted_posted he
    · exact .inl he
    · refine (List.mem_append.1 he).imp_right fun he => ?_
      obtain rfl := List.mem_singleton.1 he
      simp [hk]

theorem memWrite_postedLive {x : Agent} {a : Nat} {bs : List Byte} (hs : s.postedLive) (h : memWrite x a bs s = .ok t) :
    t.postedLive := by
  have hsame := (memWrite_sameHoldings h).1
  exact hs.keep (fun a n h => State.localRegion_congr hsame.regions hsame.cfg a n ▸ h) fun _ _ he => memWrite_posted_mem h he

/-- A landing takes one entry off a list. -/
theorem land_posted_mem {x y : Agent} {pos : Nat} {e : Posted} (h : land x pos s = .done t) (he : e ∈ t.posted y) :
    e ∈ s.posted y := by
  obtain ⟨e', k, -, -, -, rfl⟩ := land_done h
  rw [(Quiet.emit _ (by simp)).posted] at he
  obtain he | ⟨rfl, he⟩ := State.mem_setPosted_posted he
  · cases y <;> exact he
  · exact List.mem_of_mem_eraseIdx he

theorem MemoryStep.postedLive (hs : s.postedLive) (hsame : SameHoldings s t) (h : MemoryStep s t) : t.postedLive := by
  have hreg (a n : Nat) (h : s.localRegion a n ≠ none) : t.localRegion a n ≠ none :=
    State.localRegion_congr hsame.regions hsame.cfg a n ▸ h
  cases h with
  | quiet h => exact hs.still hsame.regions hsame.cfg h.posted
  | @write _ _ _ n u _ hw after =>
    have hs' : { s with drawCount := n }.postedLive := hs.still rfl rfl (Quiet.setDraws n).posted
    have hsame' := (memWrite_sameHoldings hw).1
    exact (memWrite_postedLive hs' hw).still (hsame.regions.trans hsame'.regions.symm) (hsame.cfg.trans hsame'.cfg.symm)
      after.posted
  | land h => exact hs.keep hreg fun y e he => .inl (land_posted_mem h he)
  | rxWb h =>
    refine hs.keep hreg fun y e he => .inl ?_
    rw [devRxWb_frame h] at he
    cases y <;> exact he
  | xmit h =>
    refine hs.keep hreg fun y e he => .inl ?_
    rw [devTxXmit_frame h] at he
    cases y <;> exact he

/-- The region that ATTACH asks for next is not live yet (R310). -/
theorem State.resourceInv.not_live_of_alloc {k : RegionKind} {pc : HostPc} (hs : s.resourceInv)
    (pcs : (s.host.pc, k, pc) ∈ hostAllocs) : (s.regions.get k).live ≠ true := by
  obtain ⟨-, n, hn, hh⟩ := State.resourceInv_iff.1 hs
  obtain ⟨hx, -⟩ := hostAllocs_holds _ _ pcs n hn
  exact fun hk => ((mem_take_iff_of_succ hx).1 ((hh.live k).1 hk)).2 rfl

/-- An access to a live region is one after an allocation of another region. -/
theorem State.allocate_localRegion {k : RegionKind} (loc dma : Nat) (hk : (s.regions.get k).live ≠ true) {a n : Nat}
    (h : s.localRegion a n ≠ none) : (s.allocate k loc dma).localRegion a n ≠ none := by
  obtain ⟨j, hj, hin⟩ := State.localRegion_ne_none_iff.1 h
  have hjk : j ≠ k := fun e => hk (e ▸ hj)
  exact State.localRegion_ne_none_iff.2 ⟨j, by simpa [hjk] using ⟨hj, hin⟩⟩

/-- BH is idle where nothing runs (R236, R322). -/
theorem State.coordInv.bh_idle (hs : s.coordInv) (hb : s.beforeIrq) : s.bh.pc = .idle := by
  obtain ⟨-, hrun, -, hrest⟩ := State.coordInv_iff.1 hs
  simpa [hrest hb] using hrun

/-- Where HOST releases, no agent has a write posted: BH and the callers are past their barriers, and HOST posts only with every region
taken (R313, R322). -/
theorem State.posted_eq_nil_of_release {pc last : HostPc} (hco : s.coordInv) (htx : s.txInv) (hpo : s.postedInv)
    (hp : s.host.pc = pc) (pcs : (pc, last) ∈ hostReleases) (x : Agent) : s.posted x = [] := by
  refine (State.postedInv_iff.1 hpo).1 x ?_
  cases x with
  | host => exact State.not_mayPost_host hp (hostReleases_not_mayPost _ pcs)
  | bh =>
    have hidle := hco.bh_idle (.inr (hp ▸ hostReleases_beforeIrq _ pcs))
    exact fun hm => absurd (hidle.symm.trans hm) (by decide)
  | txc k =>
    obtain ⟨-, -, hquiet⟩ := State.txInv_iff.1 htx
    rintro ⟨c, hc, hu⟩
    obtain e | e := (hquiet (.inr (hp ▸ hostReleases_noTransmit _ pcs))).2 k c.pc (State.callerPc_of_caller hc) <;>
      exact absurd (e ▸ hu) (by decide)
  | irq | dev | memsys => exact id

theorem HostStep.postedLive (hs : s.engineInv) (h : HostStep s t) : t.postedLive := by
  obtain ⟨hco, htx, hmem, -, -, -, hpo, hlive⟩ := hs
  have hlive : s.postedLive := hlive
  cases h with
  | advance pcs routine drained => exact hlive.still routine.holdings.regions routine.holdings.cfg routine.quiet.posted
  | fail hp next routine => exact hlive.still routine.holdings.regions routine.holdings.cfg routine.quiet.posted
  | image pcs hw => exact (memWrite_postedLive hlive hw).still rfl rfl fun x => by cases x <;> rfl
  | @alloc k loc dma pc pcs fresh =>
    have hk := hmem.1.not_live_of_alloc pcs
    exact hlive.keep (fun a n h => State.allocate_localRegion loc dma hk h) fun x e he => .inl (by cases x <;> exact he)
  | release hp pcs =>
    intro x e he
    have hnil := State.posted_eq_nil_of_release hco htx hpo hp pcs x
    rw [releaseLast_frame s] at he
    have he' : e ∈ s.posted x := by cases x <;> exact he
    simp [hnil] at he'
  | aCheck | aMap | aIrq | aEnable | aDone | aFailed | dCheck | dQuiesce | dIrqrel | dDone =>
    exact hlive.still rfl rfl fun x => by cases x <;> rfl

theorem Completes.postedLive {x : Agent} (hs : s.engineInv) (h : Completes s x t) : t.postedLive := by
  by_cases hx : x = .host
  · subst hx
    exact h.hostStep.postedLive hs
  · obtain ⟨-, -, -, -, -, -, -, hlive⟩ := hs
    exact (h.memoryStep hx).postedLive hlive (h.sameHoldings hx).1

theorem Completes.engineInv {x : Agent} (hv : s.cfg.valid = true) (hs : s.engineInv) (h : Completes s x t) : t.engineInv := by
  have hlive := h.postedLive hs
  obtain ⟨hco, htx, hmem, hreg, hidx, hlen, hpo, -⟩ := hs
  exact ⟨h.coordInv hco, h.txInv htx, h.memInv hmem, h.regionInv hreg, h.indexInv hv hidx, h.lengthInv hv hlen,
    h.postedInv hpo, hlive⟩

/-! ### Micro-steps that raise no fault of an access (R344) -/

/-- The faults of an access to a register or to coherent memory by an engine agent (R344). -/
def accessCodes : List FaultCode := [.memBad, .indexRange, .regUnmapped, .regBad, .headWrite, .regValue]

/-- The faults that a stand-alone word of HOST may raise (R251, R256). -/
def wordCodes : List FaultCode := [.regUnmapped, .regBad, .headWrite, .regValue]

/-- A micro-step that raises no fault of an access. -/
def Micro.Safe (m : Micro) : Prop := ∀ f, m = .raise f → f.code ∉ accessCodes

theorem Micro.safe_done (t : State) : (Micro.done t).Safe := by simp [Micro.Safe]

theorem Micro.safe_hold : Micro.hold.Safe := by simp [Micro.Safe]

theorem Micro.safe_stuck (f : Fault) : (Micro.stuck f).Safe := by simp [Micro.Safe]

theorem Micro.safe_raise (h : f.code ∉ accessCodes) : (Micro.raise f).Safe := fun g hg => by
  obtain rfl := Micro.raise.inj hg
  exact h

theorem Micro.Safe.andThen {g : State → State} (h : m.Safe) : (m.andThen g).Safe := by
  cases m with
  | raise f => exact h
  | done t => exact Micro.safe_done _
  | hold => exact Micro.safe_hold
  | stuck f => exact Micro.safe_stuck f

theorem barrier_safe (x : Agent) (go : State → State) : (barrier x s go).Safe := by
  unfold barrier
  split
  · exact Micro.safe_done _
  · exact Micro.safe_hold

/-- A write of a register with a value it takes, while MAP is held (R250, R257 to R260). -/
theorem regWrite_safe {r : RegName} {v : Word} (hm : Resource.map ∈ s.acquired) (ha : r.accepts s.cfg v) :
    (regWrite x r.offset v s).Safe := by
  by_cases hh : s.mmioHolds x = true
  · rw [regWrite_of_mmioHolds hh]
    exact Micro.safe_hold
  · rw [regWrite_accepted hh hm ha]
    exact Micro.safe_done _

/-- A write inside a live region (R62, R66). -/
theorem memWrite_safe {a : Nat} {bs : List Byte} (h : s.localRegion a bs.length ≠ none) :
    (Micro.ofExcept (memWrite x a bs s)).Safe := by
  cases hw : memWrite x a bs s with
  | ok t => exact Micro.safe_done t
  | error f => exact absurd (memWrite_error hw).1 h

/-- A read inside a live region (R62, R67). -/
theorem memRead_of_localRegion {a n : Nat} (h : s.localRegion a n ≠ none) : ∃ bs t, memRead x a n s = .ok (bs, t) := by
  obtain ⟨k, hk⟩ := Option.ne_none_iff_exists'.1 h
  obtain ⟨bs, c, -, -, -, hr⟩ := memRead_of_live (x := x) hk
  exact ⟨bs, _, hr⟩

/-! ### While MAP is held and every region is live -/

/-- MAP is held and every region is live: what the steps of BH, of IRQ and of a transmit call rest on (R322, R344). -/
structure State.Equipped (s : State) : Prop where
  map : Resource.map ∈ s.acquired
  live : ∀ k, (s.regions.get k).live = true

theorem Holds.equipped {n : Nat} (h : Holds s n) (hn : 5 ≤ n) : s.Equipped := by
  have hsub : fullAcquired.take 5 ⊆ fullAcquired.take n := (List.take_prefix_take_left hn).subset
  exact ⟨h.acquired ▸ hsub (by decide), fun k => (h.live k).2 (hsub (by cases k <;> decide))⟩

theorem Holds.map_mem {n : Nat} (h : Holds s n) (hn : 1 ≤ n) : Resource.map ∈ s.acquired := by
  have hsub : fullAcquired.take 1 ⊆ fullAcquired.take n := (List.take_prefix_take_left hn).subset
  exact h.acquired ▸ hsub (by decide)

/-- Outside ATTACH's beginning and end and DETACH's end everything but the handler is acquired (R310, R320). -/
theorem HostPc.holds_of_not_beforeIrq {pc : HostPc} {l : Life} (hl : l ≠ .detached) (hpc : ¬ pc.beforeIrq) :
    ∀ n ∈ pc.holds l, 5 ≤ n := by
  revert hl hpc
  cases pc <;> cases l <;> decide

theorem HostPc.holds_of_not_noTransmit {pc : HostPc} {l : Life} (hl : l ≠ .detached) (hpc : ¬ pc.noTransmit) :
    ∀ n ∈ pc.holds l, 5 ≤ n := by
  revert hl hpc
  cases pc <;> cases l <;> decide

/-- Where IRQ or BH may run, the registers are mapped and the regions live (R236, R322). -/
theorem State.resourceInv.equipped_of_not_beforeIrq (hs : s.resourceInv) (h : ¬ s.beforeIrq) : s.Equipped := by
  obtain ⟨-, n, hn, hh⟩ := State.resourceInv_iff.1 hs
  obtain ⟨hl, hpc⟩ := not_or.1 h
  exact hh.equipped (HostPc.holds_of_not_beforeIrq hl hpc n hn)

/-- Where a transmit call may get past TX_LENCHK, they are as well (R220, R322). -/
theorem State.resourceInv.equipped_of_not_noTransmit (hs : s.resourceInv) (h : ¬ s.noTransmit) : s.Equipped := by
  obtain ⟨-, n, hn, hh⟩ := State.resourceInv_iff.1 hs
  obtain ⟨hl, hpc⟩ := not_or.1 h
  exact hh.equipped (HostPc.holds_of_not_noTransmit hl hpc n hn)

/-- Part of slot `i` of a region of `n` slots of `w` bytes lies in the region. -/
theorem slot_le {n w i off len : Nat} (hi : i < n) (h : off + len ≤ w) : i * w + off + len ≤ n * w := calc
  i * w + off + len ≤ (i + 1) * w := by rw [Nat.succ_mul]; omega
  _ ≤ n * w := Nat.mul_le_mul_right w hi

section
variable (he : s.Equipped) {i off n : Nat}
include he

theorem State.Equipped.rxd (hi : i < s.cfg.nRx) (h : off + n ≤ descSize) : s.localRegion (s.rxdAddr i + off) n ≠ none := by
  have hin := slot_le hi h
  refine State.localRegion_ne_none_iff.2 ⟨.rxdesc, he.live _, ?_, ?_⟩ <;>
    simp only [Regions.get, State.rxdAddr, regionSize, Nat.mul_comm descSize i] <;> omega

theorem State.Equipped.txd (hi : i < s.cfg.nTx) (h : off + n ≤ descSize) : s.localRegion (s.txdAddr i + off) n ≠ none := by
  have hin := slot_le hi h
  refine State.localRegion_ne_none_iff.2 ⟨.txdesc, he.live _, ?_, ?_⟩ <;>
    simp only [Regions.get, State.txdAddr, regionSize, Nat.mul_comm descSize i] <;> omega

theorem State.Equipped.rxbuf (hi : i < s.cfg.nRx) (h : n ≤ s.cfg.rxBufSize) : s.localRegion (s.rxbufAddr i) n ≠ none := by
  have hin := slot_le (off := 0) hi (by omega : 0 + n ≤ s.cfg.rxBufSize)
  refine State.localRegion_ne_none_iff.2 ⟨.rxbuf, he.live _, ?_, ?_⟩ <;>
    simp only [Regions.get, State.rxbufAddr, regionSize] <;> omega

theorem State.Equipped.txbuf (hi : i < s.cfg.nTx) (h : n ≤ s.cfg.txBufSize) : s.localRegion (s.txbufAddr i) n ≠ none := by
  have hin := slot_le (off := 0) hi (by omega : 0 + n ≤ s.cfg.txBufSize)
  refine State.localRegion_ne_none_iff.2 ⟨.txbuf, he.live _, ?_, ?_⟩ <;>
    simp only [Regions.get, State.txbufAddr, regionSize] <;> omega

end

/-- A legal ring has fewer than 2^16 slots, so that its indices pass the check of R107. -/
theorem Config.ring_lt {c : Config} (hv : c.valid = true) : c.nRx < 2 ^ 16 ∧ c.nTx < 2 ^ 16 := by
  obtain ⟨⟨-, hrx⟩, ⟨-, htx⟩, -⟩ := Config.bounds_of_valid hv
  omega

theorem accepts_rdt {c : Config} {i : Nat} (hv : c.valid = true) (hi : i < c.nRx) : RegName.accepts c .rdt (toWord i) := by
  have hle := toWord_toNat_le i
  have hlt := (Config.ring_lt hv).1
  exact ⟨by omega, by omega⟩

theorem accepts_tdt {c : Config} {i : Nat} (hv : c.valid = true) (hi : i < c.nTx) : RegName.accepts c .tdt (toWord i) := by
  have hle := toWord_toNat_le i
  have hlt := (Config.ring_lt hv).2
  exact ⟨by omega, by omega⟩

/-! ### IRQ and BH (R162 to R173, R231, R235) -/

/-- IRQ reads ICR only while the registers are mapped. -/
theorem irqMicro_safe (h : s.irq.pc ≠ .idle → s.Equipped) : (irqMicro s).Safe := by
  cases hp : s.irq.pc with
  | idle =>
    simp only [irqMicro, hp]
    exact Micro.safe_hold
  | read =>
    rw [irqMicro_read hp, irqRead_mapped (h (by simp [hp])).map]
    exact Micro.safe_done _
  | sched =>
    rw [irqMicro_sched hp]
    exact Micro.safe_done _

theorem rxTest_safe (he : s.Equipped) (hn : 0 < s.cfg.nRx) : (rxTest s).Safe := by
  by_cases hh : nextIdx s.cfg.nRx s.bh.tail = s.bh.h
  · rw [rxTest_at_head hh]
    exact Micro.safe_done _
  · obtain ⟨bs, u, hr⟩ := memRead_of_localRegion (x := .bh) (he.rxd (off := 12) (n := 1) (nextIdx_lt hn s.bh.tail) (by decide))
    simp only [rxTest, beq_iff_eq, if_neg hh, hr]
    exact Micro.safe_done _

theorem rxAlloc_safe (d : Draws) : (rxAlloc d s).Safe := by
  unfold rxAlloc
  split
  · exact Micro.safe_done _
  · dsimp only
    split <;> exact Micro.safe_done _

theorem rxDesc_safe (he : s.Equipped) (ht : s.bh.tail < s.cfg.nRx) : (rxDesc s).Safe := by
  obtain ⟨bs, u, hr⟩ := memRead_of_localRegion (x := .bh) (he.rxd (off := 8) (n := 6) ht (by decide))
  simp only [rxDesc, hr]
  split
  · exact Micro.safe_raise (by simp [BlockFault.code, accessCodes])
  · exact Micro.safe_done _

theorem rxCopy_safe (he : s.Equipped) (ht : s.bh.tail < s.cfg.nRx) (hl : s.bh.len.toNat ≤ s.cfg.rxBufSize) : (rxCopy s).Safe := by
  obtain ⟨bs, u, hr⟩ := memRead_of_localRegion (x := .bh) (he.rxbuf ht hl)
  unfold rxCopy
  split
  · exact Micro.safe_stuck _
  · split
    · exact Micro.safe_raise (by simp [BlockFault.code, accessCodes])
    · simp only [hr]
      split <;> exact Micro.safe_done _

theorem rxEop_safe (s : State) : (rxEop s).Safe := by
  unfold rxEop
  split
  · split
    · exact Micro.safe_stuck _
    · exact Micro.safe_done _
  · exact Micro.safe_done _

/-- BH's run accesses only registers it may and slots of its ring; what it may raise is a length beyond its bound (R166, R167). -/
theorem bhMicro_safe (d : Draws) (hv : s.cfg.valid = true) (he : s.bh.pc ≠ .idle → s.Equipped) (hb : s.bh.Indexed s.cfg.nRx)
    (hrdh : s.regs.rdh.toNat < s.cfg.nRx) (hl : s.bh.LengthsOk s.cfg) : (bhMicro d s).Safe := by
  obtain ⟨⟨hn, -⟩, -⟩ := Config.bounds_of_valid hv
  by_cases hp : s.bh.pc = .idle
  · simp only [bhMicro, hp]
    exact Micro.safe_hold
  have he := he hp
  unfold bhMicro
  cases hp : s.bh.pc with
  | idle => exact Micro.safe_hold
  | rxSnap =>
    simp only [rxSnap_index he.map hrdh (hrdh.trans (Config.ring_lt hv).1)]
    exact Micro.safe_done _
  | rxTest => exact rxTest_safe he hn
  | rxAlloc => exact rxAlloc_safe d
  | rxAdv => exact Micro.safe_done _
  | rxDesc => exact rxDesc_safe he hb.tail
  | rxCopy => exact rxCopy_safe he hb.tail (hl.len (by simp [hp]))
  | rxEop => exact rxEop_safe s
  | rxClear => exact (memWrite_safe (he.rxd hb.tail (by decide))).andThen
  | rxWmb => exact barrier_safe _ _
  | rxPub => exact (regWrite_safe he.map (accepts_rdt hv hb.tail)).andThen
  | rxExit => exact Micro.safe_done _

/-! ### TXC[k] (R201 to R213) -/

theorem txLenchk_safe (k : Nat) (c : TxAgent) : (txLenchk k c s).Safe := by
  unfold txLenchk
  split
  · exact Micro.safe_raise (by simp [BlockFault.code, accessCodes])
  · split <;> exact Micro.safe_done _

theorem txLockStep_safe (k : Nat) : (txLockStep k s).Safe := by
  unfold txLockStep
  split
  · exact Micro.safe_done _
  · exact Micro.safe_hold

theorem txCheck_safe {k : Nat} {c : TxAgent} (he : s.Equipped) (ht : c.t < s.cfg.nTx) : (txCheck k c s).Safe := by
  obtain ⟨bs, u, hr⟩ := memRead_of_localRegion (x := .txc k) (he.txd (off := 12) (n := 1) ht (by decide))
  simp only [txCheck, hr]
  split
  · exact Micro.safe_done _
  · split <;> exact Micro.safe_done _

theorem txHeadchk_safe {k : Nat} {c : TxAgent} (hm : Resource.map ∈ s.acquired) (hn : s.regs.tdh.toNat < s.cfg.nTx)
    (h16 : s.regs.tdh.toNat < 2 ^ 16) : (txHeadchk k c s).Safe := by
  by_cases hl : nextIdx s.cfg.nTx c.t = s.regs.tdh.toNat
  · rw [txHeadchk_last hm hn h16 hl]
    exact Micro.safe_done _
  · rw [txHeadchk_taken hm hn h16 hl]
    exact Micro.safe_done _

theorem txCopy_safe {k : Nat} {c : TxAgent} (he : s.Equipped) (ht : c.t < s.cfg.nTx) (hf : c.frame.length ≤ s.cfg.txBufSize) :
    (txCopy k c s).Safe := by
  unfold txCopy
  split
  · exact Micro.safe_done _
  · exact (memWrite_safe (he.txbuf ht hf)).andThen

/-- A transmit call accesses only registers it may and its own slot; what it may raise is a call while the block is not attached (R201). -/
theorem txMicro_safe (k : Nat) (hv : s.cfg.valid = true) (hg : s.regs.Indexed s.cfg)
    (h : ∀ c ∈ s.txc, c.t < s.cfg.nTx ∧ c.LengthsOk s.cfg ∧ (c.pc ≠ .idle → c.pc ≠ .lenchk → s.Equipped)) :
    (txMicro k s).Safe := by
  cases hc : s.txc[k]? with
  | none =>
    simp only [txMicro, hc]
    exact Micro.safe_hold
  | some c =>
    obtain ⟨-, ⟨hn, -⟩, -⟩ := Config.bounds_of_valid hv
    have h16 := (Config.ring_lt hv).2
    obtain ⟨ht, ⟨hframe, hlen⟩, hequip⟩ := h c (List.mem_of_getElem? hc)
    simp only [txMicro, hc]
    by_cases hearly : c.pc = .idle ∨ c.pc = .lenchk
    · obtain hp | hp := hearly <;> simp only [hp]
      · exact Micro.safe_hold
      · exact txLenchk_safe k c
    obtain ⟨hidle, hlenchk⟩ := not_or.1 hearly
    have he := hequip hidle hlenchk
    cases hp : c.pc with
    | idle => exact absurd hp hidle
    | lenchk => exact absurd hp hlenchk
    | lock => exact txLockStep_safe k
    | readtail =>
      simp only [txReadtail_index he.map hg.tdt (hg.tdt.trans h16)]
      exact Micro.safe_done _
    | check => exact txCheck_safe he ht
    | headchk => exact txHeadchk_safe he.map hg.tdh (hg.tdh.trans h16)
    | clrstat => exact (memWrite_safe (he.txd ht (by decide))).andThen
    | cmd => exact (memWrite_safe (he.txd ht (by decide))).andThen
    | len => exact (memWrite_safe (he.txd ht (by simp [descSize]))).andThen
    | copy =>
      have hbuf : c.frame.length ≤ s.cfg.txBufSize := (hframe hidle).trans_le ((hlen hidle hlenchk).trans (min_le_right _ _))
      exact txCopy_safe he ht hbuf
    | wmb => exact barrier_safe _ _
    | pub => exact (regWrite_safe he.map (accepts_tdt hv (nextIdx_lt hn _))).andThen
    | unlock => exact Micro.safe_done _

/-! ### HOST (R310, R320) -/

theorem hostWrite_safe {r : RegName} {v : Word} {pc : HostPc} (hm : Resource.map ∈ s.acquired) (ha : r.accepts s.cfg v) :
    (hostWrite r v pc s).Safe := (regWrite_safe hm ha).andThen

theorem hostAlloc_safe (k : RegionKind) (pc : HostPc) (d : Draws) : (hostAlloc k pc d s).Safe := by
  unfold hostAlloc
  dsimp only
  split
  · exact Micro.safe_done _
  · split
    · exact Micro.safe_done _
    · exact Micro.safe_hold

theorem aPoll_safe (hm : Resource.map ∈ s.acquired) : (aPoll s).Safe := by
  obtain ⟨t, ht⟩ := aPoll_completes hm
  exact ht ▸ Micro.safe_done t

/-- A descriptor image fills its region (R312). -/
theorem State.Equipped.image (he : s.Equipped) :
    s.localRegion s.regions.rxdesc.loc s.imageRx.length ≠ none ∧ s.localRegion s.regions.txdesc.loc s.imageTx.length ≠ none := by
  rw [State.imageRx_length, State.imageTx_length]
  exact ⟨State.localRegion_ne_none_iff.2 ⟨.rxdesc, he.live _, le_refl _, le_refl _⟩,
    State.localRegion_ne_none_iff.2 ⟨.txdesc, he.live _, le_refl _, le_refl _⟩⟩

/-- HOST's operations access registers only while MAP is held, with values the registers take, and post the images into live regions; what
they may raise is an ATTACH while the block is not detached. -/
theorem hostMicro_safe (d : Draws) (hv : s.cfg.valid = true) (hs : s.resourceInv) (hreg : s.regionInv) : (hostMicro d s).Safe := by
  obtain ⟨-, n, hn, hh⟩ := State.resourceInv_iff.1 hs
  obtain ⟨hrx8, hrx, hrxle, htx8, htx, htxle, -⟩ := (Config.valid_iff_meets _).1 hv
  have map {pc : HostPc} (hp : s.host.pc = pc) (h : ∀ l, ∀ n ∈ pc.holds l, 1 ≤ n) : Resource.map ∈ s.acquired :=
    hh.map_mem (h _ n (hp ▸ hn))
  have equipped {pc : HostPc} (hp : s.host.pc = pc) (h : ∀ l, ∀ n ∈ pc.holds l, 5 ≤ n) : s.Equipped :=
    hh.equipped (h _ n (hp ▸ hn))
  unfold hostMicro
  cases hp : s.host.pc
  case idle => exact Micro.safe_hold
  case aCheck =>
    unfold aCheck
    dsimp only
    split
    · exact Micro.safe_raise (by simp [BlockFault.code, accessCodes])
    · exact Micro.safe_done _
  case aMap | aIrq => dsimp only [aMap, aIrq]; split <;> exact Micro.safe_done _
  case aRstRd | aLinkRd =>
    dsimp only [aRstRd, aLinkRd]
    rw [hostReadCtrl_mapped (map hp (by simp [HostPc.holds]))]
    exact Micro.safe_done _
  case aPoll => exact aPoll_safe (map hp (by simp [HostPc.holds]))
  case aRxdesc | aRxbuf | aTxdesc | aTxbuf => exact hostAlloc_safe _ _ d
  case aInitRx => exact (memWrite_safe (equipped hp (by simp [HostPc.holds])).image.1).andThen
  case aInitTx => exact (memWrite_safe (equipped hp (by simp [HostPc.holds])).image.2).andThen
  case aWmb => exact barrier_safe _ _
  case aRstWr => exact (regWrite_safe (r := .ctrl) (map hp (by simp [HostPc.holds])) trivial).andThen
  case aLinkWr | aRdbah | aTdbah | aIms | dImc => exact hostWrite_safe (map hp (by simp [HostPc.holds])) trivial
  case aRdbal =>
    have he := equipped hp (by simp [HostPc.holds])
    exact hostWrite_safe he.map (baseLowOk_toWord hv (hreg.1 .rxdesc (he.live _)).1)
  case aTdbal =>
    have he := equipped hp (by simp [HostPc.holds])
    exact hostWrite_safe he.map (baseLowOk_toWord hv (hreg.1 .txdesc (he.live _)).1)
  case aRdlen => exact hostWrite_safe (map hp (by simp [HostPc.holds])) (ringLenOk_toWord hrx8 hrx hrxle)
  case aTdlen => exact hostWrite_safe (map hp (by simp [HostPc.holds])) (ringLenOk_toWord htx8 htx htxle)
  case aRdt => exact hostWrite_safe (map hp (by simp [HostPc.holds])) (accepts_rdt hv (by omega))
  case aTdt => exact hostWrite_safe (map hp (by simp [HostPc.holds])) (accepts_tdt (i := 0) hv (by omega))
  case dCheck => dsimp only [dCheck]; split <;> exact Micro.safe_done _
  case dIrqrel | dBhwait | dTxwait =>
    dsimp only [dIrqrel, dBhwait, dTxwait]
    split
    · exact Micro.safe_done _
    · exact Micro.safe_hold
  case aState | aEnable | aDone | aUnwind | aFailed | dQuiesce | dBh | dAcc | dRel | dDone => exact Micro.safe_done _

/-! ### HOST's stand-alone words (R251, R256) -/

theorem regAt_error {off : Nat} {d : Dir} (h : regAt off d s = .error f) : f.code = .regUnmapped ∨ f.code = .regBad := by
  unfold regAt at h
  split at h
  · cases h; exact .inl rfl
  · split at h
    · cases h; exact .inr rfl
    · split at h <;> cases h
      exact .inr rfl

theorem regRead_error {off : Nat} (h : regRead x off s = .error f) : f.code ∈ wordCodes := by
  unfold regRead at h
  split at h
  · rename_i hr
    cases h
    obtain e | e := regAt_error hr <;> simp [e, wordCodes]
  · cases h; simp [BlockFault.code, wordCodes]
  · cases h
  · cases h

theorem regWriteCheck_error {off : Nat} {v : Word} (h : regWriteCheck off v s = .error f) : f.code ∈ wordCodes := by
  unfold regWriteCheck at h
  split at h
  · rename_i hr
    cases h
    obtain e | e := regAt_error hr <;> simp [e, wordCodes]
  · cases h; simp [BlockFault.code, wordCodes]
  · cases h; simp [BlockFault.code, wordCodes]
  · cases h; simp [BlockFault.code, wordCodes]
  · cases h

theorem regRdHost_raise {off : Nat} (h : regRdHost off s = .raise f) : s.host.pc = .idle ∧ f.code ∈ wordCodes := by
  unfold regRdHost at h
  split at h
  · cases h
  · rename_i hp
    refine ⟨by simpa using hp, ?_⟩
    split at h
    · rename_i hr
      cases h
      exact regRead_error hr
    · cases h

/-- A tail that a write leaves as it is passes the range check (R107, R132). -/
theorem Regs.Indexed.accepts_held {r : RegName} (hg : s.regs.Indexed s.cfg) (hv : s.cfg.valid = true) (hr : r = .rdt ∨ r = .tdt) :
    r.accepts s.cfg (s.regValue r) := by
  obtain ⟨hrx, htx⟩ := Config.ring_lt hv
  obtain rfl | rfl := hr
  · exact ⟨hg.rdt, hg.rdt.trans hrx⟩
  · exact ⟨hg.tdt, hg.tdt.trans htx⟩

/-- A write past the checks of R250 and R261: the tails are held to their values, so that no index is out of its ring. -/
theorem regStore_raise {r : RegName} {off : Nat} {v : Word} (hg : s.regs.Indexed s.cfg) (hv : s.cfg.valid = true)
    (hheld : r.isGeometry = true → v = s.regValue r) (h : regStore x r off v s = .raise f) : f.code ∈ wordCodes := by
  by_cases ha : r.accepts s.cfg v
  · simp only [regStore, regEffect_of_accepts ha] at h
    cases h
  cases r with
  | ctrl | ims | imc | rdbah | tdbah => exact absurd trivial ha
  | icr | rdh | tdh => cases h; simp [BlockFault.code, wordCodes]
  | rdt => exact absurd (hheld rfl ▸ hg.accepts_held hv (.inl rfl)) ha
  | tdt => exact absurd (hheld rfl ▸ hg.accepts_held hv (.inr rfl)) ha
  | rdbal | rdlen | tdbal | tdlen =>
    simp only [regStore, regEffect_of_not_accepts rfl ha] at h
    cases h
    simp [RegName.valueFault, BlockFault.code, wordCodes]

theorem regWrHost_raise {off : Nat} {v : Word} (hg : s.regs.Indexed s.cfg) (hv : s.cfg.valid = true)
    (h : regWrHost off v s = .raise f) : s.host.pc = .idle ∧ f.code ∈ wordCodes := by
  unfold regWrHost at h
  split at h
  · cases h
  · rename_i hp
    simp only [Bool.or_eq_true, not_or, bne_iff_ne, ne_eq, Decidable.not_not] at hp
    refine ⟨hp.1, ?_⟩
    split at h
    · rename_i hc
      cases h
      exact regWriteCheck_error hc
    · split at h
      · cases h
        simp [BlockFault.code, wordCodes]
      · rename_i hgeo
        exact regStore_raise hg hv (fun e => by simpa [e] using hgeo) h

/-! ### Landings, BH_SCHED and DEV (R232, R263, R341) -/

/-- A landing of an entry that lies in a live region (R263). -/
theorem land_safe {pos : Nat} (hs : s.postedLive) : (land x pos s).Safe := by
  unfold land
  split
  · exact Micro.safe_hold
  · split
    · exact Micro.safe_hold
    · rename_i e hpos
      split
      · rename_i hk
        exact absurd hk (hs x e (List.mem_of_getElem? hpos))
      · exact Micro.safe_done _

theorem bhSchedHost_safe (s : State) : (bhSchedHost s).Safe := by
  unfold bhSchedHost
  split
  · exact Micro.safe_hold
  · split
    · exact Micro.safe_raise (by simp [BlockFault.code, accessCodes])
    · exact Micro.safe_done _

/-- DEV's accesses raise F_DMA_AFTER_FREE and nothing else (R281). -/
theorem devRxWb_safe (d : WbDraws) (s : State) : (devRxWb d s).Safe := by
  have after (b : Nat) : (Micro.raise (.dmaAfterFree b)).Safe := Micro.safe_raise (by simp [BlockFault.code, accessCodes])
  unfold devRxWb
  split
  · exact Micro.safe_hold
  · split
    · exact Micro.safe_hold
    · split
      · exact after _
      · dsimp only
        split
        · exact after _
        · exact Micro.safe_done _

theorem devTxXmit_safe (s : State) : (devTxXmit s).Safe := by
  have after (b : Nat) : (Micro.raise (.dmaAfterFree b)).Safe := Micro.safe_raise (by simp [BlockFault.code, accessCodes])
  unfold devTxXmit
  split
  · exact Micro.safe_hold
  · split
    · exact after _
    · dsimp only
      split
      · exact after _
      · exact Micro.safe_done _

/-! ### What can be raised under the invariant (R344) -/

theorem State.coordInv.not_beforeIrq_of_irq (hs : s.coordInv) (hp : s.irq.pc ≠ .idle) : ¬ s.beforeIrq := fun hb => by
  obtain ⟨-, -, hunhooked, -⟩ := State.coordInv_iff.1 hs
  exact hp (hunhooked hb.unhooked).2

theorem State.txInv.not_noTransmit {c : TxAgent} (hs : s.txInv) (hc : c ∈ s.txc) (hidle : c.pc ≠ .idle) (hlen : c.pc ≠ .lenchk) :
    ¬ s.noTransmit := fun hn => by
  obtain ⟨-, -, hquiet⟩ := hs
  exact ((hquiet hn).2 c hc).elim hidle hlen

/-- Under the invariant a fault is none of an access, but for those of HOST's stand-alone words. -/
theorem Raises.code (hv : s.cfg.valid = true) (hs : s.engineInv) (h : Raises s x f) :
    f.code ∉ accessCodes ∨ (f.code ∈ wordCodes ∧ x = .host ∧ s.host.pc = .idle) := by
  obtain ⟨hco, htx, ⟨hres, -⟩, hreg, hidx, hlen, -, hlive⟩ := hs
  obtain ⟨hbh, hts, hg, -⟩ := State.indexInv_iff.1 hidx
  obtain ⟨hbl, -, htl, -⟩ := State.lengthInv_iff.1 hlen
  cases h with
  | irq h =>
    exact .inl (irqMicro_safe (fun hp => hres.equipped_of_not_beforeIrq (hco.not_beforeIrq_of_irq hp)) f h)
  | sched h => exact .inl (bhSchedHost_safe s f h)
  | bh d c h =>
    have he (hp : s.bh.pc ≠ .idle) : s.Equipped := hres.equipped_of_not_beforeIrq fun hb => hp (hco.bh_idle hb)
    exact .inl (bhMicro_safe (s := { s with drawCount := c }) d hv (fun hp => ⟨(he hp).map, (he hp).live⟩) hbh hg.rdh hbl f h)
  | tx k h =>
    refine .inl (txMicro_safe k hv hg (fun c hc => ⟨hts c hc, htl c hc, fun hidle hlenchk => ?_⟩) f h)
    exact hres.equipped_of_not_noTransmit (htx.not_noTransmit hc hidle hlenchk)
  | regRd off h =>
    obtain ⟨hp, hc⟩ := regRdHost_raise h
    exact .inr ⟨hc, rfl, hp⟩
  | regWr off v h =>
    obtain ⟨hp, hc⟩ := regWrHost_raise hg hv h
    exact .inr ⟨hc, rfl, hp⟩
  | land y pos h => exact .inl (land_safe hlive f h)
  | host d h => exact .inl (hostMicro_safe d hv hres hreg f h)
  | rxWb d h => exact .inl (devRxWb_safe d s f h)
  | xmit h => exact .inl (devTxXmit_safe s f h)

/-- A step records no fault, or is an agent's step once the turn is taken off the schedule. -/
theorem step_appends_or_moves (h : step s = .next t) : s.cfg.valid = true
    ∧ (Appends s.history t.history ∨ ∃ rest y, { s with script := rest }.moves y t) := by
  cases hs : s.script with
  | nil =>
    obtain ⟨hv, ht⟩ := State.configured_next (step_of_nil hs ▸ h)
    obtain rfl := Host.Outcome.next.inj ht
    exact ⟨hv, .inl (.refl _)⟩
  | cons turn rest =>
    obtain ⟨hv, ht⟩ := State.configured_next (step_of_cons hs ▸ h)
    refine ⟨hv, ?_⟩
    cases turn with
    | word cmd oob =>
      cases hd : decode s.cfg.nTxc cmd oob with
      | none =>
        rw [runTurn_word_of_not_decode (s := { s with script := rest }) hd] at ht
        obtain rfl := Host.Outcome.next.inj ht
        exact .inl (.refl _)
      | some i =>
        rw [runTurn_word_of_decode (s := { s with script := rest }) hd] at ht
        exact .inr ⟨rest, _, .inl ⟨i, rfl, ht⟩⟩
    | micro y d => exact .inr ⟨rest, y, .inr ⟨d, ht⟩⟩

/-- A step that records a fault is an agent that raises it, with the code it carries (R342, R343). -/
theorem step_raises {c : FaultCode} (h : step s = .next t) (hist : t.history = s.history ++ [.fault c x f]) :
    s.cfg.valid = true ∧ c = f.code ∧ ∃ rest, Raises { s with script := rest } x f := by
  obtain ⟨hv, ha | ⟨rest, y, hm⟩⟩ := step_appends_or_moves h
  · exact absurd hist (ha.ne_fault c x f)
  · obtain hr | ⟨g, hg, rfl⟩ := hm.records_or_raises
    · exact absurd hist (hr.history.ne_fault c x f)
    · obtain ⟨rfl, rfl, rfl⟩ := State.raiseFault_event hist
      exact ⟨hv, rfl, rest, hg⟩

end Sys2Proof.Machine

namespace Sys2Proof.Proofs
open Sys2Proof Sys2Proof.Machine

/-- Settles O8: a step that records a fault is the shared operation, applied to the state before the micro-step, and it stops the agent. -/
theorem faultHasNoOtherEffect : Obligations.FaultHasNoOtherEffect := by
  intro s t x hmove c y f hist
  obtain hr | ⟨g, -, rfl⟩ := hmove.records_or_raises
  · exact absurd hist (hr.history.ne_fault c y f)
  · obtain ⟨rfl, rfl, rfl⟩ := State.raiseFault_event hist
    refine ⟨rfl, rfl, rfl, fun d => mem_insertFault, fun z => State.mem_raiseFault_stopped, fun u hu => ?_⟩
    exact hu.of_stopped (State.mem_raiseFault_stopped.2 (.inl rfl))

/-- Settles O59: each part is kept by every completed micro-step; HOST takes only regions that R47 allows, and gives one back only when no
write is posted. -/
theorem engineInvKept : Obligations.EngineInvKept := fun _ _ hs h =>
  step_keeps hs h (script := fun _ _ hu => hu) (pass := fun _ hu => hu) (refuse := fun _ hu => hu)
    (fault := fun _ _ _ hu => hu) (completes := fun _ _ _ hv hu hc => hc.engineInv hv hu)

/-- Settles O60: a step that records a fault is a micro-step that raises it, and under the invariant each access of an engine is to a mapped
register with a value it takes, or inside a live region. -/
theorem engineFaultsUnreachable : Obligations.EngineFaultsUnreachable := by
  intro s t hs h c x f hist
  obtain ⟨hv, rfl, rest, hr⟩ := step_raises h hist
  obtain hsafe | ⟨hword, hx, hidle⟩ := hr.code (s := { s with script := rest }) hv hs
  · refine ⟨fun e => ?_, fun e => ?_, fun hm => absurd (List.mem_cons_of_mem _ (List.mem_cons_of_mem _ hm)) hsafe⟩ <;>
      exact hsafe (by rw [e]; decide)
  · refine ⟨fun e => ?_, fun e => ?_, fun _ => ⟨hx, hidle⟩⟩ <;> exact absurd (e ▸ hword) (by decide)

end Sys2Proof.Proofs
end

section
/-! The statement of 70_reset_and_hazards.md: what holds of a cold state, and of the reset state. -/

namespace Sys2Proof.Machine

variable {s : State}

/-! ### A cold state meets the invariants its own clauses decide (R324, R380) -/

/-- Where every agent is idle no list of posted writes has an entry. -/
theorem State.agentsIdle.posted (h : s.agentsIdle) (x : Agent) : s.posted x = [] := by
  obtain ⟨-, -, -, -, hhost, hirq, hbh, htx⟩ := h
  cases x with
  | host => exact hhost
  | irq => exact hirq
  | bh => exact hbh
  | txc k =>
    cases hk : s.txc[k]? with
    | none => simp only [State.posted, hk]
    | some c => exact (State.posted_txc hk).trans (htx c (List.mem_of_getElem? hk))
  | dev | memsys => rfl

theorem State.cold.lifeInv (h : s.cold) : s.lifeInv := by
  obtain ⟨hlife, -, ⟨hhost, -⟩, -⟩ := h
  rw [State.lifeInv, hhost]
  exact .inl hlife

theorem State.cold.coordInv (h : s.cold) : s.coordInv := by
  have hlifeInv := h.lifeInv
  obtain ⟨-, -, ⟨-, hirq, hbh, -⟩, -, -, hreg, -, -, hcoord, -⟩ := h
  exact State.coordInv_iff.2 ⟨hlifeInv, by simp [hcoord, hbh], fun _ => ⟨hreg, hirq⟩, fun _ => hcoord⟩

theorem State.cold.txInv (h : s.cold) : s.txInv := by
  have hlifeInv := h.lifeInv
  obtain ⟨-, -, ⟨-, -, -, htx, -⟩, -, -, -, -, hlock, -⟩ := h
  refine ⟨hlifeInv, fun k c hk hc => ?_, fun _ => ⟨hlock, fun c hc => .inl (htx c hc)⟩⟩
  rw [htx c (List.mem_of_getElem? hk)] at hc
  exact absurd hc (by decide)

theorem State.cold.resourceInv (h : s.cold) : s.resourceInv := by
  have hlifeInv := h.lifeInv
  obtain ⟨hlife, hacq, ⟨hhost, -⟩, hdead, -, hreg, -⟩ := h
  refine ⟨hlifeInv, ?_, fun k => by simp [hdead k, hacq], by simp [hreg, hacq]⟩
  rw [State.acquiredOk, hhost]
  exact hacq.trans (if_pos hlife).symm

theorem State.cold.memInv (h : s.cold) : s.memInv := by
  have hresourceInv := h.resourceInv
  obtain ⟨-, -, -, -, hmem, -⟩ := h
  refine ⟨hresourceInv, ?_, ?_⟩ <;> rw [hmem]
  · exact List.Pairwise.nil
  · exact fun p hp => absurd hp List.not_mem_nil

/-- The invariant of the live regions says nothing where no region is live. -/
theorem State.regionInv_of_dead (h : ∀ k, (s.regions.get k).live = false) : s.regionInv :=
  ⟨fun k hk => absurd hk (by simp [h k]), fun k _ _ hk => absurd hk (by simp [h k])⟩

theorem State.cold.regionInv (h : s.cold) : s.regionInv := by
  obtain ⟨-, -, -, hdead, -⟩ := h
  exact State.regionInv_of_dead hdead

theorem State.cold.posted (h : s.cold) (x : Agent) : s.posted x = [] := by
  obtain ⟨-, -, hidle, -⟩ := h
  exact hidle.posted x

theorem State.cold.postedInv (h : s.cold) : s.postedInv :=
  State.postedInv_iff.2 ⟨fun x _ => h.posted x, fun _ => h.posted⟩

theorem State.cold.devInv (h : s.cold) : s.devInv := by
  have hlifeInv := h.lifeInv
  obtain ⟨-, -, -, -, -, -, -, -, -, hrx, htx, hcur, hclaimed, -⟩ := h
  exact ⟨hlifeInv, fun _ => ⟨hrx, htx, hcur, hclaimed⟩⟩

/-- A cold state says nothing of the indices and the lengths, which its registers and working registers decide. -/
theorem State.cold.engineInv (h : s.cold) (hidx : s.indexInv) (hlen : s.lengthInv) : s.engineInv :=
  ⟨h.coordInv, h.txInv, h.memInv, h.regionInv, hidx, hlen, h.postedInv,
    fun x e he => by simp [h.posted x] at he⟩

/-- A run that has recorded nothing agrees with its record (R40, R342). -/
theorem State.recordInv_of_fresh (hfaults : s.faults = []) (hstopped : s.stopped = []) (hhist : s.history = []) : s.recordInv := by
  simp [State.recordInv, hfaults, hstopped, hhist]

/-! ### The reset state (R381, log entries 6 and 7) -/

/-- Every caller of the reset state is the idle one. -/
theorem reset_caller {c : TxAgent} (hc : c ∈ State.reset.txc) : c = TxAgent.reset := List.eq_of_mem_replicate hc

theorem reset_safe : State.reset.safe := ⟨rfl, rfl⟩

theorem reset_agentsIdle : State.reset.agentsIdle :=
  ⟨rfl, rfl, rfl, fun _ hc => reset_caller hc ▸ rfl, rfl, rfl, rfl, fun _ hc => reset_caller hc ▸ rfl⟩

theorem reset_cold : State.reset.cold :=
  ⟨rfl, rfl, reset_agentsIdle, fun k => by cases k <;> rfl, rfl, rfl, rfl, rfl, rfl, rfl, rfl, rfl, rfl, rfl⟩

/-- The ring lengths are 0, no unit of the device uses them, and HOST is in no step of ATTACH. -/
theorem reset_ringLenInv : State.reset.ringLenInv :=
  ⟨.inl rfl, .inl rfl, by decide, by decide, fun _ => rfl, nofun⟩

/-- Every index is 0, and every ring has 8 slots. -/
theorem reset_indexInv : State.reset.indexInv :=
  ⟨by decide, by decide, by decide, fun _ hc => reset_caller hc ▸ by decide, by decide, by decide, by decide, by decide,
    reset_ringLenInv⟩

/-- No frame is held anywhere: no accumulator, no claimed chunk, no call of a caller. -/
theorem reset_lengthInv : State.reset.lengthInv :=
  ⟨nofun, by decide, nofun, fun _ hc => reset_caller hc ▸ ⟨fun h => absurd rfl h, fun h => absurd rfl h⟩, nofun⟩

theorem reset_recordInv : State.reset.recordInv := State.recordInv_of_fresh rfl rfl rfl

end Sys2Proof.Machine

namespace Sys2Proof.Proofs
open Sys2Proof Sys2Proof.Machine

/-- Settles O51: the invariants that a cold state meets follow from its being cold; those of the indices, the lengths and the record are
checked at the values of the reset state. -/
theorem resetMeetsInvariants : Obligations.ResetMeetsInvariants :=
  ⟨reset_safe, reset_cold, reset_cold.coordInv, reset_cold.txInv, reset_cold.memInv,
    reset_cold.regionInv, reset_indexInv, reset_lengthInv, reset_cold.postedInv, reset_cold.devInv,
    reset_recordInv, reset_cold.engineInv reset_indexInv reset_lengthInv⟩

end Sys2Proof.Proofs
end
